-- ==== Sys2Proof/Config.lean ====
section
/-!
DEFINITION. What an implementation of the part fixes beside its state: the capacities the spec states, and the
free value that decides an order which the spec leaves open.
-/

namespace Sys2Proof

/-- FREE VALUE (log 6, 7, 8). The n-th choice among things that the spec lets happen in either order (R14, R53, R131,
R164). It has no body: no proof can know what it picks, so a claim that holds, holds for every choice. -/
opaque Config.pick : Nat → Nat

/-- The commit queue holds at most this many tickets (R42). -/
abbrev Config.queueCapacity : Nat := 8

/-- The record pool has this many slots (R40). -/
abbrev Config.poolSlots : Nat := 16

/-- The reply cache holds at most this many entries (R170). -/
abbrev Config.cacheCapacity : Nat := 4

end Sys2Proof
end

