-- ==== Sys2Proof/Word.lean ====
section
/-!
DEFINITION. The words the part sends and keeps, the names it fixes (timebases, channels, pairs, trip inputs,
route slots, levels), and the plain files indexed by those names. Spec: 00_scope.md, "Conventions".
-/

namespace Sys2Proof

/-- One byte of a frame (R147). -/
abbrev Byte := BitVec 8

/-- A two-byte field: a point, a period, a counter, a trip count, a check value (R184). -/
abbrev Word16 := BitVec 16

/-- The four-byte cycle count (R6, R184). -/
abbrev Word32 := BitVec 32

/-- A set of channels; bit n stands for CHn (R184). -/
abbrev ChannelSet := BitVec 8

/-- A set of pairs; bit n stands for Pn (R184). -/
abbrev PairSet := BitVec 4

/-- A set of notice classes; bit n stands for the class whose code is n (R184). -/
abbrev ClassSet := BitVec 9

/-- The two timebases (01_timebases_and_boundaries.md). -/
inductive Tb
  | a | b
deriving DecidableEq, Repr

/-- The eight channels (00_scope.md, "Channels and pairs"). -/
inductive Chan
  | ch0 | ch1 | ch2 | ch3 | ch4 | ch5 | ch6 | ch7
deriving DecidableEq, Repr

/-- The four fixed pairs (00_scope.md, "Channels and pairs"). -/
inductive Pair
  | p0 | p1 | p2 | p3
deriving DecidableEq, Repr

/-- The four trip inputs (R66). -/
inductive TripName
  | trip0 | trip1 | trip2 | trip3
deriving DecidableEq, Repr

/-- The eight slots of the route table (R77). -/
inductive Slot
  | route0 | route1 | route2 | route3 | route4 | route5 | route6 | route7
deriving DecidableEq, Repr

/-- The level of a pin that the part reads or of a line (R13, R66, R144). -/
inductive Level
  | low | high
deriving DecidableEq, Repr

/-- A logical level (00_scope.md, "Logical and physical levels"). -/
inductive Logic
  | inactive | active
deriving DecidableEq, Repr

/-- How a frame is addressed once it is accepted (R146). -/
inductive Cast
  | addressed | broadcast
deriving DecidableEq, Repr

def Tb.all : List Tb := [.a, .b]

def Chan.all : List Chan := [.ch0, .ch1, .ch2, .ch3, .ch4, .ch5, .ch6, .ch7]

def Pair.all : List Pair := [.p0, .p1, .p2, .p3]

def TripName.all : List TripName := [.trip0, .trip1, .trip2, .trip3]

def Slot.all : List Slot := [.route0, .route1, .route2, .route3, .route4, .route5, .route6, .route7]

/-- One value for each timebase. -/
structure TbFile (α : Type) where
  a : α
  b : α
deriving DecidableEq, Repr

/-- One value for each channel. -/
structure ChanFile (α : Type) where
  ch0 : α
  ch1 : α
  ch2 : α
  ch3 : α
  ch4 : α
  ch5 : α
  ch6 : α
  ch7 : α
deriving DecidableEq, Repr

/-- One value for each pair. -/
structure PairFile (α : Type) where
  p0 : α
  p1 : α
  p2 : α
  p3 : α
deriving DecidableEq, Repr

/-- One value for each trip input. -/
structure TripFile (α : Type) where
  trip0 : α
  trip1 : α
  trip2 : α
  trip3 : α
deriving DecidableEq, Repr

/-- One value for each route slot. -/
structure SlotFile (α : Type) where
  route0 : α
  route1 : α
  route2 : α
  route3 : α
  route4 : α
  route5 : α
  route6 : α
  route7 : α
deriving DecidableEq, Repr

variable {α : Type}

def TbFile.get (f : TbFile α) : Tb → α
  | .a => f.a
  | .b => f.b

def TbFile.ofFn (g : Tb → α) : TbFile α := ⟨g .a, g .b⟩

def TbFile.set (f : TbFile α) (i : Tb) (v : α) : TbFile α :=
  .ofFn fun j => if j = i then v else f.get j

def ChanFile.get (f : ChanFile α) : Chan → α
  | .ch0 => f.ch0
  | .ch1 => f.ch1
  | .ch2 => f.ch2
  | .ch3 => f.ch3
  | .ch4 => f.ch4
  | .ch5 => f.ch5
  | .ch6 => f.ch6
  | .ch7 => f.ch7

def ChanFile.ofFn (g : Chan → α) : ChanFile α :=
  ⟨g .ch0, g .ch1, g .ch2, g .ch3, g .ch4, g .ch5, g .ch6, g .ch7⟩

def ChanFile.set (f : ChanFile α) (i : Chan) (v : α) : ChanFile α :=
  .ofFn fun j => if j = i then v else f.get j

def PairFile.get (f : PairFile α) : Pair → α
  | .p0 => f.p0
  | .p1 => f.p1
  | .p2 => f.p2
  | .p3 => f.p3

def PairFile.ofFn (g : Pair → α) : PairFile α := ⟨g .p0, g .p1, g .p2, g .p3⟩

def PairFile.set (f : PairFile α) (i : Pair) (v : α) : PairFile α :=
  .ofFn fun j => if j = i then v else f.get j

def TripFile.get (f : TripFile α) : TripName → α
  | .trip0 => f.trip0
  | .trip1 => f.trip1
  | .trip2 => f.trip2
  | .trip3 => f.trip3

def TripFile.ofFn (g : TripName → α) : TripFile α := ⟨g .trip0, g .trip1, g .trip2, g .trip3⟩

def TripFile.set (f : TripFile α) (i : TripName) (v : α) : TripFile α :=
  .ofFn fun j => if j = i then v else f.get j

def SlotFile.get (f : SlotFile α) : Slot → α
  | .route0 => f.route0
  | .route1 => f.route1
  | .route2 => f.route2
  | .route3 => f.route3
  | .route4 => f.route4
  | .route5 => f.route5
  | .route6 => f.route6
  | .route7 => f.route7

def SlotFile.ofFn (g : Slot → α) : SlotFile α :=
  ⟨g .route0, g .route1, g .route2, g .route3, g .route4, g .route5, g .route6, g .route7⟩

def SlotFile.set (f : SlotFile α) (i : Slot) (v : α) : SlotFile α :=
  .ofFn fun j => if j = i then v else f.get j

@[simp] theorem TbFile.get_ofFn (g : Tb → α) (i : Tb) : (TbFile.ofFn g).get i = g i := by
  cases i <;> rfl

@[simp] theorem ChanFile.get_ofFn (g : Chan → α) (i : Chan) : (ChanFile.ofFn g).get i = g i := by
  cases i <;> rfl

@[simp] theorem PairFile.get_ofFn (g : Pair → α) (i : Pair) : (PairFile.ofFn g).get i = g i := by
  cases i <;> rfl

@[simp] theorem TripFile.get_ofFn (g : TripName → α) (i : TripName) : (TripFile.ofFn g).get i = g i := by
  cases i <;> rfl

@[simp] theorem SlotFile.get_ofFn (g : Slot → α) (i : Slot) : (SlotFile.ofFn g).get i = g i := by
  cases i <;> rfl

@[simp] theorem TbFile.get_set (f : TbFile α) (i j : Tb) (v : α) :
    (f.set i v).get j = if j = i then v else f.get j := by simp [TbFile.set]

@[simp] theorem ChanFile.get_set (f : ChanFile α) (i j : Chan) (v : α) :
    (f.set i v).get j = if j = i then v else f.get j := by simp [ChanFile.set]

@[simp] theorem PairFile.get_set (f : PairFile α) (i j : Pair) (v : α) :
    (f.set i v).get j = if j = i then v else f.get j := by simp [PairFile.set]

@[simp] theorem TripFile.get_set (f : TripFile α) (i j : TripName) (v : α) :
    (f.set i v).get j = if j = i then v else f.get j := by simp [TripFile.set]

@[simp] theorem SlotFile.get_set (f : SlotFile α) (i j : Slot) (v : α) :
    (f.set i v).get j = if j = i then v else f.get j := by simp [SlotFile.set]

end Sys2Proof
end

