-- ==== Sys2Proof/Syntax.lean ====
section
/-!
DEFINITION. The commands the part takes: one constructor for each row of spec/opcode_table.json, in the table's order.
A request row carries its header and payload bytes; an event row carries what the pin, line or timer brings (log 1, 2, 3).
-/

namespace Sys2Proof

/-- How a request frame is addressed, and its tag (R147, R153). The address byte itself follows: the node address of the
part for an addressed request, 31 for a broadcast. -/
structure Header where
  cast : Cast
  tag : Byte
deriving DecidableEq, Repr

/-- The input contacts at one instant: straps ADDR4..ADDR0, RATE1 and RATE0, and the levels of LINE, SYNC IN and the trip
inputs (00_scope.md, "Contacts of the part"). -/
structure Contacts where
  address : BitVec 5
  rate : BitVec 2
  line : Level
  syncIn : Level
  trip : TripFile Level
deriving DecidableEq, Repr

inductive Instr
  | identify (h : Header) (args : List Byte)
  | readStatus (h : Header) (args : List Byte)
  | setLink (h : Header) (args : List Byte)
  | resetController (h : Header) (args : List Byte)
  | startTimebase (h : Header) (args : List Byte)
  /-- STOP TIMEBASE with mode IMMEDIATE; the operand is the timebase byte. -/
  | stopTimebaseImmediate (h : Header) (timebase : Byte)
  /-- STOP TIMEBASE with mode AT_BOUNDARY; the operand is the timebase byte. -/
  | stopTimebaseAtBoundary (h : Header) (timebase : Byte)
  | readTimebase (h : Header) (args : List Byte)
  | configureSync (h : Header) (args : List Byte)
  | stageChannel (h : Header) (args : List Byte)
  | stagePair (h : Header) (args : List Byte)
  | stageTimebase (h : Header) (args : List Byte)
  | readChannel (h : Header) (args : List Byte)
  | readPair (h : Header) (args : List Byte)
  | issueTicket (h : Header) (args : List Byte)
  /-- CANCEL TICKET in its by-id form; the operand is the id byte. -/
  | cancelTicketById (h : Header) (id : Byte)
  /-- CANCEL TICKET in its all form; the operand is the timebase byte. -/
  | cancelTicketAll (h : Header) (timebase : Byte)
  | listTickets (h : Header) (args : List Byte)
  | setOverride (h : Header) (args : List Byte)
  | enableOutputs (h : Header) (args : List Byte)
  /-- DISABLE OUTPUTS with mode IMMEDIATE. -/
  | disableOutputsImmediate (h : Header)
  /-- DISABLE OUTPUTS with mode GRACEFUL. -/
  | disableOutputsGraceful (h : Header)
  | readOutputs (h : Header) (args : List Byte)
  | configureTripInput (h : Header) (args : List Byte)
  | defineRoute (h : Header) (args : List Byte)
  | removeRoute (h : Header) (args : List Byte)
  | clearTrip (h : Header) (args : List Byte)
  /-- READ TRIPS; `raw` is the level of each trip pin at the instant the request is executed (R74, log 18). -/
  | readTrips (h : Header) (args : List Byte) (raw : TripFile Level)
  | freezeProtection (h : Header) (args : List Byte)
  | fetchNotices (h : Header) (args : List Byte)
  | ackNotices (h : Header) (args : List Byte)
  | setAttentionMask (h : Header) (args : List Byte)
  /-- An addressed frame whose kind code names no request kind. -/
  | unknownKind (tag kind : Byte) (args : List Byte)
  /-- An addressed frame sent again unchanged. -/
  | retransmission (tag kind : Byte) (args : List Byte)
  /-- A broadcast frame of a kind outside the broadcast list. -/
  | broadcastKind (tag kind : Byte) (args : List Byte)
  | checkFail
  | frameForAnotherNode
  | tooLong
  | framing
  | gap
  | turnaround
  | completion
  /-- BREAK: the line has been low for 20 bit times. -/
  | lineBreak
  | powerOnReset
  /-- RST is high again; the operand is what the input contacts show at that instant. -/
  | endOfPowerOnReset (pins : Contacts)
  | tick (x : Tb)
  /-- The deadline of the pending ticket with this id runs out. -/
  | expired (id : Byte)
  | syncOutPulseEnd
  | qualifiedSyncInEdge
  | inputAsserted (i : TripName)
  | inputQuiet (i : TripName)
  | deadtimeClockTick (p : Pair)
  | deadtimeDelayEnd (c : Chan)
  /-- The level is that of the SYNC IN pin. -/
  | syncInSample (level : Level)
  /-- The level is that of the trip pin. -/
  | tripInputSample (i : TripName) (level : Level)
  | lineFallingEdge
  | startBitConfirmed
  | byteArrival (byte : Byte)
  | lineRisingEdge
  | lineHighForOneBitTime
deriving DecidableEq, Repr

end Sys2Proof
end

