-- ==== Sys2Proof/Machine/State.lean ====
section
/-!
DEFINITION. The state of the part, block by block as 00_scope.md lists the blocks, as plain data; what each value is after
power-on reset; and one named update for each block.
-/

namespace Sys2Proof.Machine

/-! ## Timebase Unit (01_timebases_and_boundaries.md) -/

/-- Counting shape (R1). -/
inductive Alignment
  | edge | center
deriving DecidableEq, Repr

/-- Core periods per tick (R1). -/
inductive Prescale
  | by1 | by2 | by4 | by8 | by16 | by32 | by64 | by128
deriving DecidableEq, Repr

/-- The timebase record (R1). -/
structure TimebaseRecord where
  period : Word16
  alignment : Alignment
  prescale : Prescale
  syncRestart : Bool
deriving DecidableEq, Repr

/-- The states of a timebase (R7). -/
inductive TimebaseState
  | stopped | waitSync | running | stopping
deriving DecidableEq, Repr

/-- Counting direction (R4). -/
inductive Direction
  | up | down
deriving DecidableEq, Repr

/-- One timebase: state (R7), counter and direction (R3, R4), cycle count (R6), active record (R1), and the tick timer
in core periods (R2). -/
structure Timebase where
  state : TimebaseState
  counter : Word16
  direction : Direction
  cycles : Word32
  active : TimebaseRecord
  tickTimer : Nat
deriving DecidableEq, Repr

/-- Which timebase drives SYNC OUT (R16). -/
inductive SyncSource
  | a | b | none
deriving DecidableEq, Repr

/-- Which edge of SYNC IN counts (R16). -/
inductive SyncEdge
  | rising | falling
deriving DecidableEq, Repr

/-- The synchronisation configuration (R16), the SYNC IN filter (R13), and the SYNC OUT pulse as core periods since the
START boundary that raised it (R15); none while SYNC OUT is low. -/
structure SyncUnit where
  source : SyncSource
  edge : SyncEdge
  filtered : Level
  agreement : Nat
  pulse : Option Nat
deriving DecidableEq, Repr

/-! ## Pattern Unit (02_channels_pairs_and_pattern_levels.md) -/

/-- The channel record (R19). -/
structure ChannelRecord where
  onPoint : Word16
  offPoint : Word16
  invert : Bool
  mask : Bool
deriving DecidableEq, Repr

/-- Whether the members of a pair run independently or as complements (R20). -/
inductive PairMode
  | independent | complementary
deriving DecidableEq, Repr

/-- The pair record (R20). -/
structure PairRecord where
  mode : PairMode
  timebase : Tb
  deadtimeEven : BitVec 10
  deadtimeOdd : BitVec 10
deriving DecidableEq, Repr

/-- The active channel and pair records (R19, R20) and the present source and pattern levels (R21). -/
structure PatternUnit where
  channels : ChanFile ChannelRecord
  pairs : PairFile PairRecord
  source : ChanFile Logic
  level : ChanFile Logic
deriving DecidableEq, Repr

/-! ## Commit Unit (03_staging_and_the_commit_queue.md) -/

/-- What must happen before a ticket is ready (R41). -/
inductive Condition
  | after (k : Byte)
  | sync
deriving DecidableEq, Repr

/-- Which boundaries a ticket responds to (R41). -/
inductive BoundaryKind
  | startOnly | any
deriving DecidableEq, Repr

/-- A ticket (R41). Its snapshots are the record-pool slots it holds (R40, log 14). -/
structure Ticket where
  id : Byte
  timebase : Tb
  condition : Condition
  remaining : Byte
  deadline : Option Byte
  syncSeen : Bool
  boundaryKind : BoundaryKind
  channels : List (Chan × ChannelRecord)
  pairs : List (Pair × PairRecord)
  record : Option TimebaseRecord
deriving DecidableEq, Repr

/-- The staged records (R35), the commit queue, oldest first (R42), and the next-id value (R43). -/
structure CommitUnit where
  channels : ChanFile ChannelRecord
  pairs : PairFile PairRecord
  timebases : TbFile TimebaseRecord
  queue : List Ticket
  nextId : Byte
deriving DecidableEq, Repr

/-! ## Trip Unit (04_trip_inputs_and_qualification.md, 05_trip_routes_and_clearing.md) -/

/-- What the filter takes an input for (R68). -/
inductive Filtered
  | quiet | asserted
deriving DecidableEq, Repr

/-- The configuration of a trip input: sample_interval 1..256 core periods, qualify 1..16 samples (R66). -/
structure TripConfig where
  level : Level
  interval : Nat
  qualify : Nat
deriving DecidableEq, Repr

/-- One trip input: configuration (R66), filter (R68) and sample timer in core periods (R67). -/
structure TripInput where
  config : TripConfig
  filtered : Filtered
  agreement : Nat
  timer : Nat
deriving DecidableEq, Repr

/-- What the Output Stage does with a held channel (R77). -/
inductive Action
  | float | safe | hold
deriving DecidableEq, Repr

/-- What starts a release (R77). -/
inductive Clearing
  | auto | latched
deriving DecidableEq, Repr

/-- Where a route stands (R78). -/
inductive RouteState
  | armed | tripped | releasing
deriving DecidableEq, Repr

/-- A defined route (R77). -/
structure Route where
  input : TripName
  channels : ChannelSet
  action : Action
  clearing : Clearing
  state : RouteState
  held : ChannelSet
  count : Word16
deriving DecidableEq, Repr

/-- The trip inputs, the route table (none: an undefined slot, R77) and the protection freeze flag (R98). -/
structure TripUnit where
  inputs : TripFile TripInput
  routes : SlotFile (Option Route)
  frozen : Bool
deriving DecidableEq, Repr

/-! ## Output Stage (06_the_output_stage.md) -/

/-- The output enable state (R103). -/
inductive Enable
  | disabled | enabled | draining
deriving DecidableEq, Repr

/-- A selected or logical output level (R117, R118). -/
inductive OutLevel
  | inactive | active | float
deriving DecidableEq, Repr

/-- The state of a pad (R121). -/
inductive PadLevel
  | low | high | float
deriving DecidableEq, Repr

/-- The override of one member of an INDEPENDENT pair (R111). -/
inductive MemberForce
  | none | forceActive | forceInactive
deriving DecidableEq, Repr

/-- The override of a COMPLEMENTARY pair (R111). -/
inductive PairForce
  | none | evenActive | oddActive | bothInactive
deriving DecidableEq, Repr

/-- The override entry of a pair, in the form of its mode (R111). -/
inductive OverrideEntry
  | independent (even odd : MemberForce)
  | complementary (value : PairForce)
deriving DecidableEq, Repr

/-- One output: hold level (R115), selected level (R117), logical output level (R118), and the ticks counted by the
deadtime delay in progress, none when no rise waits (R119). -/
structure OutChannel where
  hold : Logic
  selected : OutLevel
  output : OutLevel
  delay : Option Nat
deriving DecidableEq, Repr

/-- The Output Stage: enable state and drained set (R103), the outputs, the override entries (R111), and for each pair the
core periods its deadtime clock has counted (R120, log 12). -/
structure OutputStage where
  enable : Enable
  drained : ChannelSet
  channels : ChanFile OutChannel
  overrides : PairFile OverrideEntry
  clocks : PairFile Nat
deriving DecidableEq, Repr

/-! ## Notice Unit (07_notices_and_the_attention_line.md) -/

/-- A class and one of its sources: the 27 pairs of R125. -/
inductive NoticeKey
  | trip (route : Slot)
  | rearm (route : Slot)
  | applied (timebase : Tb)
  | expired (timebase : Tb)
  | cancelled (timebase : Tb)
  | timebase (timebase : Tb)
  | outputs
  | link
  | reset
deriving DecidableEq, Repr

/-- Cause of a TRIP notice (R86). -/
inductive TripCause
  | input | definedWhileAsserted | retrip | repost
deriving DecidableEq, Repr

/-- Cause of a REARM notice (R93). -/
inductive RearmCause
  | auto | cleared
deriving DecidableEq, Repr

/-- Kind of a stop event, the cause of a CANCELLED notice (R11, R53, R62). -/
inductive StopKind
  | immediate | atBoundary
deriving DecidableEq, Repr

/-- Cause of a TIMEBASE notice (R7). -/
inductive TimebaseCause
  | syncStart | stoppedAtBoundary
deriving DecidableEq, Repr

/-- Reason of a LINK notice (R125, R186). -/
inductive LinkReason
  | checkFail | framing | gap | tooLong | lineBreak | broadcastRefused | broadcastKind
deriving DecidableEq, Repr

/-- Cause of a RESET notice (R125). -/
inductive ResetCause
  | powerOn | controller
deriving DecidableEq, Repr

/-- The detail of a notice, by class (R125). -/
inductive Detail
  | trip (input : TripName) (count : Word16) (cause : TripCause)
  | rearm (cause : RearmCause)
  | applied (id : Byte) (cycles : Word32) (discarded : Nat)
  | expired (id : Byte)
  | cancelled (count : Nat) (kind : StopKind)
  | timebase (state : TimebaseState) (cause : TimebaseCause)
  | outputs
  | link (reason : LinkReason)
  | reset (cause : ResetCause) (strapFault : Bool)
deriving DecidableEq, Repr

/-- A notice (R126); it is unfetched when its token is absent. -/
structure Notice where
  key : NoticeKey
  count : Byte
  first : Detail
  last : Detail
  token : Option Byte
deriving DecidableEq, Repr

/-- An event a block hands to the Notice Unit (R128). -/
structure Posting where
  key : NoticeKey
  detail : Detail
deriving DecidableEq, Repr

/-- The notice queue, head first (R127), the token the next fetch stamps (R132), and the attention mask (R137). -/
structure NoticeUnit where
  queue : List Notice
  nextToken : Byte
  mask : ClassSet
deriving DecidableEq, Repr

/-! ## Link Interface (08_the_message_link.md) and Request Dispatcher (09_requests_and_replies.md) -/

/-- The four line rates (R145). -/
inductive Rate
  | r115200 | r460800 | r1000000 | r2000000
deriving DecidableEq, Repr

/-- The link settings: turnaround 1..15 and gap limit 2..15 byte times (R145). -/
structure LinkSettings where
  rate : Rate
  turnaround : Byte
  gapLimit : Byte
deriving DecidableEq, Repr

/-- An action a reply carries for its completion (R154). -/
inductive PendingAction
  | settings (s : LinkSettings)
  | controllerReset
deriving DecidableEq, Repr

/-- A reply the transmitter holds: the complete frame and its pending action (R154). -/
structure Reply where
  frame : List Byte
  action : Option PendingAction
deriving DecidableEq, Repr

/-- The transmitter (R154, R155); times are core periods since it entered the state. In TURNAROUND it keeps the turnaround
setting that governs the reply. -/
inductive Transmitter
  | idle
  | turnaround (reply : Reply) (elapsed : Nat) (wait : Byte)
  | sending (reply : Reply) (elapsed : Nat)
deriving DecidableEq, Repr

/-- The fields of a frame up to its length (R147). -/
structure FrameHead where
  address : Byte
  tag : Byte
  kind : Byte
  length : Byte
deriving DecidableEq, Repr

/-- The receiver (R149): HUNT; HEADER, by the field it waits for; PAYLOAD with the bytes taken; CHECK before and after the
first check byte. -/
inductive Receiver
  | hunt
  | headerAddress
  | headerTag (address : Byte)
  | headerKind (address tag : Byte)
  | headerLength (address tag kind : Byte)
  | payload (head : FrameHead) (taken : List Byte)
  | checkHigh (head : FrameHead) (payload : List Byte)
  | checkLow (head : FrameHead) (payload : List Byte) (high : Byte)
deriving DecidableEq, Repr

/-- The bit receiver (R144); times are core periods: none in progress, half a bit time to the check of the start bit, or
sampling with the bits taken so far (the ninth sample is the stop bit). -/
inductive BitReceiver
  | waiting
  | edge (elapsed : Nat)
  | sampling (taken : Nat) (bits : Byte) (elapsed : Nat)
deriving DecidableEq, Repr

/-- The Link Interface: settings and strap rate (R145), node address and strap_fault (R146), receiver (R149), bit receiver
(R144), gap timer (R151), transmitter (R154), the wait for the line to be high for one bit time (R157, R181), the time the
line has been continuously low (R156), and whether the break of this low period is detected (R156). Times are core
periods; none is a timer that does not run. -/
structure LinkInterface where
  settings : LinkSettings
  strapRate : Rate
  nodeAddress : Byte
  strapFault : Bool
  receiver : Receiver
  bits : BitReceiver
  gapTimer : Option Nat
  transmitter : Transmitter
  highWait : Option Nat
  lowTime : Option Nat
  breakSeen : Bool
deriving DecidableEq, Repr

/-- An entry of the reply cache (R170). -/
structure CacheEntry where
  tag : Byte
  check : Word16
  frame : List Byte
deriving DecidableEq, Repr

/-! ## The whole part -/

/-- The state of the part. `pins` are the levels on its input contacts and `inReset` is RST held low (R179). `free` is the
model's own counter of free choices (log 9) and `pending` the model's queue of commands that wait (log 5). -/
structure State where
  link : LinkInterface
  cache : List CacheEntry
  timebases : TbFile Timebase
  sync : SyncUnit
  pattern : PatternUnit
  commit : CommitUnit
  trip : TripUnit
  output : OutputStage
  notices : NoticeUnit
  pins : Contacts
  inReset : Bool
  free : Nat
  pending : List Instr
deriving DecidableEq, Repr

/-- Why the part stops. The manual names no behaviour that stops it: every faulty request draws a status (R166) and every
broken frame a notice (R162), so there is no constructor. -/
inductive Fault
deriving DecidableEq, Repr

/-- Why a command has no meaning. -/
inductive Refusal
  /-- Raised by an arm of exec whose row has no meaning yet; no arm raises it now. Safe: the machine stops. -/
  | notModelled (mnemonic : String)
deriving DecidableEq, Repr

/-! ## Values after power-on reset -/

/-- The default timebase record (R1). -/
def TimebaseRecord.default : TimebaseRecord :=
  { period := 4000, alignment := .edge, prescale := .by1, syncRestart := false }

/-- The default channel record (R19). -/
def ChannelRecord.default : ChannelRecord :=
  { onPoint := 0, offPoint := 0, invert := false, mask := false }

/-- The default pair record (R20). -/
def PairRecord.default : PairRecord :=
  { mode := .independent, timebase := .a, deadtimeEven := 0, deadtimeOdd := 0 }

/-- A timebase after power-on reset and after controller reset (R1, R6, R7). -/
def Timebase.default : Timebase :=
  { state := .stopped, counter := 0, direction := .up, cycles := 0, active := .default, tickTimer := 0 }

/-- Records and levels after power-on reset and after controller reset (R33). -/
def PatternUnit.default : PatternUnit :=
  { channels := .ofFn fun _ => .default
    pairs := .ofFn fun _ => .default
    source := .ofFn fun _ => .inactive
    level := .ofFn fun _ => .inactive }

/-- The Commit Unit after power-on reset and after controller reset (R65). -/
def CommitUnit.default : CommitUnit :=
  { channels := .ofFn fun _ => .default
    pairs := .ofFn fun _ => .default
    timebases := .ofFn fun _ => .default
    queue := []
    nextId := 1 }

/-- A trip input after power-on reset (R66, R68, R75). -/
def TripInput.default : TripInput :=
  { config := { level := .high, interval := 4, qualify := 4 }, filtered := .quiet, agreement := 0, timer := 0 }

/-- The Trip Unit after power-on reset (R66, R68, R79). -/
def TripUnit.default : TripUnit :=
  { inputs := .ofFn fun _ => .default, routes := .ofFn fun _ => none, frozen := false }

/-- An output after power-on reset and after controller reset (R123, R124). -/
def OutChannel.default : OutChannel :=
  { hold := .inactive, selected := .float, output := .float, delay := none }

/-- The Output Stage after power-on reset and after controller reset (R123, R124). -/
def OutputStage.default : OutputStage :=
  { enable := .disabled
    drained := 0
    channels := .ofFn fun _ => .default
    overrides := .ofFn fun _ => .independent .none .none
    clocks := .ofFn fun _ => 0 }

/-- All nine notice classes (R137). -/
def allClasses : ClassSet := 0x1FF

/-- Levels on the contacts that State.reset takes: node 7, strap rate 1 000 000 bit/s, an idle line, the other inputs LOW
(DESIGN CHOICE, log 10: the board gives them). -/
def assumedContacts : Contacts :=
  { address := 7, rate := 2, line := .high, syncIn := .low, trip := .ofFn fun _ => .low }

/-- The part right after power-on reset (R180), with the contacts of `assumedContacts` (log 10). -/
def State.reset : State :=
  { link :=
      { settings := { rate := .r1000000, turnaround := 2, gapLimit := 4 }
        strapRate := .r1000000
        nodeAddress := 7
        strapFault := false
        receiver := .hunt
        bits := .waiting
        gapTimer := none
        transmitter := .idle
        highWait := some 0
        lowTime := none
        breakSeen := false }
    cache := []
    timebases := .ofFn fun _ => .default
    sync := { source := .a, edge := .rising, filtered := .low, agreement := 0, pulse := none }
    pattern := .default
    commit := .default
    trip := .default
    output := .default
    notices :=
      { queue := [{ key := .reset, count := 1, first := .reset .powerOn false, last := .reset .powerOn false, token := none }]
        nextToken := 1
        mask := allClasses }
    pins := assumedContacts
    inReset := false
    free := 0
    pending := [] }

/-! ## One named update for each field -/

def State.withLink (s : State) (v : LinkInterface) : State := { s with link := v }
def State.withCache (s : State) (v : List CacheEntry) : State := { s with cache := v }
def State.withTimebases (s : State) (v : TbFile Timebase) : State := { s with timebases := v }
def State.withSync (s : State) (v : SyncUnit) : State := { s with sync := v }
def State.withPattern (s : State) (v : PatternUnit) : State := { s with pattern := v }
def State.withCommit (s : State) (v : CommitUnit) : State := { s with commit := v }
def State.withTrip (s : State) (v : TripUnit) : State := { s with trip := v }
def State.withOutput (s : State) (v : OutputStage) : State := { s with output := v }
def State.withNotices (s : State) (v : NoticeUnit) : State := { s with notices := v }
def State.withPins (s : State) (v : Contacts) : State := { s with pins := v }
def State.withInReset (s : State) (v : Bool) : State := { s with inReset := v }
def State.withFree (s : State) (v : Nat) : State := { s with free := v }
def State.withPending (s : State) (v : List Instr) : State := { s with pending := v }

end Sys2Proof.Machine
end

