-- ==== Sys2Proof/Machine/Ops.lean ====
section
/-!
DEFINITION. The operations that several commands share: geometry of channels and pairs, sets, free choices, posting notices
(R128 to R130), pattern levels (R21 to R29), held sets and hold levels (R80, R114, R115), and the choice and delay of each
output's level (R117 to R119).
-/

namespace Sys2Proof.Machine

/-! ## Channels, pairs and sets -/

/-- Bit number of a channel in a set (R184). -/
def chanIndex : Chan → Nat
  | .ch0 => 0
  | .ch1 => 1
  | .ch2 => 2
  | .ch3 => 3
  | .ch4 => 4
  | .ch5 => 5
  | .ch6 => 6
  | .ch7 => 7

/-- Bit number of a pair in a set (R184). -/
def pairIndex : Pair → Nat
  | .p0 => 0
  | .p1 => 1
  | .p2 => 2
  | .p3 => 3

/-- The pair a channel belongs to (00_scope.md, "Channels and pairs"). -/
def pairOf : Chan → Pair
  | .ch0 | .ch1 => .p0
  | .ch2 | .ch3 => .p1
  | .ch4 | .ch5 => .p2
  | .ch6 | .ch7 => .p3

/-- The other member of a channel's pair. -/
def partner : Chan → Chan
  | .ch0 => .ch1
  | .ch1 => .ch0
  | .ch2 => .ch3
  | .ch3 => .ch2
  | .ch4 => .ch5
  | .ch5 => .ch4
  | .ch6 => .ch7
  | .ch7 => .ch6

/-- Whether a channel is the primary (even) member of its pair. -/
def isPrimary : Chan → Bool
  | .ch0 | .ch2 | .ch4 | .ch6 => true
  | .ch1 | .ch3 | .ch5 | .ch7 => false

/-- The primary member of a pair. -/
def primaryOf : Pair → Chan
  | .p0 => .ch0
  | .p1 => .ch2
  | .p2 => .ch4
  | .p3 => .ch6

/-- The secondary member of a pair. -/
def secondaryOf : Pair → Chan
  | .p0 => .ch1
  | .p1 => .ch3
  | .p2 => .ch5
  | .p3 => .ch7

/-- Membership of a channel in a set (R184). -/
def inSet (set : ChannelSet) (c : Chan) : Bool := set.getLsbD (chanIndex c)

/-- Membership of a pair in a set (R184). -/
def inPairSet (set : PairSet) (p : Pair) : Bool := set.getLsbD (pairIndex p)

/-- The set of the channels that meet a condition. -/
def setOf (f : Chan → Bool) : ChannelSet :=
  BitVec.ofBoolListLE [f .ch0, f .ch1, f .ch2, f .ch3, f .ch4, f .ch5, f .ch6, f .ch7]

/-- The set without the members of `out`. -/
def setMinus (set out : ChannelSet) : ChannelSet := set &&& ~~~out

/-- All eight channels. -/
def allChannels : ChannelSet := 0xFF

/-- The timebase a channel is bound to through its pair's active record (R20). -/
def boundTo (p : PatternUnit) (c : Chan) : Tb := (p.pairs.get (pairOf c)).timebase

/-- The channels bound to a timebase (R20). -/
def boundSet (p : PatternUnit) (x : Tb) : ChannelSet := setOf fun c => decide (boundTo p c = x)

/-- The active mode of a channel's pair (R20). -/
def modeOf (p : PatternUnit) (c : Chan) : PairMode := (p.pairs.get (pairOf c)).mode

/-- A member's deadtime in the pair's active record (R119). -/
def deadtimeOf (p : PatternUnit) (c : Chan) : Nat :=
  if isPrimary c then (p.pairs.get (pairOf c)).deadtimeEven.toNat else (p.pairs.get (pairOf c)).deadtimeOdd.toNat

/-- STOPPED and WAIT_SYNC count as stopped timebases (01_timebases_and_boundaries.md, section 1.4). -/
def isStopped (t : Timebase) : Bool :=
  match t.state with
  | .stopped | .waitSync => true
  | .running | .stopping => false

/-- The core periods of a prescale (R1). -/
def prescaleNat : Prescale → Nat
  | .by1 => 1
  | .by2 => 2
  | .by4 => 4
  | .by8 => 8
  | .by16 => 16
  | .by32 => 32
  | .by64 => 64
  | .by128 => 128

/-- Replaces one timebase. -/
def State.setTimebase (s : State) (x : Tb) (t : Timebase) : State := s.withTimebases (s.timebases.set x t)

/-! ## Notices (R128 to R131) -/

/-- A notice's repeat after one more event, held at 255 (R129). -/
def bumpCount (n : Byte) : Byte := if n = 255 then 255 else n + 1

/-- A notice into which an event is merged: last detail and repeat updated, first detail kept, token removed (R129, R130). -/
def mergeNotice (n : Notice) (d : Detail) : Notice :=
  { n with count := bumpCount n.count, last := d, token := none }

/-- Places an event in the notice queue (R128, R129, R130). -/
def postTo (queue : List Notice) (p : Posting) : List Notice :=
  match queue.find? (fun n => n.key = p.key) with
  | none => queue ++ [{ key := p.key, count := 1, first := p.detail, last := p.detail, token := none }]
  | some n =>
    match n.token with
    | none => queue.map fun m => if m.key = p.key then mergeNotice m p.detail else m
    | some _ => queue.filter (fun m => m.key ≠ p.key) ++ [mergeNotice n p.detail]

/-- The Notice Unit takes events in the order they are handed to it (R131). -/
def State.post (s : State) (ps : List Posting) : State :=
  s.withNotices { s.notices with queue := ps.foldl postTo s.notices.queue }

/-- A LINK event (R162, R168, R169). -/
def linkEvent (r : LinkReason) : Posting := { key := .link, detail := .link r }

/-- Merges the lists that blocks hand over at one event, each in its own order, in an order that the spec leaves open between
blocks (R53, R131): a free value picks the list whose turn it is (log 7). Answers the merged list and the counter of free
choices. -/
def mergePostings : Nat → Nat → List (List Posting) → List Posting × Nat
  | 0, n, lists => (lists.flatten, n)
  | fuel + 1, n, lists =>
    match lists.filter (fun l => !l.isEmpty) with
    | [] => ([], n)
    | [l] => (l, n)
    | some2 =>
      let k := Config.pick n % some2.length
      match some2[k]? with
      | some (p :: rest) =>
        let (more, n') := mergePostings fuel (n + 1) (some2.set k rest)
        (p :: more, n')
      | _ => (some2.flatten, n)

/-- Posts what several blocks raise at one event; each list keeps its order (R131, log 7). -/
def State.postMerged (s : State) (lists : List (List Posting)) : State :=
  let (ps, n) := mergePostings lists.flatten.length s.free lists
  (s.withFree n).post ps

/-! ## Pattern levels (R21 to R29) -/

def complement : Logic → Logic
  | .inactive => .active
  | .active => .inactive

def logicOf (b : Bool) : Logic := if b then .active else .inactive

/-- Whether a count is inside the pulse of an EDGE channel (R23). -/
def edgePulse (on off c : Word16) : Bool :=
  if on < off then decide (on ≤ c) && decide (c < off)
  else if off < on then decide (on ≤ c) || decide (c < off)
  else false

/-- Whether a count and direction are inside the pulse of a CENTER channel (R25). -/
def centerPulse (on off c : Word16) (d : Direction) : Bool :=
  match d with
  | .up => decide (on ≤ c)
  | .down => decide (off ≤ c)

/-- A channel's source level from its own points and its timebase's count (R22, R23, R25). -/
def sourceOf (r : ChannelRecord) (t : Timebase) : Logic :=
  if isStopped t then .inactive
  else
    match t.active.alignment with
    | .edge => logicOf (edgePulse r.onPoint r.offPoint t.counter)
    | .center => logicOf (centerPulse r.onPoint r.offPoint t.counter t.direction)

/-- The source level of a channel under the records and timebases given. -/
def sourceLevel (p : PatternUnit) (tbs : TbFile Timebase) (c : Chan) : Logic :=
  sourceOf (p.channels.get c) (tbs.get (boundTo p c))

/-- The pattern level of a channel: its source level, or for the secondary of a COMPLEMENTARY pair the complement of the
primary's, forced INACTIVE by its own mask (R27, R28, R29). -/
def patternLevel (p : PatternUnit) (tbs : TbFile Timebase) (c : Chan) : Logic :=
  if (p.channels.get c).mask then .inactive
  else
    match modeOf p c, isPrimary c with
    | .complementary, false => complement (sourceLevel p tbs (partner c))
    | _, _ => sourceLevel p tbs c

/-- Recomputes the levels of the channels bound to a timebase (R21). -/
def State.refresh (s : State) (x : Tb) : State :=
  s.withPattern
    { s.pattern with
      source := .ofFn fun c =>
        if boundTo s.pattern c = x then sourceLevel s.pattern s.timebases c else s.pattern.source.get c
      level := .ofFn fun c =>
        if boundTo s.pattern c = x then patternLevel s.pattern s.timebases c else s.pattern.level.get c }

/-! ## Trip forcing (R80, R97, R114, R115) -/

/-- Whether a route holds a channel, directly or by pair widening (R114). -/
def routeForces (p : PatternUnit) (r : Route) (c : Chan) : Bool :=
  inSet r.held c || (decide (modeOf p c = .complementary) && inSet r.held (partner c))

/-- Whether some route with this action forces a channel (R114). -/
def forcedWith (p : PatternUnit) (routes : SlotFile (Option Route)) (a : Action) (c : Chan) : Bool :=
  Slot.all.any fun i =>
    match routes.get i with
    | some r => decide (r.action = a) && routeForces p r c
    | none => false

/-- The action that governs a forced channel, FLOAT before SAFE before HOLD; none for a channel no route forces (R114). -/
def governing (p : PatternUnit) (routes : SlotFile (Option Route)) (c : Chan) : Option Action :=
  if forcedWith p routes .float c then some .float
  else if forcedWith p routes .safe c then some .safe
  else if forcedWith p routes .hold c then some .hold
  else none

/-- The level a hold captures from an output: a floating output, and one whose rise waits on deadtime, count as INACTIVE
(R115). -/
def captured : OutLevel → Logic
  | .active => .active
  | .inactive | .float => .inactive

/-- Hands a changed route table to the Output Stage: each channel that passes from no HOLD forcing to some captures its hold
level from its output before the event (R80, R115). -/
def State.handRoutes (s : State) (routes : SlotFile (Option Route)) : State :=
  (s.withTrip { s.trip with routes := routes }).withOutput
    { s.output with
      channels := .ofFn fun c =>
        let o := s.output.channels.get c
        if !forcedWith s.pattern s.trip.routes .hold c && forcedWith s.pattern routes .hold c then
          { o with hold := captured o.output }
        else o }

/-! ## Choosing and driving each output (R111, R117 to R119) -/

def outOf : Logic → OutLevel
  | .active => .active
  | .inactive => .inactive

/-- The override level of a channel in its pair's entry; none for value NONE (R111). -/
def overrideLevel (e : OverrideEntry) (c : Chan) : Option Logic :=
  match e with
  | .independent even odd =>
    match if isPrimary c then even else odd with
    | .none => none
    | .forceActive => some .active
    | .forceInactive => some .inactive
  | .complementary v =>
    match v with
    | .none => none
    | .evenActive => some (if isPrimary c then .active else .inactive)
    | .oddActive => some (if isPrimary c then .inactive else .active)
    | .bothInactive => some .inactive

/-- The selected level of a channel: the first case of R117 that applies. -/
def selectLevel (s : State) (c : Chan) : OutLevel :=
  if s.output.enable = .disabled then .float
  else if s.output.enable = .draining ∧ inSet s.output.drained c then .inactive
  else
    match governing s.pattern s.trip.routes c with
    | some .float => .float
    | some .safe => .inactive
    | some .hold => outOf (s.output.channels.get c).hold
    | none =>
      match overrideLevel (s.output.overrides.get (pairOf c)) c with
      | some l => outOf l
      | none => outOf (s.pattern.level.get c)

/-- The output takes its selected level: at once, except that a rise in a COMPLEMENTARY pair waits until its delay has
counted the deadtime (R118, R119, log 13). -/
def settleChannel (mode : PairMode) (deadtime : Nat) (selected : OutLevel) (c : OutChannel) : OutChannel :=
  if mode = .complementary ∧ selected = .active ∧ c.output ≠ .active then
    if deadtime ≤ c.delay.getD 0 then { c with selected := .active, output := .active, delay := none }
    else { c with selected := .active, delay := some (c.delay.getD 0) }
  else { c with selected := selected, output := selected, delay := none }

/-- What a channel's output becomes when the Output Stage selects again (R117). -/
def settledChannel (s : State) (c : Chan) : OutChannel :=
  settleChannel (modeOf s.pattern c) (deadtimeOf s.pattern c) (selectLevel s c) (s.output.channels.get c)

/-- Whether selecting again starts a deadtime delay in a member of the pair. -/
def startsDelay (s : State) (p : Pair) : Bool :=
  [primaryOf p, secondaryOf p].any fun c =>
    (s.output.channels.get c).delay.isNone && (settledChannel s c).delay.isSome

/-- The Output Stage selects every channel's level again and drives the outputs (R117 to R119). A delay that starts here
restarts its pair's deadtime clock (R120). -/
def State.settle (s : State) : State :=
  s.withOutput
    { s.output with
      channels := .ofFn fun c => settledChannel s c
      clocks := .ofFn fun p => if startsDelay s p then 0 else s.output.clocks.get p }

/-- New pattern levels of the channels bound to a timebase, handed on to the outputs (R21, R117). -/
def State.redrive (s : State) (x : Tb) : State := (s.refresh x).settle

/-- Counts one tick on the deadtime delays in progress in the pairs that meet a condition (R119, R120). -/
def State.countDelays (s : State) (pairs : Pair → Bool) : State :=
  s.withOutput
    { s.output with
      channels := .ofFn fun c =>
        let o := s.output.channels.get c
        if pairs (pairOf c) then { o with delay := o.delay.map (· + 1) } else o }

/-- Counts a tick of a timebase on the delays of the pairs bound to it (R120, log 11). -/
def State.countTick (s : State) (x : Tb) : State :=
  s.countDelays fun p => decide ((s.pattern.pairs.get p).timebase = x)

/-- The deadtime clocks of the pairs bound to a timebase begin again, at its stop (R120, log 12). -/
def State.restartClocks (s : State) (x : Tb) : State :=
  s.withOutput
    { s.output with
      clocks := .ofFn fun p => if (s.pattern.pairs.get p).timebase = x then 0 else s.output.clocks.get p }

end Sys2Proof.Machine
end

