-- ==== Sys2Proof/Machine/Flags.lean ====
section
/-!
DEFINITION. The lines of the part and the counts it reports, each computed from the state that decides it (log 27): ATTENTION,
DIR, SYNC OUT, the pads, what the part drives on LINE, whether the receiver can hear, and the counts of READ STATUS.
-/

namespace Sys2Proof.Machine

/-- Class code of a notice's key in the attention mask (R184, R186). -/
def inMask (mask : ClassSet) (k : NoticeKey) : Bool :=
  match k with
  | .trip _ => mask.getLsbD 0
  | .rearm _ => mask.getLsbD 1
  | .applied _ => mask.getLsbD 2
  | .expired _ => mask.getLsbD 3
  | .cancelled _ => mask.getLsbD 4
  | .timebase _ => mask.getLsbD 5
  | .outputs => mask.getLsbD 6
  | .link => mask.getLsbD 7
  | .reset => mask.getLsbD 8

/-- Whether the part pulls ATTENTION low: an unfetched notice of a class in the mask stands in the queue (R138); not while RST
is held low (R138, R179). -/
def attention (s : State) : Bool :=
  !s.inReset && s.notices.queue.any fun n => n.token.isNone && inMask s.notices.mask n.key

/-- DIR is high exactly while the transmitter is SENDING (R155). -/
def dirHigh (s : State) : Bool :=
  match s.link.transmitter with
  | .sending _ _ => true
  | .idle | .turnaround _ _ _ => false

/-- SYNC OUT is high exactly while its pulse runs (R15). -/
def syncOutHigh (s : State) : Bool := s.sync.pulse.isSome

/-- The pad of a channel: FLOAT, or its level inverted when the record says so; high impedance while RST is low (R121). -/
def padOf (s : State) (c : Chan) : PadLevel :=
  if s.inReset then .float
  else
    match (s.output.channels.get c).output, (s.pattern.channels.get c).invert with
    | .float, _ => .float
    | .active, false => .high
    | .active, true => .low
    | .inactive, false => .low
    | .inactive, true => .high

/-- Core periods of a bit time (R144). -/
def bitPeriods : Rate → Nat
  | .r115200 => 347
  | .r460800 => 87
  | .r1000000 => 40
  | .r2000000 => 20

/-- Core periods of a byte time at the rate in force: ten bit times (R144). -/
def byteTime (s : State) : Nat := 10 * bitPeriods s.link.settings.rate

/-- One bit of a byte on the line: start bit, eight data bits least significant first, stop bit (R144). -/
def lineBit (b : Byte) (n : Nat) : Level :=
  if n = 0 then .low
  else if n ≤ 8 then (if b.getLsbD (n - 1) then .high else .low)
  else .high

/-- What the part drives on LINE; none while it does not drive (R155). -/
def lineDriven (s : State) : Option Level :=
  match s.link.transmitter with
  | .sending r elapsed =>
    let bit := elapsed / bitPeriods s.link.settings.rate
    some (lineBit (r.frame.getD (bit / 10) 0) (bit % 10))
  | .idle | .turnaround _ _ _ => none

/-- Whether the transmitter is IDLE; the receiver listens only then (R150). -/
def transmitterIdle (l : LinkInterface) : Bool :=
  match l.transmitter with
  | .idle => true
  | .turnaround _ _ _ | .sending _ _ => false

/-- The receiver hears no frame: RST is low (R179), or the transmitter is not IDLE (R150). -/
def deaf (s : State) : Bool := s.inReset || !transmitterIdle s.link

/-- The receiver takes no byte: it is deaf, or still waits for the line to be high for one bit time (R157, R181). -/
def takesNoByte (s : State) : Bool := deaf s || s.link.highWait.isSome

/-- Unfetched notices of every class (R175). -/
def unfetchedCount (s : State) : Nat := (s.notices.queue.filter fun n => n.token.isNone).length

/-- Routes in a state (R175). -/
def routeCount (s : State) (st : RouteState) : Nat :=
  (Slot.all.filter fun i => match s.trip.routes.get i with
    | some r => decide (r.state = st)
    | none => false).length

/-- Record-pool slots a ticket holds (R40). -/
def slotsOf (t : Ticket) : Nat := t.channels.length + t.pairs.length + (if t.record.isSome then 1 else 0)

/-- Record-pool slots in use: the records that the pending tickets carry (R40). -/
def slotsUsed (queue : List Ticket) : Nat := (queue.map slotsOf).sum

/-- Free record-pool slots (R40). -/
def freeSlots (queue : List Ticket) : Nat := Config.poolSlots - slotsUsed queue

end Sys2Proof.Machine
end

