-- ==== Sys2Proof/Decode.lean ====
section
/-!
DEFINITION. What the codes of a frame select: the start values, the catalogue of request kinds with their fixed payload
lengths, and the kinds a broadcast may carry (R168, R182, R185). The opcode table gives no row bits, so no word spells a
command: decodeTableWord answers none (log 24).
-/

namespace Sys2Proof

/-- Start byte of a request (R182). -/
def requestStart : Byte := 0x5A

/-- Start byte of a reply (R182). -/
def replyStart : Byte := 0xA5

/-- The address of a broadcast (R146). -/
def broadcastAddress : Byte := 31

/-- The greatest payload length (R147). -/
def maxPayload : Nat := 60

/-- The payload length fixed for each of the 29 request kinds; none for a code that names no kind (R185). -/
def requestLength (kind : Byte) : Option Nat :=
  match kind.toNat with
  | 0x01 => some 0
  | 0x02 => some 0
  | 0x03 => some 3
  | 0x04 => some 0
  | 0x11 => some 2
  | 0x12 => some 2
  | 0x13 => some 1
  | 0x14 => some 2
  | 0x20 => some 7
  | 0x21 => some 7
  | 0x22 => some 6
  | 0x23 => some 1
  | 0x24 => some 1
  | 0x30 => some 9
  | 0x31 => some 2
  | 0x32 => some 0
  | 0x40 => some 3
  | 0x41 => some 0
  | 0x42 => some 1
  | 0x43 => some 0
  | 0x50 => some 5
  | 0x51 => some 5
  | 0x52 => some 1
  | 0x53 => some 1
  | 0x54 => some 0
  | 0x55 => some 0
  | 0x60 => some 1
  | 0x61 => some 1
  | 0x62 => some 2
  | _ => none

/-- The four kinds a broadcast may carry: START TIMEBASE, STOP TIMEBASE, ISSUE TICKET, DISABLE OUTPUTS (R168). -/
def broadcastAllowed (kind : Byte) : Bool :=
  kind == 0x11 || kind == 0x12 || kind == 0x30 || kind == 0x42

/-- The table gives no row its bits: no word spells a command (log 24). -/
def decodeTableWord (_nbits _w : Nat) : Option Instr := none

end Sys2Proof
end

