-- ==== Sys2Proof/Machine/Operands.lean ====
section
/-!
DEFINITION. Every operand form: how the Dispatcher reads the fields of a request payload (R184, R185), and how the part writes
the fields of a reply (R184, R185, R186).
-/

namespace Sys2Proof.Machine

/-! ## Statuses and answers -/

/-- The status of a reply (R166). -/
inductive Status
  | ok | unknownKind | badLength | badArgument | wrongState | noRoom | notFound | stillActive | frozen | conflict
deriving DecidableEq, Repr

/-- The code of a status (R182). -/
def statusCode : Status → Byte
  | .ok => 0x00
  | .unknownKind => 0x01
  | .badLength => 0x02
  | .badArgument => 0x03
  | .wrongState => 0x04
  | .noRoom => 0x05
  | .notFound => 0x06
  | .stillActive => 0x07
  | .frozen => 0x08
  | .conflict => 0x09

/-- What carrying out a request gives: the state, and the status, content and pending action of its reply (R164, R167). -/
structure Answer where
  state : State
  status : Status
  content : List Byte
  action : Option PendingAction
deriving DecidableEq, Repr

/-- A request carried out. -/
def accepted (s : State) (content : List Byte) : Answer :=
  { state := s, status := .ok, content := content, action := none }

/-- A request refused: nothing changes and the reply carries the status alone (R165, R167). -/
def refusedWith (s : State) (st : Status) : Answer :=
  { state := s, status := st, content := [], action := none }

/-! ## Requests with their fields read -/

/-- Mode of START TIMEBASE (R8). -/
inductive StartMode
  | now | atSync
deriving DecidableEq, Repr

/-- Mode of DISABLE OUTPUTS (R105). -/
inductive DisableMode
  | immediate | graceful
deriving DecidableEq, Repr

/-- Target and value of SET OVERRIDE, by form (R112). -/
inductive OverrideTarget
  | channel (c : Chan) (v : MemberForce)
  | pair (p : Pair) (v : PairForce)
deriving DecidableEq, Repr

/-- The arguments of ISSUE TICKET (R44). A condition of NEXT stands as AFTER 1 (R41). -/
structure TicketRequest where
  timebase : Tb
  channels : ChannelSet
  pairs : PairSet
  record : Bool
  condition : Condition
  boundaryKind : BoundaryKind
  deadline : Option Byte
deriving DecidableEq, Repr

/-- The arguments of DEFINE ROUTE after the slot (R81). -/
structure RouteRequest where
  input : TripName
  channels : ChannelSet
  action : Action
  clearing : Clearing
deriving DecidableEq, Repr

/-- A request whose fields lie within their ranges (R165, step 3). -/
inductive Request
  | identify
  | readStatus
  | setLink (v : LinkSettings)
  | resetController
  | startTimebase (x : Tb) (m : StartMode)
  | stopTimebase (x : Tb) (m : StopKind)
  | readTimebase (x : Tb)
  | configureSync (source : SyncSource) (edge : SyncEdge)
  | stageChannel (c : Chan) (r : ChannelRecord)
  | stagePair (p : Pair) (r : PairRecord)
  | stageTimebase (x : Tb) (r : TimebaseRecord)
  | readChannel (c : Chan)
  | readPair (p : Pair)
  | issueTicket (t : TicketRequest)
  | cancelById (id : Byte)
  | cancelAll (x : Tb)
  | listTickets
  | setOverride (t : OverrideTarget)
  | enableOutputs
  | disableOutputs (m : DisableMode)
  | readOutputs
  | configureTripInput (i : TripName) (v : TripConfig)
  | defineRoute (slot : Slot) (r : RouteRequest)
  | removeRoute (slot : Slot)
  | clearTrip (slot : Slot)
  | readTrips
  | freezeProtection
  | fetchNotices (n : Nat)
  | ackNotices (token : Byte)
  | setAttentionMask (set : ClassSet)
deriving DecidableEq, Repr

/-! ## Reading fields (R184) -/

/-- Two bytes, high byte first (R184). -/
def word16 (high low : Byte) : Word16 := high ++ low

def readBool (b : Byte) : Option Bool :=
  match b.toNat with
  | 0 => some false
  | 1 => some true
  | _ => none

def readTb (b : Byte) : Option Tb :=
  match b.toNat with
  | 0 => some .a
  | 1 => some .b
  | _ => none

def readChan (b : Byte) : Option Chan := Chan.all[b.toNat]?

def readPairName (b : Byte) : Option Pair := Pair.all[b.toNat]?

def readTripName (b : Byte) : Option TripName := TripName.all[b.toNat]?

def readSlot (b : Byte) : Option Slot := Slot.all[b.toNat]?

def readAlignment (b : Byte) : Option Alignment :=
  match b.toNat with
  | 0 => some .edge
  | 1 => some .center
  | _ => none

/-- A prescale is sent as its value (R184). -/
def readPrescale (b : Byte) : Option Prescale :=
  match b.toNat with
  | 1 => some .by1
  | 2 => some .by2
  | 4 => some .by4
  | 8 => some .by8
  | 16 => some .by16
  | 32 => some .by32
  | 64 => some .by64
  | 128 => some .by128
  | _ => none

def readStartMode (b : Byte) : Option StartMode :=
  match b.toNat with
  | 0 => some .now
  | 1 => some .atSync
  | _ => none

def readStopMode (b : Byte) : Option StopKind :=
  match b.toNat with
  | 0 => some .immediate
  | 1 => some .atBoundary
  | _ => none

def readDisableMode (b : Byte) : Option DisableMode :=
  match b.toNat with
  | 0 => some .immediate
  | 1 => some .graceful
  | _ => none

def readSyncSource (b : Byte) : Option SyncSource :=
  match b.toNat with
  | 0 => some .a
  | 1 => some .b
  | 2 => some .none
  | _ => none

def readSyncEdge (b : Byte) : Option SyncEdge :=
  match b.toNat with
  | 0 => some .rising
  | 1 => some .falling
  | _ => none

def readPairMode (b : Byte) : Option PairMode :=
  match b.toNat with
  | 0 => some .independent
  | 1 => some .complementary
  | _ => none

def readBoundaryKind (b : Byte) : Option BoundaryKind :=
  match b.toNat with
  | 0 => some .startOnly
  | 1 => some .any
  | _ => none

def readLevel (b : Byte) : Option Level :=
  match b.toNat with
  | 0 => some .low
  | 1 => some .high
  | _ => none

def readAction (b : Byte) : Option Action :=
  match b.toNat with
  | 0 => some .float
  | 1 => some .safe
  | 2 => some .hold
  | _ => none

def readClearing (b : Byte) : Option Clearing :=
  match b.toNat with
  | 0 => some .auto
  | 1 => some .latched
  | _ => none

def readRate (b : Byte) : Option Rate :=
  match b.toNat with
  | 0 => some .r115200
  | 1 => some .r460800
  | 2 => some .r1000000
  | 3 => some .r2000000
  | _ => none

/-- A deadtime: two bytes, at most 1023 (R37). -/
def readDeadtime (high low : Byte) : Option (BitVec 10) :=
  let n := (word16 high low).toNat
  if n ≤ 1023 then some (BitVec.ofNat 10 n) else none

/-- A set of pairs: bits 4 to 7 are reserved (R184). -/
def readPairSet (b : Byte) : Option PairSet :=
  if b.toNat < 16 then some (BitVec.ofNat 4 b.toNat) else none

/-- A set of notice classes: bits 9 to 15 are reserved (R137, R184). -/
def readClassSet (high low : Byte) : Option ClassSet :=
  let n := (word16 high low).toNat
  if n < 512 then some (BitVec.ofNat 9 n) else none

/-- A period of 0 or 1 is refused (R38). -/
def readPeriod (high low : Byte) : Option Word16 :=
  let w := word16 high low
  if 2 ≤ w.toNat then some w else none

/-- A channel record is on_point, off_point, invert and mask (R185). -/
def readChannelRecord : List Byte → Option ChannelRecord
  | [onHigh, onLow, offHigh, offLow, invert, mask] => do
    let i ← readBool invert
    let m ← readBool mask
    return { onPoint := word16 onHigh onLow, offPoint := word16 offHigh offLow, invert := i, mask := m }
  | _ => none

/-- A pair record is mode, timebase, deadtime_even and deadtime_odd (R185). -/
def readPairRecord : List Byte → Option PairRecord
  | [mode, timebase, evenHigh, evenLow, oddHigh, oddLow] => do
    let m ← readPairMode mode
    let x ← readTb timebase
    let e ← readDeadtime evenHigh evenLow
    let o ← readDeadtime oddHigh oddLow
    return { mode := m, timebase := x, deadtimeEven := e, deadtimeOdd := o }
  | _ => none

/-- A timebase record is period, alignment, prescale and sync_restart (R185). -/
def readTimebaseRecord : List Byte → Option TimebaseRecord
  | [high, low, alignment, prescale, restart] => do
    let p ← readPeriod high low
    let a ← readAlignment alignment
    let f ← readPrescale prescale
    let r ← readBool restart
    return { period := p, alignment := a, prescale := f, syncRestart := r }
  | _ => none

/-- Condition and k: k is 0 with NEXT and SYNC, 1..255 with AFTER; NEXT is recorded as AFTER 1 (R41, R184). -/
def readCondition (code k : Byte) : Option Condition :=
  match code.toNat with
  | 0 => if k = 0 then some (.after 1) else none
  | 1 => if k = 0 then none else some (.after k)
  | 2 => if k = 0 then some .sync else none
  | _ => none

/-- Deadline present and deadline: not 0 when present, 0 when absent (R184). -/
def readDeadline (present deadline : Byte) : Option (Option Byte) :=
  match present.toNat with
  | 0 => if deadline = 0 then some none else none
  | 1 => if deadline = 0 then none else some (some deadline)
  | _ => none

/-- ISSUE TICKET's nine bytes (R185). -/
def readTicket : List Byte → Option TicketRequest
  | [timebase, channels, pairs, record, code, k, kind, present, deadline] => do
    let x ← readTb timebase
    let ps ← readPairSet pairs
    let r ← readBool record
    let c ← readCondition code k
    let b ← readBoundaryKind kind
    let d ← readDeadline present deadline
    return { timebase := x, channels := channels, pairs := ps, record := r, condition := c, boundaryKind := b, deadline := d }
  | _ => none

/-- Form, target and value of SET OVERRIDE; a value of the other form is reserved (R112, R184). -/
def readOverride (form target value : Byte) : Option OverrideTarget :=
  match form.toNat with
  | 0 => do
    let c ← readChan target
    match value.toNat with
    | 0 => some (.channel c .none)
    | 1 => some (.channel c .forceActive)
    | 2 => some (.channel c .forceInactive)
    | _ => none
  | 1 => do
    let p ← readPairName target
    match value.toNat with
    | 0 => some (.pair p .none)
    | 3 => some (.pair p .evenActive)
    | 4 => some (.pair p .oddActive)
    | 5 => some (.pair p .bothInactive)
    | _ => none
  | _ => none

/-- Rate, turnaround 1..15 and gap limit 2..15 (R159). -/
def readSettings (rate turnaround gapLimit : Byte) : Option LinkSettings := do
  let r ← readRate rate
  if 1 ≤ turnaround.toNat ∧ turnaround.toNat ≤ 15 ∧ 2 ≤ gapLimit.toNat ∧ gapLimit.toNat ≤ 15 then
    some { rate := r, turnaround := turnaround, gapLimit := gapLimit }
  else none

/-- trip_level, sample_interval 1..256 and qualify 1..16 (R72). -/
def readTripConfig (level high low qualify : Byte) : Option TripConfig := do
  let l ← readLevel level
  let n := (word16 high low).toNat
  if 1 ≤ n ∧ n ≤ 256 ∧ 1 ≤ qualify.toNat ∧ qualify.toNat ≤ 16 then
    some { level := l, interval := n, qualify := qualify.toNat }
  else none

/-- A request with no payload. -/
def bare (args : List Byte) (r : Request) : Option Request := if args.isEmpty then some r else none

/-- General requests (R174 to R176), by the low half of the kind code. -/
def readGeneralRequest (low : Nat) (args : List Byte) : Option Request :=
  match low with
  | 1 => bare args .identify
  | 2 => bare args .readStatus
  | 3 =>
    match args with
    | [rate, turnaround, gapLimit] => (readSettings rate turnaround gapLimit).map .setLink
    | _ => none
  | 4 => bare args .resetController
  | _ => none

/-- Requests on timebases (R8 to R10, R16, R17), by the low half of the kind code. -/
def readTimebaseRequest (low : Nat) (args : List Byte) : Option Request :=
  match low, args with
  | 1, [timebase, mode] => do
    let x ← readTb timebase
    let m ← readStartMode mode
    return .startTimebase x m
  | 2, [timebase, mode] => do
    let x ← readTb timebase
    let m ← readStopMode mode
    return .stopTimebase x m
  | 3, [timebase] => (readTb timebase).map .readTimebase
  | 4, [source, edge] => do
    let c ← readSyncSource source
    let e ← readSyncEdge edge
    return .configureSync c e
  | _, _ => none

/-- Requests on records (R36 to R39), by the low half of the kind code. -/
def readRecordRequest (low : Nat) (args : List Byte) : Option Request :=
  match low, args with
  | 0, channel :: record => do
    let c ← readChan channel
    let r ← readChannelRecord record
    return .stageChannel c r
  | 1, pair :: record => do
    let p ← readPairName pair
    let r ← readPairRecord record
    return .stagePair p r
  | 2, timebase :: record => do
    let x ← readTb timebase
    let r ← readTimebaseRecord record
    return .stageTimebase x r
  | 3, [channel] => (readChan channel).map .readChannel
  | 4, [pair] => (readPairName pair).map .readPair
  | _, _ => none

/-- CANCEL TICKET: form 0 with an id that is not 0, form 1 with a timebase (R60, R61, R184). -/
def readCancel (form operand : Byte) : Option Request :=
  match form.toNat with
  | 0 => if operand = 0 then none else some (.cancelById operand)
  | 1 => (readTb operand).map .cancelAll
  | _ => none

/-- Requests on tickets (R44, R60, R61, R64), by the low half of the kind code. -/
def readTicketRequest (low : Nat) (args : List Byte) : Option Request :=
  match low with
  | 0 => (readTicket args).map .issueTicket
  | 1 =>
    match args with
    | [form, operand] => readCancel form operand
    | _ => none
  | 2 => bare args .listTickets
  | _ => none

/-- Requests on outputs (R104 to R106, R112, R122), by the low half of the kind code. -/
def readOutputRequest (low : Nat) (args : List Byte) : Option Request :=
  match low with
  | 0 =>
    match args with
    | [form, target, value] => (readOverride form target value).map .setOverride
    | _ => none
  | 1 => bare args .enableOutputs
  | 2 =>
    match args with
    | [mode] => (readDisableMode mode).map .disableOutputs
    | _ => none
  | 3 => bare args .readOutputs
  | _ => none

/-- Requests on trip inputs and routes (R72, R74, R81, R84, R88, R98), by the low half of the kind code. -/
def readTripRequest (low : Nat) (args : List Byte) : Option Request :=
  match low with
  | 0 =>
    match args with
    | [input, level, high, low, qualify] => do
      let i ← readTripName input
      let v ← readTripConfig level high low qualify
      return .configureTripInput i v
    | _ => none
  | 1 =>
    match args with
    | [slot, input, channels, action, clearing] => do
      let n ← readSlot slot
      let i ← readTripName input
      let a ← readAction action
      let c ← readClearing clearing
      return .defineRoute n { input := i, channels := channels, action := a, clearing := c }
    | _ => none
  | 2 =>
    match args with
    | [slot] => (readSlot slot).map .removeRoute
    | _ => none
  | 3 =>
    match args with
    | [slot] => (readSlot slot).map .clearTrip
    | _ => none
  | 4 => bare args .readTrips
  | 5 => bare args .freezeProtection
  | _ => none

/-- Requests on notices (R132 to R137), by the low half of the kind code. -/
def readNoticeRequest (low : Nat) (args : List Byte) : Option Request :=
  match low, args with
  | 0, [count] => if 1 ≤ count.toNat ∧ count.toNat ≤ 4 then some (.fetchNotices count.toNat) else none
  | 1, [token] => some (.ackNotices token)
  | 2, [high, low] => (readClassSet high low).map .setAttentionMask
  | _, _ => none

/-- The request that a kind and a payload of its length spell, none when a field is out of its range or uses a reserved
encoding (R165 step 3, R184, R185). The high half of a kind code gives the family. -/
def readRequest (kind : Byte) (args : List Byte) : Option Request :=
  match kind.toNat / 16 with
  | 0 => readGeneralRequest (kind.toNat % 16) args
  | 1 => readTimebaseRequest (kind.toNat % 16) args
  | 2 => readRecordRequest (kind.toNat % 16) args
  | 3 => readTicketRequest (kind.toNat % 16) args
  | 4 => readOutputRequest (kind.toNat % 16) args
  | 5 => readTripRequest (kind.toNat % 16) args
  | 6 => readNoticeRequest (kind.toNat % 16) args
  | _ => none

/-! ## Writing fields (R184, R185, R186) -/

def natByte (n : Nat) : Byte := BitVec.ofNat 8 n

def boolByte (b : Bool) : Byte := if b then 1 else 0

/-- Two bytes, high byte first (R184). -/
def word16Bytes (w : Word16) : List Byte := [w.extractLsb' 8 8, w.extractLsb' 0 8]

/-- The cycle count takes four bytes, high byte first (R184). -/
def word32Bytes (w : Word32) : List Byte :=
  [w.extractLsb' 24 8, w.extractLsb' 16 8, w.extractLsb' 8 8, w.extractLsb' 0 8]

def tbByte : Tb → Byte
  | .a => 0
  | .b => 1

def timebaseStateByte : TimebaseState → Byte
  | .stopped => 0
  | .waitSync => 1
  | .running => 2
  | .stopping => 3

def directionByte : Direction → Byte
  | .up => 0
  | .down => 1

def alignmentByte : Alignment → Byte
  | .edge => 0
  | .center => 1

def syncSourceByte : SyncSource → Byte
  | .a => 0
  | .b => 1
  | .none => 2

def syncEdgeByte : SyncEdge → Byte
  | .rising => 0
  | .falling => 1

def levelByte : Level → Byte
  | .low => 0
  | .high => 1

def logicByte : Logic → Byte
  | .inactive => 0
  | .active => 1

def pairModeByte : PairMode → Byte
  | .independent => 0
  | .complementary => 1

def enableByte : Enable → Byte
  | .disabled => 0
  | .enabled => 1
  | .draining => 2

def filteredByte : Filtered → Byte
  | .quiet => 0
  | .asserted => 1

def actionByte : Action → Byte
  | .float => 0
  | .safe => 1
  | .hold => 2

def clearingByte : Clearing → Byte
  | .auto => 0
  | .latched => 1

def routeStateByte : RouteState → Byte
  | .armed => 0
  | .tripped => 1
  | .releasing => 2

def boundaryKindByte : BoundaryKind → Byte
  | .startOnly => 0
  | .any => 1

def rateByte : Rate → Byte
  | .r115200 => 0
  | .r460800 => 1
  | .r1000000 => 2
  | .r2000000 => 3

def memberForceByte : MemberForce → Byte
  | .none => 0
  | .forceActive => 1
  | .forceInactive => 2

def pairForceByte : PairForce → Byte
  | .none => 0
  | .evenActive => 3
  | .oddActive => 4
  | .bothInactive => 5

/-- Number of a route slot (R77). -/
def slotByte : Slot → Byte
  | .route0 => 0
  | .route1 => 1
  | .route2 => 2
  | .route3 => 3
  | .route4 => 4
  | .route5 => 5
  | .route6 => 6
  | .route7 => 7

/-- Number of a trip input (R66). -/
def tripNameByte : TripName → Byte
  | .trip0 => 0
  | .trip1 => 1
  | .trip2 => 2
  | .trip3 => 3

def settingsBytes (v : LinkSettings) : List Byte := [rateByte v.rate, v.turnaround, v.gapLimit]

def channelRecordBytes (r : ChannelRecord) : List Byte :=
  word16Bytes r.onPoint ++ word16Bytes r.offPoint ++ [boolByte r.invert, boolByte r.mask]

def pairRecordBytes (r : PairRecord) : List Byte :=
  [pairModeByte r.mode, tbByte r.timebase] ++ word16Bytes (r.deadtimeEven.zeroExtend 16)
    ++ word16Bytes (r.deadtimeOdd.zeroExtend 16)

def timebaseRecordBytes (r : TimebaseRecord) : List Byte :=
  word16Bytes r.period ++ [alignmentByte r.alignment, natByte (prescaleNat r.prescale), boolByte r.syncRestart]

/-- The override entry of a pair, two bytes (R185). -/
def overrideBytes : OverrideEntry → List Byte
  | .independent even odd => [memberForceByte even, memberForceByte odd]
  | .complementary v => [pairForceByte v, pairForceByte v]

/-- The override value of a channel in its pair's entry (R122). -/
def overrideByteOf (e : OverrideEntry) (c : Chan) : Byte :=
  match e with
  | .independent even odd => memberForceByte (if isPrimary c then even else odd)
  | .complementary v => pairForceByte v

/-- A ticket entry of LIST TICKETS, six bytes (R186). -/
def ticketEntry (t : Ticket) : List Byte :=
  let (sync, k) := match t.condition with
    | .after k => ((0 : Byte), k)
    | .sync => (1, 0)
  [ t.id
  , tbByte t.timebase ||| sync <<< 1 ||| boolByte t.syncSeen <<< 2 ||| boundaryKindByte t.boundaryKind <<< 3
      ||| boolByte t.record.isSome <<< 4 ||| boolByte t.deadline.isSome <<< 5
  , k
  , t.remaining
  , t.deadline.getD 0
  , natByte t.channels.length ||| natByte t.pairs.length <<< 4 ]

/-- An input entry of READ TRIPS, four bytes (R186). -/
def inputEntry (i : TripInput) (raw : Level) : List Byte :=
  [levelByte i.config.level ||| filteredByte i.filtered <<< 1 ||| levelByte raw <<< 2]
    ++ word16Bytes (BitVec.ofNat 16 i.config.interval)
    ++ [natByte (i.config.qualify - 1) ||| natByte i.agreement <<< 4]

/-- A route entry of READ TRIPS, five bytes; five zeros for an undefined slot (R186). -/
def routeEntry : Option Route → List Byte
  | none => [0, 0, 0, 0, 0]
  | some r =>
    [ 1 ||| tripNameByte r.input <<< 1 ||| actionByte r.action <<< 3 ||| clearingByte r.clearing <<< 5
        ||| routeStateByte r.state <<< 6
    , r.channels
    , r.held ] ++ word16Bytes r.count

/-- Class code of a notice (R186). -/
def classCode : NoticeKey → Nat
  | .trip _ => 0
  | .rearm _ => 1
  | .applied _ => 2
  | .expired _ => 3
  | .cancelled _ => 4
  | .timebase _ => 5
  | .outputs => 6
  | .link => 7
  | .reset => 8

/-- Source code of a notice (R186). -/
def sourceByte : NoticeKey → Byte
  | .trip r => slotByte r
  | .rearm r => slotByte r
  | .applied x => tbByte x
  | .expired x => tbByte x
  | .cancelled x => tbByte x
  | .timebase x => tbByte x
  | .outputs => 0
  | .link => 0
  | .reset => 0

def tripCauseByte : TripCause → Byte
  | .input => 0
  | .definedWhileAsserted => 1
  | .retrip => 2
  | .repost => 3

def rearmCauseByte : RearmCause → Byte
  | .auto => 0
  | .cleared => 1

def stopKindByte : StopKind → Byte
  | .immediate => 0
  | .atBoundary => 1

def timebaseCauseByte : TimebaseCause → Byte
  | .syncStart => 0
  | .stoppedAtBoundary => 1

def linkReasonByte : LinkReason → Byte
  | .checkFail => 0
  | .framing => 1
  | .gap => 2
  | .tooLong => 3
  | .lineBreak => 5
  | .broadcastRefused => 6
  | .broadcastKind => 7

def resetCauseByte : ResetCause → Byte
  | .powerOn => 0
  | .controller => 1

/-- The six detail bytes of a notice (R186). -/
def detailBytes : Detail → List Byte
  | .trip i n c => [tripNameByte i] ++ word16Bytes n ++ [tripCauseByte c, 0, 0]
  | .rearm c => [rearmCauseByte c, 0, 0, 0, 0, 0]
  | .applied id n d => [id] ++ word32Bytes n ++ [natByte d]
  | .expired id => [id, 0, 0, 0, 0, 0]
  | .cancelled n k => [natByte n, stopKindByte k, 0, 0, 0, 0]
  | .timebase st c => [timebaseStateByte st, timebaseCauseByte c, 0, 0, 0, 0]
  | .outputs => [0, 0, 0, 0, 0, 0]
  | .link r => [linkReasonByte r, 0, 0, 0, 0, 0]
  | .reset c f => [resetCauseByte c, boolByte f, 0, 0, 0, 0]

/-- A notice entry of FETCH NOTICES, fourteen bytes (R186). -/
def noticeEntry (n : Notice) : List Byte :=
  [natByte (classCode n.key) <<< 4 ||| sourceByte n.key, n.count] ++ detailBytes n.first ++ detailBytes n.last

end Sys2Proof.Machine
end

