-- ==== Sys2Proof/Machine/Frames.lean ====
section
/-!
DEFINITION. The check value and the frames built with it (R147, R148, R182, R183), and the reply cache (R170 to R173).
-/

namespace Sys2Proof.Machine

/-! ## The check value (R183) -/

/-- One shift of the running value (R183). -/
def crcShift (v : Word16) : Word16 := if v.msb then (v <<< 1) ^^^ 0x1021 else v <<< 1

/-- The running value after one byte: the byte enters at the high end, and eight shifts follow (R183). -/
def crcByte (v : Word16) (b : Byte) : Word16 := Nat.repeat crcShift 8 (v ^^^ (b ++ (0 : Byte)))

/-- The check value over a list of bytes (R183). -/
def checkValue (bytes : List Byte) : Word16 := bytes.foldl crcByte 0xFFFF

/-- The bytes a check value covers: address, tag, kind, length and payload (R148). -/
def coveredBytes (address tag kind : Byte) (payload : List Byte) : List Byte :=
  [address, tag, kind, natByte payload.length] ++ payload

/-- The check value of a frame (R148). -/
def frameCheck (address tag kind : Byte) (payload : List Byte) : Word16 := checkValue (coveredBytes address tag kind payload)

/-- A complete frame (R182). -/
def frameBytes (start address tag kind : Byte) (payload : List Byte) : List Byte :=
  [start] ++ coveredBytes address tag kind payload ++ word16Bytes (frameCheck address tag kind payload)

/-- The reply frame that answers a request (R147, R167). -/
def replyFrame (node tag kind : Byte) (a : Answer) : List Byte :=
  frameBytes replyStart node tag kind (statusCode a.status :: a.content)

/-! ## The reply cache (R170 to R173) -/

/-- The entry a request matches by its tag and check value (R171). -/
def cachedReply (cache : List CacheEntry) (tag : Byte) (check : Word16) : Option CacheEntry :=
  cache.find? fun e => decide (e.tag = tag) && decide (e.check = check)

/-- The cache without an entry of a tag (R172). -/
def withoutTag (tag : Byte) (cache : List CacheEntry) : List CacheEntry := cache.filter fun e => e.tag ≠ tag

/-- The cache with room for one entry: a full cache loses its oldest (R173). -/
def makeRoom (cache : List CacheEntry) : List CacheEntry :=
  if Config.cacheCapacity ≤ cache.length then cache.drop 1 else cache

/-- The cache after a new reply is remembered (R172, R173). -/
def remember (cache : List CacheEntry) (e : CacheEntry) : List CacheEntry := makeRoom (withoutTag e.tag cache) ++ [e]

end Sys2Proof.Machine
end

