-- ==== Sys2Proof/Machine/Notices.lean ====
section
/-!
DEFINITION. The Notice Unit's requests (07_notices_and_the_attention_line.md): fetching, acknowledging, and the attention mask.
Posting and merging stand in Ops.lean, the ATTENTION line in Flags.lean.
-/

namespace Sys2Proof.Machine

/-- The token after this one, going from 255 to 1 (R132). -/
def nextTokenAfter (t : Byte) : Byte := if t = 255 then 1 else t + 1

/-- Stamps the first n notices with a token (R133). -/
def stampFirst (n : Nat) (t : Byte) (queue : List Notice) : List Notice :=
  (queue.take n).map (fun m => { m with token := some t }) ++ queue.drop n

/-- FETCH NOTICES (R133). -/
def doFetchNotices (n : Nat) (s : State) : Answer :=
  if s.notices.queue.isEmpty then accepted s [0, 0, 0]
  else
    let t := s.notices.nextToken
    let s1 := s.withNotices
      { s.notices with queue := stampFirst n t s.notices.queue, nextToken := nextTokenAfter t }
    accepted s1
      ([t, natByte (s.notices.queue.take n).length, natByte s.notices.queue.length]
        ++ (s.notices.queue.take n).flatMap noticeEntry)

/-- The queue without the notices that carry a token (R135). -/
def withoutToken (t : Byte) (queue : List Notice) : List Notice := queue.filter fun n => n.token ≠ some t

/-- ACK NOTICES (R135). -/
def doAckNotices (t : Byte) (s : State) : Answer :=
  accepted (s.withNotices { s.notices with queue := withoutToken t s.notices.queue })
    [natByte (s.notices.queue.length - (withoutToken t s.notices.queue).length)]

/-- SET ATTENTION MASK (R137). -/
def doSetAttentionMask (set : ClassSet) (s : State) : Answer :=
  accepted (s.withNotices { s.notices with mask := set }) []

end Sys2Proof.Machine
end

