-- ==== Sys2Proof/Machine/Outputs.lean ====
section
/-!
DEFINITION. The Output Stage's requests and events (06_the_output_stage.md): enabling, disabling and draining, overrides, the
deadtime clock, and reading the outputs.
-/

namespace Sys2Proof.Machine

/-! ## Enabling, disabling and draining (R103 to R109) -/

/-- The enable state and the drained set after a change. -/
def State.setEnable (s : State) (e : Enable) (drained : ChannelSet) : State :=
  s.withOutput { s.output with enable := e, drained := drained }

/-- Adds channels to the drained set while DRAINING; with all eight the drain completes and the outputs become DISABLED
(R107, R108, R109). Whether it completed is answered beside. -/
def drainInto (set : ChannelSet) (s : State) : State × Bool :=
  if s.output.enable = .draining then
    if s.output.drained ||| set = allChannels then (s.setEnable .disabled 0, true)
    else (s.setEnable .draining (s.output.drained ||| set), false)
  else (s, false)

/-- The OUTPUTS notice of a drain that completes (R109). -/
def gracefulDone : Posting := { key := .outputs, detail := .outputs }

/-- A drain step at a boundary or a stop event, with the notice of its completion (R107, R108, R109). -/
def drainSet (set : ChannelSet) (s : State) : State × List Posting :=
  ((drainInto set s).1, if (drainInto set s).2 then [gracefulDone] else [])

/-- ENABLE OUTPUTS (R104). -/
def doEnableOutputs (s : State) : Answer :=
  match s.output.enable with
  | .enabled => accepted s [enableByte .enabled]
  | .disabled | .draining => accepted (s.setEnable .enabled 0).settle [enableByte .enabled]

/-- The channels bound to a timebase in STOPPED or WAIT_SYNC (R106). -/
def drainedAtEntry (s : State) : ChannelSet := setOf fun c => isStopped (s.timebases.get (boundTo s.pattern c))

/-- DISABLE OUTPUTS with mode IMMEDIATE (R105). -/
def disableImmediate (s : State) : Answer :=
  accepted (s.setEnable .disabled 0).settle [enableByte .disabled]

/-- DISABLE OUTPUTS with mode GRACEFUL; a drain that completes here posts no notice (R106). -/
def disableGraceful (s : State) : Answer :=
  match s.output.enable with
  | .disabled => accepted s [enableByte .disabled]
  | .draining => accepted s [enableByte .draining]
  | .enabled =>
    let s1 := (drainInto (drainedAtEntry s) (s.setEnable .draining 0)).1
    accepted s1.settle [enableByte s1.output.enable]

/-- DISABLE OUTPUTS (R105, R106). -/
def doDisableOutputs (m : DisableMode) (s : State) : Answer :=
  match m with
  | .immediate => disableImmediate s
  | .graceful => disableGraceful s

/-! ## Overrides (R111, R112) -/

/-- The entry after a channel's value is replaced; none when the pair is COMPLEMENTARY (R112). -/
def setMemberForce (e : OverrideEntry) (c : Chan) (v : MemberForce) : OverrideEntry :=
  match e with
  | .independent even odd => if isPrimary c then .independent v odd else .independent even v
  | .complementary w => .complementary w

/-- SET OVERRIDE (R112). -/
def doSetOverride (t : OverrideTarget) (s : State) : Answer :=
  match t with
  | .channel c v =>
    if modeOf s.pattern c = .complementary then refusedWith s .conflict
    else
      let e := setMemberForce (s.output.overrides.get (pairOf c)) c v
      accepted (s.withOutput { s.output with overrides := s.output.overrides.set (pairOf c) e }).settle (overrideBytes e)
  | .pair p v =>
    if (s.pattern.pairs.get p).mode = .independent then refusedWith s .conflict
    else
      accepted (s.withOutput { s.output with overrides := s.output.overrides.set p (.complementary v) }).settle
        (overrideBytes (.complementary v))

/-! ## Reading the outputs (R122) -/

/-- Code of the governing forced action (R186). -/
def forcedCode : Option Action → Byte
  | none => 0
  | some .float => 1
  | some .safe => 2
  | some .hold => 3

def outLevelByte : OutLevel → Byte
  | .inactive => 0
  | .active => 1
  | .float => 2

def padByte : PadLevel → Byte
  | .low => 0
  | .high => 1
  | .float => 2

/-- A channel entry of READ OUTPUTS, two bytes (R122, R186). -/
def channelEntry (s : State) (c : Chan) : List Byte :=
  let o := s.output.channels.get c
  [ overrideByteOf (s.output.overrides.get (pairOf c)) c
  , forcedCode (governing s.pattern s.trip.routes c) ||| logicByte o.hold <<< 2 ||| outLevelByte o.output <<< 3
      ||| boolByte o.delay.isSome <<< 5 ||| padByte (padOf s c) <<< 6 ]

/-- READ OUTPUTS (R122). -/
def doReadOutputs (s : State) : Answer :=
  accepted s ([enableByte s.output.enable, s.output.drained] ++ Chan.all.flatMap (channelEntry s))

/-! ## Deadtime events (R119, R120) -/

/-- Whether a rise waits on deadtime in a pair. -/
def pairWaits (s : State) (p : Pair) : Bool :=
  [primaryOf p, secondaryOf p].any fun c => (s.output.channels.get c).delay.isSome

/-- Whether a pair's deadtime clock runs: a rise waits and the pair's timebase is STOPPED or WAIT_SYNC (R120). -/
def clockRuns (s : State) (p : Pair) : Bool :=
  pairWaits s p && isStopped (s.timebases.get (s.pattern.pairs.get p).timebase)

/-- A tick of a pair's deadtime clock is counted on its delays, and the clock begins again (R120). -/
def clockTick (p : Pair) (s : State) : State :=
  let s1 := s.withOutput { s.output with clocks := s.output.clocks.set p 0 }
  (s1.countDelays fun q => decide (q = p)).settle

/-- DEADTIME_CLOCK_TICK: the clock gives no tick while the pair's timebase runs, while no rise waits, or in reset (R120,
log 3, 12). -/
def execDeadtimeClockTick (p : Pair) (s : State) : Host.Outcome State Fault Refusal :=
  .next (if s.inReset ∨ clockRuns s p = false then s else clockTick p s)

/-- DEADTIME_DELAY_END: the count of the delay in progress reaches the member's deadtime, and the output becomes ACTIVE
(R119, log 20). -/
def execDeadtimeDelayEnd (c : Chan) (s : State) : Host.Outcome State Fault Refusal :=
  let o := s.output.channels.get c
  .next (if o.delay.isSome then
      s.withOutput { s.output with channels := s.output.channels.set c { o with output := .active, delay := none } }
    else s)

end Sys2Proof.Machine
end

