-- ==== Sys2Proof/Machine/Routes.lean ====
section
/-!
DEFINITION. The Trip Unit (04_trip_inputs_and_qualification.md, 05_trip_routes_and_clearing.md): the input filters, tripping,
releasing and re-arming of routes, and the requests on inputs and routes.
-/

namespace Sys2Proof.Machine

/-! ## The route table -/

/-- Changes every defined route, and hands the held sets on (R80). -/
def State.mapRoutes (s : State) (f : Slot → Route → Route) : State :=
  s.handRoutes (.ofFn fun i => (s.trip.routes.get i).map (f i))

/-- A trip count after one more trip, held at 65535 (R86). -/
def bumpTrips (n : Word16) : Word16 := if n = 0xFFFF then n else n + 1

/-- A route that trips or retrips: it holds all its channels and counts the trip (R85). -/
def tripRoute (r : Route) : Route := { r with state := .tripped, held := r.channels, count := bumpTrips r.count }

/-- A route at an input asserted event of its input (R85). -/
def assertRoute (i : TripName) (r : Route) : Route :=
  if r.input = i ∧ r.state ≠ .tripped then tripRoute r else r

/-- The TRIP notice of a route (R86). -/
def tripNotice (slot : Slot) (r : Route) (cause : TripCause) : Posting :=
  { key := .trip slot, detail := .trip r.input r.count cause }

/-- The TRIP notice of a slot at an input asserted event, if its route trips or retrips (R85, R86). -/
def assertNotice (i : TripName) (n : Slot) : Option Route → Option Posting
  | none => none
  | some r =>
    if r.input = i then
      match r.state with
      | .armed => some (tripNotice n (tripRoute r) .input)
      | .releasing => some (tripNotice n (tripRoute r) .retrip)
      | .tripped => none
    else none

/-- The TRIP notices of an input asserted event, in route index order (R85). -/
def tripNotices (i : TripName) (routes : SlotFile (Option Route)) : List Posting :=
  Slot.all.filterMap fun n => assertNotice i n (routes.get n)

/-- A RELEASING route gives back the channels of a set; with an empty held set it re-arms (R91, R92, R93). -/
def releaseRoute (set : ChannelSet) (r : Route) : Route :=
  if r.state = .releasing then
    if setMinus r.held set = 0 then { r with state := .armed, held := 0 } else { r with held := setMinus r.held set }
  else r

/-- The channels bound to a stopped timebase (R90). -/
def stoppedSet (s : State) : ChannelSet := setOf fun c => isStopped (s.timebases.get (boundTo s.pattern c))

/-- A route that enters RELEASING gives back at once the channels bound to stopped timebases (R90). -/
def beginRelease (stopped : ChannelSet) (r : Route) : Route := releaseRoute stopped { r with state := .releasing }

/-- A route at an input quiet event of its input (R87). -/
def quietRoute (i : TripName) (stopped : ChannelSet) (r : Route) : Route :=
  if r.input = i ∧ r.state = .tripped ∧ r.clearing = .auto then beginRelease stopped r else r

/-- Cause of a REARM notice (R93). -/
def rearmCause (r : Route) : RearmCause :=
  match r.clearing with
  | .auto => .auto
  | .latched => .cleared

/-- The REARM notice of a slot whose route became ARMED (R93). -/
def rearmNotice (n : Slot) (before after : Option Route) : Option Posting :=
  match before, after with
  | some r, some r' =>
    if r.state ≠ .armed ∧ r'.state = .armed then some { key := .rearm n, detail := .rearm (rearmCause r') } else none
  | _, _ => none

/-- The REARM notices of the routes that became ARMED between two route tables, in route index order (R93). -/
def rearmNotices (before after : SlotFile (Option Route)) : List Posting :=
  Slot.all.filterMap fun n => rearmNotice n (before.get n) (after.get n)

/-- The RELEASING routes give back a set of channels; the notices it raises (R91, R92, R93). -/
def releaseSet (set : ChannelSet) (s : State) : State × List Posting :=
  let s' := s.mapRoutes fun _ r => releaseRoute set r
  (s', rearmNotices s.trip.routes s'.trip.routes)

/-! ## The input filters (R67 to R71) -/

def State.setInput (s : State) (i : TripName) (v : TripInput) : State :=
  s.withTrip { s.trip with inputs := s.trip.inputs.set i v }

/-- Sets the level of a trip pin. -/
def State.setTripPin (s : State) (i : TripName) (l : Level) : State :=
  s.withPins { s.pins with trip := s.pins.trip.set i l }

/-- An input asserted event: the input becomes ASSERTED and its routes trip or retrip (R69, R71, R85). -/
def assertInput (i : TripName) (s : State) : State :=
  let v := s.trip.inputs.get i
  let s1 := s.setInput i { v with filtered := .asserted, agreement := 0, timer := 0 }
  ((s1.mapRoutes fun _ r => assertRoute i r).settle).post (tripNotices i s.trip.routes)

/-- An input quiet event: the input becomes QUIET and its TRIPPED AUTO routes start to release (R70, R71, R87, R90). -/
def quietInput (i : TripName) (s : State) : State :=
  let v := s.trip.inputs.get i
  let s1 := s.setInput i { v with filtered := .quiet, agreement := 0, timer := 0 }
  let s2 := s1.mapRoutes fun _ r => quietRoute i (stoppedSet s) r
  s2.settle.post (rearmNotices s.trip.routes s2.trip.routes)

def oppositeLevel : Level → Level
  | .low => .high
  | .high => .low

/-- Whether a sample disagrees with the filtered state: trip level while QUIET, another level while ASSERTED (R69, R70). -/
def disagrees (v : TripInput) (level : Level) : Bool :=
  match v.filtered with
  | .quiet => decide (level = v.config.level)
  | .asserted => decide (level ≠ v.config.level)

/-- Whether a sample completes a qualification run: it disagrees, and the count is at qualify - 1 (R69, R70). -/
def completesRun (v : TripInput) (level : Level) : Bool :=
  disagrees v level && decide (v.config.qualify ≤ v.agreement + 1)

/-- A sample that completes no run: the agreement count goes up by 1 or back to 0, and the timer restarts (R67, R69, R70). -/
def countSample (v : TripInput) (level : Level) : TripInput :=
  { v with agreement := if disagrees v level then v.agreement + 1 else 0, timer := 0 }

/-- A sample of a trip input (R67, R69, R70). -/
def sampleInput (i : TripName) (level : Level) (s : State) : State :=
  let v := s.trip.inputs.get i
  if completesRun v level then
    match v.filtered with
    | .quiet => assertInput i s
    | .asserted => quietInput i s
  else s.setInput i (countSample v level)

/-- TRIP_INPUT_SAMPLE: the pin has this level and a sample is taken; no sample while RST is low (R67, R75, log 4). -/
def execTripInputSample (i : TripName) (level : Level) (s : State) : Host.Outcome State Fault Refusal :=
  let s1 := s.setTripPin i level
  .next (if s.inReset then s1 else sampleInput i level s1)

/-- INPUT_ASSERTED: the sample that completes a run at trip level; no event for an input that is ASSERTED already (R69, R71,
log 3, 4). -/
def execInputAsserted (i : TripName) (s : State) : Host.Outcome State Fault Refusal :=
  let v := s.trip.inputs.get i
  .next (if s.inReset ∨ v.filtered = .asserted then s else assertInput i (s.setTripPin i v.config.level))

/-- INPUT_QUIET: the sample that completes a run away from trip level; no event for an input that is QUIET already (R70, R71,
log 3, 4). -/
def execInputQuiet (i : TripName) (s : State) : Host.Outcome State Fault Refusal :=
  let v := s.trip.inputs.get i
  .next (if s.inReset ∨ v.filtered = .quiet then s else quietInput i (s.setTripPin i (oppositeLevel v.config.level)))

/-! ## Requests -/

/-- CONFIGURE TRIP INPUT (R72). -/
def doConfigureTripInput (i : TripName) (c : TripConfig) (s : State) : Answer :=
  if s.trip.frozen then refusedWith s .frozen
  else
    let v := s.trip.inputs.get i
    accepted (s.setInput i { v with config := c, agreement := 0, timer := 0 }) [filteredByte v.filtered]

/-- Whether a slot holds a route in TRIPPED or RELEASING (R81, R84). -/
def slotBusy (r : Option Route) : Bool :=
  match r with
  | some v => decide (v.state ≠ .armed)
  | none => false

/-- The route DEFINE ROUTE places in a slot (R82). -/
def newRoute (r : RouteRequest) : Route :=
  { input := r.input, channels := r.channels, action := r.action, clearing := r.clearing, state := .armed, held := 0, count := 0 }

/-- DEFINE ROUTE (R81, R82). -/
def doDefineRoute (slot : Slot) (r : RouteRequest) (s : State) : Answer :=
  if r.channels = 0 then refusedWith s .badArgument
  else if s.trip.frozen then refusedWith s .frozen
  else if slotBusy (s.trip.routes.get slot) then refusedWith s .wrongState
  else
    match (s.trip.inputs.get r.input).filtered with
    | .quiet =>
      accepted (s.handRoutes (s.trip.routes.set slot (some (newRoute r)))) [routeStateByte .armed]
    | .asserted =>
      let v := tripRoute (newRoute r)
      accepted (((s.handRoutes (s.trip.routes.set slot (some v))).settle).post [tripNotice slot v .definedWhileAsserted])
        [routeStateByte .tripped]

/-- REMOVE ROUTE (R84). -/
def doRemoveRoute (slot : Slot) (s : State) : Answer :=
  if s.trip.frozen then refusedWith s .frozen
  else if slotBusy (s.trip.routes.get slot) then refusedWith s .wrongState
  else accepted (s.handRoutes (s.trip.routes.set slot none)) []

/-- CLEAR TRIP (R88). -/
def doClearTrip (slot : Slot) (s : State) : Answer :=
  match s.trip.routes.get slot with
  | none => refusedWith s .notFound
  | some r =>
    match r.state with
    | .armed => refusedWith s .wrongState
    | .releasing => accepted s [routeStateByte .releasing]
    | .tripped =>
      match (s.trip.inputs.get r.input).filtered with
      | .asserted => refusedWith s .stillActive
      | .quiet =>
        let r' := beginRelease (stoppedSet s) r
        let s1 := s.handRoutes (s.trip.routes.set slot (some r'))
        accepted (s1.settle.post (rearmNotices s.trip.routes s1.trip.routes)) [routeStateByte r'.state]

/-- READ TRIPS (R74, R99). -/
def doReadTrips (s : State) : Answer :=
  accepted s
    ([boolByte s.trip.frozen]
      ++ TripName.all.flatMap (fun i => inputEntry (s.trip.inputs.get i) (s.pins.trip.get i))
      ++ Slot.all.flatMap fun n => routeEntry (s.trip.routes.get n))

/-- FREEZE PROTECTION (R98). -/
def doFreezeProtection (s : State) : Answer := accepted (s.withTrip { s.trip with frozen := true }) []

end Sys2Proof.Machine
end

