-- ==== Sys2Proof/Machine/Tickets.lean ====
section
/-!
DEFINITION. The Commit Unit (03_staging_and_the_commit_queue.md): staging and reading records, issuing, cancelling and listing
tickets, and what it does with the tickets of a timebase at a boundary, a stop and a SYNC IN edge.
-/

namespace Sys2Proof.Machine

/-! ## Staged records (R36 to R39) -/

/-- Replaces the staged channel record whole (R36). -/
def doStageChannel (c : Chan) (r : ChannelRecord) (s : State) : Answer :=
  accepted (s.withCommit { s.commit with channels := s.commit.channels.set c r }) []

/-- Replaces the staged pair record whole (R37). -/
def doStagePair (p : Pair) (r : PairRecord) (s : State) : Answer :=
  accepted (s.withCommit { s.commit with pairs := s.commit.pairs.set p r }) []

/-- Replaces the staged timebase record whole (R38). -/
def doStageTimebase (x : Tb) (r : TimebaseRecord) (s : State) : Answer :=
  accepted (s.withCommit { s.commit with timebases := s.commit.timebases.set x r }) []

/-- Staged and active record of a channel (R39). -/
def doReadChannel (c : Chan) (s : State) : Answer :=
  accepted s (channelRecordBytes (s.commit.channels.get c) ++ channelRecordBytes (s.pattern.channels.get c))

/-- Staged and active record of a pair (R39). -/
def doReadPair (p : Pair) (s : State) : Answer :=
  accepted s (pairRecordBytes (s.commit.pairs.get p) ++ pairRecordBytes (s.pattern.pairs.get p))

/-! ## Issuing a ticket (R43 to R46) -/

/-- Records a ticket would carry (R44, check 3). -/
def requestSlots (t : TicketRequest) : Nat :=
  (Chan.all.filter (inSet t.channels)).length + (Pair.all.filter (inPairSet t.pairs)).length + (if t.record then 1 else 0)

/-- Check 1 of R44 fails. -/
def ticketMisfit (t : TicketRequest) : Bool :=
  (t.channels == 0 && t.pairs == 0 && !t.record)
    || (t.deadline.isSome && t.condition != .sync)
    || (t.record && t.boundaryKind == .any)

/-- Check 4 of R44 fails: an included pair's staged record names the other timebase. -/
def stagedElsewhere (c : CommitUnit) (t : TicketRequest) : Bool :=
  Pair.all.any fun p => inPairSet t.pairs p && decide ((c.pairs.get p).timebase ≠ t.timebase)

/-- Check 5 of R44 fails: an included channel's pair is not in the pair set and is bound elsewhere. -/
def boundElsewhere (p : PatternUnit) (t : TicketRequest) : Bool :=
  Chan.all.any fun c => inSet t.channels c && !inPairSet t.pairs (pairOf c) && decide (boundTo p c ≠ t.timebase)

/-- The Commit Unit's own checks, in order; the status of the first that fails (R44). -/
def ticketRefusal (s : State) (t : TicketRequest) : Option Status :=
  if ticketMisfit t then some .badArgument
  else if Config.queueCapacity ≤ s.commit.queue.length then some .noRoom
  else if freeSlots s.commit.queue < requestSlots t then some .noRoom
  else if stagedElsewhere s.commit t then some .badArgument
  else if boundElsewhere s.pattern t then some .badArgument
  else none

/-- The id after this one, going from 255 to 1 (R43). -/
def nextIdAfter (id : Byte) : Byte := if id = 255 then 1 else id + 1

/-- The first id from this one on that no pending ticket has (R43); `fuel` ids are tried. -/
def freeId : Nat → Byte → List Ticket → Byte
  | 0, id, _ => id
  | fuel + 1, id, queue =>
    if queue.any fun t => t.id = id then freeId fuel (nextIdAfter id) queue else id

/-- The ticket of a request: snapshots of the staged records it names (R45). -/
def makeTicket (c : CommitUnit) (t : TicketRequest) (id : Byte) : Ticket :=
  { id := id
    timebase := t.timebase
    condition := t.condition
    remaining := match t.condition with
      | .after k => k
      | .sync => 0
    deadline := t.deadline
    syncSeen := false
    boundaryKind := t.boundaryKind
    channels := (Chan.all.filter (inSet t.channels)).map fun ch => (ch, c.channels.get ch)
    pairs := (Pair.all.filter (inPairSet t.pairs)).map fun p => (p, c.pairs.get p)
    record := if t.record then some (c.timebases.get t.timebase) else none }

/-- Issues the ticket: id, snapshots, place at the tail, next id (R43, R45). -/
def issueTo (c : CommitUnit) (t : TicketRequest) : CommitUnit :=
  let id := freeId c.queue.length c.nextId c.queue
  { c with queue := c.queue ++ [makeTicket c t id], nextId := nextIdAfter id }

/-- ISSUE TICKET (R44, R45). -/
def doIssueTicket (t : TicketRequest) (s : State) : Answer :=
  match ticketRefusal s t with
  | some st => refusedWith s st
  | none =>
    let c := issueTo s.commit t
    accepted (s.withCommit c) [freeId s.commit.queue.length s.commit.nextId s.commit.queue, natByte (freeSlots c.queue)]

/-! ## Cancelling and listing (R60, R61, R64) -/

/-- CANCEL TICKET by id (R60). -/
def doCancelById (id : Byte) (s : State) : Answer :=
  if s.commit.queue.any fun t => t.id = id then
    accepted (s.withCommit { s.commit with queue := s.commit.queue.filter fun t => t.id ≠ id }) []
  else refusedWith s .notFound

/-- The queue without the tickets of a timebase (R53, R61, R62). -/
def withoutTickets (x : Tb) (queue : List Ticket) : List Ticket := queue.filter fun t => t.timebase ≠ x

/-- Pending tickets of a timebase. -/
def ticketCount (x : Tb) (queue : List Ticket) : Nat := (queue.filter fun t => t.timebase = x).length

/-- CANCEL TICKET all (R61). -/
def doCancelAll (x : Tb) (s : State) : Answer :=
  accepted (s.withCommit { s.commit with queue := withoutTickets x s.commit.queue })
    [natByte (ticketCount x s.commit.queue)]

/-- LIST TICKETS (R64). -/
def doListTickets (s : State) : Answer :=
  accepted s ([natByte s.commit.queue.length, natByte (freeSlots s.commit.queue)] ++ s.commit.queue.flatMap ticketEntry)

/-! ## At a boundary (R48 to R59) -/

/-- The kinds of boundary (R3, R4). -/
inductive Boundary
  | start | mid
deriving DecidableEq, Repr

/-- A START qualifies for every ticket, a MID for boundary_kind ANY (R48). -/
def qualifies (b : Boundary) (k : BoundaryKind) : Bool :=
  match b, k with
  | .start, _ => true
  | .mid, .any => true
  | .mid, .startOnly => false

/-- The decrement step for one ticket (R49). -/
def countDown (x : Tb) (b : Boundary) (t : Ticket) : Ticket :=
  match t.condition with
  | .after _ =>
    if t.timebase = x ∧ qualifies b t.boundaryKind ∧ t.remaining ≠ 0 then { t with remaining := t.remaining - 1 } else t
  | .sync => t

/-- Whether a ticket is ready, after the decrement step (R50). -/
def isReady (b : Boundary) (t : Ticket) : Bool :=
  qualifies b t.boundaryKind &&
    match t.condition with
    | .after _ => t.remaining == 0
    | .sync => t.syncSeen

/-- The application walk: the tickets of X to apply, oldest first, up to the first of X that is not ready, and the queue
without them (R51). -/
def takeReady (x : Tb) (b : Boundary) : List Ticket → List Ticket × List Ticket
  | [] => ([], [])
  | t :: rest =>
    if t.timebase = x then
      if isReady b t then (t :: (takeReady x b rest).1, (takeReady x b rest).2) else ([], t :: rest)
    else ((takeReady x b rest).1, t :: (takeReady x b rest).2)

/-- What a change of mode does to the outputs of a pair at the application (R116): override entry NONE in the new form, hold
levels INACTIVE, and to INDEPENDENT a waiting rise takes effect. The fresh selection is the boundary's (log 28). -/
def changeMode (o : OutputStage) (p : Pair) (m : PairMode) : OutputStage :=
  { o with
    overrides := o.overrides.set p (match m with
      | .independent => .independent .none .none
      | .complementary => .complementary .none)
    channels := .ofFn fun c =>
      let v := o.channels.get c
      if pairOf c = p then
        if m = .independent ∧ v.delay.isSome then { v with hold := .inactive, output := .active, delay := none }
        else { v with hold := .inactive }
      else v }

/-- The rises of a pair that wait under the records given are compared with their deadtimes: one whose count is at least its
deadtime takes effect (R119, R120). -/
def compareDelays (records : PatternUnit) (p : Pair) (o : OutputStage) : OutputStage :=
  { o with
    channels := .ofFn fun c =>
      let v := o.channels.get c
      if pairOf c = p ∧ v.delay.any fun n => decide (deadtimeOf records c ≤ n) then
        { v with output := .active, delay := none }
      else v }

/-- What the application of a pair record does to the outputs of its pair: a change of mode has the effects of R116; in a pair that
stays COMPLEMENTARY a waiting rise is compared with the new deadtime, at this application (R119, R120). -/
def applyToOutputs (records : PatternUnit) (e : Pair × PairRecord) (o : OutputStage) : OutputStage :=
  if (records.pairs.get e.1).mode ≠ e.2.mode then changeMode o e.1 e.2.mode
  else
    match e.2.mode with
    | .independent => o
    | .complementary => compareDelays { records with pairs := records.pairs.set e.1 e.2 } e.1 o

/-- Applies one pair record; the selection afresh is the boundary's (R56, R58, R116, R119, log 28). -/
def applyPair (s : State) (e : Pair × PairRecord) : State :=
  (s.withPattern { s.pattern with pairs := s.pattern.pairs.set e.1 e.2 }).withOutput (applyToOutputs s.pattern e s.output)

/-- Applies the timebase record of a ticket of X, if it carries one (R12, R56). -/
def applyRecord (x : Tb) (r : Option TimebaseRecord) (s : State) : State :=
  match r with
  | some v => s.setTimebase x { s.timebases.get x with active := v }
  | none => s

/-- Applies one channel record of a ticket of X, or discards it when the pair is bound elsewhere (R57). -/
def applyChannel (x : Tb) (s : State) (e : Chan × ChannelRecord) : State :=
  if boundTo s.pattern e.1 = x then
    s.withPattern { s.pattern with channels := s.pattern.channels.set e.1 e.2 }
  else s

/-- The channel records of a ticket of X that are discarded under the bindings given (R57). -/
def discardedCount (x : Tb) (p : PatternUnit) (t : Ticket) : Nat :=
  (t.channels.filter fun e => boundTo p e.1 ≠ x).length

/-- Applies a ticket of X: pair records, timebase record, channel records (R56). -/
def applyTicket (x : Tb) (t : Ticket) (s : State) : State :=
  t.channels.foldl (applyChannel x) (applyRecord x t.record (t.pairs.foldl applyPair s))

/-- The APPLIED notice of a ticket of X, given the state after its application (R59). -/
def appliedNotice (x : Tb) (t : Ticket) (s : State) : Posting :=
  { key := .applied x
    detail := .applied t.id (s.timebases.get x).cycles (discardedCount x s.pattern t) }

/-- Applies tickets of X in queue order and lists their notices (R59). -/
def applyTickets (x : Tb) : List Ticket → State → State × List Posting
  | [], s => (s, [])
  | t :: ts, s =>
    let s1 := applyTicket x t s
    ((applyTickets x ts s1).1, appliedNotice x t s1 :: (applyTickets x ts s1).2)

/-- Whether the deadline step concerns a ticket: an unmarked SYNC ticket of X with a deadline (R52). -/
def hasDeadline (x : Tb) (t : Ticket) : Bool :=
  decide (t.timebase = x) && t.condition == .sync && !t.syncSeen && t.deadline.isSome

/-- Whether a ticket expires in the deadline step (R52). -/
def runsOut (x : Tb) (t : Ticket) : Bool := hasDeadline x t && decide ((t.deadline.getD 0).toNat ≤ 1)

/-- The deadline of a ticket after the deadline step (R52). -/
def countDeadline (x : Tb) (t : Ticket) : Ticket :=
  if hasDeadline x t then { t with deadline := t.deadline.map (· - 1) } else t

/-- The EXPIRED notice of a ticket (R52). -/
def expiredNotice (t : Ticket) : Posting := { key := .expired t.timebase, detail := .expired t.id }

/-- The queue after the deadline step, and the notices of the tickets that expired, in queue order (R52). -/
def deadlineStep (x : Tb) (queue : List Ticket) : List Ticket × List Posting :=
  ((queue.filter fun t => !runsOut x t).map (countDeadline x), (queue.filter (runsOut x)).map expiredNotice)

/-- Replaces the commit queue. -/
def State.setQueue (s : State) (q : List Ticket) : State := s.withCommit { s.commit with queue := q }

/-- Steps 1 to 3 of the Commit Unit at a boundary of X, with the notices they raise (R48). -/
def commitBoundary (x : Tb) (b : Boundary) (s : State) : State × List Posting :=
  let walk := takeReady x b (s.commit.queue.map (countDown x b))
  let applied := applyTickets x walk.1 (s.setQueue walk.2)
  match b with
  | .mid => applied
  | .start =>
    let dl := deadlineStep x walk.2
    (applied.1.setQueue dl.1, applied.2 ++ dl.2)

/-- The cancellation that follows a stop of X, with its CANCELLED notice if a ticket was removed (R53, R62). -/
def cancelAtStop (x : Tb) (k : StopKind) (s : State) : State × List Posting :=
  let n := ticketCount x s.commit.queue
  (s.setQueue (withoutTickets x s.commit.queue),
    if n = 0 then [] else [{ key := .cancelled x, detail := .cancelled n k }])

/-- A qualified SYNC IN edge marks every pending SYNC ticket (R54). -/
def markTickets (queue : List Ticket) : List Ticket :=
  queue.map fun t => if t.condition = .sync then { t with syncSeen := true } else t

/-- EXPIRED: the deadline of the pending unmarked SYNC ticket with this id reaches 0 (R52, log 20). -/
def execExpired (id : Byte) (s : State) : Host.Outcome State Fault Refusal :=
  let gone := s.commit.queue.filter fun t => decide (t.id = id) && hasDeadline t.timebase t
  .next ((s.setQueue (s.commit.queue.filter fun t => !(decide (t.id = id) && hasDeadline t.timebase t))).post
    (gone.map expiredNotice))

end Sys2Proof.Machine
end

