-- ==== Sys2Proof/Machine/Timebases.lean ====
section
/-!
DEFINITION. The Timebase Unit (01_timebases_and_boundaries.md): counting, boundaries and what every block does at one, stops,
SYNC IN and SYNC OUT, and the requests on timebases.
-/

namespace Sys2Proof.Machine

/-! ## Notices of one event, by the block that raises them (R131) -/

/-- The notices that one event raises: the Commit Unit's, the Trip Unit's, the Output Stage's and the Timebase Unit's. -/
structure Raised where
  commit : List Posting
  trip : List Posting
  output : List Posting
  timebase : List Posting
deriving DecidableEq, Repr

def noneRaised : Raised := { commit := [], trip := [], output := [], timebase := [] }

def bothRaised (a b : Raised) : Raised :=
  { commit := a.commit ++ b.commit
    trip := a.trip ++ b.trip
    output := a.output ++ b.output
    timebase := a.timebase ++ b.timebase }

/-- Posts the notices of one event; those of different blocks in an order left open (R131, log 7). -/
def State.postRaised (s : State) (r : Raised) : State := s.postMerged [r.commit, r.trip, r.output, r.timebase]

/-! ## Boundaries (R3 to R6, R10, R11, R15) -/

/-- Whether a timebase is the SYNC OUT source (R15, R16). -/
def drivesSyncOut (source : SyncSource) (x : Tb) : Bool :=
  match source, x with
  | .a, .a => true
  | .b, .b => true
  | _, _ => false

/-- A START boundary begins the SYNC OUT pulse again (R15). -/
def pulseAt (x : Tb) (u : SyncUnit) : SyncUnit :=
  if drivesSyncOut u.source x then { u with pulse := some 0 } else u

/-- Counts a START boundary and drives SYNC OUT (R6, R15). -/
def countCycle (x : Tb) (s : State) : State :=
  (s.setTimebase x { s.timebases.get x with cycles := (s.timebases.get x).cycles + 1 }).withSync (pulseAt x s.sync)

/-- A timebase at rest: counter 0, direction UP, tick timer 0 (R3, R9). -/
def atZero (t : Timebase) : Timebase := { t with counter := 0, direction := .up, tickTimer := 0 }

/-- A timebase that stops (R9, R10). -/
def stopAtZero (t : Timebase) : Timebase := { atZero t with state := .stopped }

/-- A stop event of a timebase that has become STOPPED: the Commit Unit cancels, the Trip Unit releases, the Output Stage
drains, and the levels of its channels become INACTIVE (R11, R22). -/
def stopEvent (x : Tb) (k : StopKind) (s : State) : State × Raised :=
  let cancelled := cancelAtStop x k s
  let released := releaseSet (boundSet s.pattern x) cancelled.1
  let drained := drainSet (boundSet s.pattern x) released.1
  (drained.1.redrive x, { commit := cancelled.2, trip := released.2, output := drained.2, timebase := [] })

/-- The TIMEBASE notice of a stop that completes at a boundary (R10). -/
def stoppedNotice (x : Tb) : Posting := { key := .timebase x, detail := .timebase .stopped .stoppedAtBoundary }

/-- The TIMEBASE notice of a start by SYNC IN (R14). -/
def syncStartNotice (x : Tb) : Posting := { key := .timebase x, detail := .timebase .running .syncStart }

/-- Two lists of notices, in an order the spec leaves open (R53, log 7). -/
def eitherOrder (s : State) (l m : List Posting) : State × List Posting :=
  if l.isEmpty || m.isEmpty then (s, l ++ m)
  else (s.withFree (s.free + 1), if Config.pick s.free % 2 = 0 then l ++ m else m ++ l)

/-- The completion of a stop at a START boundary: the timebase stops, the stop event follows, and the CANCELLED and TIMEBASE
notices stand behind those of the boundary in either order (R10, R53). -/
def completeStop (x : Tb) (s : State) : State × Raised :=
  let stopped := (s.setTimebase x (stopAtZero (s.timebases.get x))).restartClocks x
  let ended := stopEvent x .atBoundary stopped
  let ordered := eitherOrder ended.1 ended.2.commit [stoppedNotice x]
  (ordered.1, { ended.2 with commit := ordered.2 })

/-- What the blocks do at a START boundary of X: the Commit Unit applies and expires tickets; the channels bound to X before
it are released and drained; a tick is counted on the deadtime delays; the new levels are driven (R5, R91, R107, R119). A pair
whose mode changed is selected afresh here, once, with the new levels (R116, log 28). -/
def takeStart (x : Tb) (ticked : Bool) (s : State) : State × Raised :=
  let before := boundSet s.pattern x
  let committed := commitBoundary x .start (countCycle x s)
  let released := releaseSet before committed.1
  let drained := drainSet before released.1
  let counted := if ticked then drained.1.countTick x else drained.1
  (counted.redrive x, { commit := committed.2, trip := released.2, output := drained.2, timebase := [] })

/-- A START boundary of X, with the completion of a stop when X is STOPPING (R5, R10). -/
def startBoundary (x : Tb) (ticked : Bool) (s : State) : State × Raised :=
  let started := takeStart x ticked s
  if (started.1.timebases.get x).state = .stopping then
    let ended := completeStop x started.1
    (ended.1, bothRaised started.2 ended.2)
  else started

/-- A MID boundary of X; the outputs are selected once, at its end (R4, R5, R116, log 28). -/
def midBoundary (x : Tb) (s : State) : State × Raised :=
  let committed := commitBoundary x .mid s
  ((committed.1.countTick x).redrive x, { commit := committed.2, trip := [], output := [], timebase := [] })

/-! ## Ticks (R2 to R4) -/

/-- The count after one tick, and the boundary it produces (R3, R4, log 19). -/
def advance (t : Timebase) : Timebase × Option Boundary :=
  match t.active.alignment, t.direction with
  | .edge, _ =>
    if t.counter.toNat + 1 < t.active.period.toNat then ({ t with counter := t.counter + 1, direction := .up }, none)
    else ({ t with counter := 0, direction := .up }, some .start)
  | .center, .up =>
    if t.counter.toNat < t.active.period.toNat then
      ({ t with counter := t.counter + 1 }, if t.counter + 1 = t.active.period then some .mid else none)
    else ({ t with counter := t.active.period - 1, direction := .down }, none)
  | .center, .down =>
    if t.counter.toNat ≤ 1 then ({ t with counter := 0, direction := .up }, some .start)
    else ({ t with counter := t.counter - 1 }, none)

/-- A tick of X: the counter advances, its levels and delays follow, and a boundary is handed on (R2, R5, R119). -/
def tickEvent (x : Tb) (s : State) : State :=
  let next := advance (s.timebases.get x)
  let s1 := s.setTimebase x { next.1 with tickTimer := 0 }
  match next.2 with
  | none => (s1.countTick x).redrive x
  | some .mid => (midBoundary x s1).1.postRaised (midBoundary x s1).2
  | some .start => (startBoundary x true s1).1.postRaised (startBoundary x true s1).2

/-- TICK: no tick while the timebase is STOPPED or WAIT_SYNC, or in reset (R2, log 3). -/
def execTick (x : Tb) (s : State) : Host.Outcome State Fault Refusal :=
  .next (if s.inReset ∨ isStopped (s.timebases.get x) then s else tickEvent x s)

/-! ## SYNC IN and SYNC OUT (R13 to R15) -/

/-- Whether a SYNC IN edge produces a boundary of a timebase (R14). -/
def edgeActs (t : Timebase) : Bool :=
  match t.state with
  | .stopped => false
  | .waitSync => true
  | .running | .stopping => t.active.syncRestart

/-- What a qualified SYNC IN edge does to one timebase (R14). -/
def edgeOn (x : Tb) (s : State) : State × Raised :=
  let t := s.timebases.get x
  if edgeActs t then
    match t.state with
    | .waitSync =>
      let r := startBoundary x false (s.setTimebase x { atZero t with state := .running, cycles := 0 })
      (r.1, { r.2 with timebase := [syncStartNotice x] })
    | .stopped | .running | .stopping => startBoundary x false (s.setTimebase x (atZero t))
  else (s, noneRaised)

/-- The other timebase. -/
def otherTb : Tb → Tb
  | .a => .b
  | .b => .a

/-- The timebase that a SYNC IN edge reaches first, which is open when it acts on both (R14, log 8). -/
def firstAtEdge (s : State) : State × Tb :=
  if edgeActs (s.timebases.get .a) && edgeActs (s.timebases.get .b) then
    (s.withFree (s.free + 1), if Config.pick s.free % 2 = 0 then .a else .b)
  else (s, .a)

/-- A qualified SYNC IN edge: it marks the SYNC tickets and then acts on both timebases (R14, R54). -/
def syncEdge (s : State) : State :=
  let chosen := firstAtEdge (s.setQueue (markTickets s.commit.queue))
  let one := edgeOn chosen.2 chosen.1
  let two := edgeOn (otherTb chosen.2) one.1
  two.1.postRaised (bothRaised one.2 two.2)

/-- The level that the selected edge leads to (R13, R16). -/
def edgeLevel : SyncEdge → Level
  | .rising => .high
  | .falling => .low

/-- Sets the level of the SYNC IN pin. -/
def State.setSyncPin (s : State) (l : Level) : State := s.withPins { s.pins with syncIn := l }

/-- Changes the filtered level of SYNC IN; the selected edge is qualified, the other does nothing more (R13). -/
def changeSyncLevel (l : Level) (s : State) : State :=
  let s1 := s.withSync { s.sync with filtered := l, agreement := 0 }
  if l = edgeLevel s.sync.edge then syncEdge s1 else s1

/-- Whether a sample of SYNC IN would be the fourth that agrees with the other level (R13). -/
def changesSyncLevel (u : SyncUnit) (l : Level) : Bool := decide (l ≠ u.filtered) && decide (4 ≤ u.agreement + 1)

/-- A sample of SYNC IN (R13). -/
def sampleSyncIn (l : Level) (s : State) : State :=
  if changesSyncLevel s.sync l then changeSyncLevel l s
  else s.withSync { s.sync with agreement := if l = s.sync.filtered then 0 else s.sync.agreement + 1 }

/-- SYNC_IN_SAMPLE: the pin has this level and a sample is taken; none while RST is low (R13, log 4, 16). -/
def execSyncInSample (l : Level) (s : State) : Host.Outcome State Fault Refusal :=
  .next (if s.inReset then s.setSyncPin l else sampleSyncIn l (s.setSyncPin l))

/-- QUALIFIED_SYNC_IN_EDGE: the filtered level arrives at the selected level, and the edge acts (R13, R14, log 3, 4). -/
def execQualifiedSyncInEdge (s : State) : Host.Outcome State Fault Refusal :=
  let l := edgeLevel s.sync.edge
  .next (if s.inReset then s else changeSyncLevel l (s.setSyncPin l))

/-- SYNC_OUT_PULSE_END: SYNC OUT returns low (R15). -/
def execSyncOutPulseEnd (s : State) : Host.Outcome State Fault Refusal :=
  .next (s.withSync { s.sync with pulse := none })

/-! ## Requests (R8 to R10, R16, R17) -/

/-- Starts a timebase from STOPPED or WAIT_SYNC, with its START boundary (R8). -/
def startNow (x : Tb) (s : State) : State :=
  let r := startBoundary x false
    (s.setTimebase x { atZero (s.timebases.get x) with state := .running, cycles := 0 })
  r.1.postRaised r.2

/-- START TIMEBASE (R8); refused WRONG_STATE it still carries the state (R167). -/
def doStartTimebase (x : Tb) (m : StartMode) (s : State) : Answer :=
  let t := s.timebases.get x
  match t.state, m with
  | .stopped, .now => accepted (startNow x s) [timebaseStateByte ((startNow x s).timebases.get x).state]
  | .stopped, .atSync =>
    accepted (s.setTimebase x { t with state := .waitSync, cycles := 0 }) [timebaseStateByte .waitSync]
  | .waitSync, .now => accepted (startNow x s) [timebaseStateByte ((startNow x s).timebases.get x).state]
  | .waitSync, .atSync => accepted s [timebaseStateByte .waitSync]
  | .stopping, _ => accepted (s.setTimebase x { t with state := .running }) [timebaseStateByte .running]
  | .running, _ => { state := s, status := .wrongState, content := [timebaseStateByte .running], action := none }

/-- Stops a timebase at once, with its stop event. A timebase in WAIT_SYNC counts as stopped already for the deadtime clocks
(R9, R120, log 12). -/
def stopNow (x : Tb) (s : State) : State :=
  let t := s.timebases.get x
  let s1 := s.setTimebase x (stopAtZero t)
  let r := stopEvent x .immediate (if isStopped t then s1 else s1.restartClocks x)
  r.1.postRaised r.2

/-- STOP TIMEBASE with mode IMMEDIATE (R9). -/
def stopImmediate (x : Tb) (s : State) : Answer :=
  if (s.timebases.get x).state = .stopped then accepted s [timebaseStateByte .stopped]
  else accepted (stopNow x s) [timebaseStateByte .stopped]

/-- STOP TIMEBASE with mode AT_BOUNDARY (R10). -/
def stopAtBoundary (x : Tb) (s : State) : Answer :=
  let t := s.timebases.get x
  match t.state with
  | .running => accepted (s.setTimebase x { t with state := .stopping }) [timebaseStateByte .stopping]
  | .stopping => accepted s [timebaseStateByte .stopping]
  | .waitSync => accepted (s.setTimebase x (stopAtZero t)) [timebaseStateByte .stopped]
  | .stopped => accepted s [timebaseStateByte .stopped]

/-- STOP TIMEBASE (R9, R10). -/
def doStopTimebase (x : Tb) (m : StopKind) (s : State) : Answer :=
  match m with
  | .immediate => stopImmediate x s
  | .atBoundary => stopAtBoundary x s

/-- READ TIMEBASE (R17). -/
def doReadTimebase (x : Tb) (s : State) : Answer :=
  let t := s.timebases.get x
  accepted s
    ([timebaseStateByte t.state] ++ word16Bytes t.counter ++ [directionByte t.direction] ++ word32Bytes t.cycles
      ++ timebaseRecordBytes t.active ++ timebaseRecordBytes (s.commit.timebases.get x)
      ++ [syncSourceByte s.sync.source, syncEdgeByte s.sync.edge, levelByte s.sync.filtered])

/-- CONFIGURE SYNC (R16). -/
def doConfigureSync (source : SyncSource) (edge : SyncEdge) (s : State) : Answer :=
  accepted (s.withSync { s.sync with source := source, edge := edge }) []

end Sys2Proof.Machine
end

