-- ==== Sys2Proof/Machine/Requests.lean ====
section
/-!
DEFINITION. The Request Dispatcher (09_requests_and_replies.md): the general requests, the checks, the owner's action, the
reply cache and the hand-over of the reply; and the meaning of every row that is an accepted frame (log 1, 2, 23).
-/

namespace Sys2Proof.Machine

/-! ## Requests of the Dispatcher and of the Link Interface (R159, R174 to R176) -/

/-- IDENTIFY: vendor code 0x0E21, part code 0x5308, revision 1, node address, strap_fault and the fixed counts (R174, R185). -/
def doIdentify (s : State) : Answer :=
  accepted s
    ([0x0E, 0x21, 0x53, 0x08, 0x01, s.link.nodeAddress, boolByte s.link.strapFault] ++ [8, 2, 8, 16, 4, 8, 27])

/-- READ STATUS (R175). -/
def doReadStatus (s : State) : Answer :=
  accepted s
    [ enableByte s.output.enable
    , timebaseStateByte (s.timebases.get .a).state
    , timebaseStateByte (s.timebases.get .b).state
    , natByte s.commit.queue.length
    , natByte (freeSlots s.commit.queue)
    , natByte (unfetchedCount s)
    , natByte s.notices.queue.length
    , boolByte s.trip.frozen
    , natByte (routeCount s .tripped)
    , natByte (routeCount s .releasing) ]

/-- SET LINK: the settings are the pending action of the reply (R159). -/
def doSetLink (v : LinkSettings) (s : State) : Answer :=
  { state := s, status := .ok, content := settingsBytes v, action := some (.settings v) }

/-- RESET CONTROLLER: the reset is the pending action of the reply (R176). -/
def doResetController (s : State) : Answer :=
  { state := s, status := .ok, content := [], action := some .controllerReset }

/-! ## Carrying out a request (R165) -/

/-- The owning block carries out a request whose fields are in range (R165, step 4). -/
def perform (r : Request) (s : State) : Answer :=
  match r with
  | .identify => doIdentify s
  | .readStatus => doReadStatus s
  | .setLink v => doSetLink v s
  | .resetController => doResetController s
  | .startTimebase x m => doStartTimebase x m s
  | .stopTimebase x m => doStopTimebase x m s
  | .readTimebase x => doReadTimebase x s
  | .configureSync source edge => doConfigureSync source edge s
  | .stageChannel c v => doStageChannel c v s
  | .stagePair p v => doStagePair p v s
  | .stageTimebase x v => doStageTimebase x v s
  | .readChannel c => doReadChannel c s
  | .readPair p => doReadPair p s
  | .issueTicket t => doIssueTicket t s
  | .cancelById id => doCancelById id s
  | .cancelAll x => doCancelAll x s
  | .listTickets => doListTickets s
  | .setOverride t => doSetOverride t s
  | .enableOutputs => doEnableOutputs s
  | .disableOutputs m => doDisableOutputs m s
  | .readOutputs => doReadOutputs s
  | .configureTripInput i v => doConfigureTripInput i v s
  | .defineRoute slot v => doDefineRoute slot v s
  | .removeRoute slot => doRemoveRoute slot s
  | .clearTrip slot => doClearTrip slot s
  | .readTrips => doReadTrips s
  | .freezeProtection => doFreezeProtection s
  | .fetchNotices n => doFetchNotices n s
  | .ackNotices t => doAckNotices t s
  | .setAttentionMask set => doSetAttentionMask set s

/-- The general checks in their order, then the owner (R165). -/
def carryOut (kind : Byte) (payload : List Byte) (s : State) : Answer :=
  match requestLength kind with
  | none => refusedWith s .unknownKind
  | some n =>
    if payload.length ≠ n then refusedWith s .badLength
    else
      match readRequest kind payload with
      | none => refusedWith s .badArgument
      | some r => perform r s

/-! ## Taking a frame (R164, R168 to R173) -/

/-- Hands a reply to the transmitter, which enters TURNAROUND under the turnaround in force (R154). -/
def handReply (r : Reply) (s : State) : State :=
  s.withLink { s.link with transmitter := .turnaround r 0 s.link.settings.turnaround }

/-- An addressed request that the cache does not answer: checked, carried out, remembered and answered (R164, R173). -/
def answerNew (tag kind : Byte) (payload : List Byte) (check : Word16) (s : State) : State :=
  let a := carryOut kind payload s
  let frame := replyFrame s.link.nodeAddress tag kind a
  handReply { frame := frame, action := a.action }
    (a.state.withCache (remember s.cache { tag := tag, check := check, frame := frame }))

/-- An addressed request: a retransmission draws the cached reply with no pending action, any other is answered anew (R164,
R171 to R173). -/
def acceptAddressed (tag kind : Byte) (payload : List Byte) (s : State) : State :=
  let check := frameCheck s.link.nodeAddress tag kind payload
  match cachedReply s.cache tag check with
  | some e => handReply { frame := e.frame, action := none } s
  | none => answerNew tag kind payload check s

/-- A broadcast request: no reply, and a LINK event when it is not carried out (R168, R169). -/
def acceptBroadcast (kind : Byte) (payload : List Byte) (s : State) : State :=
  if broadcastAllowed kind then
    if (carryOut kind payload s).status = .ok then (carryOut kind payload s).state
    else s.post [linkEvent .broadcastRefused]
  else s.post [linkEvent .broadcastKind]

/-- The line and the receiver at the arrival of the last byte of a frame: the stop bit is high, and the receiver is in HUNT
(R144, R149, R153, log 1). -/
def afterLastByte (s : State) : State :=
  (s.withLink
    { s.link with
      receiver := .hunt, bits := .waiting, gapTimer := none, highWait := none, lowTime := none, breakSeen := false }).withPins
    { s.pins with line := .high }

/-- A frame with a good check value arrives, addressed to the part or broadcast; a frame that the receiver cannot hear is lost
(R150, R153, R164, log 1). -/
def acceptFrame (cast : Cast) (tag kind : Byte) (payload : List Byte) (s : State) : State :=
  if deaf s then s
  else
    match cast with
    | .addressed => acceptAddressed tag kind payload (afterLastByte s)
    | .broadcast => acceptBroadcast kind payload (afterLastByte s)

/-- The part after an accepted frame, as the outcome of its row. -/
def frameArrives (h : Header) (kind : Byte) (payload : List Byte) (s : State) : Host.Outcome State Fault Refusal :=
  .next (acceptFrame h.cast h.tag kind payload s)

/-! ## One meaning for each row -/

/-- IDENTIFY (R174). -/
def execIdentify (h : Header) (args : List Byte) (s : State) : Host.Outcome State Fault Refusal :=
  frameArrives h 0x01 args s

/-- READ STATUS (R175). -/
def execReadStatus (h : Header) (args : List Byte) (s : State) : Host.Outcome State Fault Refusal :=
  frameArrives h 0x02 args s

/-- SET LINK (R159). -/
def execSetLink (h : Header) (args : List Byte) (s : State) : Host.Outcome State Fault Refusal :=
  frameArrives h 0x03 args s

/-- RESET CONTROLLER (R176). -/
def execResetController (h : Header) (args : List Byte) (s : State) : Host.Outcome State Fault Refusal :=
  frameArrives h 0x04 args s

/-- START TIMEBASE (R8). -/
def execStartTimebase (h : Header) (args : List Byte) (s : State) : Host.Outcome State Fault Refusal :=
  frameArrives h 0x11 args s

/-- READ TIMEBASE (R17). -/
def execReadTimebase (h : Header) (args : List Byte) (s : State) : Host.Outcome State Fault Refusal :=
  frameArrives h 0x13 args s

/-- CONFIGURE SYNC (R16). -/
def execConfigureSync (h : Header) (args : List Byte) (s : State) : Host.Outcome State Fault Refusal :=
  frameArrives h 0x14 args s

/-- STAGE CHANNEL (R36). -/
def execStageChannel (h : Header) (args : List Byte) (s : State) : Host.Outcome State Fault Refusal :=
  frameArrives h 0x20 args s

/-- STAGE PAIR (R37). -/
def execStagePair (h : Header) (args : List Byte) (s : State) : Host.Outcome State Fault Refusal :=
  frameArrives h 0x21 args s

/-- STAGE TIMEBASE (R38). -/
def execStageTimebase (h : Header) (args : List Byte) (s : State) : Host.Outcome State Fault Refusal :=
  frameArrives h 0x22 args s

/-- READ CHANNEL (R39). -/
def execReadChannel (h : Header) (args : List Byte) (s : State) : Host.Outcome State Fault Refusal :=
  frameArrives h 0x23 args s

/-- READ PAIR (R39). -/
def execReadPair (h : Header) (args : List Byte) (s : State) : Host.Outcome State Fault Refusal :=
  frameArrives h 0x24 args s

/-- ISSUE TICKET (R44, R45). -/
def execIssueTicket (h : Header) (args : List Byte) (s : State) : Host.Outcome State Fault Refusal :=
  frameArrives h 0x30 args s

/-- LIST TICKETS (R64). -/
def execListTickets (h : Header) (args : List Byte) (s : State) : Host.Outcome State Fault Refusal :=
  frameArrives h 0x32 args s

/-- SET OVERRIDE (R112). -/
def execSetOverride (h : Header) (args : List Byte) (s : State) : Host.Outcome State Fault Refusal :=
  frameArrives h 0x40 args s

/-- ENABLE OUTPUTS (R104). -/
def execEnableOutputs (h : Header) (args : List Byte) (s : State) : Host.Outcome State Fault Refusal :=
  frameArrives h 0x41 args s

/-- READ OUTPUTS (R122). -/
def execReadOutputs (h : Header) (args : List Byte) (s : State) : Host.Outcome State Fault Refusal :=
  frameArrives h 0x43 args s

/-- CONFIGURE TRIP INPUT (R72). -/
def execConfigureTripInput (h : Header) (args : List Byte) (s : State) : Host.Outcome State Fault Refusal :=
  frameArrives h 0x50 args s

/-- DEFINE ROUTE (R81, R82). -/
def execDefineRoute (h : Header) (args : List Byte) (s : State) : Host.Outcome State Fault Refusal :=
  frameArrives h 0x51 args s

/-- REMOVE ROUTE (R84). -/
def execRemoveRoute (h : Header) (args : List Byte) (s : State) : Host.Outcome State Fault Refusal :=
  frameArrives h 0x52 args s

/-- CLEAR TRIP (R88). -/
def execClearTrip (h : Header) (args : List Byte) (s : State) : Host.Outcome State Fault Refusal :=
  frameArrives h 0x53 args s

/-- FREEZE PROTECTION (R98). -/
def execFreezeProtection (h : Header) (args : List Byte) (s : State) : Host.Outcome State Fault Refusal :=
  frameArrives h 0x55 args s

/-- FETCH NOTICES (R133). -/
def execFetchNotices (h : Header) (args : List Byte) (s : State) : Host.Outcome State Fault Refusal :=
  frameArrives h 0x60 args s

/-- ACK NOTICES (R135). -/
def execAckNotices (h : Header) (args : List Byte) (s : State) : Host.Outcome State Fault Refusal :=
  frameArrives h 0x61 args s

/-- SET ATTENTION MASK (R137). -/
def execSetAttentionMask (h : Header) (args : List Byte) (s : State) : Host.Outcome State Fault Refusal :=
  frameArrives h 0x62 args s

/-- STOP TIMEBASE with mode byte IMMEDIATE (R9, log 2). -/
def execStopTimebaseImmediate (h : Header) (timebase : Byte) (s : State) : Host.Outcome State Fault Refusal :=
  frameArrives h 0x12 [timebase, 0x00] s

/-- STOP TIMEBASE with mode byte AT_BOUNDARY (R10, log 2). -/
def execStopTimebaseAtBoundary (h : Header) (timebase : Byte) (s : State) : Host.Outcome State Fault Refusal :=
  frameArrives h 0x12 [timebase, 0x01] s

/-- CANCEL TICKET with form byte 0, by id (R60, log 2). -/
def execCancelTicketById (h : Header) (id : Byte) (s : State) : Host.Outcome State Fault Refusal :=
  frameArrives h 0x31 [0x00, id] s

/-- CANCEL TICKET with form byte 1, all (R61, log 2). -/
def execCancelTicketAll (h : Header) (timebase : Byte) (s : State) : Host.Outcome State Fault Refusal :=
  frameArrives h 0x31 [0x01, timebase] s

/-- DISABLE OUTPUTS with mode byte IMMEDIATE (R105, log 2). -/
def execDisableOutputsImmediate (h : Header) (s : State) : Host.Outcome State Fault Refusal :=
  frameArrives h 0x42 [0x00] s

/-- DISABLE OUTPUTS with mode byte GRACEFUL (R106, log 2). -/
def execDisableOutputsGraceful (h : Header) (s : State) : Host.Outcome State Fault Refusal :=
  frameArrives h 0x42 [0x01] s

/-- READ TRIPS, with the trip pins at the levels the row gives (R74, R99, log 18). -/
def execReadTrips (h : Header) (args : List Byte) (raw : TripFile Level) (s : State) : Host.Outcome State Fault Refusal :=
  frameArrives h 0x54 args (s.withPins { s.pins with trip := raw })

/-- UNKNOWN_KIND: an addressed frame whose kind names no request kind (R165, log 23). -/
def execUnknownKind (tag kind : Byte) (args : List Byte) (s : State) : Host.Outcome State Fault Refusal :=
  .next (acceptFrame .addressed tag kind args s)

/-- RETRANSMISSION: an addressed frame sent again; the cache answers it while it still holds the entry (R171, R173, log 23). -/
def execRetransmission (tag kind : Byte) (args : List Byte) (s : State) : Host.Outcome State Fault Refusal :=
  .next (acceptFrame .addressed tag kind args s)

/-- BROADCAST_KIND: a broadcast frame of a kind outside the list of R168 (R169, log 23). -/
def execBroadcastKind (tag kind : Byte) (args : List Byte) (s : State) : Host.Outcome State Fault Refusal :=
  .next (acceptFrame .broadcast tag kind args s)

end Sys2Proof.Machine
end

