-- ==== Sys2Proof/Machine/Resets.lean ====
section
/-!
DEFINITION. The three resets: controller reset (R177), link reset (R157, R158) and power-on reset (R179 to R181).
-/

namespace Sys2Proof.Machine

/-! ## Controller reset (R177) -/

/-- The Timebase Unit's shared part after a controller reset: defaults, SYNC OUT low, the filter kept (R13, R18). -/
def syncAfterReset (u : SyncUnit) : SyncUnit := { u with source := .a, edge := .rising, pulse := none }

/-- The RESET notice (R140, R141). -/
def resetNotice (c : ResetCause) (strapFault : Bool) : Notice :=
  { key := .reset, count := 1, first := .reset c strapFault, last := .reset c strapFault, token := none }

/-- The TRIP notice that a controller reset posts again for a slot whose route is TRIPPED or RELEASING (R101). -/
def repostNotice (n : Slot) : Option Route → Option Posting
  | none => none
  | some r => if r.state = .armed then none else some (tripNotice n r .repost)

/-- The TRIP notices that a controller reset posts again, in route index order (R101). -/
def repostNotices (routes : SlotFile (Option Route)) : List Posting :=
  Slot.all.filterMap fun n => repostNotice n (routes.get n)

/-- The Notice Unit at a controller reset, before the Trip Unit's notices: the RESET notice alone, the mask full, the token
counter kept (R141). -/
def noticesAfterReset (u : NoticeUnit) (strapFault : Bool) : NoticeUnit :=
  { u with queue := [resetNotice .controller strapFault], mask := allClasses }

/-- The controller reset, one event (R177): trip, link and cache are kept. -/
def controllerReset (s : State) : State :=
  let cleared := (((((s.withTimebases (.ofFn fun _ => .default)).withSync (syncAfterReset s.sync)).withPattern
    .default).withCommit .default).withOutput .default).withNotices (noticesAfterReset s.notices s.link.strapFault)
  cleared.post (repostNotices s.trip.routes)

/-! ## Link reset (R157, R158) -/

/-- The link settings that the straps give (R145). -/
def strapSettings (rate : Rate) : LinkSettings := { rate := rate, turnaround := 2, gapLimit := 4 }

/-- The Link Interface after a link reset, at the event of the break (R156, R157). -/
def linkAfterBreak (l : LinkInterface) : LinkInterface :=
  { l with
    settings := strapSettings l.strapRate
    receiver := .hunt
    bits := .waiting
    gapTimer := none
    transmitter := .idle
    highWait := some 0
    lowTime := some (l.lowTime.getD 0)
    breakSeen := true }

/-- The pending action of the reply that a link reset abandons (R154, R158). -/
def abandoned (t : Transmitter) : Option PendingAction :=
  match t with
  | .turnaround r _ _ => r.action
  | .idle | .sending _ _ => none

/-- The link reset: settings, receiver, transmitter and cache, and the LINK notice; then a pending controller reset of the reply
it abandons takes effect, and pending settings are dropped (R157, R158). -/
def linkReset (s : State) : State :=
  let s1 := ((s.withLink (linkAfterBreak s.link)).withCache []).post [linkEvent .lineBreak]
  match abandoned s.link.transmitter with
  | some .controllerReset => controllerReset s1
  | some (.settings _) => s1
  | none => s1

/-! ## Power-on reset (R179 to R181) -/

/-- Node address and strap_fault from the address straps (R146). -/
def strapAddress (straps : BitVec 5) : Byte × Bool :=
  if straps = 0 ∨ straps = 31 then (30, true) else (straps.zeroExtend 8, false)

/-- Strap rate from RATE1 and RATE0 (R145). -/
def strapRateOf (straps : BitVec 2) : Rate :=
  match straps.toNat with
  | 0 => .r115200
  | 1 => .r460800
  | 2 => .r1000000
  | _ => .r2000000

/-- The Link Interface at the end of power-on reset (R145, R146, R180, R181). -/
def linkAtPowerOn (pins : Contacts) : LinkInterface :=
  { settings := strapSettings (strapRateOf pins.rate)
    strapRate := strapRateOf pins.rate
    nodeAddress := (strapAddress pins.address).1
    strapFault := (strapAddress pins.address).2
    receiver := .hunt
    bits := .waiting
    gapTimer := none
    transmitter := .idle
    highWait := some 0
    lowTime := if pins.line = .low then some 0 else none
    breakSeen := false }

/-- The Notice Unit at the end of power-on reset (R140). -/
def noticesAtPowerOn (strapFault : Bool) : NoticeUnit :=
  { queue := [resetNotice .powerOn strapFault], nextToken := 1, mask := allClasses }

/-- Every block at its power-on values (R180); the queue of commands and the counter of free choices go on. -/
def poweredOn (pins : Contacts) (s : State) : State :=
  { link := linkAtPowerOn pins
    cache := []
    timebases := .ofFn fun _ => .default
    sync := { source := .a, edge := .rising, filtered := pins.syncIn, agreement := 0, pulse := none }
    pattern := .default
    commit := .default
    trip := .default
    output := .default
    notices := noticesAtPowerOn (strapAddress pins.address).2
    pins := pins
    inReset := false
    free := s.free
    pending := s.pending }

/-- POWER_ON_RESET: RST is low. Everything in progress is abandoned, the pads float and the shared lines are let go; straps read
before stay until the reset ends (R179, log 16). -/
def execPowerOnReset (s : State) : Host.Outcome State Fault Refusal :=
  let held := (poweredOn s.pins s).withInReset true
  .next ((held.withLink
    { held.link with
      settings := s.link.settings, strapRate := s.link.strapRate, nodeAddress := s.link.nodeAddress
      strapFault := s.link.strapFault, lowTime := none }).withNotices
    { queue := [], nextToken := 1, mask := allClasses })

/-- END_OF_POWER_ON_RESET: RST is high again; the straps are read and every block takes its power-on values (R180, R181). -/
def execEndOfPowerOnReset (pins : Contacts) (s : State) : Host.Outcome State Fault Refusal := .next (poweredOn pins s)

end Sys2Proof.Machine
end

