-- ==== Sys2Proof/Machine/Link.lean ====
section
/-!
DEFINITION. The Link Interface (08_the_message_link.md): the bit receiver, the receiver's states, the transmitter, the break; and
the meaning of every row that is an event on the line or in the transmitter (log 3, 4, 21, 22).
-/

namespace Sys2Proof.Machine

/-! ## The line -/

/-- Whether the part is SENDING; the line is not measured then (R156). -/
def isSending (l : LinkInterface) : Bool :=
  match l.transmitter with
  | .sending _ _ => true
  | .idle | .turnaround _ _ _ => false

/-- Sets the level of the LINE contact. -/
def State.setLinePin (s : State) (l : Level) : State := s.withPins { s.pins with line := l }

/-- The line goes high: the measurement of low time stops, another break can be detected, and the wait for one bit time of high
begins again (R156, R157). -/
def lineHigh (s : State) : State :=
  (s.setLinePin .high).withLink
    { s.link with lowTime := none, breakSeen := false, highWait := s.link.highWait.map fun _ => 0 }

/-- The line is low: the measurement of low time runs, except while SENDING, from `since` core periods if it starts here; and
the wait for the line to be high begins again when it comes (R156, R157). -/
def lineLow (since : Nat) (s : State) : State :=
  (s.setLinePin .low).withLink
    { s.link with
      lowTime := if isSending s.link then none else some (s.link.lowTime.getD since)
      highWait := s.link.highWait.map fun _ => 0 }

/-! ## The receiver (R149 to R153) -/

/-- The receiver in a state other than HUNT, with its gap timer running from 0 (R149, R151). -/
def State.receiverAt (s : State) (r : Receiver) : State := s.withLink { s.link with receiver := r, gapTimer := some 0 }

/-- The receiver back in HUNT; its gap timer does not run there (R149, R151). -/
def State.backToHunt (s : State) : State := s.withLink { s.link with receiver := .hunt, gapTimer := none }

/-- The frame is abandoned or discarded with a LINK notice (R162). -/
def State.dropFrame (s : State) (r : LinkReason) : State := s.backToHunt.post [linkEvent r]

/-- Judges a frame at the arrival of its second check byte (R146, R153). -/
def judgeFrame (head : FrameHead) (payload : List Byte) (check : Word16) (s : State) : State :=
  if checkValue ([head.address, head.tag, head.kind, head.length] ++ payload) ≠ check then s.dropFrame .checkFail
  else if head.address = s.link.nodeAddress then acceptAddressed head.tag head.kind payload s.backToHunt
  else if head.address = broadcastAddress then acceptBroadcast head.kind payload s.backToHunt
  else s.backToHunt

/-- A byte that arrived whole, by the state of the receiver (R149). -/
def receiveByte (b : Byte) (s : State) : State :=
  match s.link.receiver with
  | .hunt => if b = requestStart then s.receiverAt .headerAddress else s
  | .headerAddress => s.receiverAt (.headerTag b)
  | .headerTag address => s.receiverAt (.headerKind address b)
  | .headerKind address tag => s.receiverAt (.headerLength address tag b)
  | .headerLength address tag kind =>
    let head : FrameHead := { address := address, tag := tag, kind := kind, length := b }
    if maxPayload < b.toNat then s.dropFrame .tooLong
    else if b = 0 then s.receiverAt (.checkHigh head [])
    else s.receiverAt (.payload head [])
  | .payload head taken =>
    if head.length.toNat ≤ taken.length + 1 then s.receiverAt (.checkHigh head (taken ++ [b]))
    else s.receiverAt (.payload head (taken ++ [b]))
  | .checkHigh head payload => s.receiverAt (.checkLow head payload b)
  | .checkLow head payload high => judgeFrame head payload (word16 high b) s

/-- The bit receiver waits for the next falling edge (R144). -/
def State.bitsWait (s : State) : State := s.withLink { s.link with bits := .waiting }

/-- A byte arrives whole: its stop bit sample is high (R144, R149). -/
def byteArrives (b : Byte) (s : State) : State := receiveByte b (lineHigh s).bitsWait

/-- A byte arrives with a framing error: its stop bit sample is low (R144, R149, R152). Where no fall was recorded before, the low
time of R156 counts from this sample (log 3). -/
def framingError (s : State) : State :=
  let s1 := (lineLow 0 s).bitsWait
  if s.link.receiver = .hunt then s1 else s1.dropFrame .framing

/-- BYTE_ARRIVAL: a byte arrives whole; no byte is taken while the receiver does not listen (R149, R150, R157). -/
def execByteArrival (b : Byte) (s : State) : Host.Outcome State Fault Refusal :=
  .next (if takesNoByte s then s else byteArrives b s)

/-- FRAMING: a byte arrives with a framing error (R150, R152); the row does not bring the fall of the line (log 3). -/
def execFraming (s : State) : Host.Outcome State Fault Refusal :=
  .next (if takesNoByte s then s else framingError s)

/-- CHECK_FAIL: the second check byte of a frame arrives and the check value differs (R153, log 22). -/
def execCheckFail (s : State) : Host.Outcome State Fault Refusal :=
  .next (if deaf s then s else (afterLastByte s).post [linkEvent .checkFail])

/-- FRAME_FOR_ANOTHER_NODE: the second check byte of a good frame for another node arrives (R153, log 22). -/
def execFrameForAnotherNode (s : State) : Host.Outcome State Fault Refusal :=
  .next (if deaf s then s else afterLastByte s)

/-- TOO_LONG: a length above 60 arrives in HEADER (R149, log 22). -/
def execTooLong (s : State) : Host.Outcome State Fault Refusal :=
  .next (if deaf s then s else (afterLastByte s).post [linkEvent .tooLong])

/-- The gap timer expires (R151). -/
def gapExpires (s : State) : State := s.dropFrame .gap

/-- GAP: the gap timer expires; in HUNT, and while a start bit has stopped it, it does not run (R150, R151, log 3). -/
def execGap (s : State) : Host.Outcome State Fault Refusal :=
  .next (if deaf s ∨ s.link.receiver = .hunt ∨ s.link.gapTimer = none then s else gapExpires s)

/-! ## The bit receiver (R144) -/

/-- LINE_FALLING_EDGE: the line falls; a receiver that listens and is between bytes sees a possible start bit (R144, R150, R156,
R157). A line that is low already does not fall (log 3). A second fall inside the half bit time of the first begins no new start
bit (log 29). -/
def execLineFallingEdge (s : State) : Host.Outcome State Fault Refusal :=
  .next (
    if s.pins.line = .low then s
    else if s.inReset then s.setLinePin .low
    else
      let s1 := lineLow 0 s
      if !takesNoByte s && decide (s.link.bits = .waiting) then s1.withLink { s1.link with bits := .edge 0 } else s1)

/-- A start bit is confirmed: sampling begins and the gap timer stops (R144, R151). -/
def confirmStart (s : State) : State := s.withLink { s.link with bits := .sampling 0 0 0, gapTimer := none }

/-- Whether a byte is being sampled already. -/
def isSampling (b : BitReceiver) : Bool :=
  match b with
  | .sampling _ _ _ => true
  | .waiting | .edge _ => false

/-- START_BIT_CONFIRMED: the line is low half a bit time after its fall (R144, R151). The row is taken also where no fall was
seen, and on a line that has stayed low since the last arrival or completion, whose low time goes on (log 3). -/
def execStartBitConfirmed (s : State) : Host.Outcome State Fault Refusal :=
  .next (if takesNoByte s ∨ isSampling s.link.bits then s
    else confirmStart (lineLow (bitPeriods s.link.settings.rate / 2) s))

/-- LINE_RISING_EDGE: the line goes high (R156, R157). The row is taken also on a line that is recorded high, where no rise can
occur: the wait for one bit time of high begins again at 0 (log 3). -/
def execLineRisingEdge (s : State) : Host.Outcome State Fault Refusal :=
  .next (if s.inReset then s.setLinePin .high else lineHigh s)

/-- The receiver takes start bits again (R157, R181). -/
def highWaitEnds (s : State) : State := (lineHigh s).withLink { (lineHigh s).link with highWait := none }

/-- LINE_HIGH_FOR_ONE_BIT_TIME: the wait after a link reset or power-on reset is over (R157, R181). The row is taken whatever the
wait stands at, and on a line that is recorded low, which is high from then on (log 3). -/
def execLineHighForOneBitTime (s : State) : Host.Outcome State Fault Refusal :=
  .next (if s.inReset ∨ s.link.highWait = none then s else highWaitEnds s)

/-! ## The transmitter (R154, R155, R160) -/

/-- The turnaround ends: the transmitter enters SENDING, raises DIR and starts the reply (R154, R155). -/
def startSending (r : Reply) (s : State) : State :=
  s.withLink { s.link with transmitter := .sending r 0, lowTime := none }

/-- TURNAROUND: the turnaround timer ends; nothing without a reply in TURNAROUND (R154, log 3). -/
def execTurnaround (s : State) : Host.Outcome State Fault Refusal :=
  match s.link.transmitter with
  | .turnaround r _ _ => .next (startSending r s)
  | .idle | .sending _ _ => .next s

/-- What a reply's pending action does at its completion (R155, R160, R177). -/
def settleAction (a : Option PendingAction) (s : State) : State :=
  match a with
  | none => s
  | some (.settings v) => s.withLink { s.link with settings := v }
  | some .controllerReset => controllerReset s

/-- The completion of a reply: DIR low, IDLE, the low time measured from here if the line is low, and the pending action (R150,
R155, R156). -/
def completeReply (r : Reply) (s : State) : State :=
  settleAction r.action
    (s.withLink
      { s.link with transmitter := .idle, lowTime := if s.pins.line = .low then some 0 else none })

/-- COMPLETION: the last stop bit of the reply ends; nothing unless SENDING (R155, log 3). -/
def execCompletion (s : State) : Host.Outcome State Fault Refusal :=
  match s.link.transmitter with
  | .sending r _ => .next (completeReply r s)
  | .idle | .turnaround _ _ _ => .next s

/-! ## The break (R156) -/

/-- BREAK: the line has been low for 20 bit times. None in reset, while SENDING, or again in one low period (R156, R179,
log 21). -/
def execLineBreak (s : State) : Host.Outcome State Fault Refusal :=
  .next (if s.inReset ∨ isSending s.link ∨ s.link.breakSeen then s else linkReset (lineLow 0 s))

end Sys2Proof.Machine
end

