-- ==== Sys2Proof/Machine/Clock.lean ====
section
/-!
DEFINITION. One core period of CLK: every timer of the part counts one, and what falls due is carried out, in an order that the
spec leaves open (log 5, 6).
-/

namespace Sys2Proof.Machine

/-! ## Counting -/

/-- Counts a core period on a tick timer, which is held at zero in STOPPED and WAIT_SYNC (R2). -/
def countTimebase (t : Timebase) : Timebase := if isStopped t then t else { t with tickTimer := t.tickTimer + 1 }

def countTransmitter : Transmitter → Transmitter
  | .idle => .idle
  | .turnaround r e w => .turnaround r (e + 1) w
  | .sending r e => .sending r (e + 1)

def countBits : BitReceiver → BitReceiver
  | .waiting => .waiting
  | .edge e => .edge (e + 1)
  | .sampling n b e => .sampling n b (e + 1)

/-- Counts a core period on the timers of the Link Interface (R144, R151, R154 to R157). -/
def countLink (line : Level) (l : LinkInterface) : LinkInterface :=
  { l with
    bits := countBits l.bits
    gapTimer := l.gapTimer.map (· + 1)
    transmitter := countTransmitter l.transmitter
    highWait := l.highWait.map fun n => if line = .high then n + 1 else 0
    lowTime := l.lowTime.map (· + 1) }

/-- Counts a core period on every timer (R2, R15, R67, R120, R144). -/
def countTimers (s : State) : State :=
  ((((s.withLink (countLink s.pins.line s.link)).withTimebases
      (.ofFn fun x => countTimebase (s.timebases.get x))).withSync
      { s.sync with pulse := s.sync.pulse.map (· + 1) }).withTrip
      { s.trip with inputs := .ofFn fun i =>
          { s.trip.inputs.get i with timer := (s.trip.inputs.get i).timer + 1 } }).withOutput
      { s.output with clocks := .ofFn fun p =>
          if clockRuns s p then s.output.clocks.get p + 1 else s.output.clocks.get p }

/-! ## What falls due -/

/-- The events that a core period may bring about. -/
inductive Due
  | syncLevel
  | tripSample (i : TripName)
  | tick (x : Tb)
  | pulseEnd
  | deadtimeTick (p : Pair)
  | turnaround
  | completion
  | lineBreak
  | gap
  | startBit
  | bitSample
  | highForOneBit
deriving DecidableEq, Repr

/-- Every event, once. -/
def allDue : List Due :=
  [.syncLevel] ++ TripName.all.map .tripSample ++ Tb.all.map .tick ++ [.pulseEnd] ++ Pair.all.map .deadtimeTick
    ++ [.turnaround, .completion, .lineBreak, .gap, .startBit, .bitSample, .highForOneBit]

/-- Core periods of a number of bit times at the rate in force (R144). -/
def bitTimes (s : State) (n : Nat) : Nat := n * bitPeriods s.link.settings.rate

/-- Whether an event is due. -/
def isDue (s : State) : Due → Bool
  | .syncLevel => changesSyncLevel s.sync s.pins.syncIn
  | .tripSample i => decide ((s.trip.inputs.get i).config.interval ≤ (s.trip.inputs.get i).timer)
  | .tick x =>
    !isStopped (s.timebases.get x)
      && decide (prescaleNat (s.timebases.get x).active.prescale ≤ (s.timebases.get x).tickTimer)
  | .pulseEnd => s.sync.pulse.any fun n => decide (8 ≤ n)
  | .deadtimeTick p =>
    clockRuns s p
      && decide (prescaleNat (s.timebases.get (s.pattern.pairs.get p).timebase).active.prescale ≤ s.output.clocks.get p)
  | .turnaround =>
    match s.link.transmitter with
    | .turnaround _ e w => decide (w.toNat * byteTime s ≤ e)
    | .idle | .sending _ _ => false
  | .completion =>
    match s.link.transmitter with
    | .sending r e => decide (r.frame.length * byteTime s ≤ e)
    | .idle | .turnaround _ _ _ => false
  | .lineBreak =>
    !isSending s.link && !s.link.breakSeen && s.link.lowTime.any fun n => decide (bitTimes s 20 ≤ n)
  | .gap =>
    decide (s.link.receiver ≠ .hunt)
      && s.link.gapTimer.any fun n => decide (s.link.settings.gapLimit.toNat * byteTime s ≤ n)
  | .startBit =>
    match s.link.bits with
    | .edge e => decide (bitPeriods s.link.settings.rate / 2 ≤ e)
    | .waiting | .sampling _ _ _ => false
  | .bitSample =>
    match s.link.bits with
    | .sampling _ _ e => decide (bitTimes s 1 ≤ e)
    | .waiting | .edge _ => false
  | .highForOneBit => s.link.highWait.any fun n => decide (bitPeriods s.link.strapRate ≤ n)

/-- Half a bit time after the first fall: a low line confirms the start bit, a high line was noise (R144); what the line did in
between is not looked at (log 29). -/
def checkStart (s : State) : State := if s.pins.line = .low then confirmStart s else s.bitsWait

/-- A data bit of a byte, taken least significant first (R144). -/
def shiftIn (bits : Byte) (n : Nat) (line : Level) : Byte :=
  match line with
  | .high => bits ||| ((1 : Byte) <<< n)
  | .low => bits

/-- A sample of the line at the middle of a bit: eight data bits, then the stop bit, which is the arrival (R144). -/
def sampleBit (s : State) : State :=
  match s.link.bits with
  | .sampling n bits _ =>
    if n < 8 then s.withLink { s.link with bits := .sampling (n + 1) (shiftIn bits n s.pins.line) 0 }
    else
      match s.pins.line with
      | .high => byteArrives bits s
      | .low => framingError s
  | .waiting | .edge _ => s

/-- Carries out an event that is due. -/
def takeDue (s : State) : Due → State
  | .syncLevel => changeSyncLevel s.pins.syncIn s
  | .tripSample i => sampleInput i (s.pins.trip.get i) s
  | .tick x => tickEvent x s
  | .pulseEnd => s.withSync { s.sync with pulse := none }
  | .deadtimeTick p => clockTick p s
  | .turnaround =>
    match s.link.transmitter with
    | .turnaround r _ _ => startSending r s
    | .idle | .sending _ _ => s
  | .completion =>
    match s.link.transmitter with
    | .sending r _ => completeReply r s
    | .idle | .turnaround _ _ _ => s
  | .lineBreak => linkReset s
  | .gap => gapExpires s
  | .startBit => checkStart s
  | .bitSample => sampleBit s
  | .highForOneBit => highWaitEnds s

/-- Carries out the events of a list that are still due when their turn comes; a free value picks the next where several are
(R14, R55, R151, R156, R164, log 6). -/
def runDue : Nat → List Due → State → State
  | 0, _, s => s
  | fuel + 1, ds, s =>
    match ds.filter (isDue s) with
    | [] => s
    | [d] => takeDue s d
    | several =>
      let k := Config.pick s.free % several.length
      match several[k]? with
      | some d => runDue fuel (several.eraseIdx k) (takeDue (s.withFree (s.free + 1)) d)
      | none => s

/-- A sample of SYNC IN that does not change the filtered level (R13). -/
def quietSyncSample (s : State) : State :=
  if changesSyncLevel s.sync s.pins.syncIn then s else sampleSyncIn s.pins.syncIn s

/-- One core period (log 5). While RST is low no timer counts (R179). -/
def corePeriod (s : State) : State :=
  if s.inReset then s
  else
    let counted := countTimers s
    let due := allDue.filter (isDue counted)
    runDue due.length due (quietSyncSample counted)

end Sys2Proof.Machine
end

