-- ==== Sys2Proof/Machine/Dispatch.lean ====
section
/-! DEFINITION. One arm for each command, each a direct call of its meaning. -/

namespace Sys2Proof.Machine

def exec (i : Instr) (s : State) : Host.Outcome State Fault Refusal :=
  match i with
  | .identify h args => Sys2Proof.Machine.execIdentify h args s
  | .readStatus h args => Sys2Proof.Machine.execReadStatus h args s
  | .setLink h args => Sys2Proof.Machine.execSetLink h args s
  | .resetController h args => Sys2Proof.Machine.execResetController h args s
  | .startTimebase h args => Sys2Proof.Machine.execStartTimebase h args s
  | .stopTimebaseImmediate h timebase => Sys2Proof.Machine.execStopTimebaseImmediate h timebase s
  | .stopTimebaseAtBoundary h timebase => Sys2Proof.Machine.execStopTimebaseAtBoundary h timebase s
  | .readTimebase h args => Sys2Proof.Machine.execReadTimebase h args s
  | .configureSync h args => Sys2Proof.Machine.execConfigureSync h args s
  | .stageChannel h args => Sys2Proof.Machine.execStageChannel h args s
  | .stagePair h args => Sys2Proof.Machine.execStagePair h args s
  | .stageTimebase h args => Sys2Proof.Machine.execStageTimebase h args s
  | .readChannel h args => Sys2Proof.Machine.execReadChannel h args s
  | .readPair h args => Sys2Proof.Machine.execReadPair h args s
  | .issueTicket h args => Sys2Proof.Machine.execIssueTicket h args s
  | .cancelTicketById h id => Sys2Proof.Machine.execCancelTicketById h id s
  | .cancelTicketAll h timebase => Sys2Proof.Machine.execCancelTicketAll h timebase s
  | .listTickets h args => Sys2Proof.Machine.execListTickets h args s
  | .setOverride h args => Sys2Proof.Machine.execSetOverride h args s
  | .enableOutputs h args => Sys2Proof.Machine.execEnableOutputs h args s
  | .disableOutputsImmediate h => Sys2Proof.Machine.execDisableOutputsImmediate h s
  | .disableOutputsGraceful h => Sys2Proof.Machine.execDisableOutputsGraceful h s
  | .readOutputs h args => Sys2Proof.Machine.execReadOutputs h args s
  | .configureTripInput h args => Sys2Proof.Machine.execConfigureTripInput h args s
  | .defineRoute h args => Sys2Proof.Machine.execDefineRoute h args s
  | .removeRoute h args => Sys2Proof.Machine.execRemoveRoute h args s
  | .clearTrip h args => Sys2Proof.Machine.execClearTrip h args s
  | .readTrips h args raw => Sys2Proof.Machine.execReadTrips h args raw s
  | .freezeProtection h args => Sys2Proof.Machine.execFreezeProtection h args s
  | .fetchNotices h args => Sys2Proof.Machine.execFetchNotices h args s
  | .ackNotices h args => Sys2Proof.Machine.execAckNotices h args s
  | .setAttentionMask h args => Sys2Proof.Machine.execSetAttentionMask h args s
  | .unknownKind tag kind args => Sys2Proof.Machine.execUnknownKind tag kind args s
  | .retransmission tag kind args => Sys2Proof.Machine.execRetransmission tag kind args s
  | .broadcastKind tag kind args => Sys2Proof.Machine.execBroadcastKind tag kind args s
  | .checkFail => Sys2Proof.Machine.execCheckFail s
  | .frameForAnotherNode => Sys2Proof.Machine.execFrameForAnotherNode s
  | .tooLong => Sys2Proof.Machine.execTooLong s
  | .framing => Sys2Proof.Machine.execFraming s
  | .gap => Sys2Proof.Machine.execGap s
  | .turnaround => Sys2Proof.Machine.execTurnaround s
  | .completion => Sys2Proof.Machine.execCompletion s
  | .lineBreak => Sys2Proof.Machine.execLineBreak s
  | .powerOnReset => Sys2Proof.Machine.execPowerOnReset s
  | .endOfPowerOnReset pins => Sys2Proof.Machine.execEndOfPowerOnReset pins s
  | .tick x => Sys2Proof.Machine.execTick x s
  | .expired id => Sys2Proof.Machine.execExpired id s
  | .syncOutPulseEnd => Sys2Proof.Machine.execSyncOutPulseEnd s
  | .qualifiedSyncInEdge => Sys2Proof.Machine.execQualifiedSyncInEdge s
  | .inputAsserted n => Sys2Proof.Machine.execInputAsserted n s
  | .inputQuiet n => Sys2Proof.Machine.execInputQuiet n s
  | .deadtimeClockTick p => Sys2Proof.Machine.execDeadtimeClockTick p s
  | .deadtimeDelayEnd c => Sys2Proof.Machine.execDeadtimeDelayEnd c s
  | .syncInSample level => Sys2Proof.Machine.execSyncInSample level s
  | .tripInputSample n level => Sys2Proof.Machine.execTripInputSample n level s
  | .lineFallingEdge => Sys2Proof.Machine.execLineFallingEdge s
  | .startBitConfirmed => Sys2Proof.Machine.execStartBitConfirmed s
  | .byteArrival byte => Sys2Proof.Machine.execByteArrival byte s
  | .lineRisingEdge => Sys2Proof.Machine.execLineRisingEdge s
  | .lineHighForOneBitTime => Sys2Proof.Machine.execLineHighForOneBitTime s

end Sys2Proof.Machine
end

