-- ==== Sys2Proof/Machine/Step.lean ====
section
/-!
DEFINITION. One step of the block: the command at the front of the queue, or a core period when none waits (log 5).
-/

namespace Sys2Proof.Machine

/-- Takes the command at the front of the queue and carries it out with the queue's rest; on an empty queue one core period of
CLK passes (log 5). -/
def step (s : State) : Host.Outcome State Fault Refusal :=
  match s.pending with
  | [] => .next (corePeriod s)
  | c :: rest => exec c (s.withPending rest)

/-- Puts the command that a word spells at the front of the queue; no word spells one (log 24). -/
def State.withFetchWord (s : State) (nbits w : Nat) : State :=
  match decodeTableWord nbits w with
  | some c => s.withPending (c :: s.pending)
  | none => s

end Sys2Proof.Machine
end

