-- ==== Sys2Proof/Safety.lean ====
section
/-!
DEFINITION. What counts as a sound state, block by block, and the words in which claims about requests are made: a part that
listens, a request that the cache does not answer, and the state after one that was answered.
-/

namespace Sys2Proof.Machine

/-! ## Sound states -/

/-- The reply cache holds at most 4 entries, no two of one tag (R170). -/
def CacheSound (s : State) : Prop :=
  s.cache.length ≤ Config.cacheCapacity ∧ (s.cache.map CacheEntry.tag).Nodup

/-- No two notices of one class and source; repeats and tokens are never 0; a notice of repeat 1 has one detail (R126, R127,
R132). -/
def NoticesSound (s : State) : Prop :=
  (s.notices.queue.map Notice.key).Nodup ∧ s.notices.nextToken ≠ 0
    ∧ ∀ n ∈ s.notices.queue, n.count ≠ 0 ∧ n.token ≠ some 0 ∧ (n.count = 1 → n.first = n.last)

/-- At most 8 tickets and 16 slots; ids distinct, ids and next id never 0 (R40, R42, R43). -/
def CommitSound (s : State) : Prop :=
  s.commit.queue.length ≤ Config.queueCapacity ∧ slotsUsed s.commit.queue ≤ Config.poolSlots
    ∧ (s.commit.queue.map Ticket.id).Nodup ∧ s.commit.nextId ≠ 0 ∧ ∀ t ∈ s.commit.queue, t.id ≠ 0

/-- A stopped timebase rests at 0; a counting one stays in the range of its shape (R1 to R4). -/
def CountSound (t : Timebase) : Prop :=
  2 ≤ t.active.period.toNat
    ∧ (isStopped t = true → t.counter = 0 ∧ t.direction = .up ∧ t.tickTimer = 0)
    ∧ (t.active.alignment = .edge → t.direction = .up ∧ t.counter.toNat < t.active.period.toNat)
    ∧ (t.active.alignment = .center → t.direction = .up → t.counter.toNat ≤ t.active.period.toNat)
    ∧ (t.active.alignment = .center → t.direction = .down →
        1 ≤ t.counter.toNat ∧ t.counter.toNat < t.active.period.toNat)

/-- Both timebases are sound, and every timebase record that can become active has a period of at least 2 and waits for a START
boundary (R1, R38, R44). -/
def TimebasesSound (s : State) : Prop :=
  (∀ x, CountSound (s.timebases.get x))
    ∧ (∀ x, 2 ≤ (s.commit.timebases.get x).period.toNat)
    ∧ ∀ t ∈ s.commit.queue, ∀ r, t.record = some r → t.boundaryKind = .startOnly ∧ 2 ≤ r.period.toNat

/-- A trip input's configuration is in range and its count below qualify (R66, R68 to R70). -/
def InputSound (v : TripInput) : Prop :=
  1 ≤ v.config.interval ∧ v.config.interval ≤ 256 ∧ 1 ≤ v.config.qualify ∧ v.config.qualify ≤ 16
    ∧ v.agreement < v.config.qualify

/-- A route's held set follows its state, and a route releases only while its input is QUIET (R77, R78, R88). -/
def RouteSound (inputs : TripFile TripInput) (r : Route) : Prop :=
  r.channels ≠ 0
    ∧ (r.state = .armed → r.held = 0)
    ∧ (r.state = .tripped → r.held = r.channels
        ∧ (r.clearing = .auto → (inputs.get r.input).filtered = .asserted))
    ∧ (r.state = .releasing → r.held ≠ 0 ∧ setMinus r.held r.channels = 0
        ∧ (inputs.get r.input).filtered = .quiet)

def TripSound (s : State) : Prop :=
  (∀ i, InputSound (s.trip.inputs.get i)) ∧ ∀ n r, s.trip.routes.get n = some r → RouteSound s.trip.inputs r

/-- Settings that a part can hold (R145). -/
def SettingsSound (v : LinkSettings) : Prop :=
  1 ≤ v.turnaround.toNat ∧ v.turnaround.toNat ≤ 15 ∧ 2 ≤ v.gapLimit.toNat ∧ v.gapLimit.toNat ≤ 15

/-- The reply that the transmitter holds. -/
def replyHeld (t : Transmitter) : Option Reply :=
  match t with
  | .idle => none
  | .turnaround r _ _ => some r
  | .sending r _ => some r

/-- Settings, also those pending, and the node address are in range; while a reply is held, and while the part waits for the line
to be high, the receiver is in HUNT and takes no bit; in HUNT the gap timer stands (R145, R146, R150, R151, R157). -/
def LinkSound (s : State) : Prop :=
  SettingsSound s.link.settings
    ∧ 1 ≤ s.link.nodeAddress.toNat ∧ s.link.nodeAddress.toNat ≤ 30
    ∧ (∀ r v, replyHeld s.link.transmitter = some r → r.action = some (.settings v) → SettingsSound v)
    ∧ (s.link.transmitter ≠ .idle ∨ s.link.highWait ≠ none →
        s.link.receiver = .hunt ∧ s.link.bits = .waiting)
    ∧ (s.link.receiver = .hunt → s.link.gapTimer = none)

/-- Whether an override entry has the form of a mode (R111). -/
def entryFits (e : OverrideEntry) (m : PairMode) : Bool :=
  match e, m with
  | .independent _ _, .independent => true
  | .complementary _, .complementary => true
  | _, _ => false

/-- The two members of a COMPLEMENTARY pair are not both ACTIVE in any of the levels that may reach their outputs. -/
def NeverBoth (s : State) (c : Chan) : Prop :=
  modeOf s.pattern c = .complementary →
    ¬ ((s.output.channels.get c).selected = .active ∧ (s.output.channels.get (partner c)).selected = .active)
      ∧ ¬ ((s.output.channels.get c).hold = .active ∧ (s.output.channels.get (partner c)).hold = .active)
      ∧ ¬ (s.pattern.level.get c = .active ∧ s.pattern.level.get (partner c) = .active)

/-- An output is its selected level, or waits on deadtime in a COMPLEMENTARY pair before a rise (R118, R119). -/
def DrivenSound (s : State) (c : Chan) : Prop :=
  ((s.output.channels.get c).delay = none → (s.output.channels.get c).output = (s.output.channels.get c).selected)
    ∧ ((s.output.channels.get c).delay ≠ none →
        modeOf s.pattern c = .complementary ∧ (s.output.channels.get c).selected = .active
          ∧ (s.output.channels.get c).output ≠ .active)

/-- The Output Stage is sound: a drained set only while DRAINING, and never full; DISABLED floats everything; entries in the form
of the mode; outputs as selected, and the two of a COMPLEMENTARY pair never both ACTIVE; and pending pair records name their
ticket's timebase (R44, R103, R109, R111, R118, R119). -/
def OutputsSound (s : State) : Prop :=
  (s.output.enable ≠ .draining → s.output.drained = 0)
    ∧ s.output.drained ≠ allChannels
    ∧ (s.output.enable = .disabled → ∀ c, (s.output.channels.get c).selected = .float)
    ∧ (∀ p, entryFits (s.output.overrides.get p) (s.pattern.pairs.get p).mode = true)
    ∧ (∀ c, NeverBoth s c ∧ DrivenSound s c)
    ∧ ∀ t ∈ s.commit.queue, ∀ e ∈ t.pairs, e.2.timebase = t.timebase

/-- The logical outputs of a COMPLEMENTARY pair are not both ACTIVE (R118). -/
def NoShootThrough (s : State) : Prop :=
  ∀ c, modeOf s.pattern c = .complementary →
    ¬ ((s.output.channels.get c).output = .active ∧ (s.output.channels.get (partner c)).output = .active)

/-! ## Claims about requests -/

/-- The part hears frames: RST is high and the transmitter is IDLE (R150, R179). -/
def Listening (s : State) : Prop := s.inReset = false ∧ s.link.transmitter = .idle

/-- No cache entry has the tag and the check value of this addressed request (R170, R171). -/
def Unanswered (s : State) (tag kind : Byte) (args : List Byte) : Prop :=
  ∀ e ∈ s.cache, ¬ (e.tag = tag ∧ e.check = frameCheck s.link.nodeAddress tag kind args)

/-- The link after a frame that ended with a high stop bit: the receiver hunts, no bit is in progress (R149, R153). -/
def heardLink (l : LinkInterface) : LinkInterface :=
  { l with receiver := .hunt, bits := .waiting, gapTimer := none, highWait := none, lowTime := none, breakSeen := false }

/-- The state after a frame was heard that draws no reply: the blocks are those of `o`. -/
def heard (s o : State) : State :=
  { o with link := heardLink s.link, cache := s.cache, pins := { s.pins with line := .high } }

/-- The state after an addressed request was answered: the blocks are those of `o`; the reply with this payload (status first)
and pending action waits its turnaround, and is remembered under the request's tag and check value (R154, R164, R173). -/
def answered (s o : State) (tag kind : Byte) (args payload : List Byte) (action : Option PendingAction) : State :=
  let frame := frameBytes replyStart s.link.nodeAddress tag kind payload
  { o with
    link := { heardLink s.link with
      transmitter := .turnaround { frame := frame, action := action } 0 s.link.settings.turnaround }
    cache := remember s.cache
      { tag := tag, check := frameCheck s.link.nodeAddress tag kind args, frame := frame }
    pins := { s.pins with line := .high } }

/-- The frame that a request row stands for: its header, kind code and payload; none for the other rows. -/
def requestFrame : Instr → Option (Header × Byte × List Byte)
  | .identify h args => some (h, 0x01, args)
  | .readStatus h args => some (h, 0x02, args)
  | .setLink h args => some (h, 0x03, args)
  | .resetController h args => some (h, 0x04, args)
  | .startTimebase h args => some (h, 0x11, args)
  | .stopTimebaseImmediate h timebase => some (h, 0x12, [timebase, 0])
  | .stopTimebaseAtBoundary h timebase => some (h, 0x12, [timebase, 1])
  | .readTimebase h args => some (h, 0x13, args)
  | .configureSync h args => some (h, 0x14, args)
  | .stageChannel h args => some (h, 0x20, args)
  | .stagePair h args => some (h, 0x21, args)
  | .stageTimebase h args => some (h, 0x22, args)
  | .readChannel h args => some (h, 0x23, args)
  | .readPair h args => some (h, 0x24, args)
  | .issueTicket h args => some (h, 0x30, args)
  | .cancelTicketById h id => some (h, 0x31, [0, id])
  | .cancelTicketAll h timebase => some (h, 0x31, [1, timebase])
  | .listTickets h args => some (h, 0x32, args)
  | .setOverride h args => some (h, 0x40, args)
  | .enableOutputs h args => some (h, 0x41, args)
  | .disableOutputsImmediate h => some (h, 0x42, [0])
  | .disableOutputsGraceful h => some (h, 0x42, [1])
  | .readOutputs h args => some (h, 0x43, args)
  | .configureTripInput h args => some (h, 0x50, args)
  | .defineRoute h args => some (h, 0x51, args)
  | .removeRoute h args => some (h, 0x52, args)
  | .clearTrip h args => some (h, 0x53, args)
  | .readTrips h args _ => some (h, 0x54, args)
  | .freezeProtection h args => some (h, 0x55, args)
  | .fetchNotices h args => some (h, 0x60, args)
  | .ackNotices h args => some (h, 0x61, args)
  | .setAttentionMask h args => some (h, 0x62, args)
  | .unknownKind tag kind args => some (⟨.addressed, tag⟩, kind, args)
  | .retransmission tag kind args => some (⟨.addressed, tag⟩, kind, args)
  | .broadcastKind tag kind args => some (⟨.broadcast, tag⟩, kind, args)
  | _ => none

/-- The levels of the trip pins that a request row brings with it: READ TRIPS alone brings them (R74, log 18). -/
def withRowPins (i : Instr) (s : State) : State :=
  match i with
  | .readTrips _ _ raw => s.withPins { s.pins with trip := raw }
  | _ => s

/-- The header of an addressed request with a tag. -/
def addressedTo (tag : Byte) : Header := { cast := .addressed, tag := tag }

/-- The header of a broadcast with a tag. -/
def broadcastWith (tag : Byte) : Header := { cast := .broadcast, tag := tag }

/-- The byte of a channel, of a pair, of an input and of a slot in a request (R184). -/
def chanByte (c : Chan) : Byte := natByte (chanIndex c)

def pairByte (p : Pair) : Byte := natByte (pairIndex p)

/-- The nine bytes of ISSUE TICKET with the codes of the condition and of k given (R185). -/
def ticketBytes (t : TicketRequest) (code k : Byte) : List Byte :=
  [ tbByte t.timebase, t.channels, t.pairs.zeroExtend 8, boolByte t.record, code, k
  , boundaryKindByte t.boundaryKind, boolByte t.deadline.isSome, t.deadline.getD 0 ]

/-- The bytes that spell a ticket request; AFTER 1 may also be sent as NEXT (R41, R184, R185). -/
def SpellsTicket (t : TicketRequest) (args : List Byte) : Prop :=
  match t.condition with
  | .after k => args = ticketBytes t 1 k ∨ (k = 1 ∧ args = ticketBytes t 0 0)
  | .sync => args = ticketBytes t 2 0

/-- The fields of a ticket request are in range: k and the deadline are not 0 (R44, R184). -/
def TicketFieldsSound (t : TicketRequest) : Prop := t.condition ≠ .after 0 ∧ t.deadline ≠ some 0

/-- Hands bytes to the receiver one by one, each as a byte that arrives whole. -/
def afterBytes : List Byte → State → Host.Outcome State Fault Refusal
  | [], s => .next s
  | b :: bytes, s =>
    match exec (.byteArrival b) s with
    | .next t => afterBytes bytes t
    | .fault f => .fault f
    | .refused r => .refused r

/-- What the part holds beside timebases, levels, tickets, trips, outputs, SYNC OUT, notices and free choices is as before. -/
def OutsideKept (s t : State) : Prop :=
  t.link = s.link ∧ t.cache = s.cache ∧ t.pins = s.pins ∧ t.inReset = s.inReset ∧ t.pending = s.pending

/-- A queue holds an unfetched notice of this key whose last detail is this one. -/
def Reported (s : State) (k : NoticeKey) (d : Detail) : Prop :=
  ∃ n ∈ s.notices.queue, n.key = k ∧ n.last = d ∧ n.token = none

/-! ## Claims about events: notices -/

/-- One order of the notices of several blocks, in which each block's own stand in their order (R131, log 7). -/
def MergeOf (lists : List (List Posting)) (ps : List Posting) : Prop :=
  ps.Perm lists.flatten ∧ ∀ l ∈ lists, l.Sublist ps

/-- The notices of an event were taken, those of different blocks in some order (R128 to R131, log 7). -/
def Posted (s t : State) (r : Raised) : Prop :=
  ∃ ps, MergeOf [r.commit, r.trip, r.output, r.timebase] ps ∧ t.notices = (s.post ps).notices

/-! ## Claims about events: levels and outputs -/

/-- The levels of the channels bound to X are those of the records and the count; the other levels are as before (R21). -/
def Refreshed (x : Tb) (s t : State) : Prop :=
  ∀ c, (boundTo t.pattern c = x →
        t.pattern.source.get c = sourceLevel t.pattern t.timebases c
          ∧ t.pattern.level.get c = patternLevel t.pattern t.timebases c)
    ∧ (boundTo t.pattern c ≠ x →
        t.pattern.source.get c = s.pattern.source.get c ∧ t.pattern.level.get c = s.pattern.level.get c)

/-- An output taken to a selected level: at once, but for a rise in a COMPLEMENTARY pair, which waits until its delay has counted
the deadtime (R118, R119, log 13). -/
def DrivenTo (m : PairMode) (deadtime : Nat) (l : OutLevel) (before after : OutChannel) : Prop :=
  after.hold = before.hold ∧ after.selected = l
    ∧ (m = .independent ∨ l ≠ .active ∨ before.output = .active → after.output = l ∧ after.delay = none)
    ∧ (m = .complementary → l = .active → before.output ≠ .active →
        (deadtime ≤ before.delay.getD 0 → after.output = .active ∧ after.delay = none)
          ∧ (before.delay.getD 0 < deadtime →
              after.output = before.output ∧ after.delay = some (before.delay.getD 0)))

/-- Every output is driven to the level selected for it, and a delay that starts takes its pair's deadtime clock back to 0 (R117
to R120). -/
def OutputsFollow (before : Chan → OutChannel) (clocks : Pair → Nat) (t : State) : Prop :=
  (∀ c, DrivenTo (modeOf t.pattern c) (deadtimeOf t.pattern c) (selectLevel t c) (before c) (t.output.channels.get c))
    ∧ ∀ p, ((∃ c, pairOf c = p ∧ (before c).delay = none ∧ (t.output.channels.get c).delay ≠ none) →
          t.output.clocks.get p = 0)
        ∧ ((∀ c, pairOf c = p → (before c).delay = none → (t.output.channels.get c).delay = none) →
          t.output.clocks.get p = clocks p)

/-- A channel's output with a tick of X counted on its delay, when its pair is bound to X (R119, R120, log 11). -/
def tickCounted (x : Tb) (p : PatternUnit) (outs : ChanFile OutChannel) (c : Chan) : OutChannel :=
  if boundTo p c = x then { outs.get c with delay := (outs.get c).delay.map (· + 1) } else outs.get c

/-- A channel's output with the hold level that a changed route table gives it: captured where the channel becomes forced with
HOLD (R115). -/
def recaptured (s : State) (routes : SlotFile (Option Route)) (c : Chan) : OutChannel :=
  let o := s.output.channels.get c
  if forcedWith s.pattern s.trip.routes .hold c = false ∧ forcedWith s.pattern routes .hold c = true then
    { o with hold := if o.output = .active then .active else .inactive }
  else o

/-- A drain step over the channels of a kind, with the OUTPUTS notice it raises: none while not DRAINING; with all eight drained
the outputs become DISABLED (R103, R107 to R109). -/
def DrainStep (own : Chan → Prop) (before after : OutputStage) (raised : List Posting) : Prop :=
  (before.enable ≠ .draining → after.enable = before.enable ∧ after.drained = before.drained ∧ raised = [])
    ∧ (before.enable = .draining → (∀ c, inSet before.drained c = true ∨ own c) →
        after.enable = .disabled ∧ after.drained = 0 ∧ raised = [{ key := .outputs, detail := .outputs }])
    ∧ (before.enable = .draining → (∃ c, inSet before.drained c = false ∧ ¬ own c) →
        after.enable = .draining ∧ raised = []
          ∧ ∀ c, inSet after.drained c = true ↔ inSet before.drained c = true ∨ own c)

/-! ## Claims about events: boundaries, stops and SYNC IN edges -/

/-- Routes that release give back the channels bound to X, and those that re-arm raise their notices (R91 to R93). -/
def Released (x : Tb) (s t : State) (raised : List Posting) : Prop :=
  t.trip.inputs = s.trip.inputs ∧ t.trip.frozen = s.trip.frozen
    ∧ (∀ n, t.trip.routes.get n = (s.trip.routes.get n).map (releaseRoute (boundSet s.pattern x)))
    ∧ raised = rearmNotices s.trip.routes t.trip.routes

/-- A timebase with one more cycle counted (R6). -/
def withCycle (x : Tb) (s : State) : State :=
  s.setTimebase x { s.timebases.get x with cycles := (s.timebases.get x).cycles + 1 }

/-- The records and overrides are those that the tickets of a boundary leave: channel and pair records, the timebase record, and the
override entries (R12, R31, R56, R116). -/
def TicketsApplied (applied t : State) : Prop :=
  t.timebases = applied.timebases ∧ t.pattern.channels = applied.pattern.channels
    ∧ t.pattern.pairs = applied.pattern.pairs ∧ t.output.overrides = applied.output.overrides

/-- A START boundary of X on every block that acts at one, with what each raises: the cycle is counted and SYNC OUT pulses;
tickets count down, apply and expire; channels bound to X before it are given back and drained; levels and outputs follow. With
`ticked` it comes with a tick, which is counted on the deadtime delays (R5, R6, R15, R48 to R52, R91, R107, R119, log 28). -/
def StartTaken (x : Tb) (ticked : Bool) (s t : State) (r : Raised) : Prop :=
  let walk := takeReady x .start (s.commit.queue.map (countDown x .start))
  let applied := applyTickets x walk.1 (withCycle x s)
  TicketsApplied applied.1 t
    ∧ t.sync = (if drivesSyncOut s.sync.source x then { s.sync with pulse := some 0 } else s.sync)
    ∧ t.commit = { s.commit with queue := (deadlineStep x walk.2).1 }
    ∧ r.commit = applied.2 ++ (deadlineStep x walk.2).2
    ∧ Released x s t r.trip
    ∧ DrainStep (fun c => boundTo s.pattern c = x) s.output t.output r.output
    ∧ r.timebase = []
    ∧ Refreshed x s t
    ∧ OutputsFollow
        (fun c => if ticked then tickCounted x t.pattern applied.1.output.channels c else applied.1.output.channels.get c)
        s.output.clocks.get t

/-- A MID boundary of X, which comes with a tick: tickets count down and apply, levels and outputs follow, and nothing is given
back or drained (R4, R5, R48, R119, log 28). -/
def MidTaken (x : Tb) (s t : State) (r : Raised) : Prop :=
  let walk := takeReady x .mid (s.commit.queue.map (countDown x .mid))
  let applied := applyTickets x walk.1 s
  TicketsApplied applied.1 t
    ∧ t.sync = s.sync ∧ t.commit = { s.commit with queue := walk.2 } ∧ t.trip = s.trip
    ∧ t.output.enable = s.output.enable ∧ t.output.drained = s.output.drained
    ∧ r = { commit := applied.2, trip := [], output := [], timebase := [] }
    ∧ Refreshed x s t
    ∧ OutputsFollow (tickCounted x t.pattern applied.1.output.channels) s.output.clocks.get t

/-- A timebase becomes STOPPED with a stop event: its tickets are cancelled, its channels are given back, drained and INACTIVE;
the deadtime clocks of its pairs begin again if it was counting (R9 to R11, R22, R53, R62, R92, R108, R120, log 12). -/
def StopTaken (x : Tb) (kind : StopKind) (s t : State) (r : Raised) : Prop :=
  t.timebases = s.timebases.set x
      { s.timebases.get x with state := .stopped, counter := 0, direction := .up, tickTimer := 0 }
    ∧ t.sync = s.sync
    ∧ t.commit = { s.commit with queue := s.commit.queue.filter fun k => k.timebase ≠ x }
    ∧ ((∀ k ∈ s.commit.queue, k.timebase ≠ x) → r.commit = [])
    ∧ ((∃ k ∈ s.commit.queue, k.timebase = x) →
        r.commit = [{ key := .cancelled x
                      detail := .cancelled (s.commit.queue.filter fun k => k.timebase = x).length kind }])
    ∧ Released x s t r.trip
    ∧ DrainStep (fun c => boundTo s.pattern c = x) s.output t.output r.output
    ∧ r.timebase = []
    ∧ t.pattern.channels = s.pattern.channels ∧ t.pattern.pairs = s.pattern.pairs
    ∧ t.output.overrides = s.output.overrides
    ∧ Refreshed x s t ∧ (∀ c, boundTo s.pattern c = x → t.pattern.source.get c = .inactive)
    ∧ OutputsFollow s.output.channels.get
        (fun p => if (s.pattern.pairs.get p).timebase = x ∧ isStopped (s.timebases.get x) = false then 0
          else s.output.clocks.get p) t

/-- The notices of a boundary and of the stop that completes at it: the CANCELLED and the TIMEBASE notice stand behind the others
of their boundary, in either order (R10, R53, log 7). -/
def StopNotices (x : Tb) (start stop r : Raised) : Prop :=
  (r.commit = start.commit ++ (stop.commit ++ [{ key := .timebase x, detail := .timebase .stopped .stoppedAtBoundary }])
      ∨ r.commit = start.commit ++ ({ key := .timebase x, detail := .timebase .stopped .stoppedAtBoundary } :: stop.commit))
    ∧ r.trip = start.trip ++ stop.trip ∧ r.output = start.output ++ stop.output ∧ r.timebase = []

/-- A START boundary of X and, when X is STOPPING, the completion of its stop (R5, R10). -/
def BoundaryTaken (x : Tb) (ticked : Bool) (s t : State) (r : Raised) : Prop :=
  ((s.timebases.get x).state ≠ .stopping → StartTaken x ticked s t r)
    ∧ ((s.timebases.get x).state = .stopping →
      ∃ m start stop, StartTaken x ticked s m start ∧ StopTaken x .atBoundary m t stop ∧ StopNotices x start stop r)

/-- What a qualified SYNC IN edge does to one timebase: it starts one in WAIT_SYNC, restarts a counting one with sync_restart,
and is nothing to another (R14). -/
def EdgeTaken (x : Tb) (s t : State) (r : Raised) : Prop :=
  let v := s.timebases.get x
  (v.state = .waitSync →
      ∃ start, BoundaryTaken x false
          (s.setTimebase x { v with state := .running, counter := 0, direction := .up, tickTimer := 0, cycles := 0 }) t start
        ∧ r = { start with timebase := [{ key := .timebase x, detail := .timebase .running .syncStart }] })
    ∧ (v.state = .running ∨ v.state = .stopping → v.active.syncRestart = true →
        BoundaryTaken x false (s.setTimebase x { v with counter := 0, direction := .up, tickTimer := 0 }) t r)
    ∧ (v.state = .stopped ∨ (v.state ≠ .waitSync ∧ v.active.syncRestart = false) →
        t = s ∧ r = { commit := [], trip := [], output := [], timebase := [] })

/-! ## Claims about a core period -/

/-- Every timer of the part counts one core period; a stopped timebase's tick timer and a deadtime clock that does not run stand
still, and the wait for a high line begins again while the line is low (R2, R15, R67, R120, R144, R151, R154 to R157). -/
def TimersCounted (s u : State) : Prop :=
  u = ((((s.withLink u.link).withTimebases u.timebases).withSync { s.sync with pulse := s.sync.pulse.map (· + 1) }).withTrip
      { s.trip with inputs := u.trip.inputs }).withOutput { s.output with clocks := u.output.clocks }
    ∧ (∀ x, u.timebases.get x = { s.timebases.get x with
        tickTimer := (s.timebases.get x).tickTimer + if isStopped (s.timebases.get x) then 0 else 1 })
    ∧ (∀ i, u.trip.inputs.get i = { s.trip.inputs.get i with timer := (s.trip.inputs.get i).timer + 1 })
    ∧ (∀ p, u.output.clocks.get p = s.output.clocks.get p
        + if ((s.output.channels.get (primaryOf p)).delay.isSome || (s.output.channels.get (secondaryOf p)).delay.isSome)
            && isStopped (s.timebases.get (s.pattern.pairs.get p).timebase) then 1 else 0)
    ∧ u.link = { s.link with
        bits := u.link.bits
        gapTimer := s.link.gapTimer.map (· + 1)
        transmitter := u.link.transmitter
        highWait := s.link.highWait.map fun n => if s.pins.line = .high then n + 1 else 0
        lowTime := s.link.lowTime.map (· + 1) }
    ∧ (s.link.bits = .waiting → u.link.bits = .waiting)
    ∧ (∀ e, s.link.bits = .edge e → u.link.bits = .edge (e + 1))
    ∧ (∀ n b e, s.link.bits = .sampling n b e → u.link.bits = .sampling n b (e + 1))
    ∧ (s.link.transmitter = .idle → u.link.transmitter = .idle)
    ∧ (∀ r e w, s.link.transmitter = .turnaround r e w → u.link.transmitter = .turnaround r (e + 1) w)
    ∧ (∀ r e, s.link.transmitter = .sending r e → u.link.transmitter = .sending r (e + 1))

/-- When each event of a core period falls due, on the timers after the count: the fourth sample of SYNC IN that disagrees (R13),
a sample interval (R67), a prescale (R2, R120), 8 core periods (R15), a turnaround (R154), the length of a reply (R155), 20 bit
times (R156), the gap limit (R151), half a bit time and one bit time (R144), and one bit time at the strap rate (R157, R181). -/
def FallsDue (u : State) : Due → Prop
  | .syncLevel => u.pins.syncIn ≠ u.sync.filtered ∧ 3 ≤ u.sync.agreement
  | .tripSample i => (u.trip.inputs.get i).config.interval ≤ (u.trip.inputs.get i).timer
  | .tick x =>
    isStopped (u.timebases.get x) = false
      ∧ prescaleNat (u.timebases.get x).active.prescale ≤ (u.timebases.get x).tickTimer
  | .pulseEnd => ∃ n, u.sync.pulse = some n ∧ 8 ≤ n
  | .deadtimeTick p =>
    (∃ c, pairOf c = p ∧ (u.output.channels.get c).delay ≠ none)
      ∧ isStopped (u.timebases.get (u.pattern.pairs.get p).timebase) = true
      ∧ prescaleNat (u.timebases.get (u.pattern.pairs.get p).timebase).active.prescale ≤ u.output.clocks.get p
  | .turnaround => ∃ r e w, u.link.transmitter = .turnaround r e w
      ∧ w.toNat * (10 * bitPeriods u.link.settings.rate) ≤ e
  | .completion => ∃ r e, u.link.transmitter = .sending r e
      ∧ r.frame.length * (10 * bitPeriods u.link.settings.rate) ≤ e
  | .lineBreak => dirHigh u = false ∧ u.link.breakSeen = false
      ∧ ∃ n, u.link.lowTime = some n ∧ 20 * bitPeriods u.link.settings.rate ≤ n
  | .gap => u.link.receiver ≠ .hunt
      ∧ ∃ n, u.link.gapTimer = some n ∧ u.link.settings.gapLimit.toNat * (10 * bitPeriods u.link.settings.rate) ≤ n
  | .startBit => ∃ e, u.link.bits = .edge e ∧ bitPeriods u.link.settings.rate / 2 ≤ e
  | .bitSample => ∃ n b e, u.link.bits = .sampling n b e ∧ bitPeriods u.link.settings.rate ≤ e
  | .highForOneBit => ∃ n, u.link.highWait = some n ∧ bitPeriods u.link.strapRate ≤ n

/-- A sample of SYNC IN that leaves the filtered level: it clears the count or counts one (R13). -/
def syncSampled (u : State) : State :=
  u.withSync { u.sync with agreement := if u.pins.syncIn = u.sync.filtered then 0 else u.sync.agreement + 1 }

/-! ## Levels that follow what they are computed from -/

/-- Every stored level is the one its records, count, forcing and override give, and pending pair records name their ticket's
timebase (R21, R44, R117). -/
def LevelsSound (s : State) : Prop :=
  (∀ c, s.pattern.source.get c = sourceLevel s.pattern s.timebases c
      ∧ s.pattern.level.get c = patternLevel s.pattern s.timebases c
      ∧ (s.output.channels.get c).selected = selectLevel s c)
    ∧ ∀ t ∈ s.commit.queue, ∀ e ∈ t.pairs, e.2.timebase = t.timebase

end Sys2Proof.Machine
end

