-- ==== Sys2Proof/Certificates/Slice0/Obligations.lean ====
section
/-!
DEFINITION. The statements for the provers. Rules R<n> are those of spec/; a clause that rests on the model's own choice names its
log entry.
-/

open Sys2Proof Sys2Proof.Machine

/-! ## The block and its frames -/

/-- The command at the front of the queue is carried out on the part with the queue's rest (log 5, 24). -/
def Obligations.StepRunsFrontCommand : Prop :=
  ∀ (s : State) (c : Instr) (rest : List Instr), s.pending = c :: rest → step s = exec c (s.withPending rest)

/-- No command and no core period stops the part (R166, R162: faults are answered or reported).

No command and no core period touches the commands that wait behind it (log 5). -/
def Obligations.EveryStepAnswersNextAndKeepsTheQueue : Prop :=
  (∀ s : State, ∃ t : State, step s = .next t)
    ∧ ((∀ (c : Instr) (s t : State), exec c s = .next t → t.pending = s.pending)
      ∧ ∀ s t : State, s.pending = [] → step s = .next t → t.pending = [])

/-- R149, R153: the bytes of a frame for the part, arriving whole one by one at a receiver in HUNT, end in the state its row
gives. What a row stands for is log 1, and READ TRIPS is meant with the trip pins it brings (log 18), both the model's reading. -/
def Obligations.BytesOfAFrameMakeItsRow : Prop :=
  ∀ (s : State) (i : Instr) (h : Header) (kind : Byte) (args : List Byte),
    requestFrame i = some (h, kind, args) → args.length ≤ 60 → Listening s → s.link.receiver = .hunt →
    s.link.highWait = none → withRowPins i s = s → s.link.nodeAddress ≠ 31 →
      afterBytes (frameBytes 0x5A (if h.cast = .addressed then s.link.nodeAddress else 31) h.tag kind args) s = exec i s

/-- R150, R179: a request sent while the transmitter is not IDLE, or while RST is low, is lost. -/
def Obligations.RequestsToADeafPartAreLost : Prop :=
  ∀ (s : State) (i : Instr) (h : Header) (kind : Byte) (args : List Byte),
    requestFrame i = some (h, kind, args) → ¬ Listening s → exec i s = .next (withRowPins i s)

/-- R165: the checks of an addressed request that the cache does not answer, in their order; a refused request changes nothing
but the cache and the transmitter.

R184, R185: the length of each kind, and which values of its fields are out of range or reserved. -/
def Obligations.GeneralChecksInOrder : Prop :=
  (∀ (s : State) (i : Instr) (h : Header) (kind : Byte) (args : List Byte),
    requestFrame i = some (h, kind, args) → h.cast = .addressed → Listening s → Unanswered s h.tag kind args →
      (requestLength kind = none →
        exec i s = .next (answered (withRowPins i s) (withRowPins i s) h.tag kind args [0x01] none))
      ∧ (∀ n, requestLength kind = some n → args.length ≠ n →
        exec i s = .next (answered (withRowPins i s) (withRowPins i s) h.tag kind args [0x02] none))
      ∧ (∀ n, requestLength kind = some n → args.length = n → readRequest kind args = none →
        exec i s = .next (answered (withRowPins i s) (withRowPins i s) h.tag kind args [0x03] none)))
    ∧ (let lengths : List (Byte × Nat) :=
        [ (0x01, 0), (0x02, 0), (0x03, 3), (0x04, 0), (0x11, 2), (0x12, 2), (0x13, 1), (0x14, 2), (0x20, 7), (0x21, 7)
        , (0x22, 6), (0x23, 1), (0x24, 1), (0x30, 9), (0x31, 2), (0x32, 0), (0x40, 3), (0x41, 0), (0x42, 1), (0x43, 0)
        , (0x50, 5), (0x51, 5), (0x52, 1), (0x53, 1), (0x54, 0), (0x55, 0), (0x60, 1), (0x61, 1), (0x62, 2) ]
      (∀ e ∈ lengths, requestLength e.1 = some e.2)
        ∧ ∀ kind : Byte, kind ∉ lengths.map Prod.fst → requestLength kind = none)
    ∧ (∀ kind : Byte, kind ∈ [0x01, 0x02, 0x04, 0x32, 0x41, 0x43, 0x54, 0x55] → readRequest kind [] ≠ none)
    ∧ (∀ rate turnaround gap : Byte, readRequest 0x03 [rate, turnaround, gap] = none ↔
        3 < rate.toNat ∨ turnaround.toNat < 1 ∨ 15 < turnaround.toNat ∨ gap.toNat < 2 ∨ 15 < gap.toNat)
    ∧ (∀ x mode : Byte, (readRequest 0x11 [x, mode] = none ↔ 1 < x.toNat ∨ 1 < mode.toNat)
        ∧ (readRequest 0x12 [x, mode] = none ↔ 1 < x.toNat ∨ 1 < mode.toNat)
        ∧ (readRequest 0x13 [x] = none ↔ 1 < x.toNat)
        ∧ (readRequest 0x42 [mode] = none ↔ 1 < mode.toNat))
    ∧ (∀ source edge : Byte, readRequest 0x14 [source, edge] = none ↔ 2 < source.toNat ∨ 1 < edge.toNat)
    ∧ (∀ c p1 p2 q1 q2 invert mask : Byte, readRequest 0x20 [c, p1, p2, q1, q2, invert, mask] = none ↔
        7 < c.toNat ∨ 1 < invert.toNat ∨ 1 < mask.toNat)
    ∧ (∀ p mode x e1 e2 o1 o2 : Byte, readRequest 0x21 [p, mode, x, e1, e2, o1, o2] = none ↔
        3 < p.toNat ∨ 1 < mode.toNat ∨ 1 < x.toNat ∨ 1023 < e1.toNat * 256 + e2.toNat
          ∨ 1023 < o1.toNat * 256 + o2.toNat)
    ∧ (∀ x p1 p2 alignment prescale restart : Byte,
        readRequest 0x22 [x, p1, p2, alignment, prescale, restart] = none ↔
          1 < x.toNat ∨ p1.toNat * 256 + p2.toNat < 2 ∨ 1 < alignment.toNat
            ∨ prescale.toNat ∉ [1, 2, 4, 8, 16, 32, 64, 128] ∨ 1 < restart.toNat)
    ∧ (∀ c : Byte, (readRequest 0x23 [c] = none ↔ 7 < c.toNat) ∧ (readRequest 0x24 [c] = none ↔ 3 < c.toNat)
        ∧ (readRequest 0x52 [c] = none ↔ 7 < c.toNat) ∧ (readRequest 0x53 [c] = none ↔ 7 < c.toNat))
    ∧ (∀ x channels pairs record condition k boundary present deadline : Byte,
        readRequest 0x30 [x, channels, pairs, record, condition, k, boundary, present, deadline] = none ↔
          1 < x.toNat ∨ 15 < pairs.toNat ∨ 1 < record.toNat ∨ 2 < condition.toNat
            ∨ (condition.toNat = 1 ∧ k = 0) ∨ (condition.toNat ≠ 1 ∧ k ≠ 0) ∨ 1 < boundary.toNat ∨ 1 < present.toNat
            ∨ (present.toNat = 0 ∧ deadline ≠ 0) ∨ (present.toNat = 1 ∧ deadline = 0))
    ∧ (∀ form operand : Byte, readRequest 0x31 [form, operand] = none ↔
        1 < form.toNat ∨ (form.toNat = 0 ∧ operand = 0) ∨ (form.toNat = 1 ∧ 1 < operand.toNat))
    ∧ (∀ form target value : Byte, readRequest 0x40 [form, target, value] = none ↔
        1 < form.toNat ∨ (form.toNat = 0 ∧ (7 < target.toNat ∨ 2 < value.toNat))
          ∨ (form.toNat = 1 ∧ (3 < target.toNat ∨ value.toNat ∉ [0, 3, 4, 5])))
    ∧ (∀ input level high low qualify : Byte, readRequest 0x50 [input, level, high, low, qualify] = none ↔
        3 < input.toNat ∨ 1 < level.toNat ∨ high.toNat * 256 + low.toNat < 1 ∨ 256 < high.toNat * 256 + low.toNat
          ∨ qualify.toNat < 1 ∨ 16 < qualify.toNat)
    ∧ (∀ slot input channels action clearing : Byte,
        readRequest 0x51 [slot, input, channels, action, clearing] = none ↔
          7 < slot.toNat ∨ 3 < input.toNat ∨ 2 < action.toNat ∨ 1 < clearing.toNat)
    ∧ (∀ n : Byte, (readRequest 0x60 [n] = none ↔ n.toNat < 1 ∨ 4 < n.toNat) ∧ readRequest 0x61 [n] ≠ none)
    ∧ ∀ high low : Byte, readRequest 0x62 [high, low] = none ↔ 1 < high.toNat

/-- R171: a retransmission is answered from the cache and changes nothing else.

R170, R172, R173: what the cache holds after a new entry: entries of the same tag are gone, a full cache loses its oldest,
the rest keep their order, and the new entry stands last. -/
def Obligations.ReplyCache : Prop :=
  (∀ (s : State) (i : Instr) (h : Header) (kind : Byte) (args : List Byte) (e : CacheEntry),
      requestFrame i = some (h, kind, args) → h.cast = .addressed → Listening s → CacheSound s → e ∈ s.cache →
      e.tag = h.tag → e.check = frameCheck s.link.nodeAddress h.tag kind args →
        exec i s = .next
          { withRowPins i s with
            link := { heardLink s.link with
              transmitter := .turnaround { frame := e.frame, action := none } 0 s.link.settings.turnaround }
            pins := { (withRowPins i s).pins with line := .high } })
    ∧ (∀ (cache : List CacheEntry) (e : CacheEntry), cache.length ≤ 4 → (cache.map CacheEntry.tag).Nodup →
      ((∀ d ∈ cache, d.tag ≠ e.tag) → cache.length = 4 → remember cache e = cache.tail ++ [e])
        ∧ ((∀ d ∈ cache, d.tag ≠ e.tag) → cache.length < 4 → remember cache e = cache ++ [e])
        ∧ ∀ before d after, cache = before ++ d :: after → d.tag = e.tag → remember cache e = before ++ after ++ [e])

/-- R169: a broadcast of any kind but START TIMEBASE, STOP TIMEBASE, ISSUE TICKET and DISABLE OUTPUTS is discarded with a LINK
event of reason BROADCAST_KIND, whatever its payload.

R168: a broadcast of one of the four kinds that fails a check is not carried out, and a LINK event of reason
BROADCAST_REFUSED is posted: a wrong length, a reserved encoding, a START TIMEBASE that finds its timebase RUNNING, an ISSUE
TICKET that fails a check. -/
def Obligations.BroadcastsNotCarriedOut : Prop :=
  (∀ (s : State) (i : Instr) (h : Header) (kind : Byte) (args : List Byte),
      requestFrame i = some (h, kind, args) → h.cast = .broadcast → Listening s →
      kind ≠ 0x11 → kind ≠ 0x12 → kind ≠ 0x30 → kind ≠ 0x42 →
        exec i s = .next
          { heard s (s.post [{ key := .link, detail := .link .broadcastKind }]) with
            pins := { (withRowPins i s).pins with line := .high } })
    ∧ (∀ (s : State) (tag : Byte), Listening s →
      (∀ i h kind args, requestFrame i = some (h, kind, args) → h.cast = .broadcast →
        kind = 0x11 ∨ kind = 0x12 ∨ kind = 0x30 ∨ kind = 0x42 →
        (requestLength kind ≠ some args.length ∨ readRequest kind args = none) →
          exec i s = .next (heard s (s.post [{ key := .link, detail := .link .broadcastRefused }])))
        ∧ (∀ x (mode : Byte), (s.timebases.get x).state = .running → mode = 0 ∨ mode = 1 →
          exec (.startTimebase (broadcastWith tag) [tbByte x, mode]) s
            = .next (heard s (s.post [{ key := .link, detail := .link .broadcastRefused }])))
        ∧ ∀ t args, SpellsTicket t args → ticketRefusal s t ≠ none →
          exec (.issueTicket (broadcastWith tag) args) s
            = .next (heard s (s.post [{ key := .link, detail := .link .broadcastRefused }])))

/-- R168: a broadcast of one of the four kinds that passes every check is carried out as the addressed request that draws OK,
draws no reply and leaves the cache. -/
def Obligations.BroadcastsAreCarriedOut : Prop :=
  ∀ (s : State) (tag : Byte), Listening s →
    (∀ x, (s.timebases.get x).state = .stopped →
      exec (.startTimebase (broadcastWith tag) [tbByte x, 1]) s
        = .next (heard s (s.setTimebase x { s.timebases.get x with state := .waitSync, cycles := 0 })))
      ∧ (∀ x, (s.timebases.get x).state = .running →
        exec (.stopTimebaseAtBoundary (broadcastWith tag) (tbByte x)) s
          = .next (heard s (s.setTimebase x { s.timebases.get x with state := .stopping })))
      ∧ (∀ x, (s.timebases.get x).state = .stopped →
        exec (.stopTimebaseImmediate (broadcastWith tag) (tbByte x)) s = .next (heard s s))
      ∧ (∀ t args, SpellsTicket t args → TicketFieldsSound t → ticketRefusal s t = none →
        exec (.issueTicket (broadcastWith tag) args) s = .next (heard s (s.withCommit (issueTo s.commit t))))
      ∧ exec (.disableOutputsImmediate (broadcastWith tag)) s = .next (heard s (s.setEnable .disabled 0).settle)
      ∧ (s.output.enable = .disabled ∨ s.output.enable = .draining →
        exec (.disableOutputsGraceful (broadcastWith tag)) s = .next (heard s s))
      ∧ ∀ i j kind args, requestFrame i = some (addressedTo tag, kind, args) →
        requestFrame j = some (broadcastWith tag, kind, args) →
        kind = 0x11 ∨ kind = 0x12 ∨ kind = 0x30 ∨ kind = 0x42 → Unanswered s tag kind args →
        ∀ t r, exec i s = .next t → replyHeld t.link.transmitter = some r → r.frame[5]? = some 0x00 →
          exec j s = .next { t with link := heardLink s.link, cache := s.cache }

/-! ## General and reading requests -/

/-- R174, R175, R185: IDENTIFY and READ STATUS answer and change nothing. -/
def Obligations.IdentifyAndStatusReplies : Prop :=
  ∀ (s : State) (tag : Byte), Listening s →
    (Unanswered s tag 0x01 [] →
      exec (.identify (addressedTo tag) []) s
        = .next (answered s s tag 0x01 []
            [ 0x00, 0x0E, 0x21, 0x53, 0x08, 0x01, s.link.nodeAddress, if s.link.strapFault then 1 else 0
            , 8, 2, 8, 16, 4, 8, 27 ] none))
      ∧ (Unanswered s tag 0x02 [] →
        exec (.readStatus (addressedTo tag) []) s
          = .next (answered s s tag 0x02 []
              [ 0x00
              , enableByte s.output.enable
              , timebaseStateByte (s.timebases.get .a).state
              , timebaseStateByte (s.timebases.get .b).state
              , natByte s.commit.queue.length
              , natByte (16 - (s.commit.queue.map slotsOf).sum)
              , natByte (s.notices.queue.filter fun n => n.token.isNone).length
              , natByte s.notices.queue.length
              , if s.trip.frozen then 1 else 0
              , natByte (routeCount s .tripped)
              , natByte (routeCount s .releasing) ] none))

/-- R17, R39, R64, R99, R122: the other reading requests answer with the values held and change nothing; READ TRIPS brings the
levels of the trip pins (log 18). -/
def Obligations.ReadingRequestsChangeNothing : Prop :=
  ∀ (s : State) (tag : Byte), Listening s →
    (∀ x, Unanswered s tag 0x13 [tbByte x] →
      exec (.readTimebase (addressedTo tag) [tbByte x]) s
        = .next (answered s s tag 0x13 [tbByte x]
            ([0x00, timebaseStateByte (s.timebases.get x).state] ++ word16Bytes (s.timebases.get x).counter
              ++ [directionByte (s.timebases.get x).direction] ++ word32Bytes (s.timebases.get x).cycles
              ++ timebaseRecordBytes (s.timebases.get x).active ++ timebaseRecordBytes (s.commit.timebases.get x)
              ++ [syncSourceByte s.sync.source, syncEdgeByte s.sync.edge, levelByte s.sync.filtered]) none))
      ∧ (∀ c, Unanswered s tag 0x23 [chanByte c] →
        exec (.readChannel (addressedTo tag) [chanByte c]) s
          = .next (answered s s tag 0x23 [chanByte c]
              ([0x00] ++ channelRecordBytes (s.commit.channels.get c) ++ channelRecordBytes (s.pattern.channels.get c))
              none))
      ∧ (∀ p, Unanswered s tag 0x24 [pairByte p] →
        exec (.readPair (addressedTo tag) [pairByte p]) s
          = .next (answered s s tag 0x24 [pairByte p]
              ([0x00] ++ pairRecordBytes (s.commit.pairs.get p) ++ pairRecordBytes (s.pattern.pairs.get p)) none))
      ∧ (Unanswered s tag 0x32 [] →
        exec (.listTickets (addressedTo tag) []) s
          = .next (answered s s tag 0x32 []
              ([0x00, natByte s.commit.queue.length, natByte (16 - (s.commit.queue.map slotsOf).sum)]
                ++ s.commit.queue.flatMap ticketEntry) none))
      ∧ (Unanswered s tag 0x43 [] →
        exec (.readOutputs (addressedTo tag) []) s
          = .next (answered s s tag 0x43 []
              ([0x00, enableByte s.output.enable, s.output.drained] ++ Chan.all.flatMap (channelEntry s)) none))
      ∧ ∀ raw : TripFile Level, Unanswered s tag 0x54 [] →
        exec (.readTrips (addressedTo tag) [] raw) s
          = .next
            { answered s s tag 0x54 []
                ([0x00, if s.trip.frozen then 1 else 0]
                  ++ TripName.all.flatMap (fun i => inputEntry (s.trip.inputs.get i) (raw.get i))
                  ++ Slot.all.flatMap fun n => routeEntry (s.trip.routes.get n)) none with
              pins := { s.pins with line := .high, trip := raw } }

/-- R159, R176: SET LINK and RESET CONTROLLER mark their OK reply with a pending action and change nothing else. -/
def Obligations.SetLinkAndResetControllerWaitForTheirReply : Prop :=
  ∀ (s : State) (tag : Byte), Listening s →
    (∀ v : LinkSettings, SettingsSound v → Unanswered s tag 0x03 [rateByte v.rate, v.turnaround, v.gapLimit] →
      exec (.setLink (addressedTo tag) [rateByte v.rate, v.turnaround, v.gapLimit]) s
        = .next (answered s s tag 0x03 [rateByte v.rate, v.turnaround, v.gapLimit]
            [0x00, rateByte v.rate, v.turnaround, v.gapLimit] (some (.settings v))))
      ∧ (Unanswered s tag 0x04 [] →
        exec (.resetController (addressedTo tag) []) s
          = .next (answered s s tag 0x04 [] [0x00] (some .controllerReset)))

/-! ## Timebases -/

/-- R8: START TIMEBASE where it produces no boundary.

R10: STOP TIMEBASE AT_BOUNDARY. -/
def Obligations.StartAndStopWithoutBoundary : Prop :=
  (∀ (s : State) (tag : Byte) (x : Tb) (mode : Byte), Listening s → mode = 0 ∨ mode = 1 →
      Unanswered s tag 0x11 [tbByte x, mode] →
        ((s.timebases.get x).state = .stopped → mode = 1 →
          exec (.startTimebase (addressedTo tag) [tbByte x, mode]) s
            = .next (answered s (s.setTimebase x { s.timebases.get x with state := .waitSync, cycles := 0 })
                tag 0x11 [tbByte x, mode] [0x00, 0x01] none))
        ∧ ((s.timebases.get x).state = .waitSync → mode = 1 →
          exec (.startTimebase (addressedTo tag) [tbByte x, mode]) s
            = .next (answered s s tag 0x11 [tbByte x, mode] [0x00, 0x01] none))
        ∧ ((s.timebases.get x).state = .stopping →
          exec (.startTimebase (addressedTo tag) [tbByte x, mode]) s
            = .next (answered s (s.setTimebase x { s.timebases.get x with state := .running })
                tag 0x11 [tbByte x, mode] [0x00, 0x02] none))
        ∧ ((s.timebases.get x).state = .running →
          exec (.startTimebase (addressedTo tag) [tbByte x, mode]) s
            = .next (answered s s tag 0x11 [tbByte x, mode] [0x04, 0x02] none)))
    ∧ (∀ (s : State) (tag : Byte) (x : Tb), Listening s → Unanswered s tag 0x12 [tbByte x, 1] →
      ((s.timebases.get x).state = .running →
        exec (.stopTimebaseAtBoundary (addressedTo tag) (tbByte x)) s
          = .next (answered s (s.setTimebase x { s.timebases.get x with state := .stopping })
              tag 0x12 [tbByte x, 1] [0x00, 0x03] none))
        ∧ ((s.timebases.get x).state = .stopping →
          exec (.stopTimebaseAtBoundary (addressedTo tag) (tbByte x)) s
            = .next (answered s s tag 0x12 [tbByte x, 1] [0x00, 0x03] none))
        ∧ ((s.timebases.get x).state = .waitSync →
          exec (.stopTimebaseAtBoundary (addressedTo tag) (tbByte x)) s
            = .next (answered s
                (s.setTimebase x
                  { s.timebases.get x with state := .stopped, counter := 0, direction := .up, tickTimer := 0 })
                tag 0x12 [tbByte x, 1] [0x00, 0x00] none))
        ∧ ((s.timebases.get x).state = .stopped →
          exec (.stopTimebaseAtBoundary (addressedTo tag) (tbByte x)) s
            = .next (answered s s tag 0x12 [tbByte x, 1] [0x00, 0x00] none)))

/-- R5, R6, R8, R15, R48 to R52, R59, R91, R107, R109: START TIMEBASE NOW from STOPPED or WAIT_SYNC runs the timebase from count 0
with cycle count 1 and a START boundary, of which `StartTaken` says what it does to tickets, routes, drains, levels and outputs,
and `Posted` that its notices are taken. The order of notices (log 7) and one selection at the end (log 28) are the model's. -/
def Obligations.StartNowProducesTheFirstBoundary : Prop :=
  ∀ (s : State) (tag : Byte) (x : Tb), Listening s → Unanswered s tag 0x11 [tbByte x, 0] →
    (s.timebases.get x).state = .stopped ∨ (s.timebases.get x).state = .waitSync →
      ∃ t : State, exec (.startTimebase (addressedTo tag) [tbByte x, 0]) s = .next t
        ∧ (t.timebases.get x).state = .running ∧ (t.timebases.get x).counter = 0
        ∧ (t.timebases.get x).direction = .up ∧ (t.timebases.get x).cycles = 1 ∧ (t.timebases.get x).tickTimer = 0
        ∧ t.timebases.get (otherTb x) = s.timebases.get (otherTb x)
        ∧ t.sync = (if drivesSyncOut s.sync.source x then { s.sync with pulse := some 0 } else s.sync)
        ∧ t.trip.inputs = s.trip.inputs ∧ t.trip.frozen = s.trip.frozen
        ∧ (∀ n, t.trip.routes.get n = (s.trip.routes.get n).map (releaseRoute (boundSet s.pattern x)))
        ∧ t.link = { heardLink s.link with
            transmitter := .turnaround
              { frame := frameBytes 0xA5 s.link.nodeAddress tag 0x11 [0x00, 0x02], action := none }
              0 s.link.settings.turnaround }
        ∧ t.cache = remember s.cache
            { tag := tag, check := frameCheck s.link.nodeAddress tag 0x11 [tbByte x, 0]
              frame := frameBytes 0xA5 s.link.nodeAddress tag 0x11 [0x00, 0x02] }
        ∧ t.commit.channels = s.commit.channels ∧ t.commit.pairs = s.commit.pairs
        ∧ t.commit.timebases = s.commit.timebases ∧ t.commit.nextId = s.commit.nextId
        ∧ t.inReset = s.inReset ∧ t.pins = { s.pins with line := .high } ∧ t.pending = s.pending
        ∧ ∃ r : Raised,
          StartTaken x false
              (s.setTimebase x { s.timebases.get x with
                state := .running, counter := 0, direction := .up, cycles := 0, tickTimer := 0 }) t r
            ∧ Posted s t r

/-- R9, R11, R62, R92, R108, R109: STOP TIMEBASE IMMEDIATE of a timebase that is not STOPPED; `StopTaken` says what its stop event
does to every block. The order of notices (log 7) and the deadtime clocks (log 12) are the model's. -/
def Obligations.StopImmediateStopsAtOnce : Prop :=
  ∀ (s : State) (tag : Byte) (x : Tb), Listening s → Unanswered s tag 0x12 [tbByte x, 0] →
    ((s.timebases.get x).state = .stopped →
      exec (.stopTimebaseImmediate (addressedTo tag) (tbByte x)) s
        = .next (answered s s tag 0x12 [tbByte x, 0] [0x00, 0x00] none))
      ∧ ((s.timebases.get x).state ≠ .stopped →
        ∃ t : State, exec (.stopTimebaseImmediate (addressedTo tag) (tbByte x)) s = .next t
          ∧ t.timebases = s.timebases.set x
              { s.timebases.get x with state := .stopped, counter := 0, direction := .up, tickTimer := 0 }
          ∧ t.commit = { s.commit with queue := s.commit.queue.filter fun k => k.timebase ≠ x }
          ∧ t.trip.inputs = s.trip.inputs ∧ t.trip.frozen = s.trip.frozen
          ∧ (∀ n, t.trip.routes.get n = (s.trip.routes.get n).map (releaseRoute (boundSet s.pattern x)))
          ∧ (∀ c, boundTo s.pattern c = x → t.pattern.source.get c = .inactive)
          ∧ (∀ c, boundTo s.pattern c ≠ x →
              t.pattern.source.get c = s.pattern.source.get c ∧ t.pattern.level.get c = s.pattern.level.get c)
          ∧ t.pattern.channels = s.pattern.channels ∧ t.pattern.pairs = s.pattern.pairs
          ∧ ((∃ k ∈ s.commit.queue, k.timebase = x) → Reported t (.cancelled x)
              (.cancelled (s.commit.queue.filter fun k => k.timebase = x).length .immediate))
          ∧ (∃ r : Raised, StopTaken x .immediate s t r ∧ Posted s t r)
          ∧ t.link = { heardLink s.link with
              transmitter := .turnaround
                { frame := frameBytes 0xA5 s.link.nodeAddress tag 0x12 [0x00, 0x00], action := none }
                0 s.link.settings.turnaround }
          ∧ t.sync = s.sync ∧ t.cache = remember s.cache
              { tag := tag, check := frameCheck s.link.nodeAddress tag 0x12 [tbByte x, 0]
                frame := frameBytes 0xA5 s.link.nodeAddress tag 0x12 [0x00, 0x00] }
          ∧ t.inReset = s.inReset ∧ t.pins = { s.pins with line := .high } ∧ t.pending = s.pending)

/-- R16: CONFIGURE SYNC replaces both fields and nothing else.

R15: the end of the SYNC OUT pulse takes SYNC OUT low and changes nothing else. -/
def Obligations.SyncConfigurationAndPulse : Prop :=
  (∀ (s : State) (tag : Byte) (source : SyncSource) (edge : SyncEdge), Listening s →
      Unanswered s tag 0x14 [syncSourceByte source, syncEdgeByte edge] →
        exec (.configureSync (addressedTo tag) [syncSourceByte source, syncEdgeByte edge]) s
          = .next (answered s (s.withSync { s.sync with source := source, edge := edge })
              tag 0x14 [syncSourceByte source, syncEdgeByte edge] [0x00] none))
    ∧ (∀ s : State, ∃ t : State, exec .syncOutPulseEnd s = .next t ∧ syncOutHigh t = false
      ∧ t = s.withSync { s.sync with pulse := none })

/-- R2 to R4, R21, R119: a tick that produces no boundary advances the counter by one step of its shape, is counted on the deadtime
delays of the pairs bound to the timebase, and the levels and outputs follow; everything else stays. That the row changes nothing
where the timebase is stopped, and so takes no tick, is the model's choice (log 3). -/
def Obligations.TickAdvancesTheCounter : Prop :=
  ∀ (s : State) (x : Tb), s.inReset = false →
    (isStopped (s.timebases.get x) = true → exec (.tick x) s = .next s)
      ∧ (isStopped (s.timebases.get x) = false →
        ∀ (counter : Word16) (direction : Direction),
          ((s.timebases.get x).active.alignment = .edge
              ∧ (s.timebases.get x).counter.toNat + 1 < (s.timebases.get x).active.period.toNat
              ∧ counter = (s.timebases.get x).counter + 1 ∧ direction = .up)
            ∨ ((s.timebases.get x).active.alignment = .center ∧ (s.timebases.get x).direction = .up
              ∧ (s.timebases.get x).counter.toNat + 1 < (s.timebases.get x).active.period.toNat
              ∧ counter = (s.timebases.get x).counter + 1 ∧ direction = .up)
            ∨ ((s.timebases.get x).active.alignment = .center ∧ (s.timebases.get x).direction = .up
              ∧ (s.timebases.get x).counter = (s.timebases.get x).active.period
              ∧ counter = (s.timebases.get x).active.period - 1 ∧ direction = .down)
            ∨ ((s.timebases.get x).active.alignment = .center ∧ (s.timebases.get x).direction = .down
              ∧ 1 < (s.timebases.get x).counter.toNat
              ∧ counter = (s.timebases.get x).counter - 1 ∧ direction = .down) →
          ∃ t : State, exec (.tick x) s = .next t
            ∧ t.timebases = s.timebases.set x
                { s.timebases.get x with counter := counter, direction := direction, tickTimer := 0 }
            ∧ t.sync = s.sync ∧ t.commit = s.commit ∧ t.trip = s.trip ∧ t.notices = s.notices ∧ t.free = s.free
            ∧ t.pattern.channels = s.pattern.channels ∧ t.pattern.pairs = s.pattern.pairs
            ∧ t.output.enable = s.output.enable ∧ t.output.drained = s.output.drained
            ∧ t.output.overrides = s.output.overrides
            ∧ (∀ c, (t.output.channels.get c).hold = (s.output.channels.get c).hold)
            ∧ Refreshed x s t ∧ (∀ c, (t.output.channels.get c).selected = selectLevel t c)
            ∧ OutputsFollow (tickCounted x s.pattern s.output.channels) s.output.clocks.get t
            ∧ OutsideKept s t)

/-- R5, R6, R48 to R52, R59, R91, R107, R109: a tick that brings the counter of a RUNNING timebase back to 0 produces a START
boundary, and its cycle count goes up by one; `StartTaken` says what the boundary does to tickets, routes, drains, levels and
outputs, and `Posted` that its notices are taken. The order of notices (log 7), a tick that carries a pair to the timebase (log 11)
and one selection at the end (log 28) are the model's. -/
def Obligations.TickAtTheEndOfACycle : Prop :=
  ∀ (s : State) (x : Tb), s.inReset = false → (s.timebases.get x).state = .running →
    ((s.timebases.get x).active.alignment = .edge
        ∧ (s.timebases.get x).active.period.toNat ≤ (s.timebases.get x).counter.toNat + 1)
      ∨ ((s.timebases.get x).active.alignment = .center ∧ (s.timebases.get x).direction = .down
        ∧ (s.timebases.get x).counter = 1) →
      ∃ t : State, exec (.tick x) s = .next t
        ∧ (t.timebases.get x).state = .running ∧ (t.timebases.get x).counter = 0
        ∧ (t.timebases.get x).direction = .up ∧ (t.timebases.get x).tickTimer = 0
        ∧ (t.timebases.get x).cycles = (s.timebases.get x).cycles + 1
        ∧ t.timebases.get (otherTb x) = s.timebases.get (otherTb x)
        ∧ t.sync = (if drivesSyncOut s.sync.source x then { s.sync with pulse := some 0 } else s.sync)
        ∧ t.trip.inputs = s.trip.inputs ∧ t.trip.frozen = s.trip.frozen
        ∧ (∀ n, t.trip.routes.get n = (s.trip.routes.get n).map (releaseRoute (boundSet s.pattern x)))
        ∧ t.commit.queue = (deadlineStep x (takeReady x .start (s.commit.queue.map (countDown x .start))).2).1
        ∧ t.commit.channels = s.commit.channels ∧ t.commit.pairs = s.commit.pairs
        ∧ t.commit.timebases = s.commit.timebases ∧ t.commit.nextId = s.commit.nextId
        ∧ OutsideKept s t
        ∧ ∃ r : Raised,
          StartTaken x true
              (s.setTimebase x { s.timebases.get x with counter := 0, direction := .up, tickTimer := 0 }) t r
            ∧ Posted s t r

/-- R10, R11, R53, R91, R92, R107 to R109: a STOPPING timebase stops at its START boundary. The boundary is taken whole
(`StartTaken`), with its SYNC OUT pulse; then the stop event of kind AT_BOUNDARY (`StopTaken`) cancels the tickets left, gives back
and drains, and makes the source levels INACTIVE; the CANCELLED and the TIMEBASE notice stand behind those of the boundary in
either order. The order of notices (log 7), the levels handed on twice (log 15), and logs 11, 12 and 28 are the model's. -/
def Obligations.StoppingCompletesAtTheBoundary : Prop :=
  ∀ (s : State) (x : Tb), s.inReset = false → (s.timebases.get x).state = .stopping →
    ((s.timebases.get x).active.alignment = .edge
        ∧ (s.timebases.get x).active.period.toNat ≤ (s.timebases.get x).counter.toNat + 1)
      ∨ ((s.timebases.get x).active.alignment = .center ∧ (s.timebases.get x).direction = .down
        ∧ (s.timebases.get x).counter = 1) →
      ∃ t : State, exec (.tick x) s = .next t
        ∧ (t.timebases.get x).state = .stopped ∧ (t.timebases.get x).counter = 0
        ∧ (t.timebases.get x).direction = .up ∧ (t.timebases.get x).tickTimer = 0
        ∧ (t.timebases.get x).cycles = (s.timebases.get x).cycles + 1
        ∧ t.timebases.get (otherTb x) = s.timebases.get (otherTb x)
        ∧ t.commit.queue = s.commit.queue.filter (fun k => k.timebase ≠ x)
        ∧ (∀ n, t.trip.routes.get n
            = ((s.trip.routes.get n).map (releaseRoute (boundSet s.pattern x))).map
                (releaseRoute (boundSet t.pattern x)))
        ∧ Reported t (.timebase x) (.timebase .stopped .stoppedAtBoundary)
        ∧ t.sync = (if drivesSyncOut s.sync.source x then { s.sync with pulse := some 0 } else s.sync)
        ∧ (∀ c, boundTo t.pattern c = x → t.pattern.source.get c = .inactive)
        ∧ OutsideKept s t
        ∧ ∃ (m : State) (start stop r : Raised),
          StartTaken x true
              (s.setTimebase x { s.timebases.get x with counter := 0, direction := .up, tickTimer := 0 }) m start
            ∧ StopTaken x .atBoundary m t stop ∧ StopNotices x start stop r ∧ Posted s t r

/-- R4, R48, R59: a tick that reaches the turning point of a CENTER timebase produces a MID boundary: tickets count down and apply,
levels and outputs follow (`MidTaken`), and nothing is given back or drained. Logs 11 and 28 as at a START boundary. -/
def Obligations.TickAtTheTurningPoint : Prop :=
  ∀ (s : State) (x : Tb), s.inReset = false → isStopped (s.timebases.get x) = false →
    (s.timebases.get x).active.alignment = .center → (s.timebases.get x).direction = .up →
    (s.timebases.get x).counter.toNat + 1 = (s.timebases.get x).active.period.toNat →
      ∃ t : State, exec (.tick x) s = .next t
        ∧ (t.timebases.get x).counter = (s.timebases.get x).active.period
        ∧ (t.timebases.get x).direction = .up ∧ (t.timebases.get x).cycles = (s.timebases.get x).cycles
        ∧ (t.timebases.get x).state = (s.timebases.get x).state ∧ (t.timebases.get x).tickTimer = 0
        ∧ t.timebases.get (otherTb x) = s.timebases.get (otherTb x)
        ∧ t.commit.queue = (takeReady x .mid (s.commit.queue.map (countDown x .mid))).2
        ∧ t.sync = s.sync ∧ t.trip = s.trip ∧ t.output.enable = s.output.enable
        ∧ t.output.drained = s.output.drained ∧ OutsideKept s t
        ∧ ∃ r : Raised,
          MidTaken x
              (s.setTimebase x { s.timebases.get x with
                counter := (s.timebases.get x).active.period, direction := .up, tickTimer := 0 }) t r
            ∧ Posted s t r

/-- R13: the SYNC IN filter. Three agreeing samples of the other level change nothing but the count; a sample at the filtered
level clears it; the fourth changes the level, and the edge that is not selected does nothing more.

R14, R54: a qualified SYNC IN edge. Every SYNC ticket is marked, and then the edge acts on both timebases (`EdgeTaken`), in an order
left open (log 8): a timebase in WAIT_SYNC starts with cycle count 1 and the TIMEBASE notice SYNC_START; a counting one with
sync_restart restarts, its tick timer too, and produces a START boundary, at which a STOPPING one stops; the others go on. That
the row is taken in every state outside reset, also where the filtered level stands at the edge's level already, is the model's
choice (log 3), and so is the level it leaves on the pin (log 4); logs 7, 15 and 28 as at a tick, and log 9 for the counter of
free choices. -/
def Obligations.SyncInSamplesAndEdges : Prop :=
  (∀ (s : State) (l : Level), s.inReset = false →
      (l = s.sync.filtered →
        exec (.syncInSample l) s
          = .next ((s.withPins { s.pins with syncIn := l }).withSync { s.sync with agreement := 0 }))
        ∧ (l ≠ s.sync.filtered → s.sync.agreement < 3 →
          exec (.syncInSample l) s
            = .next ((s.withPins { s.pins with syncIn := l }).withSync
                { s.sync with agreement := s.sync.agreement + 1 }))
        ∧ (l ≠ s.sync.filtered → s.sync.agreement = 3 → l ≠ edgeLevel s.sync.edge →
          exec (.syncInSample l) s
            = .next ((s.withPins { s.pins with syncIn := l }).withSync
                { s.sync with filtered := l, agreement := 0 }))
        ∧ (l ≠ s.sync.filtered → s.sync.agreement = 3 → l = edgeLevel s.sync.edge →
          exec (.syncInSample l) s = exec .qualifiedSyncInEdge s))
    ∧ (∀ s : State, s.inReset = false →
      ∃ t : State, exec .qualifiedSyncInEdge s = .next t
        ∧ t.sync.filtered = edgeLevel s.sync.edge ∧ t.sync.agreement = 0
        ∧ t.sync.source = s.sync.source ∧ t.sync.edge = s.sync.edge
        ∧ t.pins = { s.pins with syncIn := edgeLevel s.sync.edge }
        ∧ (∀ x, (s.timebases.get x).state = .waitSync →
            (t.timebases.get x).state = .running ∧ (t.timebases.get x).counter = 0
              ∧ (t.timebases.get x).direction = .up ∧ (t.timebases.get x).cycles = 1
              ∧ (t.timebases.get x).tickTimer = 0)
        ∧ (∀ x, (s.timebases.get x).state = .running → (s.timebases.get x).active.syncRestart = true →
            (t.timebases.get x).state = .running ∧ (t.timebases.get x).counter = 0
              ∧ (t.timebases.get x).direction = .up ∧ (t.timebases.get x).tickTimer = 0
              ∧ (t.timebases.get x).cycles = (s.timebases.get x).cycles + 1)
        ∧ (∀ x, (s.timebases.get x).state = .stopping → (s.timebases.get x).active.syncRestart = true →
            (t.timebases.get x).state = .stopped ∧ (t.timebases.get x).counter = 0
              ∧ (t.timebases.get x).cycles = (s.timebases.get x).cycles + 1
              ∧ t.commit.queue.filter (fun k => k.timebase = x) = [])
        ∧ (∀ x, (s.timebases.get x).state = .stopped ∨
              ((s.timebases.get x).state ≠ .waitSync ∧ (s.timebases.get x).active.syncRestart = false) →
            t.timebases.get x = s.timebases.get x
              ∧ t.commit.queue.filter (fun k => k.timebase = x)
                = (markTickets s.commit.queue).filter fun k => k.timebase = x)
        ∧ t.link = s.link ∧ t.cache = s.cache ∧ t.inReset = s.inReset ∧ t.pending = s.pending
        ∧ ∃ (n : Nat) (x : Tb) (m v : State) (one two : Raised),
          EdgeTaken x
              ((((s.withPins { s.pins with syncIn := edgeLevel s.sync.edge }).withSync
                { s.sync with filtered := edgeLevel s.sync.edge, agreement := 0 }).withCommit
                { s.commit with queue := markTickets s.commit.queue }).withFree n) m one
            ∧ EdgeTaken (otherTb x) m v two
            ∧ t = (v.withFree t.free).withNotices t.notices
            ∧ Posted s t (bothRaised one two))

/-- R21 to R29: the pattern level that the records and the count give a channel. -/
def Obligations.PatternLevelFromCount : Prop :=
  ∀ (p : PatternUnit) (tbs : TbFile Timebase) (c : Chan),
    ((p.channels.get c).mask = true → patternLevel p tbs c = .inactive)
      ∧ ((p.channels.get c).mask = false → (modeOf p c = .independent ∨ isPrimary c = true) →
          patternLevel p tbs c = sourceLevel p tbs c)
      ∧ ((p.channels.get c).mask = false → modeOf p c = .complementary → isPrimary c = false →
          (patternLevel p tbs c = .active ↔ sourceLevel p tbs (partner c) = .inactive))
      ∧ (isStopped (tbs.get (boundTo p c)) = true → sourceLevel p tbs c = .inactive)
      ∧ (isStopped (tbs.get (boundTo p c)) = false → (tbs.get (boundTo p c)).active.alignment = .edge →
          (sourceLevel p tbs c = .active ↔
            ((p.channels.get c).onPoint < (p.channels.get c).offPoint
                ∧ (p.channels.get c).onPoint ≤ (tbs.get (boundTo p c)).counter
                ∧ (tbs.get (boundTo p c)).counter < (p.channels.get c).offPoint)
              ∨ ((p.channels.get c).offPoint < (p.channels.get c).onPoint
                ∧ ((p.channels.get c).onPoint ≤ (tbs.get (boundTo p c)).counter
                  ∨ (tbs.get (boundTo p c)).counter < (p.channels.get c).offPoint))))
      ∧ (isStopped (tbs.get (boundTo p c)) = false → (tbs.get (boundTo p c)).active.alignment = .center →
          (sourceLevel p tbs c = .active ↔
            ((tbs.get (boundTo p c)).direction = .up ∧ (p.channels.get c).onPoint ≤ (tbs.get (boundTo p c)).counter)
              ∨ ((tbs.get (boundTo p c)).direction = .down
                ∧ (p.channels.get c).offPoint ≤ (tbs.get (boundTo p c)).counter)))

/-! ## Staging and tickets -/

/-- R36: STAGE CHANNEL.

R37: STAGE PAIR.

R38: STAGE TIMEBASE. -/
def Obligations.StageRequestsReplaceTheRecord : Prop :=
  (∀ (s : State) (tag : Byte), Listening s →
      (∀ (c : Chan) (r : ChannelRecord), Unanswered s tag 0x20 (chanByte c :: channelRecordBytes r) →
        exec (.stageChannel (addressedTo tag) (chanByte c :: channelRecordBytes r)) s
          = .next (answered s (s.withCommit { s.commit with channels := s.commit.channels.set c r })
              tag 0x20 (chanByte c :: channelRecordBytes r) [0x00] none))
        ∧ (∀ b w1 w2 w3 w4 invert mask : Byte, Unanswered s tag 0x20 [b, w1, w2, w3, w4, invert, mask] →
            7 < b.toNat ∨ 1 < invert.toNat ∨ 1 < mask.toNat →
            exec (.stageChannel (addressedTo tag) [b, w1, w2, w3, w4, invert, mask]) s
              = .next (answered s s tag 0x20 [b, w1, w2, w3, w4, invert, mask] [0x03] none))
        ∧ ∀ args : List Byte, exec (.stageChannel (broadcastWith tag) args) s
            = .next (heard s (s.post [{ key := .link, detail := .link .broadcastKind }])))
    ∧ (∀ (s : State) (tag : Byte), Listening s →
      (∀ (p : Pair) (r : PairRecord), Unanswered s tag 0x21 (pairByte p :: pairRecordBytes r) →
        exec (.stagePair (addressedTo tag) (pairByte p :: pairRecordBytes r)) s
          = .next (answered s (s.withCommit { s.commit with pairs := s.commit.pairs.set p r })
              tag 0x21 (pairByte p :: pairRecordBytes r) [0x00] none))
        ∧ (∀ b mode x e1 e2 o1 o2 : Byte, Unanswered s tag 0x21 [b, mode, x, e1, e2, o1, o2] →
            3 < b.toNat ∨ 1 < mode.toNat ∨ 1 < x.toNat ∨ 1023 < e1.toNat * 256 + e2.toNat
              ∨ 1023 < o1.toNat * 256 + o2.toNat →
            exec (.stagePair (addressedTo tag) [b, mode, x, e1, e2, o1, o2]) s
              = .next (answered s s tag 0x21 [b, mode, x, e1, e2, o1, o2] [0x03] none))
        ∧ ∀ args : List Byte, exec (.stagePair (broadcastWith tag) args) s
            = .next (heard s (s.post [{ key := .link, detail := .link .broadcastKind }])))
    ∧ (∀ (s : State) (tag : Byte), Listening s →
      (∀ (x : Tb) (r : TimebaseRecord), 2 ≤ r.period.toNat → Unanswered s tag 0x22 (tbByte x :: timebaseRecordBytes r) →
        exec (.stageTimebase (addressedTo tag) (tbByte x :: timebaseRecordBytes r)) s
          = .next (answered s (s.withCommit { s.commit with timebases := s.commit.timebases.set x r })
              tag 0x22 (tbByte x :: timebaseRecordBytes r) [0x00] none))
        ∧ (∀ b p1 p2 alignment prescale restart : Byte, Unanswered s tag 0x22 [b, p1, p2, alignment, prescale, restart] →
            1 < b.toNat ∨ p1.toNat * 256 + p2.toNat < 2 ∨ 1 < alignment.toNat
              ∨ prescale.toNat ∉ [1, 2, 4, 8, 16, 32, 64, 128] ∨ 1 < restart.toNat →
            exec (.stageTimebase (addressedTo tag) [b, p1, p2, alignment, prescale, restart]) s
              = .next (answered s s tag 0x22 [b, p1, p2, alignment, prescale, restart] [0x03] none))
        ∧ ∀ args : List Byte, exec (.stageTimebase (broadcastWith tag) args) s
            = .next (heard s (s.post [{ key := .link, detail := .link .broadcastKind }])))

/-- R44: the Commit Unit's five checks, in their order.

R43, R45: an ISSUE TICKET that passes its checks appends the ticket, written out with its snapshots, under the first id from the
next-id value that no pending ticket has: every value passed over on the way, counting up and from 255 to 1, is pending. -/
def Obligations.IssueTicket : Prop :=
  (∀ (s : State) (t : TicketRequest),
      let misfit := (t.channels = 0 ∧ t.pairs = 0 ∧ t.record = false) ∨ (t.deadline ≠ none ∧ t.condition ≠ .sync)
        ∨ (t.record = true ∧ t.boundaryKind = .any)
      let full := 8 ≤ s.commit.queue.length
      let records := (Chan.all.filter (inSet t.channels)).length + (Pair.all.filter (inPairSet t.pairs)).length
        + (if t.record then 1 else 0)
      let short := 16 - (s.commit.queue.map slotsOf).sum < records
      let elsewhere := ∃ p, inPairSet t.pairs p = true ∧ (s.commit.pairs.get p).timebase ≠ t.timebase
      let unbound := ∃ c, inSet t.channels c = true ∧ inPairSet t.pairs (pairOf c) = false
        ∧ boundTo s.pattern c ≠ t.timebase
      (misfit → ticketRefusal s t = some .badArgument)
        ∧ (¬ misfit → full ∨ short → ticketRefusal s t = some .noRoom)
        ∧ (¬ misfit → ¬ full → ¬ short → elsewhere ∨ unbound → ticketRefusal s t = some .badArgument)
        ∧ (¬ misfit → ¬ full → ¬ short → ¬ elsewhere → ¬ unbound → ticketRefusal s t = none))
    ∧ (∀ (s : State) (tag : Byte) (t : TicketRequest) (args : List Byte), Listening s → SpellsTicket t args →
      TicketFieldsSound t → Unanswered s tag 0x30 args →
        (∀ st, ticketRefusal s t = some st →
          exec (.issueTicket (addressedTo tag) args) s
            = .next (answered s s tag 0x30 args [statusCode st] none))
        ∧ (CommitSound s → ticketRefusal s t = none →
          ∃ (id : Byte) (n : Nat), id ≠ 0 ∧ (∀ k ∈ s.commit.queue, k.id ≠ id)
            ∧ id = Nat.repeat (fun i => if i = 255 then 1 else i + 1) n s.commit.nextId
            ∧ (∀ m, m < n → ∃ k ∈ s.commit.queue,
                k.id = Nat.repeat (fun i => if i = 255 then 1 else i + 1) m s.commit.nextId)
            ∧ let ticket : Ticket :=
                { id := id
                  timebase := t.timebase
                  condition := t.condition
                  remaining := match t.condition with
                    | .after k => k
                    | .sync => 0
                  deadline := t.deadline
                  syncSeen := false
                  boundaryKind := t.boundaryKind
                  channels := (Chan.all.filter (inSet t.channels)).map fun c => (c, s.commit.channels.get c)
                  pairs := (Pair.all.filter (inPairSet t.pairs)).map fun p => (p, s.commit.pairs.get p)
                  record := if t.record then some (s.commit.timebases.get t.timebase) else none }
              exec (.issueTicket (addressedTo tag) args) s
                = .next (answered s
                    (s.withCommit
                      { s.commit with
                        queue := s.commit.queue ++ [ticket]
                        nextId := if id = 255 then 1 else id + 1 })
                    tag 0x30 args
                    [0x00, id, natByte (16 - (((s.commit.queue ++ [ticket]).map slotsOf).sum))] none)))

/-- R60: CANCEL TICKET in its by-id form.

R61: CANCEL TICKET in its all form. -/
def Obligations.CancelTicketBothForms : Prop :=
  (∀ (s : State) (tag id : Byte), Listening s → Unanswered s tag 0x31 [0, id] →
      (id = 0 → exec (.cancelTicketById (addressedTo tag) id) s
        = .next (answered s s tag 0x31 [0, id] [0x03] none))
        ∧ (id ≠ 0 → (∃ t ∈ s.commit.queue, t.id = id) →
          exec (.cancelTicketById (addressedTo tag) id) s
            = .next (answered s (s.withCommit { s.commit with queue := s.commit.queue.filter fun t => t.id ≠ id })
                tag 0x31 [0, id] [0x00] none))
        ∧ (id ≠ 0 → (∀ t ∈ s.commit.queue, t.id ≠ id) →
          exec (.cancelTicketById (addressedTo tag) id) s
            = .next (answered s s tag 0x31 [0, id] [0x06] none))
        ∧ exec (.cancelTicketById (broadcastWith tag) id) s
            = .next (heard s (s.post [{ key := .link, detail := .link .broadcastKind }])))
    ∧ (∀ (s : State) (tag b : Byte), Listening s → Unanswered s tag 0x31 [1, b] →
      (∀ x, b = tbByte x →
        exec (.cancelTicketAll (addressedTo tag) b) s
          = .next (answered s (s.withCommit { s.commit with queue := s.commit.queue.filter fun t => t.timebase ≠ x })
              tag 0x31 [1, b] [0x00, natByte (s.commit.queue.filter fun t => t.timebase = x).length] none))
        ∧ (1 < b.toNat → exec (.cancelTicketAll (addressedTo tag) b) s
            = .next (answered s s tag 0x31 [1, b] [0x03] none)))

/-- R49, R50: the decrement step and readiness at a boundary of X.

R51: the application walk takes the ready tickets of X from the oldest up to the first that is not ready; it passes over the
tickets of the other timebase. -/
def Obligations.DecrementReadinessAndWalk : Prop :=
  (∀ (x : Tb) (b : Boundary) (t : Ticket),
      (∀ k, t.condition = .after k → t.timebase = x → qualifies b t.boundaryKind = true → t.remaining ≠ 0 →
        countDown x b t = { t with remaining := t.remaining - 1 })
        ∧ (t.condition = .sync ∨ t.timebase ≠ x ∨ qualifies b t.boundaryKind = false ∨ t.remaining = 0 →
          countDown x b t = t)
        ∧ (qualifies b t.boundaryKind = true ↔ (b = .start ∨ t.boundaryKind = .any))
        ∧ (isReady b t = true ↔ qualifies b t.boundaryKind = true
            ∧ ((∃ k, t.condition = .after k ∧ t.remaining = 0) ∨ (t.condition = .sync ∧ t.syncSeen = true))))
    ∧ (∀ (x : Tb) (b : Boundary) (queue : List Ticket),
      let walk := takeReady x b queue
      (∀ t ∈ walk.1, t.timebase = x ∧ isReady b t = true)
        ∧ queue.filter (fun t => t.timebase = x) = walk.1 ++ walk.2.filter (fun t => t.timebase = x)
        ∧ queue.filter (fun t => t.timebase ≠ x) = walk.2.filter (fun t => t.timebase ≠ x)
        ∧ ∀ t, (walk.2.filter fun t => t.timebase = x).head? = some t → isReady b t = false)

/-- R52: the deadline step at a START boundary of X, on tickets that have a deadline above 0.

R52: EXPIRED removes the pending ticket whose deadline runs out and posts its notice; nothing else changes (log 20). -/
def Obligations.DeadlinesExpire : Prop :=
  (∀ (x : Tb) (queue : List Ticket), (∀ t ∈ queue, t.deadline ≠ some 0) →
      let expires := fun t : Ticket =>
        t.timebase = x ∧ t.condition = .sync ∧ t.syncSeen = false ∧ t.deadline = some 1
      (deadlineStep x queue).1
          = (queue.filter fun t => decide ¬ expires t).map (fun t =>
              if t.timebase = x ∧ t.condition = .sync ∧ t.syncSeen = false
                then { t with deadline := t.deadline.map (· - 1) } else t)
        ∧ (deadlineStep x queue).2
          = (queue.filter fun t => decide (expires t)).map fun t =>
              { key := .expired x, detail := .expired t.id })
    ∧ (∀ (s : State) (before after : List Ticket) (t : Ticket), CommitSound s →
      s.commit.queue = before ++ t :: after → t.condition = .sync → t.syncSeen = false → t.deadline ≠ none →
        exec (.expired t.id) s
          = .next ((s.withCommit { s.commit with queue := before ++ after }).post
              [{ key := .expired t.timebase, detail := .expired t.id }]))

/-- R56, R57: a ticket applies its pair records, then its timebase record, then its channel records, of which those bound to the
other timebase are discarded.

R58, R116: a pair record that changes the mode takes the pair's override entry to NONE in the new form and both hold levels to
INACTIVE, and to INDEPENDENT a waiting rise takes effect; a pair whose mode stays keeps its entry and hold levels. The fresh selection that
R116 then asks for is the boundary's (log 28).

R119, R120: in a pair that stays COMPLEMENTARY a waiting rise whose count is at least the deadtime of the record applied takes
effect at that application, also where a younger ticket of the walk raises the deadtime again; another goes on waiting.

R59: the tickets of a walk are applied in their order, each with its APPLIED notice: its id, the cycle count, and how many of its
channel records were discarded. -/
def Obligations.ApplicationOfATicket : Prop :=
  (∀ (s : State) (x : Tb) (t : Ticket),
    (t.pairs.map Prod.fst).Nodup → (t.channels.map Prod.fst).Nodup →
    let after := applyTicket x t s
    (∀ p r, (p, r) ∈ t.pairs → after.pattern.pairs.get p = r)
      ∧ (∀ p, p ∉ t.pairs.map Prod.fst → after.pattern.pairs.get p = s.pattern.pairs.get p)
      ∧ (∀ r, t.record = some r → after.timebases = s.timebases.set x { s.timebases.get x with active := r })
      ∧ (t.record = none → after.timebases = s.timebases)
      ∧ (∀ c r, (c, r) ∈ t.channels → boundTo after.pattern c = x → after.pattern.channels.get c = r)
      ∧ (∀ c, c ∉ t.channels.map Prod.fst ∨ boundTo after.pattern c ≠ x →
          after.pattern.channels.get c = s.pattern.channels.get c)
      ∧ (∀ p r, (p, r) ∈ t.pairs → (s.pattern.pairs.get p).mode ≠ r.mode →
          (r.mode = .independent → after.output.overrides.get p = .independent .none .none)
            ∧ (r.mode = .complementary → after.output.overrides.get p = .complementary .none)
            ∧ ∀ c, pairOf c = p →
              let before := s.output.channels.get c
              (r.mode = .independent → before.delay ≠ none → after.output.channels.get c
                  = { before with hold := .inactive, output := .active, delay := none })
                ∧ (r.mode = .complementary ∨ before.delay = none → after.output.channels.get c
                  = { before with hold := .inactive }))
      ∧ (∀ p r, (p, r) ∈ t.pairs → (s.pattern.pairs.get p).mode = r.mode →
          after.output.overrides.get p = s.output.overrides.get p
            ∧ ∀ c, pairOf c = p →
              let before := s.output.channels.get c
              let deadtime := if isPrimary c then r.deadtimeEven.toNat else r.deadtimeOdd.toNat
              (∀ n, r.mode = .complementary → before.delay = some n → deadtime ≤ n →
                  after.output.channels.get c = { before with output := .active, delay := none })
                ∧ (r.mode = .independent ∨ before.delay = none → after.output.channels.get c = before)
                ∧ (∀ n, before.delay = some n → n < deadtime → after.output.channels.get c = before))
      ∧ (∀ p, p ∉ t.pairs.map Prod.fst →
          after.output.overrides.get p = s.output.overrides.get p
            ∧ ∀ c, pairOf c = p → after.output.channels.get c = s.output.channels.get c)
      ∧ after.output.enable = s.output.enable ∧ after.output.drained = s.output.drained
      ∧ after.output.clocks = s.output.clocks ∧ after.sync = s.sync
      ∧ after.trip = s.trip ∧ after.commit = s.commit ∧ after.notices = s.notices ∧ OutsideKept s after)
    ∧ (∀ (s : State) (x : Tb), applyTickets x [] s = (s, []))
    ∧ ∀ (s : State) (x : Tb) (t : Ticket) (ts : List Ticket),
      let after := applyTicket x t s
      (applyTickets x (t :: ts) s).1 = (applyTickets x ts after).1
        ∧ (applyTickets x (t :: ts) s).2
          = { key := .applied x
              detail := .applied t.id (s.timebases.get x).cycles
                (t.channels.filter fun e => boundTo after.pattern e.1 ≠ x).length }
            :: (applyTickets x ts after).2

/-! ## Outputs -/

/-- R104, R105: ENABLE OUTPUTS and DISABLE OUTPUTS IMMEDIATE.

R106: DISABLE OUTPUTS GRACEFUL: nothing in DISABLED and DRAINING; from ENABLED the channels of stopped timebases drain at
once, and with all eight the part is DISABLED. -/
def Obligations.EnableAndDisableOutputs : Prop :=
  (∀ (s : State) (tag : Byte), Listening s →
      (Unanswered s tag 0x41 [] → s.output.enable = .enabled →
        exec (.enableOutputs (addressedTo tag) []) s = .next (answered s s tag 0x41 [] [0x00, 0x01] none))
        ∧ (Unanswered s tag 0x41 [] → s.output.enable ≠ .enabled →
          exec (.enableOutputs (addressedTo tag) []) s
            = .next (answered s ((s.setEnable .enabled 0).settle) tag 0x41 [] [0x00, 0x01] none))
        ∧ (Unanswered s tag 0x42 [0] →
          ∃ t : State, exec (.disableOutputsImmediate (addressedTo tag)) s = .next t
            ∧ t = answered s (s.withOutput t.output) tag 0x42 [0] [0x00, 0x00] none
            ∧ t.output.enable = .disabled ∧ t.output.drained = 0 ∧ t.output.overrides = s.output.overrides
            ∧ ∀ c, (t.output.channels.get c).output = .float ∧ (t.output.channels.get c).delay = none
              ∧ (t.output.channels.get c).hold = (s.output.channels.get c).hold ∧ padOf t c = .float))
    ∧ (∀ (s : State) (tag : Byte), Listening s → Unanswered s tag 0x42 [1] →
      (s.output.enable = .disabled →
        exec (.disableOutputsGraceful (addressedTo tag)) s = .next (answered s s tag 0x42 [1] [0x00, 0x00] none))
        ∧ (s.output.enable = .draining →
          exec (.disableOutputsGraceful (addressedTo tag)) s = .next (answered s s tag 0x42 [1] [0x00, 0x02] none))
        ∧ (s.output.enable = .enabled → (∀ c, isStopped (s.timebases.get (boundTo s.pattern c)) = true) →
          exec (.disableOutputsGraceful (addressedTo tag)) s
            = .next (answered s (s.setEnable .disabled 0).settle tag 0x42 [1] [0x00, 0x00] none))
        ∧ (s.output.enable = .enabled → (∃ c, isStopped (s.timebases.get (boundTo s.pattern c)) = false) →
          ∃ set : ChannelSet, (∀ c, inSet set c = isStopped (s.timebases.get (boundTo s.pattern c)))
            ∧ exec (.disableOutputsGraceful (addressedTo tag)) s
              = .next (answered s (s.setEnable .draining set).settle tag 0x42 [1] [0x00, 0x02] none)))

/-- R112: SET OVERRIDE in both forms. -/
def Obligations.SetOverrideChecksTheForm : Prop :=
  ∀ (s : State) (tag : Byte), Listening s → (∀ p, entryFits (s.output.overrides.get p) (s.pattern.pairs.get p).mode) →
    (∀ c v, Unanswered s tag 0x40 [0, chanByte c, memberForceByte v] → modeOf s.pattern c = .complementary →
      exec (.setOverride (addressedTo tag) [0, chanByte c, memberForceByte v]) s
        = .next (answered s s tag 0x40 [0, chanByte c, memberForceByte v] [0x09] none))
      ∧ (∀ p v, Unanswered s tag 0x40 [1, pairByte p, pairForceByte v] → (s.pattern.pairs.get p).mode = .independent →
        exec (.setOverride (addressedTo tag) [1, pairByte p, pairForceByte v]) s
          = .next (answered s s tag 0x40 [1, pairByte p, pairForceByte v] [0x09] none))
      ∧ (∀ c v, Unanswered s tag 0x40 [0, chanByte c, memberForceByte v] → modeOf s.pattern c = .independent →
        ∃ even odd, s.output.overrides.get (pairOf c) = .independent even odd
          ∧ let e : OverrideEntry := if isPrimary c then .independent v odd else .independent even v
            exec (.setOverride (addressedTo tag) [0, chanByte c, memberForceByte v]) s
              = .next (answered s
                  (s.withOutput { s.output with overrides := s.output.overrides.set (pairOf c) e }).settle
                  tag 0x40 [0, chanByte c, memberForceByte v] (0x00 :: overrideBytes e) none))
      ∧ (∀ p v, Unanswered s tag 0x40 [1, pairByte p, pairForceByte v] →
          (s.pattern.pairs.get p).mode = .complementary →
        exec (.setOverride (addressedTo tag) [1, pairByte p, pairForceByte v]) s
          = .next (answered s
              (s.withOutput { s.output with overrides := s.output.overrides.set p (.complementary v) }).settle
              tag 0x40 [1, pairByte p, pairForceByte v] [0x00, pairForceByte v, pairForceByte v] none))

/-- R114: what forces a channel, and which action governs it.

R117: the selected level is the first case that applies.

R111: the level that each override value gives each member. -/
def Obligations.ForcingAndSelectionOrder : Prop :=
  (∀ (p : PatternUnit) (routes : SlotFile (Option Route)) (c : Chan),
      let forces := fun a : Action => ∃ n r, routes.get n = some r ∧ r.action = a
        ∧ (inSet r.held c = true ∨ (modeOf p c = .complementary ∧ inSet r.held (partner c) = true))
      (forces .float → governing p routes c = some .float)
        ∧ (¬ forces .float → forces .safe → governing p routes c = some .safe)
        ∧ (¬ forces .float → ¬ forces .safe → forces .hold → governing p routes c = some .hold)
        ∧ (¬ forces .float → ¬ forces .safe → ¬ forces .hold → governing p routes c = none))
    ∧ (∀ (s : State) (c : Chan),
      (s.output.enable = .disabled → selectLevel s c = .float)
        ∧ (s.output.enable = .draining → inSet s.output.drained c = true → selectLevel s c = .inactive)
        ∧ (s.output.enable ≠ .disabled → ¬ (s.output.enable = .draining ∧ inSet s.output.drained c = true) →
          (governing s.pattern s.trip.routes c = some .float → selectLevel s c = .float)
            ∧ (governing s.pattern s.trip.routes c = some .safe → selectLevel s c = .inactive)
            ∧ (governing s.pattern s.trip.routes c = some .hold →
                (selectLevel s c = .active ↔ (s.output.channels.get c).hold = .active)
                  ∧ selectLevel s c ≠ .float)
            ∧ (governing s.pattern s.trip.routes c = none →
                (∀ l, overrideLevel (s.output.overrides.get (pairOf c)) c = some l → selectLevel s c = outOf l)
                  ∧ (overrideLevel (s.output.overrides.get (pairOf c)) c = none →
                      selectLevel s c = outOf (s.pattern.level.get c)))))
    ∧ (∀ (even odd v : MemberForce) (c : Chan),
      (isPrimary c = true → even = v) → (isPrimary c = false → odd = v) →
        (v = .none → overrideLevel (.independent even odd) c = none)
          ∧ (v = .forceActive → overrideLevel (.independent even odd) c = some .active)
          ∧ (v = .forceInactive → overrideLevel (.independent even odd) c = some .inactive))
    ∧ ∀ c : Chan,
      overrideLevel (.complementary .none) c = none
        ∧ overrideLevel (.complementary .bothInactive) c = some .inactive
        ∧ (isPrimary c = true → overrideLevel (.complementary .evenActive) c = some .active
          ∧ overrideLevel (.complementary .oddActive) c = some .inactive)
        ∧ (isPrimary c = false → overrideLevel (.complementary .evenActive) c = some .inactive
          ∧ overrideLevel (.complementary .oddActive) c = some .active)

/-- R118, R119: an output follows its selected level at once, but a rise in a COMPLEMENTARY pair waits for its deadtime. -/
def Obligations.OutputsFollowWithDeadtime : Prop :=
  ∀ (s : State) (c : Chan),
    let before := s.output.channels.get c
    let after := s.settle.output.channels.get c
    after.selected = selectLevel s c ∧ after.hold = before.hold
      ∧ (selectLevel s c ≠ .active → after.output = selectLevel s c ∧ after.delay = none)
      ∧ (modeOf s.pattern c = .independent → after.output = selectLevel s c ∧ after.delay = none)
      ∧ (selectLevel s c = .active → before.output = .active → after.output = .active ∧ after.delay = none)
      ∧ (modeOf s.pattern c = .complementary → selectLevel s c = .active → before.output ≠ .active →
          (deadtimeOf s.pattern c ≤ before.delay.getD 0 → after.output = .active ∧ after.delay = none)
            ∧ (before.delay.getD 0 < deadtimeOf s.pattern c →
                after.output = before.output ∧ after.delay = some (before.delay.getD 0)))

/-- R120: a tick of the deadtime clock of a pair on a stopped timebase is counted on its delays; a delay that reaches its
deadtime drives the output ACTIVE. The clock gives none otherwise (log 3, 12).

R119: at the end of a deadtime delay the output becomes ACTIVE, and nothing else changes (log 20). -/
def Obligations.DeadtimeEvents : Prop :=
  (∀ (s : State) (p : Pair), s.inReset = false →
      (∀ c n, pairOf c = p → (s.output.channels.get c).delay = some n → modeOf s.pattern c = .complementary →
        (s.output.channels.get c).output ≠ .active → selectLevel s c = .active →
        isStopped (s.timebases.get (s.pattern.pairs.get p).timebase) = true →
          ∃ t : State, exec (.deadtimeClockTick p) s = .next t ∧ t = s.withOutput t.output
            ∧ t.output.enable = s.output.enable ∧ t.output.drained = s.output.drained
            ∧ t.output.overrides = s.output.overrides
            ∧ (deadtimeOf s.pattern c ≤ n + 1 →
                (t.output.channels.get c).output = .active ∧ (t.output.channels.get c).delay = none)
            ∧ (n + 1 < deadtimeOf s.pattern c →
                (t.output.channels.get c).output = (s.output.channels.get c).output
                  ∧ (t.output.channels.get c).delay = some (n + 1)))
        ∧ (isStopped (s.timebases.get (s.pattern.pairs.get p).timebase) = false →
          exec (.deadtimeClockTick p) s = .next s))
    ∧ (∀ (s : State) (c : Chan), (s.output.channels.get c).delay ≠ none →
      ∃ t : State, exec (.deadtimeDelayEnd c) s = .next t ∧ t = s.withOutput t.output
        ∧ (t.output.channels.get c).output = .active ∧ (t.output.channels.get c).delay = none
        ∧ (t.output.channels.get c).hold = (s.output.channels.get c).hold
        ∧ (t.output.channels.get c).selected = (s.output.channels.get c).selected
        ∧ (∀ d, d ≠ c → t.output.channels.get d = s.output.channels.get d)
        ∧ t.output.enable = s.output.enable ∧ t.output.drained = s.output.drained
        ∧ t.output.overrides = s.output.overrides ∧ t.output.clocks = s.output.clocks)

/-! ## Trip inputs and routes -/

/-- R72: CONFIGURE TRIP INPUT. -/
def Obligations.ConfigureTripInput : Prop :=
  ∀ (s : State) (tag : Byte) (i : TripName) (v : TripConfig),
    1 ≤ v.interval → v.interval ≤ 256 → 1 ≤ v.qualify → v.qualify ≤ 16 → Listening s →
    let args := [tripNameByte i, levelByte v.level] ++ word16Bytes (BitVec.ofNat 16 v.interval)
      ++ [natByte v.qualify]
    Unanswered s tag 0x50 args →
      (s.trip.frozen = true →
        exec (.configureTripInput (addressedTo tag) args) s = .next (answered s s tag 0x50 args [0x08] none))
      ∧ (s.trip.frozen = false →
        exec (.configureTripInput (addressedTo tag) args) s
          = .next (answered s
              (s.withTrip { s.trip with
                inputs := s.trip.inputs.set i { s.trip.inputs.get i with config := v, agreement := 0, timer := 0 } })
              tag 0x50 args [0x00, filteredByte (s.trip.inputs.get i).filtered] none))

/-- R81, R82: DEFINE ROUTE. A route defined on an ASSERTED input holds its channels at once: a channel that becomes HOLD-forced
captures its hold level (R115), and every output follows the level selected for it (R114, R117 to R119). -/
def Obligations.DefineRoute : Prop :=
  ∀ (s : State) (tag : Byte) (n : Slot) (r : RouteRequest), Listening s →
    let args := [slotByte n, tripNameByte r.input, r.channels, actionByte r.action, clearingByte r.clearing]
    let new : Route := { input := r.input, channels := r.channels, action := r.action, clearing := r.clearing
                         state := .armed, held := 0, count := 0 }
    let tripped : Route := { new with state := .tripped, held := r.channels, count := 1 }
    Unanswered s tag 0x51 args →
      (r.channels = 0 → exec (.defineRoute (addressedTo tag) args) s = .next (answered s s tag 0x51 args [0x03] none))
      ∧ (r.channels ≠ 0 → s.trip.frozen = true →
        exec (.defineRoute (addressedTo tag) args) s = .next (answered s s tag 0x51 args [0x08] none))
      ∧ (r.channels ≠ 0 → s.trip.frozen = false → (∃ v, s.trip.routes.get n = some v ∧ v.state ≠ .armed) →
        exec (.defineRoute (addressedTo tag) args) s = .next (answered s s tag 0x51 args [0x04] none))
      ∧ (r.channels ≠ 0 → s.trip.frozen = false →
        (∀ v, s.trip.routes.get n = some v → v.state = .armed ∧ v.held = 0) →
        (s.trip.inputs.get r.input).filtered = .quiet →
          exec (.defineRoute (addressedTo tag) args) s
            = .next (answered s (s.withTrip { s.trip with routes := s.trip.routes.set n (some new) })
                tag 0x51 args [0x00, 0x00] none))
      ∧ (r.channels ≠ 0 → s.trip.frozen = false → (∀ v, s.trip.routes.get n = some v → v.state = .armed) →
        (s.trip.inputs.get r.input).filtered = .asserted →
          ∃ t : State, exec (.defineRoute (addressedTo tag) args) s
              = .next (answered s t tag 0x51 args [0x00, 0x01] none)
            ∧ t = ((s.withTrip { s.trip with routes := s.trip.routes.set n (some tripped) }).withOutput t.output).post
                [{ key := .trip n, detail := .trip r.input 1 .definedWhileAsserted }]
            ∧ t.output.enable = s.output.enable ∧ t.output.drained = s.output.drained
            ∧ t.output.overrides = s.output.overrides
            ∧ (∀ c, (t.output.channels.get c).selected = selectLevel t c)
            ∧ OutputsFollow (recaptured s t.trip.routes) s.output.clocks.get t)

/-- R84, R98: REMOVE ROUTE and FREEZE PROTECTION. -/
def Obligations.RemoveRouteAndFreeze : Prop :=
  ∀ (s : State) (tag : Byte) (n : Slot), Listening s →
    (Unanswered s tag 0x52 [slotByte n] →
      (s.trip.frozen = true →
        exec (.removeRoute (addressedTo tag) [slotByte n]) s
          = .next (answered s s tag 0x52 [slotByte n] [0x08] none))
      ∧ (s.trip.frozen = false → (∃ v, s.trip.routes.get n = some v ∧ v.state ≠ .armed) →
        exec (.removeRoute (addressedTo tag) [slotByte n]) s
          = .next (answered s s tag 0x52 [slotByte n] [0x04] none))
      ∧ (s.trip.frozen = false → (∀ v, s.trip.routes.get n = some v → v.state = .armed ∧ v.held = 0) →
        exec (.removeRoute (addressedTo tag) [slotByte n]) s
          = .next (answered s (s.withTrip { s.trip with routes := s.trip.routes.set n none })
              tag 0x52 [slotByte n] [0x00] none)))
      ∧ (Unanswered s tag 0x55 [] →
        exec (.freezeProtection (addressedTo tag) []) s
          = .next (answered s (s.withTrip { s.trip with frozen := true }) tag 0x55 [] [0x00] none))

/-- R88, R90, R93: CLEAR TRIP; the outputs of the channels given back follow the levels selected for them (R117 to R119). -/
def Obligations.ClearTrip : Prop :=
  ∀ (s : State) (tag : Byte) (n : Slot), Listening s → Unanswered s tag 0x53 [slotByte n] →
    (s.trip.routes.get n = none →
      exec (.clearTrip (addressedTo tag) [slotByte n]) s = .next (answered s s tag 0x53 [slotByte n] [0x06] none))
      ∧ ∀ r, s.trip.routes.get n = some r →
        (r.state = .armed →
          exec (.clearTrip (addressedTo tag) [slotByte n]) s
            = .next (answered s s tag 0x53 [slotByte n] [0x04] none))
        ∧ (r.state = .releasing →
          exec (.clearTrip (addressedTo tag) [slotByte n]) s
            = .next (answered s s tag 0x53 [slotByte n] [0x00, 0x02] none))
        ∧ (r.state = .tripped → (s.trip.inputs.get r.input).filtered = .asserted →
          exec (.clearTrip (addressedTo tag) [slotByte n]) s
            = .next (answered s s tag 0x53 [slotByte n] [0x07] none))
        ∧ (r.state = .tripped → (s.trip.inputs.get r.input).filtered = .quiet →
          ∃ t : State, ∃ released : Route,
            released = beginRelease (stoppedSet s) r
              ∧ exec (.clearTrip (addressedTo tag) [slotByte n]) s
                = .next (answered s t tag 0x53 [slotByte n] [0x00, routeStateByte released.state] none)
              ∧ t = (((s.withTrip { s.trip with routes := s.trip.routes.set n (some released) }).withOutput
                  t.output).withNotices t.notices)
              ∧ (∀ c, (t.output.channels.get c).selected = selectLevel t c)
              ∧ t.output.enable = s.output.enable ∧ t.output.drained = s.output.drained
              ∧ t.output.overrides = s.output.overrides
              ∧ OutputsFollow (recaptured s t.trip.routes) s.output.clocks.get t
              ∧ (released.state = .releasing → t.notices = s.notices)
              ∧ (released.state = .armed → t.notices
                  = (s.post [{ key := .rearm n
                               detail := .rearm (match r.clearing with
                                 | .auto => .auto
                                 | .latched => .cleared) }]).notices))

/-- R67, R69, R70: a sample of a trip input that completes no qualification run moves the agreement count alone; one that
completes a run is the input event. -/
def Obligations.TripInputSamples : Prop :=
  ∀ (s : State) (i : TripName) (l : Level), s.inReset = false →
    let v := s.trip.inputs.get i
    let differs := (v.filtered = .quiet ∧ l = v.config.level) ∨ (v.filtered = .asserted ∧ l ≠ v.config.level)
    let pinned := s.withPins { s.pins with trip := s.pins.trip.set i l }
    (¬ differs →
      exec (.tripInputSample i l) s
        = .next (pinned.withTrip { s.trip with inputs := s.trip.inputs.set i { v with agreement := 0, timer := 0 } }))
      ∧ (differs → v.agreement + 1 < v.config.qualify →
        exec (.tripInputSample i l) s
          = .next (pinned.withTrip
              { s.trip with inputs := s.trip.inputs.set i { v with agreement := v.agreement + 1, timer := 0 } }))
      ∧ (differs → v.config.qualify ≤ v.agreement + 1 → v.filtered = .quiet →
        exec (.tripInputSample i l) s = exec (.inputAsserted i) s)
      ∧ (differs → v.config.qualify ≤ v.agreement + 1 → v.filtered = .asserted →
        exec (.tripInputSample i l) s = exec (.inputQuiet i) s)

/-- R69, R71, R85, R86, R115, R117: an input asserted event trips or retrips the routes of its input and no other, with their TRIP
notices in route index order; channels that become HOLD-forced capture their hold level, and every output follows the level
selected for it. -/
def Obligations.InputAssertedTripsItsRoutes : Prop :=
  ∀ (s : State) (i : TripName), s.inReset = false → (s.trip.inputs.get i).filtered = .quiet →
    ∃ t : State, exec (.inputAsserted i) s = .next t
      ∧ t.trip.inputs = s.trip.inputs.set i
          { s.trip.inputs.get i with filtered := .asserted, agreement := 0, timer := 0 }
      ∧ t.trip.frozen = s.trip.frozen
      ∧ (∀ n, s.trip.routes.get n = none → t.trip.routes.get n = none)
      ∧ (∀ n r, s.trip.routes.get n = some r → r.input = i → r.state ≠ .tripped →
          t.trip.routes.get n = some { r with
            state := .tripped, held := r.channels, count := if r.count = 0xFFFF then 0xFFFF else r.count + 1 })
      ∧ (∀ n r, s.trip.routes.get n = some r → r.input ≠ i ∨ r.state = .tripped → t.trip.routes.get n = some r)
      ∧ t.notices = (s.post (tripNotices i s.trip.routes)).notices
      ∧ (∀ n r, s.trip.routes.get n = some r → r.input = i → r.state ≠ .tripped →
          Reported t (.trip n) (.trip i (if r.count = 0xFFFF then 0xFFFF else r.count + 1)
            (if r.state = .armed then .input else .retrip)))
      ∧ t.timebases = s.timebases ∧ t.sync = s.sync ∧ t.pattern = s.pattern ∧ t.commit = s.commit
      ∧ t.output.enable = s.output.enable ∧ t.output.drained = s.output.drained
      ∧ t.output.overrides = s.output.overrides ∧ t.free = s.free ∧ t.link = s.link ∧ t.cache = s.cache
      ∧ t.inReset = s.inReset ∧ t.pending = s.pending
      ∧ (∀ c, (t.output.channels.get c).selected = selectLevel t c)
      ∧ OutputsFollow (recaptured s t.trip.routes) s.output.clocks.get t

/-- R70, R71, R87, R90, R117: an input quiet event starts the release of its TRIPPED AUTO routes and of no other, and every output
follows the level selected for it. -/
def Obligations.InputQuietReleasesAutoRoutes : Prop :=
  ∀ (s : State) (i : TripName), s.inReset = false → (s.trip.inputs.get i).filtered = .asserted →
    ∃ t : State, exec (.inputQuiet i) s = .next t
      ∧ t.trip.inputs = s.trip.inputs.set i
          { s.trip.inputs.get i with filtered := .quiet, agreement := 0, timer := 0 }
      ∧ t.trip.frozen = s.trip.frozen
      ∧ (∀ n, s.trip.routes.get n = none → t.trip.routes.get n = none)
      ∧ (∀ n r, s.trip.routes.get n = some r → r.input = i → r.state = .tripped → r.clearing = .auto →
          ∃ q, t.trip.routes.get n = some q ∧ q.count = r.count ∧ q.channels = r.channels
            ∧ (∀ c, inSet q.held c =
                (inSet r.held c && !isStopped (s.timebases.get (boundTo s.pattern c))))
            ∧ (q.held = 0 → q.state = .armed ∧ Reported t (.rearm n) (.rearm .auto))
            ∧ (q.held ≠ 0 → q.state = .releasing))
      ∧ (∀ n r, s.trip.routes.get n = some r → r.input ≠ i ∨ r.state ≠ .tripped ∨ r.clearing = .latched →
          t.trip.routes.get n = some r)
      ∧ t.timebases = s.timebases ∧ t.sync = s.sync ∧ t.pattern = s.pattern ∧ t.commit = s.commit
      ∧ t.output.enable = s.output.enable ∧ t.output.drained = s.output.drained
      ∧ t.output.overrides = s.output.overrides ∧ t.free = s.free ∧ t.link = s.link ∧ t.cache = s.cache
      ∧ t.inReset = s.inReset ∧ t.pending = s.pending
      ∧ (∀ c, (t.output.channels.get c).selected = selectLevel t c)
      ∧ OutputsFollow (recaptured s t.trip.routes) s.output.clocks.get t

/-- R91 to R93: a RELEASING route gives back the channels of a set and re-arms when it holds none; other routes give back
nothing.

R93: the REARM notices of an event: one for each route that was not ARMED and is then, in route index order, AUTO or CLEARED by
the route's clearing. -/
def Obligations.ReleasingRouteGivesBack : Prop :=
  (∀ (set : ChannelSet) (r : Route),
    (r.state ≠ .releasing → releaseRoute set r = r)
      ∧ (r.state = .releasing →
        (∀ c, inSet (releaseRoute set r).held c = (inSet r.held c && !inSet set c))
          ∧ ((releaseRoute set r).held = 0 → (releaseRoute set r).state = .armed)
          ∧ ((releaseRoute set r).held ≠ 0 → (releaseRoute set r).state = .releasing)
          ∧ (releaseRoute set r).count = r.count ∧ (releaseRoute set r).channels = r.channels
          ∧ (releaseRoute set r).action = r.action ∧ (releaseRoute set r).clearing = r.clearing))
    ∧ ∀ before after : SlotFile (Option Route),
      rearmNotices before after = Slot.all.filterMap fun n =>
        match before.get n, after.get n with
        | some r, some q =>
          if r.state ≠ .armed ∧ q.state = .armed then
            some { key := .rearm n
                   detail := .rearm (match q.clearing with
                     | .auto => .auto
                     | .latched => .cleared) }
          else none
        | _, _ => none

/-- R115: a channel that passes from no HOLD forcing to some captures its hold level from its output before the event: ACTIVE
only where the output was ACTIVE. -/
def Obligations.HoldLevelIsCapturedAtTheTrip : Prop :=
  ∀ (s : State) (routes : SlotFile (Option Route)) (c : Chan),
    let before := forcedWith s.pattern s.trip.routes .hold c
    let after := forcedWith s.pattern routes .hold c
    let t := s.handRoutes routes
    (before = false → after = true →
      ((t.output.channels.get c).hold = .active ↔ (s.output.channels.get c).output = .active))
      ∧ (before = true ∨ after = false → (t.output.channels.get c).hold = (s.output.channels.get c).hold)

/-! ## Notices -/

/-- R128: an event whose class and source no notice has.

R129: an event whose notice is unfetched.

R130: an event whose notice is fetched. -/
def Obligations.PostingAnEvent : Prop :=
  (∀ (s : State) (p : Posting), (∀ n ∈ s.notices.queue, n.key ≠ p.key) →
      ∃ n : Notice, (s.post [p]).notices = { s.notices with queue := s.notices.queue ++ [n] }
        ∧ n.key = p.key ∧ n.count = 1 ∧ n.first = p.detail ∧ n.last = p.detail ∧ n.token = none
        ∧ attention (s.post [p]) = (attention s || (!s.inReset && inMask s.notices.mask p.key)))
    ∧ (∀ (s : State) (p : Posting) (before after : List Notice) (n : Notice),
      s.notices.queue = before ++ n :: after → NoticesSound s → n.key = p.key → n.token = none →
        (s.post [p]).notices = { s.notices with
          queue := before ++
            { n with count := if n.count = 255 then 255 else n.count + 1, last := p.detail, token := none } :: after })
    ∧ (∀ (s : State) (p : Posting) (before after : List Notice) (n : Notice),
      s.notices.queue = before ++ n :: after → NoticesSound s → n.key = p.key → n.token ≠ none →
        (s.post [p]).notices = { s.notices with
          queue := before ++ after ++
            [{ n with count := if n.count = 255 then 255 else n.count + 1, last := p.detail, token := none }] })

/-- R132, R133: FETCH NOTICES. -/
def Obligations.FetchNoticesStampsTheHead : Prop :=
  ∀ (s : State) (tag n : Byte), Listening s → Unanswered s tag 0x60 [n] →
    (n.toNat = 0 ∨ 4 < n.toNat →
      exec (.fetchNotices (addressedTo tag) [n]) s = .next (answered s s tag 0x60 [n] [0x03] none))
      ∧ (1 ≤ n.toNat → n.toNat ≤ 4 → s.notices.queue = [] →
        exec (.fetchNotices (addressedTo tag) [n]) s
          = .next (answered s s tag 0x60 [n] [0x00, 0x00, 0x00, 0x00] none))
      ∧ (1 ≤ n.toNat → n.toNat ≤ 4 → s.notices.queue ≠ [] →
        exec (.fetchNotices (addressedTo tag) [n]) s
          = .next (answered s
              (s.withNotices
                { s.notices with
                  queue := (s.notices.queue.take n.toNat).map
                      (fun m => { m with token := some s.notices.nextToken }) ++ s.notices.queue.drop n.toNat
                  nextToken := if s.notices.nextToken = 255 then 1 else s.notices.nextToken + 1 })
              tag 0x60 [n]
              ([ 0x00, s.notices.nextToken, natByte (s.notices.queue.take n.toNat).length
               , natByte s.notices.queue.length ]
                ++ (s.notices.queue.take n.toNat).flatMap noticeEntry) none))

/-- R135, R137: ACK NOTICES and SET ATTENTION MASK.

R138: ATTENTION is asserted exactly while an unfetched notice of a class in the mask stands in the queue, and never while RST
is low. -/
def Obligations.AckMaskAndAttention : Prop :=
  (∀ (s : State) (tag : Byte), Listening s →
      (∀ t : Byte, Unanswered s tag 0x61 [t] →
        exec (.ackNotices (addressedTo tag) [t]) s
          = .next (answered s
              (s.withNotices { s.notices with queue := s.notices.queue.filter fun n => n.token ≠ some t })
              tag 0x61 [t] [0x00, natByte (s.notices.queue.filter fun n => n.token = some t).length] none))
        ∧ ∀ high low : Byte, Unanswered s tag 0x62 [high, low] →
          (1 < high.toNat →
            exec (.setAttentionMask (addressedTo tag) [high, low]) s
              = .next (answered s s tag 0x62 [high, low] [0x03] none))
          ∧ ∀ set : ClassSet, set.toNat = high.toNat * 256 + low.toNat →
            exec (.setAttentionMask (addressedTo tag) [high, low]) s
              = .next (answered s (s.withNotices { s.notices with mask := set }) tag 0x62 [high, low] [0x00] none))
    ∧ (∀ s : State, attention s = true ↔
      s.inReset = false ∧ ∃ n ∈ s.notices.queue, n.token = none ∧ s.notices.mask.getLsbD (classCode n.key) = true)

/-! ## The link -/

/-- R149, R152, R153, R162: frames and bytes that the receiver discards. That a row stands for the byte that decides it is log 22; the
last clause, an expiry in HUNT or while the gap timer stands, is the model's choice (log 3). -/
def Obligations.DamagedFramesAreReported : Prop :=
  ∀ s : State, Listening s →
    exec .checkFail s = .next (heard s (s.post [{ key := .link, detail := .link .checkFail }]))
      ∧ exec .frameForAnotherNode s = .next (heard s s)
      ∧ exec .tooLong s = .next (heard s (s.post [{ key := .link, detail := .link .tooLong }]))
      ∧ (s.link.highWait = none →
        ∃ t : State, exec .framing s = .next t
          ∧ t = (((s.withLink t.link).withPins { s.pins with line := .low }).withNotices t.notices)
          ∧ t.link.receiver = .hunt ∧ t.link.bits = .waiting
          ∧ (s.link.receiver = .hunt → t.notices = s.notices)
          ∧ (s.link.receiver ≠ .hunt → t.link.gapTimer = none
              ∧ t.notices = (s.post [{ key := .link, detail := .link .framing }]).notices))
      ∧ (s.link.receiver ≠ .hunt → s.link.gapTimer ≠ none →
        exec .gap s = .next ((s.withLink { s.link with receiver := .hunt, gapTimer := none }).post
          [{ key := .link, detail := .link .gap }]))
      ∧ (s.link.receiver = .hunt ∨ s.link.gapTimer = none → exec .gap s = .next s)

/-- R149, R151: a byte that arrives whole, by the state of the receiver, up to the check value; nothing outside the receiver
changes except a LINK notice of reason TOO_LONG.

R146, R153: the second check byte of a frame whose check value differs is CHECK_FAIL, that of a good frame for another node is
FRAME_FOR_ANOTHER_NODE.

The bytes of such frames, and of the head of a frame that is too long, from a receiver in HUNT, end in the states of their rows
(what these rows stand for is log 22). -/
def Obligations.ReceiverTakesBytes : Prop :=
  (∀ (s : State) (b : Byte), Listening s → s.link.highWait = none →
    let after := fun (r : Receiver) (gap : Option Nat) => Host.Outcome.next (φ := Fault) (ρ := Refusal)
      ((s.withLink { s.link with
        receiver := r, gapTimer := gap, bits := .waiting, lowTime := none, breakSeen := false }).withPins
          { s.pins with line := .high })
    (s.link.receiver = .hunt → b = 0x5A → exec (.byteArrival b) s = after .headerAddress (some 0))
      ∧ (s.link.receiver = .hunt → b ≠ 0x5A → exec (.byteArrival b) s = after .hunt s.link.gapTimer)
      ∧ (s.link.receiver = .headerAddress → exec (.byteArrival b) s = after (.headerTag b) (some 0))
      ∧ (∀ a, s.link.receiver = .headerTag a → exec (.byteArrival b) s = after (.headerKind a b) (some 0))
      ∧ (∀ a t, s.link.receiver = .headerKind a t → exec (.byteArrival b) s = after (.headerLength a t b) (some 0))
      ∧ (∀ a t k, s.link.receiver = .headerLength a t k → b = 0 →
          exec (.byteArrival b) s = after (.checkHigh ⟨a, t, k, b⟩ []) (some 0))
      ∧ (∀ a t k, s.link.receiver = .headerLength a t k → 1 ≤ b.toNat → b.toNat ≤ 60 →
          exec (.byteArrival b) s = after (.payload ⟨a, t, k, b⟩ []) (some 0))
      ∧ (∀ a t k, s.link.receiver = .headerLength a t k → 60 < b.toNat →
          ∃ t : State, after .hunt none = .next t
            ∧ exec (.byteArrival b) s = .next (t.post [{ key := .link, detail := .link .tooLong }]))
      ∧ (∀ h l, s.link.receiver = .payload h l → l.length + 1 < h.length.toNat →
          exec (.byteArrival b) s = after (.payload h (l ++ [b])) (some 0))
      ∧ (∀ h l, s.link.receiver = .payload h l → l.length + 1 = h.length.toNat →
          exec (.byteArrival b) s = after (.checkHigh h (l ++ [b])) (some 0))
      ∧ (∀ h l, s.link.receiver = .checkHigh h l → exec (.byteArrival b) s = after (.checkLow h l b) (some 0))
      ∧ (∀ h l high, s.link.receiver = .checkLow h l high →
          checkValue ([h.address, h.tag, h.kind, h.length] ++ l) ≠ word16 high b →
          exec (.byteArrival b) s = exec .checkFail s)
      ∧ (∀ h l high, s.link.receiver = .checkLow h l high →
          checkValue ([h.address, h.tag, h.kind, h.length] ++ l) = word16 high b →
          h.address ≠ s.link.nodeAddress → h.address ≠ 31 →
          exec (.byteArrival b) s = exec .frameForAnotherNode s))
    ∧ ∀ (s : State) (address tag kind : Byte) (args : List Byte), Listening s → s.link.receiver = .hunt →
      s.link.highWait = none → args.length ≤ 60 →
        (∀ high low : Byte, word16 high low ≠ frameCheck address tag kind args →
          afterBytes ([0x5A] ++ coveredBytes address tag kind args ++ [high, low]) s = exec .checkFail s)
        ∧ (address ≠ s.link.nodeAddress → address ≠ 31 →
          afterBytes (frameBytes 0x5A address tag kind args) s = exec .frameForAnotherNode s)
        ∧ ∀ length : Byte, 60 < length.toNat →
          afterBytes [0x5A, address, tag, kind, length] s = exec .tooLong s

/-- R154, R155: the end of the turnaround starts the reply and raises DIR.

R155, R160, R177: the completion of a reply lowers DIR and carries out the pending action. -/
def Obligations.TransmitterSendsAndSettles : Prop :=
  (∀ (s : State) (r : Reply) (elapsed : Nat) (wait : Byte), s.link.transmitter = .turnaround r elapsed wait →
      ∃ t : State, exec .turnaround s = .next t ∧ dirHigh t = true
        ∧ t = s.withLink { s.link with transmitter := .sending r 0, lowTime := none })
    ∧ (∀ (s : State) (r : Reply) (elapsed : Nat), s.link.transmitter = .sending r elapsed →
      let idle : LinkInterface := { s.link with
        transmitter := .idle, lowTime := if s.pins.line = .low then some 0 else none }
      (r.action = none → exec .completion s = .next (s.withLink idle))
        ∧ (∀ v, r.action = some (.settings v) → exec .completion s = .next (s.withLink { idle with settings := v }))
        ∧ (r.action = some .controllerReset →
          ∃ t : State, exec .completion s = .next t
            ∧ t.link = idle ∧ t.cache = s.cache ∧ t.trip = s.trip ∧ t.pins = s.pins ∧ t.inReset = s.inReset
            ∧ (∀ x, t.timebases.get x =
                { state := .stopped, counter := 0, direction := .up, cycles := 0, tickTimer := 0
                  active := { period := 4000, alignment := .edge, prescale := .by1, syncRestart := false } })
            ∧ t.sync = { s.sync with source := .a, edge := .rising, pulse := none }
            ∧ (∀ c, t.pattern.channels.get c = { onPoint := 0, offPoint := 0, invert := false, mask := false }
                ∧ t.pattern.level.get c = .inactive ∧ t.commit.channels.get c = t.pattern.channels.get c)
            ∧ (∀ p, t.pattern.pairs.get p =
                  { mode := .independent, timebase := .a, deadtimeEven := 0, deadtimeOdd := 0 }
                ∧ t.commit.pairs.get p = t.pattern.pairs.get p
                ∧ t.output.overrides.get p = .independent .none .none)
            ∧ (∀ x, t.commit.timebases.get x = (t.timebases.get x).active)
            ∧ t.commit.queue = [] ∧ t.commit.nextId = 1
            ∧ t.output.enable = .disabled ∧ t.output.drained = 0
            ∧ (∀ c, (t.output.channels.get c).output = .float ∧ (t.output.channels.get c).hold = .inactive
                ∧ (t.output.channels.get c).delay = none)
            ∧ t.notices.mask = 0x1FF ∧ t.notices.nextToken = s.notices.nextToken
            ∧ t.notices.queue
                = { key := .reset, count := 1, first := .reset .controller s.link.strapFault
                    last := .reset .controller s.link.strapFault, token := none }
                  :: Slot.all.filterMap fun n =>
                    match s.trip.routes.get n with
                    | some q =>
                      if q.state = .armed then none
                      else some { key := .trip n, count := 1, first := .trip q.input q.count .repost
                                  last := .trip q.input q.count .repost, token := none }
                    | none => none))

/-- R156 to R158, R178: a break. The settings are those of the straps, the receiver hunts, a reply in TURNAROUND is lost, the cache
is empty and BREAK is posted; a pending controller reset then takes effect. None while SENDING, in reset, or twice in one low
period. -/
def Obligations.BreakResetsTheLink : Prop :=
  ∀ s : State,
    (s.inReset = true ∨ dirHigh s = true ∨ s.link.breakSeen = true → exec .lineBreak s = .next s)
      ∧ (s.inReset = false → dirHigh s = false → s.link.breakSeen = false →
        ∃ t : State, exec .lineBreak s = .next t
          ∧ t.link.settings = { rate := s.link.strapRate, turnaround := 2, gapLimit := 4 }
          ∧ t.link.strapRate = s.link.strapRate ∧ t.link.nodeAddress = s.link.nodeAddress
          ∧ t.link.strapFault = s.link.strapFault ∧ t.link.receiver = .hunt ∧ t.link.bits = .waiting
          ∧ t.link.gapTimer = none ∧ t.link.transmitter = .idle ∧ t.link.highWait = some 0
          ∧ t.link.breakSeen = true ∧ t.cache = [] ∧ t.trip = s.trip
          ∧ t.pins = { s.pins with line := .low } ∧ t.inReset = s.inReset ∧ t.pending = s.pending
          ∧ ((∀ r, replyHeld s.link.transmitter = some r → r.action ≠ some .controllerReset) →
              t.notices = (s.post [{ key := .link, detail := .link .lineBreak }]).notices
                ∧ t.timebases = s.timebases ∧ t.sync = s.sync ∧ t.pattern = s.pattern ∧ t.commit = s.commit
                ∧ t.output = s.output)
          ∧ (∀ r, replyHeld s.link.transmitter = some r → r.action = some .controllerReset →
              (∀ x, t.timebases.get x = Timebase.default) ∧ t.commit.queue = []
                ∧ t.output.enable = .disabled
                ∧ t.notices.queue.head? = some
                    { key := .reset, count := 1, first := .reset .controller s.link.strapFault
                      last := .reset .controller s.link.strapFault, token := none }
                ∧ ∀ n ∈ t.notices.queue, n.key ≠ .link))

/-- R144, R156, R157: edges of the line, the start bit and the end of the wait for a high line. That a rise on a line recorded high
begins the wait again, and that the end of the wait is taken on a line recorded low, are the model's choice (log 3). -/
def Obligations.LineEventsAndStartBit : Prop :=
  ∀ s : State, s.inReset = false →
    (s.pins.line = .high → Listening s → s.link.highWait = none → s.link.bits = .waiting →
      exec .lineFallingEdge s
        = .next ((s.withLink { s.link with bits := .edge 0, lowTime := some (s.link.lowTime.getD 0) }).withPins
            { s.pins with line := .low }))
      ∧ (s.pins.line = .high → dirHigh s = false → (¬ Listening s ∨ s.link.highWait ≠ none) →
        exec .lineFallingEdge s
          = .next ((s.withLink { s.link with
              lowTime := some (s.link.lowTime.getD 0), highWait := s.link.highWait.map fun _ => 0 }).withPins
              { s.pins with line := .low }))
      ∧ (∀ e, Listening s → s.link.highWait = none → s.link.bits = .edge e → s.link.lowTime ≠ none →
        s.pins.line = .low →
          exec .startBitConfirmed s = .next (s.withLink { s.link with bits := .sampling 0 0 0, gapTimer := none }))
      ∧ exec .lineRisingEdge s
          = .next ((s.withLink { s.link with
              lowTime := none, breakSeen := false, highWait := s.link.highWait.map fun _ => 0 }).withPins
              { s.pins with line := .high })
      ∧ (s.link.highWait ≠ none →
        exec .lineHighForOneBitTime s
          = .next ((s.withLink { s.link with lowTime := none, breakSeen := false, highWait := none }).withPins
              { s.pins with line := .high }))
      ∧ (s.link.highWait = none → exec .lineHighForOneBitTime s = .next s)

/-! ## Power-on -/

/-- R179: while RST is low the pads float, DIR and SYNC OUT are low, ATTENTION is released, and the blocks hold nothing (log 16).

R145, R146, R180, R181: the end of power-on reset reads the straps, and every block takes its power-on values. -/
def Obligations.PowerOnReset : Prop :=
  (∀ s : State, ∃ t : State, exec .powerOnReset s = .next t
      ∧ t.inReset = true ∧ dirHigh t = false ∧ syncOutHigh t = false ∧ attention t = false
      ∧ (∀ c, padOf t c = .float) ∧ t.notices.queue = [] ∧ t.commit.queue = [] ∧ t.cache = []
      ∧ t.pins = s.pins ∧ t.pending = s.pending ∧ t.link.nodeAddress = s.link.nodeAddress
      ∧ (∀ x, exec (.tick x) t = .next t)
      ∧ ∀ b, exec (.byteArrival b) t = .next t)
    ∧ (∀ (s : State) (pins : Contacts),
      ∃ t : State, exec (.endOfPowerOnReset pins) s = .next t
        ∧ t.inReset = false ∧ t.pins = pins ∧ t.pending = s.pending ∧ t.cache = []
        ∧ (pins.address = 0 ∨ pins.address = 31 → t.link.nodeAddress = 30 ∧ t.link.strapFault = true)
        ∧ (pins.address ≠ 0 → pins.address ≠ 31 →
            t.link.nodeAddress.toNat = pins.address.toNat ∧ t.link.strapFault = false)
        ∧ rateByte t.link.strapRate = pins.rate.zeroExtend 8
        ∧ t.link.settings = { rate := t.link.strapRate, turnaround := 2, gapLimit := 4 }
        ∧ t.link.receiver = .hunt ∧ t.link.transmitter = .idle ∧ t.link.highWait = some 0
        ∧ (t.link.lowTime = some 0 ↔ pins.line = .low)
        ∧ (∀ x, t.timebases.get x =
            { state := .stopped, counter := 0, direction := .up, cycles := 0, tickTimer := 0
              active := { period := 4000, alignment := .edge, prescale := .by1, syncRestart := false } })
        ∧ t.sync = { source := .a, edge := .rising, filtered := pins.syncIn, agreement := 0, pulse := none }
        ∧ (∀ c, t.pattern.channels.get c = { onPoint := 0, offPoint := 0, invert := false, mask := false }
            ∧ t.commit.channels.get c = { onPoint := 0, offPoint := 0, invert := false, mask := false }
            ∧ t.pattern.level.get c = .inactive)
        ∧ (∀ p, t.pattern.pairs.get p = { mode := .independent, timebase := .a, deadtimeEven := 0, deadtimeOdd := 0 }
            ∧ t.commit.pairs.get p = t.pattern.pairs.get p ∧ t.output.overrides.get p = .independent .none .none)
        ∧ (∀ x, t.commit.timebases.get x = (t.timebases.get x).active)
        ∧ t.commit.queue = [] ∧ t.commit.nextId = 1
        ∧ (∀ i, t.trip.inputs.get i =
            { config := { level := .high, interval := 4, qualify := 4 }, filtered := .quiet, agreement := 0, timer := 0 })
        ∧ (∀ n, t.trip.routes.get n = none) ∧ t.trip.frozen = false
        ∧ t.output.enable = .disabled ∧ t.output.drained = 0
        ∧ (∀ c, padOf t c = .float ∧ (t.output.channels.get c).hold = .inactive
            ∧ (t.output.channels.get c).delay = none)
        ∧ t.notices =
            { queue := [{ key := .reset, count := 1, first := .reset .powerOn t.link.strapFault
                          last := .reset .powerOn t.link.strapFault, token := none }]
              nextToken := 1, mask := 0x1FF }
        ∧ attention t = true)

/-! ## Invariants -/

/-- Every block of the part is sound at State.reset (R180; the levels of the pins are log 10). -/
def Obligations.ResetStateIsSound : Prop :=
  CacheSound State.reset ∧ NoticesSound State.reset ∧ CommitSound State.reset ∧ TimebasesSound State.reset
    ∧ TripSound State.reset ∧ LinkSound State.reset ∧ OutputsSound State.reset ∧ LevelsSound State.reset

/-- R170: the cache never holds more than 4 entries, nor two of one tag. -/
def Obligations.CacheStaysSound : Prop :=
  ∀ s t : State, CacheSound s → step s = .next t → CacheSound t

/-- R126, R127, R132: no step leaves two notices of one class and source, a repeat of 0 or a token 0. -/
def Obligations.NoticesStaySound : Prop :=
  ∀ s t : State, NoticesSound s → step s = .next t → NoticesSound t

/-- R40, R42, R43: the queue and the pool never overflow, and ids stay distinct. -/
def Obligations.CommitQueueStaysSound : Prop :=
  ∀ s t : State, CommitSound s → step s = .next t → CommitSound t

/-- R1, R3, R4, R9: counters stay in the range of their shape, and stopped timebases rest at 0. -/
def Obligations.TimebasesStaySound : Prop :=
  ∀ s t : State, TimebasesSound s → step s = .next t → TimebasesSound t

/-- R66, R69, R77, R78: agreement counts stay below qualify, and held sets follow the states of their routes. -/
def Obligations.TripsStaySound : Prop :=
  ∀ s t : State, TripSound s → step s = .next t → TripSound t

/-- R145, R146, R150, R151: link settings stay in range, and the receiver hunts while a reply is held. -/
def Obligations.LinkStaysSound : Prop :=
  ∀ s t : State, LinkSound s → step s = .next t → LinkSound t

/-- R103, R109, R111, R118, R119: the Output Stage stays sound, and in sound states the outputs of a COMPLEMENTARY pair are never both
ACTIVE. -/
def Obligations.OutputsStaySound : Prop :=
  ∀ s t : State, OutputsSound s → step s = .next t → OutputsSound t ∧ NoShootThrough s ∧ NoShootThrough t

/-- R21, R117: after every step the stored source and pattern levels are those that the records and counts give, and the selected
level of every channel is the one that enable state, drained set, forcing, override and pattern level give; pending pair records
name their ticket's timebase (R44). The trip unit is taken sound (`TripsStaySound`): an ARMED route that held a channel, which no
run reaches, could be taken out without the outputs following. -/
def Obligations.LevelsAndSelectionsStayCurrent : Prop :=
  ∀ s t : State, TripSound s → LevelsSound s → step s = .next t → LevelsSound t

/-! ## The core period -/

/-- R2, R13, R15, R67, R120, R144, R151, R154 to R157: a core period, the step on an empty queue (log 5, the model's choice). Every
timer counts one (`TimersCounted`) and SYNC IN is sampled; where nothing falls due (`FallsDue`, in core periods) that is all; where
one event alone falls due, it is taken: a row of the table on the state so counted, the check of a start bit (log 29), or a
sample of a bit. While RST is low nothing counts (R179, log 16). -/
def Obligations.CorePeriodCountsAndTakesWhatFallsDue : Prop :=
  (bitPeriods .r115200 = 347 ∧ bitPeriods .r460800 = 87 ∧ bitPeriods .r1000000 = 40 ∧ bitPeriods .r2000000 = 20
      ∧ [.by1, .by2, .by4, .by8, .by16, .by32, .by64, .by128].map prescaleNat = [1, 2, 4, 8, 16, 32, 64, 128])
    ∧ ∀ s : State, s.pending = [] →
      (s.inReset = true → step s = .next s)
        ∧ (s.inReset = false → LinkSound s →
          ∃ u : State, TimersCounted s u
            ∧ let v := syncSampled u
              let only := fun d : Due => FallsDue u d ∧ ∀ e, FallsDue u e → e = d
              ((∀ d, ¬ FallsDue u d) → step s = .next v)
                ∧ (only .syncLevel → step s = exec (.syncInSample u.pins.syncIn) u)
                ∧ (∀ i, only (.tripSample i) → step s = exec (.tripInputSample i (v.pins.trip.get i)) v)
                ∧ (∀ x, only (.tick x) → step s = exec (.tick x) v)
                ∧ (only .pulseEnd → step s = exec .syncOutPulseEnd v)
                ∧ (∀ p, only (.deadtimeTick p) → step s = exec (.deadtimeClockTick p) v)
                ∧ (only .turnaround → step s = exec .turnaround v)
                ∧ (only .completion → step s = exec .completion v)
                ∧ (only .lineBreak → v.pins.line = .low → step s = exec .lineBreak v)
                ∧ (only .gap → step s = exec .gap v)
                ∧ (only .startBit →
                  (v.pins.line = .low →
                    step s = .next (v.withLink { v.link with bits := .sampling 0 0 0, gapTimer := none }))
                    ∧ (v.pins.line = .high → step s = .next (v.withLink { v.link with bits := .waiting })))
                ∧ (∀ n b e, only .bitSample → v.link.bits = .sampling n b e →
                  (n < 8 → v.pins.line = .low →
                    step s = .next (v.withLink { v.link with bits := .sampling (n + 1) b 0 }))
                    ∧ (n < 8 → v.pins.line = .high →
                      step s = .next (v.withLink { v.link with bits := .sampling (n + 1) (b ||| ((1 : Byte) <<< n)) 0 }))
                    ∧ (8 ≤ n → v.pins.line = .high → step s = exec (.byteArrival b) v)
                    ∧ (8 ≤ n → v.pins.line = .low → step s = exec .framing v))
                ∧ (only .highForOneBit → step s = exec .lineHighForOneBitTime v))
end

