-- ==== Sys2Proof/Laws/State.lean ====
section
/-! SUPPORT. What each named update of State does to each field. -/

namespace Sys2Proof.Machine

@[simp] theorem State.withLink_link (s : State) (v : LinkInterface) : (s.withLink v).link = v := rfl
@[simp] theorem State.withLink_cache (s : State) (v : LinkInterface) : (s.withLink v).cache = s.cache := rfl
@[simp] theorem State.withLink_timebases (s : State) (v : LinkInterface) : (s.withLink v).timebases = s.timebases := rfl
@[simp] theorem State.withLink_sync (s : State) (v : LinkInterface) : (s.withLink v).sync = s.sync := rfl
@[simp] theorem State.withLink_pattern (s : State) (v : LinkInterface) : (s.withLink v).pattern = s.pattern := rfl
@[simp] theorem State.withLink_commit (s : State) (v : LinkInterface) : (s.withLink v).commit = s.commit := rfl
@[simp] theorem State.withLink_trip (s : State) (v : LinkInterface) : (s.withLink v).trip = s.trip := rfl
@[simp] theorem State.withLink_output (s : State) (v : LinkInterface) : (s.withLink v).output = s.output := rfl
@[simp] theorem State.withLink_notices (s : State) (v : LinkInterface) : (s.withLink v).notices = s.notices := rfl
@[simp] theorem State.withLink_pins (s : State) (v : LinkInterface) : (s.withLink v).pins = s.pins := rfl
@[simp] theorem State.withLink_inReset (s : State) (v : LinkInterface) : (s.withLink v).inReset = s.inReset := rfl
@[simp] theorem State.withLink_free (s : State) (v : LinkInterface) : (s.withLink v).free = s.free := rfl
@[simp] theorem State.withLink_pending (s : State) (v : LinkInterface) : (s.withLink v).pending = s.pending := rfl

@[simp] theorem State.withCache_link (s : State) (v : List CacheEntry) : (s.withCache v).link = s.link := rfl
@[simp] theorem State.withCache_cache (s : State) (v : List CacheEntry) : (s.withCache v).cache = v := rfl
@[simp] theorem State.withCache_timebases (s : State) (v : List CacheEntry) : (s.withCache v).timebases = s.timebases := rfl
@[simp] theorem State.withCache_sync (s : State) (v : List CacheEntry) : (s.withCache v).sync = s.sync := rfl
@[simp] theorem State.withCache_pattern (s : State) (v : List CacheEntry) : (s.withCache v).pattern = s.pattern := rfl
@[simp] theorem State.withCache_commit (s : State) (v : List CacheEntry) : (s.withCache v).commit = s.commit := rfl
@[simp] theorem State.withCache_trip (s : State) (v : List CacheEntry) : (s.withCache v).trip = s.trip := rfl
@[simp] theorem State.withCache_output (s : State) (v : List CacheEntry) : (s.withCache v).output = s.output := rfl
@[simp] theorem State.withCache_notices (s : State) (v : List CacheEntry) : (s.withCache v).notices = s.notices := rfl
@[simp] theorem State.withCache_pins (s : State) (v : List CacheEntry) : (s.withCache v).pins = s.pins := rfl
@[simp] theorem State.withCache_inReset (s : State) (v : List CacheEntry) : (s.withCache v).inReset = s.inReset := rfl
@[simp] theorem State.withCache_free (s : State) (v : List CacheEntry) : (s.withCache v).free = s.free := rfl
@[simp] theorem State.withCache_pending (s : State) (v : List CacheEntry) : (s.withCache v).pending = s.pending := rfl

@[simp] theorem State.withTimebases_link (s : State) (v : TbFile Timebase) : (s.withTimebases v).link = s.link := rfl
@[simp] theorem State.withTimebases_cache (s : State) (v : TbFile Timebase) : (s.withTimebases v).cache = s.cache := rfl
@[simp] theorem State.withTimebases_timebases (s : State) (v : TbFile Timebase) : (s.withTimebases v).timebases = v := rfl
@[simp] theorem State.withTimebases_sync (s : State) (v : TbFile Timebase) : (s.withTimebases v).sync = s.sync := rfl
@[simp] theorem State.withTimebases_pattern (s : State) (v : TbFile Timebase) : (s.withTimebases v).pattern = s.pattern := rfl
@[simp] theorem State.withTimebases_commit (s : State) (v : TbFile Timebase) : (s.withTimebases v).commit = s.commit := rfl
@[simp] theorem State.withTimebases_trip (s : State) (v : TbFile Timebase) : (s.withTimebases v).trip = s.trip := rfl
@[simp] theorem State.withTimebases_output (s : State) (v : TbFile Timebase) : (s.withTimebases v).output = s.output := rfl
@[simp] theorem State.withTimebases_notices (s : State) (v : TbFile Timebase) : (s.withTimebases v).notices = s.notices := rfl
@[simp] theorem State.withTimebases_pins (s : State) (v : TbFile Timebase) : (s.withTimebases v).pins = s.pins := rfl
@[simp] theorem State.withTimebases_inReset (s : State) (v : TbFile Timebase) : (s.withTimebases v).inReset = s.inReset := rfl
@[simp] theorem State.withTimebases_free (s : State) (v : TbFile Timebase) : (s.withTimebases v).free = s.free := rfl
@[simp] theorem State.withTimebases_pending (s : State) (v : TbFile Timebase) : (s.withTimebases v).pending = s.pending := rfl

@[simp] theorem State.withSync_link (s : State) (v : SyncUnit) : (s.withSync v).link = s.link := rfl
@[simp] theorem State.withSync_cache (s : State) (v : SyncUnit) : (s.withSync v).cache = s.cache := rfl
@[simp] theorem State.withSync_timebases (s : State) (v : SyncUnit) : (s.withSync v).timebases = s.timebases := rfl
@[simp] theorem State.withSync_sync (s : State) (v : SyncUnit) : (s.withSync v).sync = v := rfl
@[simp] theorem State.withSync_pattern (s : State) (v : SyncUnit) : (s.withSync v).pattern = s.pattern := rfl
@[simp] theorem State.withSync_commit (s : State) (v : SyncUnit) : (s.withSync v).commit = s.commit := rfl
@[simp] theorem State.withSync_trip (s : State) (v : SyncUnit) : (s.withSync v).trip = s.trip := rfl
@[simp] theorem State.withSync_output (s : State) (v : SyncUnit) : (s.withSync v).output = s.output := rfl
@[simp] theorem State.withSync_notices (s : State) (v : SyncUnit) : (s.withSync v).notices = s.notices := rfl
@[simp] theorem State.withSync_pins (s : State) (v : SyncUnit) : (s.withSync v).pins = s.pins := rfl
@[simp] theorem State.withSync_inReset (s : State) (v : SyncUnit) : (s.withSync v).inReset = s.inReset := rfl
@[simp] theorem State.withSync_free (s : State) (v : SyncUnit) : (s.withSync v).free = s.free := rfl
@[simp] theorem State.withSync_pending (s : State) (v : SyncUnit) : (s.withSync v).pending = s.pending := rfl

@[simp] theorem State.withPattern_link (s : State) (v : PatternUnit) : (s.withPattern v).link = s.link := rfl
@[simp] theorem State.withPattern_cache (s : State) (v : PatternUnit) : (s.withPattern v).cache = s.cache := rfl
@[simp] theorem State.withPattern_timebases (s : State) (v : PatternUnit) : (s.withPattern v).timebases = s.timebases := rfl
@[simp] theorem State.withPattern_sync (s : State) (v : PatternUnit) : (s.withPattern v).sync = s.sync := rfl
@[simp] theorem State.withPattern_pattern (s : State) (v : PatternUnit) : (s.withPattern v).pattern = v := rfl
@[simp] theorem State.withPattern_commit (s : State) (v : PatternUnit) : (s.withPattern v).commit = s.commit := rfl
@[simp] theorem State.withPattern_trip (s : State) (v : PatternUnit) : (s.withPattern v).trip = s.trip := rfl
@[simp] theorem State.withPattern_output (s : State) (v : PatternUnit) : (s.withPattern v).output = s.output := rfl
@[simp] theorem State.withPattern_notices (s : State) (v : PatternUnit) : (s.withPattern v).notices = s.notices := rfl
@[simp] theorem State.withPattern_pins (s : State) (v : PatternUnit) : (s.withPattern v).pins = s.pins := rfl
@[simp] theorem State.withPattern_inReset (s : State) (v : PatternUnit) : (s.withPattern v).inReset = s.inReset := rfl
@[simp] theorem State.withPattern_free (s : State) (v : PatternUnit) : (s.withPattern v).free = s.free := rfl
@[simp] theorem State.withPattern_pending (s : State) (v : PatternUnit) : (s.withPattern v).pending = s.pending := rfl

@[simp] theorem State.withCommit_link (s : State) (v : CommitUnit) : (s.withCommit v).link = s.link := rfl
@[simp] theorem State.withCommit_cache (s : State) (v : CommitUnit) : (s.withCommit v).cache = s.cache := rfl
@[simp] theorem State.withCommit_timebases (s : State) (v : CommitUnit) : (s.withCommit v).timebases = s.timebases := rfl
@[simp] theorem State.withCommit_sync (s : State) (v : CommitUnit) : (s.withCommit v).sync = s.sync := rfl
@[simp] theorem State.withCommit_pattern (s : State) (v : CommitUnit) : (s.withCommit v).pattern = s.pattern := rfl
@[simp] theorem State.withCommit_commit (s : State) (v : CommitUnit) : (s.withCommit v).commit = v := rfl
@[simp] theorem State.withCommit_trip (s : State) (v : CommitUnit) : (s.withCommit v).trip = s.trip := rfl
@[simp] theorem State.withCommit_output (s : State) (v : CommitUnit) : (s.withCommit v).output = s.output := rfl
@[simp] theorem State.withCommit_notices (s : State) (v : CommitUnit) : (s.withCommit v).notices = s.notices := rfl
@[simp] theorem State.withCommit_pins (s : State) (v : CommitUnit) : (s.withCommit v).pins = s.pins := rfl
@[simp] theorem State.withCommit_inReset (s : State) (v : CommitUnit) : (s.withCommit v).inReset = s.inReset := rfl
@[simp] theorem State.withCommit_free (s : State) (v : CommitUnit) : (s.withCommit v).free = s.free := rfl
@[simp] theorem State.withCommit_pending (s : State) (v : CommitUnit) : (s.withCommit v).pending = s.pending := rfl

@[simp] theorem State.withTrip_link (s : State) (v : TripUnit) : (s.withTrip v).link = s.link := rfl
@[simp] theorem State.withTrip_cache (s : State) (v : TripUnit) : (s.withTrip v).cache = s.cache := rfl
@[simp] theorem State.withTrip_timebases (s : State) (v : TripUnit) : (s.withTrip v).timebases = s.timebases := rfl
@[simp] theorem State.withTrip_sync (s : State) (v : TripUnit) : (s.withTrip v).sync = s.sync := rfl
@[simp] theorem State.withTrip_pattern (s : State) (v : TripUnit) : (s.withTrip v).pattern = s.pattern := rfl
@[simp] theorem State.withTrip_commit (s : State) (v : TripUnit) : (s.withTrip v).commit = s.commit := rfl
@[simp] theorem State.withTrip_trip (s : State) (v : TripUnit) : (s.withTrip v).trip = v := rfl
@[simp] theorem State.withTrip_output (s : State) (v : TripUnit) : (s.withTrip v).output = s.output := rfl
@[simp] theorem State.withTrip_notices (s : State) (v : TripUnit) : (s.withTrip v).notices = s.notices := rfl
@[simp] theorem State.withTrip_pins (s : State) (v : TripUnit) : (s.withTrip v).pins = s.pins := rfl
@[simp] theorem State.withTrip_inReset (s : State) (v : TripUnit) : (s.withTrip v).inReset = s.inReset := rfl
@[simp] theorem State.withTrip_free (s : State) (v : TripUnit) : (s.withTrip v).free = s.free := rfl
@[simp] theorem State.withTrip_pending (s : State) (v : TripUnit) : (s.withTrip v).pending = s.pending := rfl

@[simp] theorem State.withOutput_link (s : State) (v : OutputStage) : (s.withOutput v).link = s.link := rfl
@[simp] theorem State.withOutput_cache (s : State) (v : OutputStage) : (s.withOutput v).cache = s.cache := rfl
@[simp] theorem State.withOutput_timebases (s : State) (v : OutputStage) : (s.withOutput v).timebases = s.timebases := rfl
@[simp] theorem State.withOutput_sync (s : State) (v : OutputStage) : (s.withOutput v).sync = s.sync := rfl
@[simp] theorem State.withOutput_pattern (s : State) (v : OutputStage) : (s.withOutput v).pattern = s.pattern := rfl
@[simp] theorem State.withOutput_commit (s : State) (v : OutputStage) : (s.withOutput v).commit = s.commit := rfl
@[simp] theorem State.withOutput_trip (s : State) (v : OutputStage) : (s.withOutput v).trip = s.trip := rfl
@[simp] theorem State.withOutput_output (s : State) (v : OutputStage) : (s.withOutput v).output = v := rfl
@[simp] theorem State.withOutput_notices (s : State) (v : OutputStage) : (s.withOutput v).notices = s.notices := rfl
@[simp] theorem State.withOutput_pins (s : State) (v : OutputStage) : (s.withOutput v).pins = s.pins := rfl
@[simp] theorem State.withOutput_inReset (s : State) (v : OutputStage) : (s.withOutput v).inReset = s.inReset := rfl
@[simp] theorem State.withOutput_free (s : State) (v : OutputStage) : (s.withOutput v).free = s.free := rfl
@[simp] theorem State.withOutput_pending (s : State) (v : OutputStage) : (s.withOutput v).pending = s.pending := rfl

@[simp] theorem State.withNotices_link (s : State) (v : NoticeUnit) : (s.withNotices v).link = s.link := rfl
@[simp] theorem State.withNotices_cache (s : State) (v : NoticeUnit) : (s.withNotices v).cache = s.cache := rfl
@[simp] theorem State.withNotices_timebases (s : State) (v : NoticeUnit) : (s.withNotices v).timebases = s.timebases := rfl
@[simp] theorem State.withNotices_sync (s : State) (v : NoticeUnit) : (s.withNotices v).sync = s.sync := rfl
@[simp] theorem State.withNotices_pattern (s : State) (v : NoticeUnit) : (s.withNotices v).pattern = s.pattern := rfl
@[simp] theorem State.withNotices_commit (s : State) (v : NoticeUnit) : (s.withNotices v).commit = s.commit := rfl
@[simp] theorem State.withNotices_trip (s : State) (v : NoticeUnit) : (s.withNotices v).trip = s.trip := rfl
@[simp] theorem State.withNotices_output (s : State) (v : NoticeUnit) : (s.withNotices v).output = s.output := rfl
@[simp] theorem State.withNotices_notices (s : State) (v : NoticeUnit) : (s.withNotices v).notices = v := rfl
@[simp] theorem State.withNotices_pins (s : State) (v : NoticeUnit) : (s.withNotices v).pins = s.pins := rfl
@[simp] theorem State.withNotices_inReset (s : State) (v : NoticeUnit) : (s.withNotices v).inReset = s.inReset := rfl
@[simp] theorem State.withNotices_free (s : State) (v : NoticeUnit) : (s.withNotices v).free = s.free := rfl
@[simp] theorem State.withNotices_pending (s : State) (v : NoticeUnit) : (s.withNotices v).pending = s.pending := rfl

@[simp] theorem State.withPins_link (s : State) (v : Contacts) : (s.withPins v).link = s.link := rfl
@[simp] theorem State.withPins_cache (s : State) (v : Contacts) : (s.withPins v).cache = s.cache := rfl
@[simp] theorem State.withPins_timebases (s : State) (v : Contacts) : (s.withPins v).timebases = s.timebases := rfl
@[simp] theorem State.withPins_sync (s : State) (v : Contacts) : (s.withPins v).sync = s.sync := rfl
@[simp] theorem State.withPins_pattern (s : State) (v : Contacts) : (s.withPins v).pattern = s.pattern := rfl
@[simp] theorem State.withPins_commit (s : State) (v : Contacts) : (s.withPins v).commit = s.commit := rfl
@[simp] theorem State.withPins_trip (s : State) (v : Contacts) : (s.withPins v).trip = s.trip := rfl
@[simp] theorem State.withPins_output (s : State) (v : Contacts) : (s.withPins v).output = s.output := rfl
@[simp] theorem State.withPins_notices (s : State) (v : Contacts) : (s.withPins v).notices = s.notices := rfl
@[simp] theorem State.withPins_pins (s : State) (v : Contacts) : (s.withPins v).pins = v := rfl
@[simp] theorem State.withPins_inReset (s : State) (v : Contacts) : (s.withPins v).inReset = s.inReset := rfl
@[simp] theorem State.withPins_free (s : State) (v : Contacts) : (s.withPins v).free = s.free := rfl
@[simp] theorem State.withPins_pending (s : State) (v : Contacts) : (s.withPins v).pending = s.pending := rfl

@[simp] theorem State.withInReset_link (s : State) (v : Bool) : (s.withInReset v).link = s.link := rfl
@[simp] theorem State.withInReset_cache (s : State) (v : Bool) : (s.withInReset v).cache = s.cache := rfl
@[simp] theorem State.withInReset_timebases (s : State) (v : Bool) : (s.withInReset v).timebases = s.timebases := rfl
@[simp] theorem State.withInReset_sync (s : State) (v : Bool) : (s.withInReset v).sync = s.sync := rfl
@[simp] theorem State.withInReset_pattern (s : State) (v : Bool) : (s.withInReset v).pattern = s.pattern := rfl
@[simp] theorem State.withInReset_commit (s : State) (v : Bool) : (s.withInReset v).commit = s.commit := rfl
@[simp] theorem State.withInReset_trip (s : State) (v : Bool) : (s.withInReset v).trip = s.trip := rfl
@[simp] theorem State.withInReset_output (s : State) (v : Bool) : (s.withInReset v).output = s.output := rfl
@[simp] theorem State.withInReset_notices (s : State) (v : Bool) : (s.withInReset v).notices = s.notices := rfl
@[simp] theorem State.withInReset_pins (s : State) (v : Bool) : (s.withInReset v).pins = s.pins := rfl
@[simp] theorem State.withInReset_inReset (s : State) (v : Bool) : (s.withInReset v).inReset = v := rfl
@[simp] theorem State.withInReset_free (s : State) (v : Bool) : (s.withInReset v).free = s.free := rfl
@[simp] theorem State.withInReset_pending (s : State) (v : Bool) : (s.withInReset v).pending = s.pending := rfl

@[simp] theorem State.withFree_link (s : State) (v : Nat) : (s.withFree v).link = s.link := rfl
@[simp] theorem State.withFree_cache (s : State) (v : Nat) : (s.withFree v).cache = s.cache := rfl
@[simp] theorem State.withFree_timebases (s : State) (v : Nat) : (s.withFree v).timebases = s.timebases := rfl
@[simp] theorem State.withFree_sync (s : State) (v : Nat) : (s.withFree v).sync = s.sync := rfl
@[simp] theorem State.withFree_pattern (s : State) (v : Nat) : (s.withFree v).pattern = s.pattern := rfl
@[simp] theorem State.withFree_commit (s : State) (v : Nat) : (s.withFree v).commit = s.commit := rfl
@[simp] theorem State.withFree_trip (s : State) (v : Nat) : (s.withFree v).trip = s.trip := rfl
@[simp] theorem State.withFree_output (s : State) (v : Nat) : (s.withFree v).output = s.output := rfl
@[simp] theorem State.withFree_notices (s : State) (v : Nat) : (s.withFree v).notices = s.notices := rfl
@[simp] theorem State.withFree_pins (s : State) (v : Nat) : (s.withFree v).pins = s.pins := rfl
@[simp] theorem State.withFree_inReset (s : State) (v : Nat) : (s.withFree v).inReset = s.inReset := rfl
@[simp] theorem State.withFree_free (s : State) (v : Nat) : (s.withFree v).free = v := rfl
@[simp] theorem State.withFree_pending (s : State) (v : Nat) : (s.withFree v).pending = s.pending := rfl

@[simp] theorem State.withPending_link (s : State) (v : List Instr) : (s.withPending v).link = s.link := rfl
@[simp] theorem State.withPending_cache (s : State) (v : List Instr) : (s.withPending v).cache = s.cache := rfl
@[simp] theorem State.withPending_timebases (s : State) (v : List Instr) : (s.withPending v).timebases = s.timebases := rfl
@[simp] theorem State.withPending_sync (s : State) (v : List Instr) : (s.withPending v).sync = s.sync := rfl
@[simp] theorem State.withPending_pattern (s : State) (v : List Instr) : (s.withPending v).pattern = s.pattern := rfl
@[simp] theorem State.withPending_commit (s : State) (v : List Instr) : (s.withPending v).commit = s.commit := rfl
@[simp] theorem State.withPending_trip (s : State) (v : List Instr) : (s.withPending v).trip = s.trip := rfl
@[simp] theorem State.withPending_output (s : State) (v : List Instr) : (s.withPending v).output = s.output := rfl
@[simp] theorem State.withPending_notices (s : State) (v : List Instr) : (s.withPending v).notices = s.notices := rfl
@[simp] theorem State.withPending_pins (s : State) (v : List Instr) : (s.withPending v).pins = s.pins := rfl
@[simp] theorem State.withPending_inReset (s : State) (v : List Instr) : (s.withPending v).inReset = s.inReset := rfl
@[simp] theorem State.withPending_free (s : State) (v : List Instr) : (s.withPending v).free = s.free := rfl
@[simp] theorem State.withPending_pending (s : State) (v : List Instr) : (s.withPending v).pending = v := rfl

/-- Two states with the same fields are the same. -/
theorem State.eq_of_fields {s t : State}
    (h : s.link = t.link ∧ s.cache = t.cache ∧ s.timebases = t.timebases ∧ s.sync = t.sync ∧ s.pattern = t.pattern
      ∧ s.commit = t.commit ∧ s.trip = t.trip ∧ s.output = t.output ∧ s.notices = t.notices ∧ s.pins = t.pins
      ∧ s.inReset = t.inReset ∧ s.free = t.free ∧ s.pending = t.pending) : s = t := by
  cases s; cases t; simp_all

end Sys2Proof.Machine
end

