-- ==== Sys2Proof/Laws/Frames.lean ====
section
/-!
SUPPORT. For each shared operation, the fields of State it leaves as they were.
-/

namespace Sys2Proof.Machine

@[simp] theorem State.setTimebase_keeps (s : State) (x : Tb) (t : Timebase) :
    (s.setTimebase x t).link = s.link ∧ (s.setTimebase x t).cache = s.cache ∧ (s.setTimebase x t).sync = s.sync
      ∧ (s.setTimebase x t).pattern = s.pattern ∧ (s.setTimebase x t).commit = s.commit
      ∧ (s.setTimebase x t).trip = s.trip ∧ (s.setTimebase x t).output = s.output
      ∧ (s.setTimebase x t).notices = s.notices ∧ (s.setTimebase x t).pins = s.pins
      ∧ (s.setTimebase x t).inReset = s.inReset ∧ (s.setTimebase x t).free = s.free
      ∧ (s.setTimebase x t).pending = s.pending := ⟨rfl, rfl, rfl, rfl, rfl, rfl, rfl, rfl, rfl, rfl, rfl, rfl⟩

/-- Posting changes the notices alone (R128 to R131). -/
@[simp] theorem State.post_keeps (s : State) (ps : List Posting) :
    (s.post ps).link = s.link ∧ (s.post ps).cache = s.cache ∧ (s.post ps).timebases = s.timebases
      ∧ (s.post ps).sync = s.sync ∧ (s.post ps).pattern = s.pattern ∧ (s.post ps).commit = s.commit
      ∧ (s.post ps).trip = s.trip ∧ (s.post ps).output = s.output ∧ (s.post ps).pins = s.pins
      ∧ (s.post ps).inReset = s.inReset ∧ (s.post ps).free = s.free ∧ (s.post ps).pending = s.pending := ⟨rfl, rfl, rfl, rfl, rfl, rfl, rfl, rfl, rfl, rfl, rfl, rfl⟩

@[simp] theorem State.postMerged_keeps (s : State) (ls : List (List Posting)) :
    (s.postMerged ls).link = s.link ∧ (s.postMerged ls).cache = s.cache ∧ (s.postMerged ls).timebases = s.timebases
      ∧ (s.postMerged ls).sync = s.sync ∧ (s.postMerged ls).pattern = s.pattern ∧ (s.postMerged ls).commit = s.commit
      ∧ (s.postMerged ls).trip = s.trip ∧ (s.postMerged ls).output = s.output ∧ (s.postMerged ls).pins = s.pins
      ∧ (s.postMerged ls).inReset = s.inReset ∧ (s.postMerged ls).pending = s.pending := ⟨rfl, rfl, rfl, rfl, rfl, rfl, rfl, rfl, rfl, rfl, rfl⟩

@[simp] theorem State.refresh_keeps (s : State) (x : Tb) :
    (s.refresh x).link = s.link ∧ (s.refresh x).cache = s.cache ∧ (s.refresh x).timebases = s.timebases
      ∧ (s.refresh x).sync = s.sync ∧ (s.refresh x).commit = s.commit ∧ (s.refresh x).trip = s.trip
      ∧ (s.refresh x).output = s.output ∧ (s.refresh x).notices = s.notices ∧ (s.refresh x).pins = s.pins
      ∧ (s.refresh x).inReset = s.inReset ∧ (s.refresh x).free = s.free ∧ (s.refresh x).pending = s.pending := ⟨rfl, rfl, rfl, rfl, rfl, rfl, rfl, rfl, rfl, rfl, rfl, rfl⟩

/-- Selecting again changes the outputs alone (R117 to R120). -/
@[simp] theorem State.settle_keeps (s : State) :
    (s.settle).link = s.link ∧ (s.settle).cache = s.cache ∧ (s.settle).timebases = s.timebases
      ∧ (s.settle).sync = s.sync ∧ (s.settle).pattern = s.pattern ∧ (s.settle).commit = s.commit
      ∧ (s.settle).trip = s.trip ∧ (s.settle).notices = s.notices ∧ (s.settle).pins = s.pins
      ∧ (s.settle).inReset = s.inReset ∧ (s.settle).free = s.free ∧ (s.settle).pending = s.pending := ⟨rfl, rfl, rfl, rfl, rfl, rfl, rfl, rfl, rfl, rfl, rfl, rfl⟩

@[simp] theorem State.redrive_keeps (s : State) (x : Tb) :
    (s.redrive x).link = s.link ∧ (s.redrive x).cache = s.cache ∧ (s.redrive x).timebases = s.timebases
      ∧ (s.redrive x).sync = s.sync ∧ (s.redrive x).commit = s.commit ∧ (s.redrive x).trip = s.trip
      ∧ (s.redrive x).notices = s.notices ∧ (s.redrive x).pins = s.pins ∧ (s.redrive x).inReset = s.inReset
      ∧ (s.redrive x).free = s.free ∧ (s.redrive x).pending = s.pending := ⟨rfl, rfl, rfl, rfl, rfl, rfl, rfl, rfl, rfl, rfl, rfl⟩

@[simp] theorem State.handRoutes_keeps (s : State) (r : SlotFile (Option Route)) :
    (s.handRoutes r).link = s.link ∧ (s.handRoutes r).cache = s.cache ∧ (s.handRoutes r).timebases = s.timebases
      ∧ (s.handRoutes r).sync = s.sync ∧ (s.handRoutes r).pattern = s.pattern ∧ (s.handRoutes r).commit = s.commit
      ∧ (s.handRoutes r).notices = s.notices ∧ (s.handRoutes r).pins = s.pins ∧ (s.handRoutes r).inReset = s.inReset
      ∧ (s.handRoutes r).free = s.free ∧ (s.handRoutes r).pending = s.pending := ⟨rfl, rfl, rfl, rfl, rfl, rfl, rfl, rfl, rfl, rfl, rfl⟩

@[simp] theorem State.mapRoutes_keeps (s : State) (f : Slot → Route → Route) :
    (s.mapRoutes f).link = s.link ∧ (s.mapRoutes f).cache = s.cache ∧ (s.mapRoutes f).timebases = s.timebases
      ∧ (s.mapRoutes f).sync = s.sync ∧ (s.mapRoutes f).pattern = s.pattern ∧ (s.mapRoutes f).commit = s.commit
      ∧ (s.mapRoutes f).notices = s.notices ∧ (s.mapRoutes f).pins = s.pins ∧ (s.mapRoutes f).inReset = s.inReset
      ∧ (s.mapRoutes f).free = s.free ∧ (s.mapRoutes f).pending = s.pending := ⟨rfl, rfl, rfl, rfl, rfl, rfl, rfl, rfl, rfl, rfl, rfl⟩

@[simp] theorem State.countDelays_keeps (s : State) (f : Pair → Bool) :
    (s.countDelays f).link = s.link ∧ (s.countDelays f).cache = s.cache ∧ (s.countDelays f).timebases = s.timebases
      ∧ (s.countDelays f).sync = s.sync ∧ (s.countDelays f).pattern = s.pattern ∧ (s.countDelays f).commit = s.commit
      ∧ (s.countDelays f).trip = s.trip ∧ (s.countDelays f).notices = s.notices ∧ (s.countDelays f).pins = s.pins
      ∧ (s.countDelays f).inReset = s.inReset ∧ (s.countDelays f).free = s.free
      ∧ (s.countDelays f).pending = s.pending := ⟨rfl, rfl, rfl, rfl, rfl, rfl, rfl, rfl, rfl, rfl, rfl, rfl⟩

@[simp] theorem State.countTick_keeps (s : State) (x : Tb) :
    (s.countTick x).link = s.link ∧ (s.countTick x).cache = s.cache ∧ (s.countTick x).timebases = s.timebases
      ∧ (s.countTick x).sync = s.sync ∧ (s.countTick x).pattern = s.pattern ∧ (s.countTick x).commit = s.commit
      ∧ (s.countTick x).trip = s.trip ∧ (s.countTick x).notices = s.notices ∧ (s.countTick x).pins = s.pins
      ∧ (s.countTick x).inReset = s.inReset ∧ (s.countTick x).free = s.free ∧ (s.countTick x).pending = s.pending := ⟨rfl, rfl, rfl, rfl, rfl, rfl, rfl, rfl, rfl, rfl, rfl, rfl⟩

@[simp] theorem State.restartClocks_keeps (s : State) (x : Tb) :
    (s.restartClocks x).link = s.link ∧ (s.restartClocks x).cache = s.cache
      ∧ (s.restartClocks x).timebases = s.timebases ∧ (s.restartClocks x).sync = s.sync
      ∧ (s.restartClocks x).pattern = s.pattern ∧ (s.restartClocks x).commit = s.commit
      ∧ (s.restartClocks x).trip = s.trip ∧ (s.restartClocks x).notices = s.notices
      ∧ (s.restartClocks x).pins = s.pins ∧ (s.restartClocks x).inReset = s.inReset
      ∧ (s.restartClocks x).free = s.free ∧ (s.restartClocks x).pending = s.pending := ⟨rfl, rfl, rfl, rfl, rfl, rfl, rfl, rfl, rfl, rfl, rfl, rfl⟩

@[simp] theorem State.setQueue_keeps (s : State) (q : List Ticket) :
    (s.setQueue q).link = s.link ∧ (s.setQueue q).cache = s.cache ∧ (s.setQueue q).timebases = s.timebases
      ∧ (s.setQueue q).sync = s.sync ∧ (s.setQueue q).pattern = s.pattern ∧ (s.setQueue q).trip = s.trip
      ∧ (s.setQueue q).output = s.output ∧ (s.setQueue q).notices = s.notices ∧ (s.setQueue q).pins = s.pins
      ∧ (s.setQueue q).inReset = s.inReset ∧ (s.setQueue q).free = s.free ∧ (s.setQueue q).pending = s.pending := ⟨rfl, rfl, rfl, rfl, rfl, rfl, rfl, rfl, rfl, rfl, rfl, rfl⟩

@[simp] theorem applyPair_keeps (s : State) (e : Pair × PairRecord) :
    (applyPair s e).link = s.link ∧ (applyPair s e).cache = s.cache ∧ (applyPair s e).timebases = s.timebases
      ∧ (applyPair s e).sync = s.sync ∧ (applyPair s e).commit = s.commit ∧ (applyPair s e).trip = s.trip
      ∧ (applyPair s e).notices = s.notices ∧ (applyPair s e).pins = s.pins ∧ (applyPair s e).inReset = s.inReset
      ∧ (applyPair s e).free = s.free ∧ (applyPair s e).pending = s.pending := ⟨rfl, rfl, rfl, rfl, rfl, rfl, rfl, rfl, rfl, rfl, rfl⟩

@[simp] theorem applyRecord_keeps (x : Tb) (r : Option TimebaseRecord) (s : State) :
    (applyRecord x r s).link = s.link ∧ (applyRecord x r s).cache = s.cache ∧ (applyRecord x r s).sync = s.sync
      ∧ (applyRecord x r s).pattern = s.pattern ∧ (applyRecord x r s).commit = s.commit
      ∧ (applyRecord x r s).trip = s.trip ∧ (applyRecord x r s).output = s.output
      ∧ (applyRecord x r s).notices = s.notices ∧ (applyRecord x r s).pins = s.pins
      ∧ (applyRecord x r s).inReset = s.inReset ∧ (applyRecord x r s).free = s.free
      ∧ (applyRecord x r s).pending = s.pending := by
  cases r <;> simp [applyRecord]

@[simp] theorem applyChannel_keeps (x : Tb) (s : State) (e : Chan × ChannelRecord) :
    (applyChannel x s e).link = s.link ∧ (applyChannel x s e).cache = s.cache
      ∧ (applyChannel x s e).timebases = s.timebases ∧ (applyChannel x s e).sync = s.sync
      ∧ (applyChannel x s e).commit = s.commit ∧ (applyChannel x s e).trip = s.trip
      ∧ (applyChannel x s e).output = s.output ∧ (applyChannel x s e).notices = s.notices
      ∧ (applyChannel x s e).pins = s.pins ∧ (applyChannel x s e).inReset = s.inReset
      ∧ (applyChannel x s e).free = s.free ∧ (applyChannel x s e).pending = s.pending := by
  unfold applyChannel; split <;> simp

@[simp] theorem applyPairs_keeps (l : List (Pair × PairRecord)) (s : State) :
    (l.foldl applyPair s).link = s.link ∧ (l.foldl applyPair s).cache = s.cache
      ∧ (l.foldl applyPair s).timebases = s.timebases ∧ (l.foldl applyPair s).sync = s.sync
      ∧ (l.foldl applyPair s).commit = s.commit ∧ (l.foldl applyPair s).trip = s.trip
      ∧ (l.foldl applyPair s).notices = s.notices ∧ (l.foldl applyPair s).pins = s.pins
      ∧ (l.foldl applyPair s).inReset = s.inReset ∧ (l.foldl applyPair s).free = s.free
      ∧ (l.foldl applyPair s).pending = s.pending := by
  induction l generalizing s with
  | nil => simp
  | cons e l ih => simp [ih]

@[simp] theorem applyChannels_keeps (x : Tb) (l : List (Chan × ChannelRecord)) (s : State) :
    (l.foldl (applyChannel x) s).link = s.link ∧ (l.foldl (applyChannel x) s).cache = s.cache
      ∧ (l.foldl (applyChannel x) s).timebases = s.timebases ∧ (l.foldl (applyChannel x) s).sync = s.sync
      ∧ (l.foldl (applyChannel x) s).commit = s.commit ∧ (l.foldl (applyChannel x) s).trip = s.trip
      ∧ (l.foldl (applyChannel x) s).output = s.output ∧ (l.foldl (applyChannel x) s).notices = s.notices
      ∧ (l.foldl (applyChannel x) s).pins = s.pins ∧ (l.foldl (applyChannel x) s).inReset = s.inReset
      ∧ (l.foldl (applyChannel x) s).free = s.free ∧ (l.foldl (applyChannel x) s).pending = s.pending := by
  induction l generalizing s with
  | nil => simp
  | cons e l ih => simp [ih]

/-- Applying a ticket changes a timebase record, the pattern and the outputs alone (R56). -/
@[simp] theorem applyTicket_keeps (x : Tb) (t : Ticket) (s : State) :
    (applyTicket x t s).link = s.link ∧ (applyTicket x t s).cache = s.cache ∧ (applyTicket x t s).sync = s.sync
      ∧ (applyTicket x t s).commit = s.commit ∧ (applyTicket x t s).trip = s.trip
      ∧ (applyTicket x t s).notices = s.notices ∧ (applyTicket x t s).pins = s.pins
      ∧ (applyTicket x t s).inReset = s.inReset ∧ (applyTicket x t s).free = s.free
      ∧ (applyTicket x t s).pending = s.pending := by
  simp [applyTicket]

@[simp] theorem applyTickets_keeps (x : Tb) (l : List Ticket) (s : State) :
    ((applyTickets x l s).1).link = s.link ∧ ((applyTickets x l s).1).cache = s.cache
      ∧ ((applyTickets x l s).1).sync = s.sync ∧ ((applyTickets x l s).1).commit = s.commit
      ∧ ((applyTickets x l s).1).trip = s.trip ∧ ((applyTickets x l s).1).notices = s.notices
      ∧ ((applyTickets x l s).1).pins = s.pins ∧ ((applyTickets x l s).1).inReset = s.inReset
      ∧ ((applyTickets x l s).1).free = s.free ∧ ((applyTickets x l s).1).pending = s.pending := by
  induction l generalizing s with
  | nil => simp [applyTickets]
  | cons t l ih => simp [applyTickets, ih]

/-- The Commit Unit at a boundary (R48). -/
@[simp] theorem commitBoundary_keeps (x : Tb) (b : Boundary) (s : State) :
    ((commitBoundary x b s).1).link = s.link ∧ ((commitBoundary x b s).1).cache = s.cache
      ∧ ((commitBoundary x b s).1).sync = s.sync ∧ ((commitBoundary x b s).1).trip = s.trip
      ∧ ((commitBoundary x b s).1).notices = s.notices ∧ ((commitBoundary x b s).1).pins = s.pins
      ∧ ((commitBoundary x b s).1).inReset = s.inReset ∧ ((commitBoundary x b s).1).free = s.free
      ∧ ((commitBoundary x b s).1).pending = s.pending := by
  cases b <;> simp [commitBoundary]

@[simp] theorem cancelAtStop_keeps (x : Tb) (k : StopKind) (s : State) :
    ((cancelAtStop x k s).1).link = s.link ∧ ((cancelAtStop x k s).1).cache = s.cache
      ∧ ((cancelAtStop x k s).1).timebases = s.timebases ∧ ((cancelAtStop x k s).1).sync = s.sync
      ∧ ((cancelAtStop x k s).1).pattern = s.pattern ∧ ((cancelAtStop x k s).1).trip = s.trip
      ∧ ((cancelAtStop x k s).1).output = s.output ∧ ((cancelAtStop x k s).1).notices = s.notices
      ∧ ((cancelAtStop x k s).1).pins = s.pins ∧ ((cancelAtStop x k s).1).inReset = s.inReset
      ∧ ((cancelAtStop x k s).1).free = s.free ∧ ((cancelAtStop x k s).1).pending = s.pending := ⟨rfl, rfl, rfl, rfl, rfl, rfl, rfl, rfl, rfl, rfl, rfl, rfl⟩

@[simp] theorem releaseSet_keeps (set : ChannelSet) (s : State) :
    ((releaseSet set s).1).link = s.link ∧ ((releaseSet set s).1).cache = s.cache
      ∧ ((releaseSet set s).1).timebases = s.timebases ∧ ((releaseSet set s).1).sync = s.sync
      ∧ ((releaseSet set s).1).pattern = s.pattern ∧ ((releaseSet set s).1).commit = s.commit
      ∧ ((releaseSet set s).1).notices = s.notices ∧ ((releaseSet set s).1).pins = s.pins
      ∧ ((releaseSet set s).1).inReset = s.inReset ∧ ((releaseSet set s).1).free = s.free
      ∧ ((releaseSet set s).1).pending = s.pending := ⟨rfl, rfl, rfl, rfl, rfl, rfl, rfl, rfl, rfl, rfl, rfl⟩

@[simp] theorem State.setInput_keeps (s : State) (i : TripName) (v : TripInput) :
    (s.setInput i v).link = s.link ∧ (s.setInput i v).cache = s.cache ∧ (s.setInput i v).timebases = s.timebases
      ∧ (s.setInput i v).sync = s.sync ∧ (s.setInput i v).pattern = s.pattern ∧ (s.setInput i v).commit = s.commit
      ∧ (s.setInput i v).output = s.output ∧ (s.setInput i v).notices = s.notices ∧ (s.setInput i v).pins = s.pins
      ∧ (s.setInput i v).inReset = s.inReset ∧ (s.setInput i v).free = s.free ∧ (s.setInput i v).pending = s.pending := ⟨rfl, rfl, rfl, rfl, rfl, rfl, rfl, rfl, rfl, rfl, rfl, rfl⟩

@[simp] theorem State.setTripPin_keeps (s : State) (i : TripName) (l : Level) :
    (s.setTripPin i l).link = s.link ∧ (s.setTripPin i l).cache = s.cache
      ∧ (s.setTripPin i l).timebases = s.timebases ∧ (s.setTripPin i l).sync = s.sync
      ∧ (s.setTripPin i l).pattern = s.pattern ∧ (s.setTripPin i l).commit = s.commit
      ∧ (s.setTripPin i l).trip = s.trip ∧ (s.setTripPin i l).output = s.output
      ∧ (s.setTripPin i l).notices = s.notices ∧ (s.setTripPin i l).inReset = s.inReset
      ∧ (s.setTripPin i l).free = s.free ∧ (s.setTripPin i l).pending = s.pending := ⟨rfl, rfl, rfl, rfl, rfl, rfl, rfl, rfl, rfl, rfl, rfl, rfl⟩

@[simp] theorem assertInput_keeps (i : TripName) (s : State) :
    (assertInput i s).link = s.link ∧ (assertInput i s).cache = s.cache ∧ (assertInput i s).timebases = s.timebases
      ∧ (assertInput i s).sync = s.sync ∧ (assertInput i s).pattern = s.pattern ∧ (assertInput i s).commit = s.commit
      ∧ (assertInput i s).pins = s.pins ∧ (assertInput i s).inReset = s.inReset ∧ (assertInput i s).free = s.free
      ∧ (assertInput i s).pending = s.pending := by
  simp [assertInput]

@[simp] theorem quietInput_keeps (i : TripName) (s : State) :
    (quietInput i s).link = s.link ∧ (quietInput i s).cache = s.cache ∧ (quietInput i s).timebases = s.timebases
      ∧ (quietInput i s).sync = s.sync ∧ (quietInput i s).pattern = s.pattern ∧ (quietInput i s).commit = s.commit
      ∧ (quietInput i s).pins = s.pins ∧ (quietInput i s).inReset = s.inReset ∧ (quietInput i s).free = s.free
      ∧ (quietInput i s).pending = s.pending := by
  simp [quietInput]

@[simp] theorem sampleInput_keeps (i : TripName) (l : Level) (s : State) :
    (sampleInput i l s).link = s.link ∧ (sampleInput i l s).cache = s.cache
      ∧ (sampleInput i l s).timebases = s.timebases ∧ (sampleInput i l s).sync = s.sync
      ∧ (sampleInput i l s).pattern = s.pattern ∧ (sampleInput i l s).commit = s.commit
      ∧ (sampleInput i l s).pins = s.pins ∧ (sampleInput i l s).inReset = s.inReset
      ∧ (sampleInput i l s).free = s.free ∧ (sampleInput i l s).pending = s.pending := by
  simp only [sampleInput]; split
  · split <;> simp
  · simp

@[simp] theorem State.setEnable_keeps (s : State) (e : Enable) (d : ChannelSet) :
    (s.setEnable e d).link = s.link ∧ (s.setEnable e d).cache = s.cache ∧ (s.setEnable e d).timebases = s.timebases
      ∧ (s.setEnable e d).sync = s.sync ∧ (s.setEnable e d).pattern = s.pattern ∧ (s.setEnable e d).commit = s.commit
      ∧ (s.setEnable e d).trip = s.trip ∧ (s.setEnable e d).notices = s.notices ∧ (s.setEnable e d).pins = s.pins
      ∧ (s.setEnable e d).inReset = s.inReset ∧ (s.setEnable e d).free = s.free
      ∧ (s.setEnable e d).pending = s.pending := ⟨rfl, rfl, rfl, rfl, rfl, rfl, rfl, rfl, rfl, rfl, rfl, rfl⟩

@[simp] theorem drainInto_keeps (set : ChannelSet) (s : State) :
    ((drainInto set s).1).link = s.link ∧ ((drainInto set s).1).cache = s.cache
      ∧ ((drainInto set s).1).timebases = s.timebases ∧ ((drainInto set s).1).sync = s.sync
      ∧ ((drainInto set s).1).pattern = s.pattern ∧ ((drainInto set s).1).commit = s.commit
      ∧ ((drainInto set s).1).trip = s.trip ∧ ((drainInto set s).1).notices = s.notices
      ∧ ((drainInto set s).1).pins = s.pins ∧ ((drainInto set s).1).inReset = s.inReset
      ∧ ((drainInto set s).1).free = s.free ∧ ((drainInto set s).1).pending = s.pending := by
  unfold drainInto; split
  · split <;> simp
  · simp

@[simp] theorem drainSet_keeps (set : ChannelSet) (s : State) :
    ((drainSet set s).1).link = s.link ∧ ((drainSet set s).1).cache = s.cache
      ∧ ((drainSet set s).1).timebases = s.timebases ∧ ((drainSet set s).1).sync = s.sync
      ∧ ((drainSet set s).1).pattern = s.pattern ∧ ((drainSet set s).1).commit = s.commit
      ∧ ((drainSet set s).1).trip = s.trip ∧ ((drainSet set s).1).notices = s.notices
      ∧ ((drainSet set s).1).pins = s.pins ∧ ((drainSet set s).1).inReset = s.inReset
      ∧ ((drainSet set s).1).free = s.free ∧ ((drainSet set s).1).pending = s.pending := by
  simp [drainSet]

@[simp] theorem clockTick_keeps (p : Pair) (s : State) :
    (clockTick p s).link = s.link ∧ (clockTick p s).cache = s.cache ∧ (clockTick p s).timebases = s.timebases
      ∧ (clockTick p s).sync = s.sync ∧ (clockTick p s).pattern = s.pattern ∧ (clockTick p s).commit = s.commit
      ∧ (clockTick p s).trip = s.trip ∧ (clockTick p s).notices = s.notices ∧ (clockTick p s).pins = s.pins
      ∧ (clockTick p s).inReset = s.inReset ∧ (clockTick p s).free = s.free ∧ (clockTick p s).pending = s.pending := by
  simp [clockTick]

@[simp] theorem State.postRaised_keeps (s : State) (r : Raised) :
    (s.postRaised r).link = s.link ∧ (s.postRaised r).cache = s.cache ∧ (s.postRaised r).timebases = s.timebases
      ∧ (s.postRaised r).sync = s.sync ∧ (s.postRaised r).pattern = s.pattern ∧ (s.postRaised r).commit = s.commit
      ∧ (s.postRaised r).trip = s.trip ∧ (s.postRaised r).output = s.output ∧ (s.postRaised r).pins = s.pins
      ∧ (s.postRaised r).inReset = s.inReset ∧ (s.postRaised r).pending = s.pending := ⟨rfl, rfl, rfl, rfl, rfl, rfl, rfl, rfl, rfl, rfl, rfl⟩

@[simp] theorem countCycle_keeps (x : Tb) (s : State) :
    (countCycle x s).link = s.link ∧ (countCycle x s).cache = s.cache ∧ (countCycle x s).pattern = s.pattern
      ∧ (countCycle x s).commit = s.commit ∧ (countCycle x s).trip = s.trip ∧ (countCycle x s).output = s.output
      ∧ (countCycle x s).notices = s.notices ∧ (countCycle x s).pins = s.pins ∧ (countCycle x s).inReset = s.inReset
      ∧ (countCycle x s).free = s.free ∧ (countCycle x s).pending = s.pending := ⟨rfl, rfl, rfl, rfl, rfl, rfl, rfl, rfl, rfl, rfl, rfl⟩

/-- A stop event (R11). -/
@[simp] theorem stopEvent_keeps (x : Tb) (k : StopKind) (s : State) :
    ((stopEvent x k s).1).link = s.link ∧ ((stopEvent x k s).1).cache = s.cache
      ∧ ((stopEvent x k s).1).timebases = s.timebases ∧ ((stopEvent x k s).1).sync = s.sync
      ∧ ((stopEvent x k s).1).notices = s.notices ∧ ((stopEvent x k s).1).pins = s.pins
      ∧ ((stopEvent x k s).1).inReset = s.inReset ∧ ((stopEvent x k s).1).free = s.free
      ∧ ((stopEvent x k s).1).pending = s.pending := by
  simp [stopEvent]

@[simp] theorem eitherOrder_keeps (s : State) (l m : List Posting) :
    ((eitherOrder s l m).1).link = s.link ∧ ((eitherOrder s l m).1).cache = s.cache
      ∧ ((eitherOrder s l m).1).timebases = s.timebases ∧ ((eitherOrder s l m).1).sync = s.sync
      ∧ ((eitherOrder s l m).1).pattern = s.pattern ∧ ((eitherOrder s l m).1).commit = s.commit
      ∧ ((eitherOrder s l m).1).trip = s.trip ∧ ((eitherOrder s l m).1).output = s.output
      ∧ ((eitherOrder s l m).1).notices = s.notices ∧ ((eitherOrder s l m).1).pins = s.pins
      ∧ ((eitherOrder s l m).1).inReset = s.inReset ∧ ((eitherOrder s l m).1).pending = s.pending := by
  unfold eitherOrder; split <;> simp

@[simp] theorem completeStop_keeps (x : Tb) (s : State) :
    ((completeStop x s).1).link = s.link ∧ ((completeStop x s).1).cache = s.cache
      ∧ ((completeStop x s).1).sync = s.sync ∧ ((completeStop x s).1).notices = s.notices
      ∧ ((completeStop x s).1).pins = s.pins ∧ ((completeStop x s).1).inReset = s.inReset
      ∧ ((completeStop x s).1).pending = s.pending := by
  simp [completeStop]

@[simp] theorem takeStart_keeps (x : Tb) (b : Bool) (s : State) :
    ((takeStart x b s).1).link = s.link ∧ ((takeStart x b s).1).cache = s.cache
      ∧ ((takeStart x b s).1).notices = s.notices ∧ ((takeStart x b s).1).pins = s.pins
      ∧ ((takeStart x b s).1).inReset = s.inReset ∧ ((takeStart x b s).1).free = s.free
      ∧ ((takeStart x b s).1).pending = s.pending := by
  cases b <;> simp [takeStart]

/-- A START boundary (R5): the link, the cache, the notices, the pins and the queue stay. -/
@[simp] theorem startBoundary_keeps (x : Tb) (b : Bool) (s : State) :
    ((startBoundary x b s).1).link = s.link ∧ ((startBoundary x b s).1).cache = s.cache
      ∧ ((startBoundary x b s).1).notices = s.notices ∧ ((startBoundary x b s).1).pins = s.pins
      ∧ ((startBoundary x b s).1).inReset = s.inReset ∧ ((startBoundary x b s).1).pending = s.pending := by
  unfold startBoundary; simp only; split <;> simp

@[simp] theorem midBoundary_keeps (x : Tb) (s : State) :
    ((midBoundary x s).1).link = s.link ∧ ((midBoundary x s).1).cache = s.cache
      ∧ ((midBoundary x s).1).sync = s.sync ∧ ((midBoundary x s).1).trip = s.trip
      ∧ ((midBoundary x s).1).notices = s.notices ∧ ((midBoundary x s).1).pins = s.pins
      ∧ ((midBoundary x s).1).inReset = s.inReset ∧ ((midBoundary x s).1).free = s.free
      ∧ ((midBoundary x s).1).pending = s.pending := by
  simp [midBoundary]

@[simp] theorem tickEvent_keeps (x : Tb) (s : State) :
    (tickEvent x s).link = s.link ∧ (tickEvent x s).cache = s.cache ∧ (tickEvent x s).pins = s.pins
      ∧ (tickEvent x s).inReset = s.inReset ∧ (tickEvent x s).pending = s.pending := by
  unfold tickEvent; simp only; split <;> simp

@[simp] theorem edgeOn_keeps (x : Tb) (s : State) :
    ((edgeOn x s).1).link = s.link ∧ ((edgeOn x s).1).cache = s.cache ∧ ((edgeOn x s).1).notices = s.notices
      ∧ ((edgeOn x s).1).pins = s.pins ∧ ((edgeOn x s).1).inReset = s.inReset ∧ ((edgeOn x s).1).pending = s.pending := by
  unfold edgeOn; simp only; split
  · split <;> simp
  · simp

@[simp] theorem firstAtEdge_keeps (s : State) :
    ((firstAtEdge s).1).link = s.link ∧ ((firstAtEdge s).1).cache = s.cache
      ∧ ((firstAtEdge s).1).timebases = s.timebases ∧ ((firstAtEdge s).1).sync = s.sync
      ∧ ((firstAtEdge s).1).pattern = s.pattern ∧ ((firstAtEdge s).1).commit = s.commit
      ∧ ((firstAtEdge s).1).trip = s.trip ∧ ((firstAtEdge s).1).output = s.output
      ∧ ((firstAtEdge s).1).notices = s.notices ∧ ((firstAtEdge s).1).pins = s.pins
      ∧ ((firstAtEdge s).1).inReset = s.inReset ∧ ((firstAtEdge s).1).pending = s.pending := by
  unfold firstAtEdge; split <;> simp

@[simp] theorem syncEdge_keeps (s : State) :
    (syncEdge s).link = s.link ∧ (syncEdge s).cache = s.cache ∧ (syncEdge s).pins = s.pins
      ∧ (syncEdge s).inReset = s.inReset ∧ (syncEdge s).pending = s.pending := by
  simp [syncEdge]

@[simp] theorem State.setSyncPin_keeps (s : State) (l : Level) :
    (s.setSyncPin l).link = s.link ∧ (s.setSyncPin l).cache = s.cache ∧ (s.setSyncPin l).timebases = s.timebases
      ∧ (s.setSyncPin l).sync = s.sync ∧ (s.setSyncPin l).pattern = s.pattern ∧ (s.setSyncPin l).commit = s.commit
      ∧ (s.setSyncPin l).trip = s.trip ∧ (s.setSyncPin l).output = s.output ∧ (s.setSyncPin l).notices = s.notices
      ∧ (s.setSyncPin l).inReset = s.inReset ∧ (s.setSyncPin l).free = s.free ∧ (s.setSyncPin l).pending = s.pending := ⟨rfl, rfl, rfl, rfl, rfl, rfl, rfl, rfl, rfl, rfl, rfl, rfl⟩

@[simp] theorem changeSyncLevel_keeps (l : Level) (s : State) :
    (changeSyncLevel l s).link = s.link ∧ (changeSyncLevel l s).cache = s.cache
      ∧ (changeSyncLevel l s).pins = s.pins ∧ (changeSyncLevel l s).inReset = s.inReset
      ∧ (changeSyncLevel l s).pending = s.pending := by
  unfold changeSyncLevel; simp only; split <;> simp

@[simp] theorem sampleSyncIn_keeps (l : Level) (s : State) :
    (sampleSyncIn l s).link = s.link ∧ (sampleSyncIn l s).cache = s.cache ∧ (sampleSyncIn l s).pins = s.pins
      ∧ (sampleSyncIn l s).inReset = s.inReset ∧ (sampleSyncIn l s).pending = s.pending := by
  unfold sampleSyncIn; split <;> simp

@[simp] theorem startNow_keeps (x : Tb) (s : State) :
    (startNow x s).link = s.link ∧ (startNow x s).cache = s.cache ∧ (startNow x s).pins = s.pins
      ∧ (startNow x s).inReset = s.inReset ∧ (startNow x s).pending = s.pending := by
  simp [startNow]

@[simp] theorem stopNow_keeps (x : Tb) (s : State) :
    (stopNow x s).link = s.link ∧ (stopNow x s).cache = s.cache ∧ (stopNow x s).pins = s.pins
      ∧ (stopNow x s).inReset = s.inReset ∧ (stopNow x s).pending = s.pending := by
  unfold stopNow; simp only; split <;> simp

/-- Whatever a request does, the link, the cache, the pins, the reset line and the queue stay; only the Dispatcher changes them (R164). -/
@[simp] theorem perform_keeps (r : Request) (s : State) :
    ((perform r s).state).link = s.link ∧ ((perform r s).state).cache = s.cache
      ∧ ((perform r s).state).pins = s.pins ∧ ((perform r s).state).inReset = s.inReset
      ∧ ((perform r s).state).pending = s.pending := by
  cases r <;> simp only [perform]
  case startTimebase x m =>
    simp only [doStartTimebase]; split <;> simp [accepted]
  case stopTimebase x m =>
    cases m
    · simp only [doStopTimebase, stopImmediate]; split <;> simp [accepted]
    · simp only [doStopTimebase, stopAtBoundary]; split <;> simp [accepted]
  case issueTicket t => simp only [doIssueTicket]; split <;> simp [accepted, refusedWith]
  case cancelById id => simp only [doCancelById]; split <;> simp [accepted, refusedWith]
  case setOverride t =>
    cases t <;> simp only [doSetOverride] <;> split <;> simp [accepted, refusedWith]
  case enableOutputs => simp only [doEnableOutputs]; split <;> simp [accepted]
  case disableOutputs m =>
    cases m
    · simp [doDisableOutputs, disableImmediate, accepted]
    · simp only [doDisableOutputs, disableGraceful]; split <;> simp [accepted]
  case configureTripInput i v => simp only [doConfigureTripInput]; split <;> simp [accepted, refusedWith]
  case defineRoute n v =>
    simp only [doDefineRoute]; repeat' split
    all_goals simp [accepted, refusedWith]
  case removeRoute n =>
    simp only [doRemoveRoute]; repeat' split
    all_goals simp [accepted, refusedWith]
  case clearTrip n =>
    simp only [doClearTrip]; repeat' split
    all_goals simp [accepted, refusedWith]
  case fetchNotices n => simp only [doFetchNotices]; split <;> simp [accepted]
  all_goals
    simp [doIdentify, doReadStatus, doSetLink, doResetController, doReadTimebase, doConfigureSync, doStageChannel, doStagePair,
      doStageTimebase, doReadChannel, doReadPair, doCancelAll, doListTickets, doReadOutputs, doReadTrips,
      doFreezeProtection, doAckNotices, doSetAttentionMask, accepted]

@[simp] theorem carryOut_keeps (k : Byte) (p : List Byte) (s : State) :
    ((carryOut k p s).state).link = s.link ∧ ((carryOut k p s).state).cache = s.cache
      ∧ ((carryOut k p s).state).pins = s.pins ∧ ((carryOut k p s).state).inReset = s.inReset
      ∧ ((carryOut k p s).state).pending = s.pending := by
  unfold carryOut; repeat' split
  all_goals simp [refusedWith]

@[simp] theorem handReply_keeps (r : Reply) (s : State) :
    (handReply r s).cache = s.cache ∧ (handReply r s).timebases = s.timebases ∧ (handReply r s).sync = s.sync
      ∧ (handReply r s).pattern = s.pattern ∧ (handReply r s).commit = s.commit ∧ (handReply r s).trip = s.trip
      ∧ (handReply r s).output = s.output ∧ (handReply r s).notices = s.notices ∧ (handReply r s).pins = s.pins
      ∧ (handReply r s).inReset = s.inReset ∧ (handReply r s).free = s.free ∧ (handReply r s).pending = s.pending := ⟨rfl, rfl, rfl, rfl, rfl, rfl, rfl, rfl, rfl, rfl, rfl, rfl⟩

@[simp] theorem answerNew_keeps (tag k : Byte) (p : List Byte) (c : Word16) (s : State) :
    (answerNew tag k p c s).pins = s.pins ∧ (answerNew tag k p c s).inReset = s.inReset
      ∧ (answerNew tag k p c s).pending = s.pending := by
  simp [answerNew]

@[simp] theorem acceptAddressed_keeps (tag k : Byte) (p : List Byte) (s : State) :
    (acceptAddressed tag k p s).pins = s.pins ∧ (acceptAddressed tag k p s).inReset = s.inReset
      ∧ (acceptAddressed tag k p s).pending = s.pending := by
  unfold acceptAddressed; simp only; split <;> simp

/-- A broadcast draws no reply and leaves the cache (R168). -/
@[simp] theorem acceptBroadcast_keeps (k : Byte) (p : List Byte) (s : State) :
    (acceptBroadcast k p s).link = s.link ∧ (acceptBroadcast k p s).cache = s.cache
      ∧ (acceptBroadcast k p s).pins = s.pins ∧ (acceptBroadcast k p s).inReset = s.inReset
      ∧ (acceptBroadcast k p s).pending = s.pending := by
  unfold acceptBroadcast; repeat' split
  all_goals simp

@[simp] theorem afterLastByte_keeps (s : State) :
    (afterLastByte s).cache = s.cache ∧ (afterLastByte s).timebases = s.timebases ∧ (afterLastByte s).sync = s.sync
      ∧ (afterLastByte s).pattern = s.pattern ∧ (afterLastByte s).commit = s.commit ∧ (afterLastByte s).trip = s.trip
      ∧ (afterLastByte s).output = s.output ∧ (afterLastByte s).notices = s.notices
      ∧ (afterLastByte s).inReset = s.inReset ∧ (afterLastByte s).free = s.free
      ∧ (afterLastByte s).pending = s.pending := ⟨rfl, rfl, rfl, rfl, rfl, rfl, rfl, rfl, rfl, rfl, rfl⟩

@[simp] theorem acceptFrame_keeps (c : Cast) (tag k : Byte) (p : List Byte) (s : State) :
    (acceptFrame c tag k p s).inReset = s.inReset ∧ (acceptFrame c tag k p s).pending = s.pending := by
  unfold acceptFrame; split
  · simp
  · split <;> simp

/-- A controller reset keeps the trip state, the link, the cache and the pins (R177). -/
@[simp] theorem controllerReset_keeps (s : State) :
    (controllerReset s).link = s.link ∧ (controllerReset s).cache = s.cache ∧ (controllerReset s).trip = s.trip
      ∧ (controllerReset s).pins = s.pins ∧ (controllerReset s).inReset = s.inReset
      ∧ (controllerReset s).free = s.free ∧ (controllerReset s).pending = s.pending := by
  simp [controllerReset]

/-- A link reset keeps the trip state and the pins, also with the controller reset it may bring about (R157, R158). -/
@[simp] theorem linkReset_keeps (s : State) :
    (linkReset s).trip = s.trip ∧ (linkReset s).pins = s.pins ∧ (linkReset s).inReset = s.inReset
      ∧ (linkReset s).free = s.free ∧ (linkReset s).pending = s.pending := by
  unfold linkReset; simp only; split <;> simp

@[simp] theorem State.setLinePin_keeps (s : State) (l : Level) :
    (s.setLinePin l).link = s.link ∧ (s.setLinePin l).cache = s.cache ∧ (s.setLinePin l).timebases = s.timebases
      ∧ (s.setLinePin l).sync = s.sync ∧ (s.setLinePin l).pattern = s.pattern ∧ (s.setLinePin l).commit = s.commit
      ∧ (s.setLinePin l).trip = s.trip ∧ (s.setLinePin l).output = s.output ∧ (s.setLinePin l).notices = s.notices
      ∧ (s.setLinePin l).inReset = s.inReset ∧ (s.setLinePin l).free = s.free ∧ (s.setLinePin l).pending = s.pending := ⟨rfl, rfl, rfl, rfl, rfl, rfl, rfl, rfl, rfl, rfl, rfl, rfl⟩

@[simp] theorem lineHigh_keeps (s : State) :
    (lineHigh s).cache = s.cache ∧ (lineHigh s).timebases = s.timebases ∧ (lineHigh s).sync = s.sync
      ∧ (lineHigh s).pattern = s.pattern ∧ (lineHigh s).commit = s.commit ∧ (lineHigh s).trip = s.trip
      ∧ (lineHigh s).output = s.output ∧ (lineHigh s).notices = s.notices ∧ (lineHigh s).inReset = s.inReset
      ∧ (lineHigh s).free = s.free ∧ (lineHigh s).pending = s.pending := ⟨rfl, rfl, rfl, rfl, rfl, rfl, rfl, rfl, rfl, rfl, rfl⟩

@[simp] theorem lineLow_keeps (n : Nat) (s : State) :
    (lineLow n s).cache = s.cache ∧ (lineLow n s).timebases = s.timebases ∧ (lineLow n s).sync = s.sync
      ∧ (lineLow n s).pattern = s.pattern ∧ (lineLow n s).commit = s.commit ∧ (lineLow n s).trip = s.trip
      ∧ (lineLow n s).output = s.output ∧ (lineLow n s).notices = s.notices ∧ (lineLow n s).inReset = s.inReset
      ∧ (lineLow n s).free = s.free ∧ (lineLow n s).pending = s.pending := ⟨rfl, rfl, rfl, rfl, rfl, rfl, rfl, rfl, rfl, rfl, rfl⟩

@[simp] theorem State.receiverAt_keeps (s : State) (r : Receiver) :
    (s.receiverAt r).cache = s.cache ∧ (s.receiverAt r).timebases = s.timebases ∧ (s.receiverAt r).sync = s.sync
      ∧ (s.receiverAt r).pattern = s.pattern ∧ (s.receiverAt r).commit = s.commit ∧ (s.receiverAt r).trip = s.trip
      ∧ (s.receiverAt r).output = s.output ∧ (s.receiverAt r).notices = s.notices ∧ (s.receiverAt r).pins = s.pins
      ∧ (s.receiverAt r).inReset = s.inReset ∧ (s.receiverAt r).free = s.free ∧ (s.receiverAt r).pending = s.pending := ⟨rfl, rfl, rfl, rfl, rfl, rfl, rfl, rfl, rfl, rfl, rfl, rfl⟩

@[simp] theorem State.backToHunt_keeps (s : State) :
    (s.backToHunt).cache = s.cache ∧ (s.backToHunt).timebases = s.timebases ∧ (s.backToHunt).sync = s.sync
      ∧ (s.backToHunt).pattern = s.pattern ∧ (s.backToHunt).commit = s.commit ∧ (s.backToHunt).trip = s.trip
      ∧ (s.backToHunt).output = s.output ∧ (s.backToHunt).notices = s.notices ∧ (s.backToHunt).pins = s.pins
      ∧ (s.backToHunt).inReset = s.inReset ∧ (s.backToHunt).free = s.free ∧ (s.backToHunt).pending = s.pending := ⟨rfl, rfl, rfl, rfl, rfl, rfl, rfl, rfl, rfl, rfl, rfl, rfl⟩

@[simp] theorem State.dropFrame_keeps (s : State) (r : LinkReason) :
    (s.dropFrame r).cache = s.cache ∧ (s.dropFrame r).timebases = s.timebases ∧ (s.dropFrame r).sync = s.sync
      ∧ (s.dropFrame r).pattern = s.pattern ∧ (s.dropFrame r).commit = s.commit ∧ (s.dropFrame r).trip = s.trip
      ∧ (s.dropFrame r).output = s.output ∧ (s.dropFrame r).pins = s.pins ∧ (s.dropFrame r).inReset = s.inReset
      ∧ (s.dropFrame r).free = s.free ∧ (s.dropFrame r).pending = s.pending := ⟨rfl, rfl, rfl, rfl, rfl, rfl, rfl, rfl, rfl, rfl, rfl⟩

@[simp] theorem judgeFrame_keeps (h : FrameHead) (p : List Byte) (c : Word16) (s : State) :
    (judgeFrame h p c s).pins = s.pins ∧ (judgeFrame h p c s).inReset = s.inReset
      ∧ (judgeFrame h p c s).pending = s.pending := by
  unfold judgeFrame; repeat' split
  all_goals simp

@[simp] theorem receiveByte_keeps (b : Byte) (s : State) :
    (receiveByte b s).pins = s.pins ∧ (receiveByte b s).inReset = s.inReset ∧ (receiveByte b s).pending = s.pending := by
  unfold receiveByte; repeat' split
  all_goals simp

@[simp] theorem State.bitsWait_keeps (s : State) :
    (s.bitsWait).cache = s.cache ∧ (s.bitsWait).timebases = s.timebases ∧ (s.bitsWait).sync = s.sync
      ∧ (s.bitsWait).pattern = s.pattern ∧ (s.bitsWait).commit = s.commit ∧ (s.bitsWait).trip = s.trip
      ∧ (s.bitsWait).output = s.output ∧ (s.bitsWait).notices = s.notices ∧ (s.bitsWait).pins = s.pins
      ∧ (s.bitsWait).inReset = s.inReset ∧ (s.bitsWait).free = s.free ∧ (s.bitsWait).pending = s.pending := ⟨rfl, rfl, rfl, rfl, rfl, rfl, rfl, rfl, rfl, rfl, rfl, rfl⟩

@[simp] theorem byteArrives_keeps (b : Byte) (s : State) :
    (byteArrives b s).inReset = s.inReset ∧ (byteArrives b s).pending = s.pending := by
  simp [byteArrives]

@[simp] theorem framingError_keeps (s : State) :
    (framingError s).cache = s.cache ∧ (framingError s).timebases = s.timebases ∧ (framingError s).sync = s.sync
      ∧ (framingError s).pattern = s.pattern ∧ (framingError s).commit = s.commit ∧ (framingError s).trip = s.trip
      ∧ (framingError s).output = s.output ∧ (framingError s).inReset = s.inReset ∧ (framingError s).free = s.free
      ∧ (framingError s).pending = s.pending := by
  unfold framingError; simp only; split <;> simp

@[simp] theorem gapExpires_keeps (s : State) :
    (gapExpires s).cache = s.cache ∧ (gapExpires s).timebases = s.timebases ∧ (gapExpires s).sync = s.sync
      ∧ (gapExpires s).pattern = s.pattern ∧ (gapExpires s).commit = s.commit ∧ (gapExpires s).trip = s.trip
      ∧ (gapExpires s).output = s.output ∧ (gapExpires s).pins = s.pins ∧ (gapExpires s).inReset = s.inReset
      ∧ (gapExpires s).free = s.free ∧ (gapExpires s).pending = s.pending := ⟨rfl, rfl, rfl, rfl, rfl, rfl, rfl, rfl, rfl, rfl, rfl⟩

@[simp] theorem confirmStart_keeps (s : State) :
    (confirmStart s).cache = s.cache ∧ (confirmStart s).timebases = s.timebases ∧ (confirmStart s).sync = s.sync
      ∧ (confirmStart s).pattern = s.pattern ∧ (confirmStart s).commit = s.commit ∧ (confirmStart s).trip = s.trip
      ∧ (confirmStart s).output = s.output ∧ (confirmStart s).notices = s.notices ∧ (confirmStart s).pins = s.pins
      ∧ (confirmStart s).inReset = s.inReset ∧ (confirmStart s).free = s.free ∧ (confirmStart s).pending = s.pending := ⟨rfl, rfl, rfl, rfl, rfl, rfl, rfl, rfl, rfl, rfl, rfl, rfl⟩

@[simp] theorem highWaitEnds_keeps (s : State) :
    (highWaitEnds s).cache = s.cache ∧ (highWaitEnds s).timebases = s.timebases ∧ (highWaitEnds s).sync = s.sync
      ∧ (highWaitEnds s).pattern = s.pattern ∧ (highWaitEnds s).commit = s.commit ∧ (highWaitEnds s).trip = s.trip
      ∧ (highWaitEnds s).output = s.output ∧ (highWaitEnds s).notices = s.notices
      ∧ (highWaitEnds s).inReset = s.inReset ∧ (highWaitEnds s).free = s.free ∧ (highWaitEnds s).pending = s.pending := ⟨rfl, rfl, rfl, rfl, rfl, rfl, rfl, rfl, rfl, rfl, rfl⟩

@[simp] theorem startSending_keeps (r : Reply) (s : State) :
    (startSending r s).cache = s.cache ∧ (startSending r s).timebases = s.timebases
      ∧ (startSending r s).sync = s.sync ∧ (startSending r s).pattern = s.pattern
      ∧ (startSending r s).commit = s.commit ∧ (startSending r s).trip = s.trip ∧ (startSending r s).output = s.output
      ∧ (startSending r s).notices = s.notices ∧ (startSending r s).pins = s.pins
      ∧ (startSending r s).inReset = s.inReset ∧ (startSending r s).free = s.free
      ∧ (startSending r s).pending = s.pending := ⟨rfl, rfl, rfl, rfl, rfl, rfl, rfl, rfl, rfl, rfl, rfl, rfl⟩

@[simp] theorem settleAction_keeps (a : Option PendingAction) (s : State) :
    (settleAction a s).cache = s.cache ∧ (settleAction a s).trip = s.trip ∧ (settleAction a s).pins = s.pins
      ∧ (settleAction a s).inReset = s.inReset ∧ (settleAction a s).free = s.free
      ∧ (settleAction a s).pending = s.pending := by
  unfold settleAction; split <;> simp

@[simp] theorem completeReply_keeps (r : Reply) (s : State) :
    (completeReply r s).cache = s.cache ∧ (completeReply r s).trip = s.trip ∧ (completeReply r s).pins = s.pins
      ∧ (completeReply r s).inReset = s.inReset ∧ (completeReply r s).free = s.free
      ∧ (completeReply r s).pending = s.pending := by
  simp [completeReply]

@[simp] theorem countTimers_keeps (s : State) :
    (countTimers s).cache = s.cache ∧ (countTimers s).pattern = s.pattern ∧ (countTimers s).commit = s.commit
      ∧ (countTimers s).notices = s.notices ∧ (countTimers s).pins = s.pins ∧ (countTimers s).inReset = s.inReset
      ∧ (countTimers s).free = s.free ∧ (countTimers s).pending = s.pending := by
  simp [countTimers]

@[simp] theorem checkStart_keeps (s : State) :
    (checkStart s).cache = s.cache ∧ (checkStart s).timebases = s.timebases ∧ (checkStart s).sync = s.sync
      ∧ (checkStart s).pattern = s.pattern ∧ (checkStart s).commit = s.commit ∧ (checkStart s).trip = s.trip
      ∧ (checkStart s).output = s.output ∧ (checkStart s).notices = s.notices ∧ (checkStart s).pins = s.pins
      ∧ (checkStart s).inReset = s.inReset ∧ (checkStart s).free = s.free ∧ (checkStart s).pending = s.pending := by
  unfold checkStart; split <;> simp

@[simp] theorem sampleBit_keeps (s : State) :
    (sampleBit s).inReset = s.inReset ∧ (sampleBit s).pending = s.pending := by
  unfold sampleBit; repeat' split
  all_goals simp

/-- No event of the clock moves RST or the queue. -/
@[simp] theorem takeDue_keeps (s : State) (d : Due) :
    (takeDue s d).inReset = s.inReset ∧ (takeDue s d).pending = s.pending := by
  cases d <;> simp only [takeDue] <;> (repeat' split) <;> simp

@[simp] theorem runDue_keeps (n : Nat) (ds : List Due) (s : State) :
    (runDue n ds s).inReset = s.inReset ∧ (runDue n ds s).pending = s.pending := by
  induction n generalizing ds s with
  | zero => simp [runDue]
  | succ n ih =>
    simp only [runDue]; repeat' split
    all_goals simp [ih]

@[simp] theorem quietSyncSample_keeps (s : State) :
    (quietSyncSample s).link = s.link ∧ (quietSyncSample s).cache = s.cache ∧ (quietSyncSample s).pins = s.pins
      ∧ (quietSyncSample s).inReset = s.inReset ∧ (quietSyncSample s).pending = s.pending := by
  unfold quietSyncSample; split <;> simp

/-- A core period moves neither RST nor the queue (R179, log 5). -/
@[simp] theorem corePeriod_keeps (s : State) :
    (corePeriod s).inReset = s.inReset ∧ (corePeriod s).pending = s.pending := by
  unfold corePeriod; simp only; split <;> simp

end Sys2Proof.Machine
end

