-- ==== Sys2Proof/Laws/Outputs.lean ====
section
/-!
SUPPORT. Sets of channels, the geometry of pairs, and what selecting and driving the outputs can do (R114 to R119).
-/

namespace Sys2Proof.Machine

/-! ## Files -/

theorem TbFile.ext {α : Type} {f g : TbFile α} (h : ∀ i, f.get i = g.get i) : f = g := by
  cases f; cases g
  simp only [TbFile.mk.injEq]
  exact ⟨h .a, h .b⟩

theorem ChanFile.ext {α : Type} {f g : ChanFile α} (h : ∀ i, f.get i = g.get i) : f = g := by
  cases f; cases g
  simp only [ChanFile.mk.injEq]
  exact ⟨h .ch0, h .ch1, h .ch2, h .ch3, h .ch4, h .ch5, h .ch6, h .ch7⟩

theorem PairFile.ext {α : Type} {f g : PairFile α} (h : ∀ i, f.get i = g.get i) : f = g := by
  cases f; cases g
  simp only [PairFile.mk.injEq]
  exact ⟨h .p0, h .p1, h .p2, h .p3⟩

theorem TripFile.ext {α : Type} {f g : TripFile α} (h : ∀ i, f.get i = g.get i) : f = g := by
  cases f; cases g
  simp only [TripFile.mk.injEq]
  exact ⟨h .trip0, h .trip1, h .trip2, h .trip3⟩

theorem SlotFile.ext {α : Type} {f g : SlotFile α} (h : ∀ i, f.get i = g.get i) : f = g := by
  cases f; cases g
  simp only [SlotFile.mk.injEq]
  exact ⟨h .route0, h .route1, h .route2, h .route3, h .route4, h .route5, h .route6, h .route7⟩

/-! ## Channels and pairs -/

@[simp] theorem partner_partner (c : Chan) : partner (partner c) = c := by cases c <;> rfl
@[simp] theorem pairOf_partner (c : Chan) : pairOf (partner c) = pairOf c := by cases c <;> rfl
@[simp] theorem isPrimary_partner (c : Chan) : isPrimary (partner c) = !isPrimary c := by cases c <;> rfl
@[simp] theorem pairOf_primaryOf (p : Pair) : pairOf (primaryOf p) = p := by cases p <;> rfl
@[simp] theorem pairOf_secondaryOf (p : Pair) : pairOf (secondaryOf p) = p := by cases p <;> rfl
@[simp] theorem modeOf_partner (p : PatternUnit) (c : Chan) : modeOf p (partner c) = modeOf p c := by simp [modeOf]
@[simp] theorem boundTo_partner (p : PatternUnit) (c : Chan) : boundTo p (partner c) = boundTo p c := by simp [boundTo]
@[simp] theorem mem_chan_all (c : Chan) : c ∈ Chan.all := by cases c <;> decide
@[simp] theorem mem_pair_all (p : Pair) : p ∈ Pair.all := by cases p <;> decide
@[simp] theorem mem_slot_all (n : Slot) : n ∈ Slot.all := by cases n <;> decide

theorem member_of_pair {c : Chan} {p : Pair} (h : pairOf c = p) : c = primaryOf p ∨ c = secondaryOf p := by
  subst h; cases c <;> decide

/-! ## Sets of channels (R184) -/

@[simp] theorem inSet_all (c : Chan) : inSet allChannels c = true := by cases c <;> rfl
@[simp] theorem inSet_zero (c : Chan) : inSet (0#8) c = false := by cases c <;> rfl
@[simp] theorem inSet_or (a b : ChannelSet) (c : Chan) : inSet (a ||| b) c = (inSet a c || inSet b c) := by
  simp [inSet]

@[simp] theorem inSet_setMinus (a b : ChannelSet) (c : Chan) :
    inSet (setMinus a b) c = (inSet a c && !inSet b c) := by
  cases c <;> simp [inSet, setMinus, chanIndex]

@[simp] theorem inSet_setOf (f : Chan → Bool) (c : Chan) : inSet (setOf f) c = f c := by
  cases c <;> simp [inSet, setOf, chanIndex, BitVec.ofBoolListLE]

/-- Two sets with the same members are equal. -/
theorem set_ext {a b : ChannelSet} (h : ∀ c, inSet a c = inSet b c) : a = b := by
  apply BitVec.eq_of_getLsbD_eq
  intro i hi
  have : i = 0 ∨ i = 1 ∨ i = 2 ∨ i = 3 ∨ i = 4 ∨ i = 5 ∨ i = 6 ∨ i = 7 := by omega
  rcases this with rfl | rfl | rfl | rfl | rfl | rfl | rfl | rfl
  · exact h .ch0
  · exact h .ch1
  · exact h .ch2
  · exact h .ch3
  · exact h .ch4
  · exact h .ch5
  · exact h .ch6
  · exact h .ch7

theorem set_eq_zero_iff {a : ChannelSet} : a = 0#8 ↔ ∀ c, inSet a c = false :=
  ⟨fun h c => by simp [h], fun h => set_ext (by simpa using h)⟩

theorem set_eq_all_iff {a : ChannelSet} : a = allChannels ↔ ∀ c, inSet a c = true :=
  ⟨fun h c => by simp [h], fun h => set_ext (by simpa using h)⟩

@[simp] theorem inSet_boundSet (p : PatternUnit) (x : Tb) (c : Chan) :
    inSet (boundSet p x) c = decide (boundTo p c = x) := by simp [boundSet]

@[simp] theorem inSet_stoppedSet (s : State) (c : Chan) :
    inSet (stoppedSet s) c = isStopped (s.timebases.get (boundTo s.pattern c)) := by simp [stoppedSet]

@[simp] theorem inSet_drainedAtEntry (s : State) (c : Chan) :
    inSet (drainedAtEntry s) c = isStopped (s.timebases.get (boundTo s.pattern c)) := by simp [drainedAtEntry]

/-! ## Driving an output (R118, R119) -/

@[simp] theorem settleChannel_hold (m : PairMode) (n : Nat) (l : OutLevel) (c : OutChannel) :
    (settleChannel m n l c).hold = c.hold := by
  unfold settleChannel; (repeat' split) <;> rfl

@[simp] theorem settleChannel_selected (m : PairMode) (n : Nat) (l : OutLevel) (c : OutChannel) :
    (settleChannel m n l c).selected = l := by
  unfold settleChannel; (repeat' split) <;> simp_all

/-- A fall, a float and a level already driven take effect at once; so does every level outside a COMPLEMENTARY pair. -/
theorem settleChannel_at_once {m : PairMode} {l : OutLevel} {c : OutChannel} (n : Nat)
    (h : m = .independent ∨ l ≠ .active ∨ c.output = .active) :
    settleChannel m n l c = { c with selected := l, output := l, delay := none } := by
  unfold settleChannel
  rw [if_neg]
  rintro ⟨h1, h2, h3⟩
  rcases h with h | h | h
  · rw [h] at h1; cases h1
  · exact h h2
  · exact h3 h

/-- A rise whose delay has counted the deadtime takes effect. -/
theorem settleChannel_risen {n : Nat} {c : OutChannel} (m : PairMode) (h : n ≤ c.delay.getD 0) :
    settleChannel m n .active c = { c with selected := .active, output := .active, delay := none } := by
  unfold settleChannel
  by_cases hc : m = .complementary ∧ OutLevel.active = .active ∧ c.output ≠ .active
  · rw [if_pos hc, if_pos h]
  · rw [if_neg hc]

/-- A rise of a COMPLEMENTARY pair waits until its delay has counted the deadtime. -/
theorem settleChannel_waits {n : Nat} {c : OutChannel} (h : c.delay.getD 0 < n) (ho : c.output ≠ .active) :
    settleChannel .complementary n .active c = { c with selected := .active, delay := some (c.delay.getD 0) } := by
  unfold settleChannel
  rw [if_pos ⟨rfl, rfl, ho⟩, if_neg (by omega)]

@[simp] theorem settle_channel (s : State) (c : Chan) : s.settle.output.channels.get c = settledChannel s c := by
  simp [State.settle]

@[simp] theorem settle_enable (s : State) : s.settle.output.enable = s.output.enable := rfl
@[simp] theorem settle_drained (s : State) : s.settle.output.drained = s.output.drained := rfl
@[simp] theorem settle_overrides (s : State) : s.settle.output.overrides = s.output.overrides := rfl

@[simp] theorem settledChannel_hold (s : State) (c : Chan) :
    (settledChannel s c).hold = (s.output.channels.get c).hold := by simp [settledChannel]

@[simp] theorem settledChannel_selected (s : State) (c : Chan) : (settledChannel s c).selected = selectLevel s c := by
  simp [settledChannel]

/-- DISABLED floats every output (R117). -/
theorem selectLevel_disabled {s : State} (h : s.output.enable = .disabled) (c : Chan) : selectLevel s c = .float := by
  simp [selectLevel, h]

/-- What selecting reads: the enable state and drained set, the overrides, the hold levels, the forcing routes and the pattern
levels (R117). -/
theorem selectLevel_congr {s u : State} (c : Chan) (h1 : s.output.enable = u.output.enable)
    (h2 : s.output.drained = u.output.drained) (h3 : s.output.overrides = u.output.overrides)
    (h4 : (s.output.channels.get c).hold = (u.output.channels.get c).hold) (h5 : s.pattern = u.pattern)
    (h6 : s.trip.routes = u.trip.routes) : selectLevel s c = selectLevel u c := by
  simp only [selectLevel, h1, h2, h3, h4, h5, h6]

/-! ## Forcing (R114, R115) -/

/-- Some route with this action forces the channel. -/
theorem forcedWith_iff {p : PatternUnit} {routes : SlotFile (Option Route)} {a : Action} {c : Chan} :
    forcedWith p routes a c = true ↔ ∃ n r, routes.get n = some r ∧ r.action = a
      ∧ (inSet r.held c = true ∨ (modeOf p c = .complementary ∧ inSet r.held (partner c) = true)) := by
  simp only [forcedWith, List.any_eq_true]
  constructor
  · rintro ⟨n, _, h⟩
    revert h
    cases e : routes.get n with
    | none => simp
    | some r =>
      intro h
      simp only [routeForces, Bool.and_eq_true, decide_eq_true_eq, Bool.or_eq_true] at h
      exact ⟨n, r, e, h.1, h.2⟩
  · rintro ⟨n, r, e, h1, h2⟩
    refine ⟨n, mem_slot_all n, ?_⟩
    simp only [e, routeForces, Bool.and_eq_true, decide_eq_true_eq, Bool.or_eq_true]
    exact ⟨h1, h2⟩

/-- The two members of a COMPLEMENTARY pair are forced alike (R114). -/
theorem forcedWith_partner {p : PatternUnit} (routes : SlotFile (Option Route)) (a : Action) {c : Chan}
    (h : modeOf p c = .complementary) : forcedWith p routes a (partner c) = forcedWith p routes a c := by
  rw [Bool.eq_iff_iff, forcedWith_iff, forcedWith_iff]
  simp only [modeOf_partner, partner_partner, h, true_and]
  exact exists_congr fun n => exists_congr fun r => and_congr_right fun _ => and_congr_right fun _ => Or.comm

theorem governing_partner {p : PatternUnit} (routes : SlotFile (Option Route)) {c : Chan}
    (h : modeOf p c = .complementary) : governing p routes (partner c) = governing p routes c := by
  simp only [governing, forcedWith_partner routes _ h]

/-- Handing on a route table that forces no channel more with HOLD changes no output (R115). -/
theorem handRoutes_of_no_new_hold {s : State} {routes : SlotFile (Option Route)}
    (h : ∀ c, forcedWith s.pattern routes .hold c = true → forcedWith s.pattern s.trip.routes .hold c = true) :
    s.handRoutes routes = s.withTrip { s.trip with routes := routes } := by
  have hc : (s.handRoutes routes).output.channels = s.output.channels := by
    have : ∀ c, (s.handRoutes routes).output.channels.get c = s.output.channels.get c := by
      intro c
      simp only [State.handRoutes, State.withOutput_output, ChanFile.get_ofFn]
      rw [if_neg]
      intro hh
      simp only [Bool.and_eq_true, Bool.not_eq_true'] at hh
      have := h c hh.2
      rw [hh.1] at this
      cases this
    exact ChanFile.ext this
  apply State.eq_of_fields
  refine ⟨rfl, rfl, rfl, rfl, rfl, rfl, rfl, ?_, rfl, rfl, rfl, rfl, rfl⟩
  show (s.handRoutes routes).output = s.output
  have e : (s.handRoutes routes).output = { s.output with channels := (s.handRoutes routes).output.channels } := rfl
  rw [e, hc]

end Sys2Proof.Machine
end

