-- ==== Sys2Proof/Laws/Tickets.lean ====
section
/-!
SUPPORT. Tickets: a free id exists (R43), what the walk takes and leaves (R49 to R52), and what applying a ticket can do (R56 to
R58).
-/

namespace Sys2Proof.Machine

/-! ## Ids (R43) -/

theorem nextIdAfter_toNat (id : Byte) : (nextIdAfter id).toNat = if id.toNat = 255 then 1 else id.toNat + 1 := by
  unfold nextIdAfter
  by_cases h : id = 255
  · subst h; rfl
  · have h2 : id.toNat ≠ 255 := fun hh => h (BitVec.eq_of_toNat_eq hh)
    have := id.isLt
    rw [if_neg h, if_neg h2, BitVec.toNat_add]
    simp
    omega

theorem nextIdAfter_ne_zero (id : Byte) : nextIdAfter id ≠ 0 := by
  intro hh
  have h2 := nextIdAfter_toNat id
  have := id.isLt
  rw [hh] at h2
  revert h2
  simp
  split <;> omega

theorem freeId_ne_zero : ∀ (n : Nat) {id : Byte} (q : List Ticket), id ≠ 0 → freeId n id q ≠ 0
  | 0, _, _, h => h
  | n + 1, _, q, h => by
    unfold freeId
    split
    · exact freeId_ne_zero n q (nextIdAfter_ne_zero _)
    · exact h

/-- The next-id value itself is taken when no pending ticket has it. -/
theorem freeId_of_fresh {n : Nat} {id : Byte} {q : List Ticket} (h : ∀ k ∈ q, k.id ≠ id) : freeId n id q = id := by
  cases n with
  | zero => rfl
  | succ n =>
    unfold freeId
    rw [if_neg]
    simpa using h

/-- The id reached after n steps. -/
def idAfter : Nat → Byte → Byte
  | 0, id => id
  | n + 1, id => idAfter n (nextIdAfter id)

theorem freeId_scan : ∀ (n : Nat) (id : Byte) (q : List Ticket),
    (∀ k ∈ q, k.id ≠ freeId n id q)
      ∨ (∀ j, j < n → ∃ k ∈ q, k.id = idAfter j id) ∧ freeId n id q = idAfter n id
  | 0, id, q => .inr ⟨fun j h => by omega, rfl⟩
  | n + 1, id, q => by
    unfold freeId
    split
    · next h =>
      simp only [List.any_eq_true, decide_eq_true_eq] at h
      rcases freeId_scan n (nextIdAfter id) q with h1 | ⟨h1, h2⟩
      · exact .inl h1
      · refine .inr ⟨?_, h2⟩
        intro j hj
        cases j with
        | zero => exact h
        | succ j => exact h1 j (by omega)
    · next h => exact .inl (by simpa using h)

theorem idAfter_toNat : ∀ (n : Nat) (id : Byte), id ≠ 0 → (idAfter n id).toNat = (id.toNat - 1 + n) % 255 + 1
  | 0, id, h => by
    have := id.isLt
    have : id.toNat ≠ 0 := fun hh => h (BitVec.eq_of_toNat_eq hh)
    simp only [idAfter]
    omega
  | n + 1, id, h => by
    have hh := idAfter_toNat n (nextIdAfter id) (nextIdAfter_ne_zero id)
    have := id.isLt
    have : id.toNat ≠ 0 := fun hh => h (BitVec.eq_of_toNat_eq hh)
    simp only [idAfter, hh, nextIdAfter_toNat]
    split <;> omega

theorem idAfter_injective {id : Byte} (h : id ≠ 0) {i j : Nat} (hi : i ≤ 254) (hj : j ≤ 254)
    (e : idAfter i id = idAfter j id) : i = j := by
  have := congrArg BitVec.toNat e
  rw [idAfter_toNat _ _ h, idAfter_toNat _ _ h] at this
  omega

theorem length_le_of_nodup_subset {α : Type} [DecidableEq α] : ∀ {l m : List α}, l.Nodup → l ⊆ m → l.length ≤ m.length
  | [], _, _, _ => by simp
  | a :: l, m, hn, hs => by
    rw [List.nodup_cons] at hn
    have ha : a ∈ m := hs (by simp)
    have hs' : l ⊆ m.erase a := by
      intro x hx
      have hne : x ≠ a := by rintro rfl; exact hn.1 hx
      exact (List.mem_erase_of_ne hne).mpr (hs (by simp [hx]))
    have h := length_le_of_nodup_subset hn.2 hs'
    rw [List.length_erase_of_mem ha] at h
    have := List.length_pos_of_mem ha
    simp only [List.length_cons]
    omega

/-- With at most 8 tickets pending, the id found is one that no pending ticket has. -/
theorem freeId_fresh {id : Byte} {q : List Ticket} (h : id ≠ 0) (hq : q.length ≤ 8) :
    ∀ k ∈ q, k.id ≠ freeId q.length id q := by
  rcases freeId_scan q.length id q with h1 | ⟨h1, h2⟩
  · exact h1
  · intro k hk he
    exfalso
    have hall : ∀ j, j < q.length + 1 → idAfter j id ∈ q.map Ticket.id := by
      intro j hj
      by_cases hj' : j < q.length
      · obtain ⟨k, hk, e⟩ := h1 j hj'
        rw [← e]
        exact List.mem_map_of_mem hk
      · have : j = q.length := by omega
        subst this
        rw [← h2, ← he]
        exact List.mem_map_of_mem hk
    have hnd : ((List.range (q.length + 1)).map fun j => idAfter j id).Nodup := by
      unfold List.Nodup
      rw [List.pairwise_map]
      refine List.Pairwise.imp_of_mem ?_ (List.nodup_range (n := q.length + 1))
      intro a b ha hb hab e
      exact hab (idAfter_injective h (by simp at ha; omega) (by simp at hb; omega) e)
    have hsub : ((List.range (q.length + 1)).map fun j => idAfter j id) ⊆ q.map Ticket.id := by
      intro x hx
      simp only [List.mem_map, List.mem_range] at hx
      obtain ⟨j, hj, rfl⟩ := hx
      exact hall j hj
    have := length_le_of_nodup_subset hnd hsub
    simp only [List.length_map, List.length_range] at this
    omega

/-! ## The queue at a boundary (R49 to R53) -/

/-- What a pending ticket never changes: all but its countdown, its deadline and its SYNC mark. -/
def Ticket.fixed (t : Ticket) : Ticket := { t with remaining := 0, deadline := none, syncSeen := false }

@[simp] theorem fixed_countDown (x : Tb) (b : Boundary) (t : Ticket) : (countDown x b t).fixed = t.fixed := by
  unfold countDown
  split
  · split <;> rfl
  · rfl

@[simp] theorem timebase_countDown (x : Tb) (b : Boundary) (t : Ticket) : (countDown x b t).timebase = t.timebase := by
  unfold countDown
  split
  · split <;> rfl
  · rfl

@[simp] theorem fixed_countDeadline (x : Tb) (t : Ticket) : (countDeadline x t).fixed = t.fixed := by
  unfold countDeadline; split <;> rfl

@[simp] theorem timebase_countDeadline (x : Tb) (t : Ticket) : (countDeadline x t).timebase = t.timebase := by
  unfold countDeadline; split <;> rfl

/-- Every ticket that the walk takes is one of X that is ready (R51). -/
theorem takeReady_taken (x : Tb) (b : Boundary) (q : List Ticket) :
    ∀ t ∈ (takeReady x b q).1, t.timebase = x ∧ isReady b t = true := by
  induction q with
  | nil => simp [takeReady]
  | cons k q ih =>
    intro t ht
    simp only [takeReady] at ht
    split at ht
    · next hk =>
      split at ht
      · next hr =>
        rcases List.mem_cons.mp ht with rfl | ht
        · exact ⟨hk, hr⟩
        · exact ih t ht
      · cases ht
    · exact ih t ht

/-- What the walk takes and what it leaves of X are the tickets of X, in their order (R51). -/
theorem takeReady_own (x : Tb) (b : Boundary) (q : List Ticket) :
    q.filter (fun t => t.timebase = x) = (takeReady x b q).1 ++ (takeReady x b q).2.filter fun t => t.timebase = x := by
  induction q with
  | nil => rfl
  | cons k q ih =>
    simp only [takeReady]
    split
    · next hk =>
      split
      · simp [hk, ih]
      · simp [hk]
    · next hk => simp [hk, ih]

/-- The tickets of the other timebase stay, in their order (R51). -/
theorem takeReady_others (x : Tb) (b : Boundary) (q : List Ticket) :
    (takeReady x b q).2.filter (fun t => t.timebase ≠ x) = q.filter fun t => t.timebase ≠ x := by
  induction q with
  | nil => rfl
  | cons k q ih =>
    simp only [takeReady]
    split
    · next hk =>
      split
      · simp [hk] at ih ⊢
        exact ih
      · rfl
    · next hk =>
      simp [hk] at ih ⊢
      exact ih

/-- The first ticket of X that the walk leaves is not ready (R51). -/
theorem takeReady_stops (x : Tb) (b : Boundary) (q : List Ticket) :
    ∀ t, ((takeReady x b q).2.filter fun t => t.timebase = x).head? = some t → isReady b t = false := by
  induction q with
  | nil => simp [takeReady]
  | cons k q ih =>
    simp only [takeReady]
    split
    · next hk =>
      split
      · exact ih
      · next hr =>
        intro t ht
        simp [hk] at ht
        subst ht
        simpa using hr
    · next hk =>
      simpa [hk] using ih

theorem takeReady_left (x : Tb) (b : Boundary) (q : List Ticket) : List.Sublist (takeReady x b q).2 q := by
  induction q with
  | nil => exact List.Sublist.refl _
  | cons k q ih =>
    simp only [takeReady]
    split
    · split
      · exact ih.cons k
      · exact List.Sublist.refl _
    · exact ih.cons_cons k

theorem deadlineStep_left (x : Tb) (q : List Ticket) :
    List.Sublist ((deadlineStep x q).1.map Ticket.fixed) (q.map Ticket.fixed) := by
  have : (deadlineStep x q).1.map Ticket.fixed = (q.filter fun t => !runsOut x t).map Ticket.fixed := by
    simp [deadlineStep]
  rw [this]
  exact List.Sublist.map _ List.filter_sublist

/-! ## Applying a ticket (R56 to R58) -/

/-- The timebase with a record made active. -/
def withRecord (t : Timebase) (r : Option TimebaseRecord) : Timebase := { t with active := r.getD t.active }

@[simp] theorem applyTicket_timebases (x : Tb) (t : Ticket) (s : State) :
    (applyTicket x t s).timebases = s.timebases.set x (withRecord (s.timebases.get x) t.record) := by
  have h : (applyTicket x t s).timebases = (applyRecord x t.record (t.pairs.foldl applyPair s)).timebases := by
    simp [applyTicket]
  rw [h]
  cases e : t.record with
  | none =>
    simp only [applyRecord, applyPairs_keeps, withRecord, Option.getD_none]
    apply TbFile.ext
    intro y
    simp only [TbFile.get_set]
    split
    · next hy => rw [hy]
    · rfl
  | some r => simp [applyRecord, State.setTimebase, withRecord]

/-- The records that the tickets of a walk make active, the last one counting (R56). -/
def lastRecord (active : TimebaseRecord) : List Ticket → TimebaseRecord
  | [] => active
  | t :: ts => lastRecord (t.record.getD active) ts

/-- Applying tickets of X changes of the timebases the active record of X alone (R56). -/
@[simp] theorem applyTickets_timebases (x : Tb) (l : List Ticket) (s : State) :
    (applyTickets x l s).1.timebases
      = s.timebases.set x { s.timebases.get x with active := lastRecord (s.timebases.get x).active l } := by
  induction l generalizing s with
  | nil =>
    apply TbFile.ext
    intro y
    simp only [applyTickets, lastRecord, TbFile.get_set]
    split
    · next hy => rw [hy]
    · rfl
  | cons t l ih =>
    simp only [applyTickets, ih, applyTicket_timebases]
    apply TbFile.ext
    intro y
    simp only [TbFile.get_set]
    split
    · simp [withRecord, lastRecord]
    · rfl

/-- Applying a pair record changes of the outputs the overrides, hold levels and waiting rises of its pair (R116, R119). -/
@[simp] theorem applyPair_enable (s : State) (e : Pair × PairRecord) :
    (applyPair s e).output.enable = s.output.enable ∧ (applyPair s e).output.drained = s.output.drained
      ∧ (applyPair s e).output.clocks = s.output.clocks := by
  simp only [applyPair, applyToOutputs, State.withOutput_output]
  split
  · exact ⟨rfl, rfl, rfl⟩
  · split <;> exact ⟨rfl, rfl, rfl⟩

/-- A pair record that keeps the mode compares each waiting rise of a COMPLEMENTARY pair with the record's deadtime, and changes
nothing else of the outputs (R119, R120). -/
theorem applyPair_sameMode {s : State} {e : Pair × PairRecord} (h : (s.pattern.pairs.get e.1).mode = e.2.mode) :
    (applyPair s e).output.overrides = s.output.overrides
      ∧ ∀ c, (applyPair s e).output.channels.get c
        = if pairOf c = e.1 ∧ e.2.mode = .complementary
              ∧ ∃ n, (s.output.channels.get c).delay = some n
                ∧ (if isPrimary c then e.2.deadtimeEven.toNat else e.2.deadtimeOdd.toNat) ≤ n then
            { s.output.channels.get c with output := .active, delay := none }
          else s.output.channels.get c := by
  have hd : ∀ c, pairOf c = e.1 → deadtimeOf { s.pattern with pairs := s.pattern.pairs.set e.1 e.2 } c
      = if isPrimary c then e.2.deadtimeEven.toNat else e.2.deadtimeOdd.toNat := by
    intro c hc
    simp [deadtimeOf, hc]
  simp only [applyPair, applyToOutputs, State.withOutput_output]
  rw [if_neg (by simpa using h)]
  cases hm : e.2.mode with
  | independent => exact ⟨rfl, fun c => by simp⟩
  | complementary =>
    refine ⟨rfl, fun c => ?_⟩
    simp only [compareDelays, ChanFile.get_ofFn]
    by_cases hc : pairOf c = e.1
    · cases hv : (s.output.channels.get c).delay <;> simp [hc, hd c hc]
    · simp [hc]

@[simp] theorem applyPairs_enable (l : List (Pair × PairRecord)) (s : State) :
    (l.foldl applyPair s).output.enable = s.output.enable ∧ (l.foldl applyPair s).output.drained = s.output.drained
      ∧ (l.foldl applyPair s).output.clocks = s.output.clocks := by
  induction l generalizing s with
  | nil => simp
  | cons e l ih => simp [ih]

@[simp] theorem applyTicket_enable (x : Tb) (t : Ticket) (s : State) :
    (applyTicket x t s).output.enable = s.output.enable ∧ (applyTicket x t s).output.drained = s.output.drained
      ∧ (applyTicket x t s).output.clocks = s.output.clocks := by
  simp [applyTicket]

@[simp] theorem applyTickets_enable (x : Tb) (l : List Ticket) (s : State) :
    (applyTickets x l s).1.output.enable = s.output.enable ∧ (applyTickets x l s).1.output.drained = s.output.drained
      ∧ (applyTickets x l s).1.output.clocks = s.output.clocks := by
  induction l generalizing s with
  | nil => simp [applyTickets]
  | cons t l ih => simp [applyTickets, ih]

/-! ## The Commit Unit at a boundary (R48) -/

/-- The tickets that a boundary of X applies. -/
def takenAt (x : Tb) (b : Boundary) (q : List Ticket) : List Ticket := (takeReady x b (q.map (countDown x b))).1

/-- The tickets that a boundary of X leaves pending. -/
def leftAt (x : Tb) (b : Boundary) (q : List Ticket) : List Ticket :=
  match b with
  | .mid => (takeReady x b (q.map (countDown x b))).2
  | .start => (deadlineStep x (takeReady x b (q.map (countDown x b))).2).1

theorem leftAt_fixed (x : Tb) (b : Boundary) (q : List Ticket) :
    List.Sublist ((leftAt x b q).map Ticket.fixed) (q.map Ticket.fixed) := by
  have h : List.Sublist ((takeReady x b (q.map (countDown x b))).2.map Ticket.fixed) (q.map Ticket.fixed) := by
    have h1 := (takeReady_left x b (q.map (countDown x b))).map Ticket.fixed
    have h2 : (q.map (countDown x b)).map Ticket.fixed = q.map Ticket.fixed := by
      rw [List.map_map]
      exact List.map_congr_left fun t _ => fixed_countDown x b t
    rwa [h2] at h1
  cases b with
  | mid => exact h
  | start => exact (deadlineStep_left x _).trans h

theorem leftAt_others (x : Tb) (b : Boundary) (q : List Ticket) :
    (leftAt x b q).filter (fun t => t.timebase ≠ x) = q.filter fun t => t.timebase ≠ x := by
  have h : (takeReady x b (q.map (countDown x b))).2.filter (fun t => t.timebase ≠ x)
      = q.filter fun t => t.timebase ≠ x := by
    rw [takeReady_others]
    induction q with
    | nil => rfl
    | cons t q ih =>
      by_cases ht : t.timebase = x
      · simpa [ht] using ih
      · have : countDown x b t = t := by
          unfold countDown
          split
          · rw [if_neg]
            rintro ⟨h, _⟩
            exact ht h
          · rfl
        simpa [ht, this] using ih
  cases b with
  | mid => exact h
  | start =>
    rw [← h]
    simp only [leftAt, deadlineStep]
    generalize (takeReady x .start (q.map (countDown x .start))).2 = w
    induction w with
    | nil => rfl
    | cons t w ih =>
      by_cases ht : t.timebase = x
      · by_cases hr : runsOut x t = true
        · simpa [ht, hr] using ih
        · simpa [ht, hr] using ih
      · have h1 : runsOut x t = false := by simp [runsOut, hasDeadline, ht]
        have h2 : countDeadline x t = t := by simp [countDeadline, hasDeadline, ht]
        simpa [ht, h1, h2] using ih

/-- A boundary of X changes of the Commit Unit its queue alone. -/
@[simp] theorem commitBoundary_commit (x : Tb) (b : Boundary) (s : State) :
    (commitBoundary x b s).1.commit = { s.commit with queue := leftAt x b s.commit.queue } := by
  cases b <;> simp [commitBoundary, State.setQueue, leftAt]

/-- A boundary of X changes of the timebases the active record of X alone, and of the outputs neither the enable state, nor the
drained set, nor the deadtime clocks. -/
@[simp] theorem commitBoundary_timebases (x : Tb) (b : Boundary) (s : State) :
    (commitBoundary x b s).1.timebases
      = s.timebases.set x { s.timebases.get x with
          active := lastRecord (s.timebases.get x).active (takenAt x b s.commit.queue) } := by
  cases b <;> simp [commitBoundary, takenAt]

@[simp] theorem commitBoundary_enable (x : Tb) (b : Boundary) (s : State) :
    (commitBoundary x b s).1.output.enable = s.output.enable
      ∧ (commitBoundary x b s).1.output.drained = s.output.drained
      ∧ (commitBoundary x b s).1.output.clocks = s.output.clocks := by
  cases b <;> simp [commitBoundary]

end Sys2Proof.Machine
end

