-- ==== Sys2Proof/Laws/Boundaries.lean ====
section
/-!
SUPPORT. What a release, a drain, a stop event and a boundary do to each block (R5, R10, R11, R91, R92, R107, R108).
-/

namespace Sys2Proof.Machine

/-! ## Releasing and draining -/

@[simp] theorem handRoutes_trip (s : State) (r : SlotFile (Option Route)) :
    (s.handRoutes r).trip = { s.trip with routes := r } := rfl

@[simp] theorem handRoutes_output (s : State) (r : SlotFile (Option Route)) :
    (s.handRoutes r).output.enable = s.output.enable ∧ (s.handRoutes r).output.drained = s.output.drained
      ∧ (s.handRoutes r).output.overrides = s.output.overrides
      ∧ (s.handRoutes r).output.clocks = s.output.clocks := ⟨rfl, rfl, rfl, rfl⟩

@[simp] theorem releaseRoute_keeps (set : ChannelSet) (r : Route) :
    (releaseRoute set r).input = r.input ∧ (releaseRoute set r).channels = r.channels
      ∧ (releaseRoute set r).action = r.action ∧ (releaseRoute set r).clearing = r.clearing
      ∧ (releaseRoute set r).count = r.count := by
  unfold releaseRoute
  split
  · split <;> exact ⟨rfl, rfl, rfl, rfl, rfl⟩
  · exact ⟨rfl, rfl, rfl, rfl, rfl⟩

theorem releaseRoute_held_le (set : ChannelSet) (r : Route) (c : Chan) (h : inSet (releaseRoute set r).held c = true) :
    inSet r.held c = true := by
  revert h
  unfold releaseRoute
  split
  · split
    · simp
    · simp only [inSet_setMinus, Bool.and_eq_true]
      exact And.left
  · exact id

/-- The route table after a release (R91). -/
def releasedRoutes (set : ChannelSet) (routes : SlotFile (Option Route)) : SlotFile (Option Route) :=
  .ofFn fun n => (routes.get n).map (releaseRoute set)

/-- A route table with smaller held sets and the same actions forces no channel more. -/
theorem forcedWith_of_smaller {p : PatternUnit} {before after : SlotFile (Option Route)} {a : Action} {c : Chan}
    (hs : ∀ n q, after.get n = some q →
      ∃ r, before.get n = some r ∧ q.action = r.action ∧ ∀ d, inSet q.held d = true → inSet r.held d = true)
    (h : forcedWith p after a c = true) : forcedWith p before a c = true := by
  rw [forcedWith_iff] at h ⊢
  obtain ⟨n, q, e, h1, h2⟩ := h
  obtain ⟨r, e', h3, h4⟩ := hs n q e
  exact ⟨n, r, e', h3 ▸ h1, h2.imp (h4 c) fun h => ⟨h.1, h4 _ h.2⟩⟩

theorem releasedRoutes_smaller {set : ChannelSet} {routes : SlotFile (Option Route)} :
    ∀ n q, (releasedRoutes set routes).get n = some q →
      ∃ r, routes.get n = some r ∧ q.action = r.action ∧ ∀ d, inSet q.held d = true → inSet r.held d = true := by
  intro n q h
  simp only [releasedRoutes, SlotFile.get_ofFn, Option.map_eq_some_iff] at h
  obtain ⟨r, e, rfl⟩ := h
  exact ⟨r, e, (releaseRoute_keeps set r).2.2.1, releaseRoute_held_le set r⟩

/-- A release changes the route table and no output: the outputs follow when they are selected again (R91). -/
theorem releaseSet_state (set : ChannelSet) (s : State) :
    (releaseSet set s).1 = s.withTrip { s.trip with routes := releasedRoutes set s.trip.routes } := by
  have : (releaseSet set s).1 = s.handRoutes (releasedRoutes set s.trip.routes) := rfl
  rw [this]
  exact handRoutes_of_no_new_hold fun c => forcedWith_of_smaller releasedRoutes_smaller

/-- What a drain step makes of the enable state and the drained set (R107 to R109). -/
theorem drainSet_cases (set : ChannelSet) (s : State) :
    (s.output.enable ≠ .draining ∧ (drainSet set s).1 = s)
      ∨ (s.output.enable = .draining ∧ (s.output.drained ||| set) = allChannels
          ∧ (drainSet set s).1 = s.setEnable .disabled 0)
      ∨ (s.output.enable = .draining ∧ (s.output.drained ||| set) ≠ allChannels
          ∧ (drainSet set s).1 = s.setEnable .draining (s.output.drained ||| set)) := by
  simp only [drainSet, drainInto]
  by_cases h : s.output.enable = .draining
  · by_cases h2 : (s.output.drained ||| set) = allChannels
    · exact .inr (.inl ⟨h, h2, by rw [if_pos h, if_pos h2]⟩)
    · exact .inr (.inr ⟨h, h2, by rw [if_pos h, if_neg h2]⟩)
  · exact .inl ⟨h, by rw [if_neg h]⟩

/-- A drain step keeps every output as it is until the outputs are selected again. -/
@[simp] theorem drainSet_output (set : ChannelSet) (s : State) :
    (drainSet set s).1.output.channels = s.output.channels ∧ (drainSet set s).1.output.overrides = s.output.overrides
      ∧ (drainSet set s).1.output.clocks = s.output.clocks := by
  rcases drainSet_cases set s with ⟨_, h⟩ | ⟨_, _, h⟩ | ⟨_, _, h⟩ <;> rw [h] <;> exact ⟨rfl, rfl, rfl⟩

/-- While DRAINING, a drain step leaves the channels of the set drained, or the outputs DISABLED (R107 to R109). -/
theorem drainSet_drains {set : ChannelSet} {s : State} (h : s.output.enable = .draining) :
    (∀ c, inSet set c = true → inSet (drainSet set s).1.output.drained c = true)
      ∨ (drainSet set s).1.output.enable = .disabled := by
  rcases drainSet_cases set s with ⟨h1, _⟩ | ⟨_, _, h2⟩ | ⟨_, _, h2⟩
  · exact absurd h h1
  · exact .inr (by rw [h2]; rfl)
  · refine .inl fun c hc => ?_
    rw [h2]
    simp [State.setEnable, hc]

@[simp] theorem countTick_output (s : State) (x : Tb) :
    (s.countTick x).output.enable = s.output.enable ∧ (s.countTick x).output.drained = s.output.drained
      ∧ (s.countTick x).output.overrides = s.output.overrides
      ∧ (s.countTick x).output.clocks = s.output.clocks := ⟨rfl, rfl, rfl, rfl⟩

@[simp] theorem redrive_output (s : State) (x : Tb) :
    (s.redrive x).output.enable = s.output.enable ∧ (s.redrive x).output.drained = s.output.drained
      ∧ (s.redrive x).output.overrides = s.output.overrides := ⟨rfl, rfl, rfl⟩

@[simp] theorem redrive_records (s : State) (x : Tb) :
    (s.redrive x).pattern.channels = s.pattern.channels ∧ (s.redrive x).pattern.pairs = s.pattern.pairs := ⟨rfl, rfl⟩

@[simp] theorem boundTo_redrive (s : State) (x : Tb) (c : Chan) :
    boundTo (s.redrive x).pattern c = boundTo s.pattern c := rfl

@[simp] theorem boundSet_redrive (s : State) (x y : Tb) : boundSet (s.redrive x).pattern y = boundSet s.pattern y := rfl

/-! ## Stop events (R9 to R11) -/

@[simp] theorem stopEvent_commit (x : Tb) (k : StopKind) (s : State) :
    (stopEvent x k s).1.commit = { s.commit with queue := withoutTickets x s.commit.queue } := by
  simp [stopEvent, cancelAtStop, State.setQueue]

@[simp] theorem stopEvent_trip (x : Tb) (k : StopKind) (s : State) :
    (stopEvent x k s).1.trip = { s.trip with routes := releasedRoutes (boundSet s.pattern x) s.trip.routes } := by
  simp only [stopEvent, State.redrive_keeps, drainSet_keeps]
  rw [releaseSet_state]
  rfl

@[simp] theorem stopEvent_records (x : Tb) (k : StopKind) (s : State) :
    (stopEvent x k s).1.pattern.channels = s.pattern.channels ∧ (stopEvent x k s).1.pattern.pairs = s.pattern.pairs := by
  simp [stopEvent]

@[simp] theorem boundSet_stopEvent (x y : Tb) (k : StopKind) (s : State) :
    boundSet (stopEvent x k s).1.pattern y = boundSet s.pattern y := by
  unfold boundSet boundTo
  rw [(stopEvent_records x k s).2]

theorem stopEvent_drains {x : Tb} {k : StopKind} {s : State} (h : s.output.enable = .draining) :
    (∀ c, boundTo s.pattern c = x → inSet (stopEvent x k s).1.output.drained c = true)
      ∨ (stopEvent x k s).1.output.enable = .disabled := by
  have h' : (releaseSet (boundSet s.pattern x) (cancelAtStop x k s).1).1.output.enable = .draining := by
    rw [releaseSet_state]; exact h
  refine (drainSet_drains (set := boundSet s.pattern x) h').imp (fun hc c hb => ?_) id
  exact hc c (by simp [hb])

/-- The levels of the channels of a timebase that has stopped are INACTIVE; the other levels stay (R22). -/
theorem refresh_source (s : State) (x : Tb) (c : Chan) :
    (s.refresh x).pattern.source.get c
        = (if boundTo s.pattern c = x then sourceLevel s.pattern s.timebases c else s.pattern.source.get c)
      ∧ (s.refresh x).pattern.level.get c
        = (if boundTo s.pattern c = x then patternLevel s.pattern s.timebases c else s.pattern.level.get c) := by
  simp [State.refresh]

theorem sourceLevel_stopped {p : PatternUnit} {tbs : TbFile Timebase} {c : Chan}
    (h : isStopped (tbs.get (boundTo p c)) = true) : sourceLevel p tbs c = .inactive := by
  simp [sourceLevel, sourceOf, h]

/-! ## START and MID boundaries (R5, R10) -/

@[simp] theorem takeStart_timebases (x : Tb) (ticked : Bool) (s : State) :
    (takeStart x ticked s).1.timebases
      = s.timebases.set x { s.timebases.get x with
          cycles := (s.timebases.get x).cycles + 1
          active := lastRecord (s.timebases.get x).active (takenAt x .start s.commit.queue) } := by
  have : (takeStart x ticked s).1.timebases = (commitBoundary x .start (countCycle x s)).1.timebases := by
    simp only [takeStart]
    cases ticked <;> simp
  rw [this, commitBoundary_timebases]
  apply TbFile.ext
  intro y
  simp only [countCycle, State.setTimebase, State.withSync_timebases, State.withTimebases_timebases,
    State.withSync_commit, State.withTimebases_commit, TbFile.get_set]
  split <;> rfl

@[simp] theorem takeStart_sync (x : Tb) (ticked : Bool) (s : State) :
    (takeStart x ticked s).1.sync = pulseAt x s.sync := by
  simp only [takeStart]
  cases ticked <;> simp [countCycle, State.setTimebase]

@[simp] theorem takeStart_commit (x : Tb) (ticked : Bool) (s : State) :
    (takeStart x ticked s).1.commit = { s.commit with queue := leftAt x .start s.commit.queue } := by
  simp only [takeStart]
  cases ticked <;> simp

@[simp] theorem takeStart_trip (x : Tb) (ticked : Bool) (s : State) :
    (takeStart x ticked s).1.trip = { s.trip with routes := releasedRoutes (boundSet s.pattern x) s.trip.routes } := by
  have : (takeStart x ticked s).1.trip
      = (releaseSet (boundSet s.pattern x) (commitBoundary x .start (countCycle x s)).1).1.trip := by
    simp only [takeStart]
    cases ticked <;> simp
  rw [this, releaseSet_state]
  simp

theorem takeStart_drains {x : Tb} {ticked : Bool} {s : State} (h : s.output.enable = .draining) :
    (∀ c, boundTo s.pattern c = x → inSet (takeStart x ticked s).1.output.drained c = true)
      ∨ (takeStart x ticked s).1.output.enable = .disabled := by
  have h' : (releaseSet (boundSet s.pattern x) (commitBoundary x .start (countCycle x s)).1).1.output.enable
      = .draining := by
    rw [releaseSet_state]
    simpa using h
  have hd := drainSet_drains (set := boundSet s.pattern x) h'
  simp only [takeStart]
  cases ticked
  · exact hd.imp (fun hc c hb => hc c (by simp [hb])) id
  · exact hd.imp (fun hc c hb => hc c (by simp [hb])) id

@[simp] theorem eitherOrder_blocks (s : State) (l m : List Posting) :
    (eitherOrder s l m).2.Perm (l ++ m) := by
  unfold eitherOrder
  split
  · exact List.Perm.refl _
  · dsimp only
    split
    · exact List.Perm.refl _
    · exact List.perm_append_comm

@[simp] theorem completeStop_timebases (x : Tb) (s : State) :
    (completeStop x s).1.timebases = s.timebases.set x (stopAtZero (s.timebases.get x)) := by
  simp [completeStop, State.setTimebase]

@[simp] theorem completeStop_commit (x : Tb) (s : State) :
    (completeStop x s).1.commit = { s.commit with queue := withoutTickets x s.commit.queue } := by
  simp [completeStop]

@[simp] theorem completeStop_trip (x : Tb) (s : State) :
    (completeStop x s).1.trip = { s.trip with routes := releasedRoutes (boundSet s.pattern x) s.trip.routes } := by
  simp [completeStop]

@[simp] theorem boundSet_completeStop (x y : Tb) (s : State) :
    boundSet (completeStop x s).1.pattern y = boundSet s.pattern y := by
  simp [completeStop]

/-- A START boundary of a timebase that is not STOPPING. -/
theorem startBoundary_running {x : Tb} {s : State} (ticked : Bool) (h : (s.timebases.get x).state ≠ .stopping) :
    startBoundary x ticked s = takeStart x ticked s := by
  unfold startBoundary
  dsimp only
  rw [if_neg]
  simpa using h

/-- A START boundary of a STOPPING timebase completes its stop (R10). -/
theorem startBoundary_stopping {x : Tb} {s : State} (ticked : Bool) (h : (s.timebases.get x).state = .stopping) :
    startBoundary x ticked s
      = ((completeStop x (takeStart x ticked s).1).1,
          bothRaised (takeStart x ticked s).2 (completeStop x (takeStart x ticked s).1).2) := by
  unfold startBoundary
  dsimp only
  rw [if_pos]
  simpa using h

@[simp] theorem midBoundary_timebases (x : Tb) (s : State) :
    (midBoundary x s).1.timebases
      = s.timebases.set x { s.timebases.get x with
          active := lastRecord (s.timebases.get x).active (takenAt x .mid s.commit.queue) } := by
  simp [midBoundary]

@[simp] theorem midBoundary_commit (x : Tb) (s : State) :
    (midBoundary x s).1.commit = { s.commit with queue := leftAt x .mid s.commit.queue } := by
  simp [midBoundary]

@[simp] theorem midBoundary_enable (x : Tb) (s : State) :
    (midBoundary x s).1.output.enable = s.output.enable ∧ (midBoundary x s).1.output.drained = s.output.drained := by
  simp [midBoundary]

end Sys2Proof.Machine
end

