-- ==== Sys2Proof/Laws/Clock.lean ====
section
/-!
SUPPORT. What a core period does, said once in the words of Safety.lean: every timer counts, and an event that alone falls due is
taken (R2, R13, R15, R67, R120, R144, R151, R154 to R157, log 5).
-/

namespace Sys2Proof.Machine

/-! ## Counting -/

/-- The deadtime clock of a pair runs while a rise of a member waits and the pair's timebase is stopped (R120). -/
theorem clockRuns_eq (s : State) (p : Pair) :
    clockRuns s p
      = (((s.output.channels.get (primaryOf p)).delay.isSome || (s.output.channels.get (secondaryOf p)).delay.isSome)
          && isStopped (s.timebases.get (s.pattern.pairs.get p).timebase)) := by
  unfold clockRuns pairWaits
  cases p <;> simp [primaryOf, secondaryOf]

theorem countTimers_counted (s : State) : TimersCounted s (countTimers s) := by
  refine ⟨rfl, fun x => ?_, fun i => ?_, fun p => ?_, rfl, fun h => ?_, fun e h => ?_, fun n b e h => ?_, fun h => ?_,
    fun r e w h => ?_, fun r e h => ?_⟩
  · simp only [countTimers, State.withOutput_timebases, State.withTrip_timebases, State.withSync_timebases,
      State.withTimebases_timebases, TbFile.get_ofFn, countTimebase]
    split <;> rfl
  · simp [countTimers]
  · simp only [countTimers, State.withOutput_output, PairFile.get_ofFn, ← clockRuns_eq]
    split <;> rfl
  · simp [countTimers, countLink, h, countBits]
  · simp [countTimers, countLink, h, countBits]
  · simp [countTimers, countLink, h, countBits]
  · simp [countTimers, countLink, h, countTransmitter]
  · simp [countTimers, countLink, h, countTransmitter]
  · simp [countTimers, countLink, h, countTransmitter]

/-! ## What falls due -/

/-- The model's test of an event is the rule's. -/
theorem fallsDue_iff (u : State) (d : Due) : FallsDue u d ↔ isDue u d = true := by
  cases d with
  | syncLevel => simp [FallsDue, isDue, changesSyncLevel]
  | tripSample i => simp [FallsDue, isDue]
  | tick x => simp [FallsDue, isDue]
  | pulseEnd => cases h : u.sync.pulse <;> simp [FallsDue, isDue, h]
  | deadtimeTick p =>
    have hw : (∃ c, pairOf c = p ∧ (u.output.channels.get c).delay ≠ none)
        ↔ ((u.output.channels.get (primaryOf p)).delay.isSome
          || (u.output.channels.get (secondaryOf p)).delay.isSome) = true := by
      rw [Bool.or_eq_true, Option.isSome_iff_ne_none, Option.isSome_iff_ne_none]
      constructor
      · rintro ⟨c, hp, h⟩
        rcases member_of_pair hp with rfl | rfl
        · exact .inl h
        · exact .inr h
      · rintro (h | h)
        · exact ⟨primaryOf p, by cases p <;> rfl, h⟩
        · exact ⟨secondaryOf p, by cases p <;> rfl, h⟩
    simp only [FallsDue, isDue, clockRuns_eq, hw, Bool.and_eq_true, decide_eq_true_eq, and_assoc]
  | turnaround =>
    cases h : u.link.transmitter with
    | turnaround r e w =>
      simp only [FallsDue, isDue, h, decide_eq_true_eq]
      exact ⟨fun ⟨_, _, _, he, hd⟩ => by cases he; exact hd, fun hd => ⟨r, e, w, rfl, hd⟩⟩
    | idle => simp [FallsDue, isDue, h]
    | sending r e => simp [FallsDue, isDue, h]
  | completion =>
    cases h : u.link.transmitter with
    | sending r e =>
      simp only [FallsDue, isDue, h, decide_eq_true_eq]
      exact ⟨fun ⟨_, _, he, hd⟩ => by cases he; exact hd, fun hd => ⟨r, e, rfl, hd⟩⟩
    | idle => simp [FallsDue, isDue, h]
    | turnaround r e w => simp [FallsDue, isDue, h]
  | lineBreak =>
    have hs : dirHigh u = isSending u.link := rfl
    cases h : u.link.lowTime with
    | none => simp [FallsDue, isDue, h]
    | some n =>
      simp only [FallsDue, isDue, h, hs, Option.any_some, Bool.and_eq_true, Bool.not_eq_true', decide_eq_true_eq, and_assoc]
      exact ⟨fun ⟨h1, h2, _, he, hd⟩ => by cases he; exact ⟨h1, h2, hd⟩, fun ⟨h1, h2, hd⟩ => ⟨h1, h2, n, rfl, hd⟩⟩
  | gap =>
    cases h : u.link.gapTimer with
    | none => simp [FallsDue, isDue, h]
    | some n =>
      simp only [FallsDue, isDue, h, Option.any_some, Bool.and_eq_true, decide_eq_true_eq]
      exact ⟨fun ⟨h1, _, he, hd⟩ => by cases he; exact ⟨h1, hd⟩, fun ⟨h1, hd⟩ => ⟨h1, n, rfl, hd⟩⟩
  | startBit =>
    cases h : u.link.bits with
    | edge e =>
      simp only [FallsDue, isDue, h, decide_eq_true_eq]
      exact ⟨fun ⟨_, he, hd⟩ => by cases he; exact hd, fun hd => ⟨e, rfl, hd⟩⟩
    | waiting => simp [FallsDue, isDue, h]
    | sampling n b e => simp [FallsDue, isDue, h]
  | bitSample =>
    cases h : u.link.bits with
    | sampling n b e =>
      simp only [FallsDue, isDue, h, bitTimes, Nat.one_mul, decide_eq_true_eq]
      exact ⟨fun ⟨_, _, _, he, hd⟩ => by cases he; exact hd, fun hd => ⟨n, b, e, rfl, hd⟩⟩
    | waiting => simp [FallsDue, isDue, h]
    | edge e => simp [FallsDue, isDue, h]
  | highForOneBit => cases h : u.link.highWait <;> simp [FallsDue, isDue, h]

theorem mem_allDue (d : Due) : d ∈ allDue := by
  cases d <;> first | decide | (rename_i y; cases y <;> decide)

/-- Nothing falls due: no event is on the list. -/
theorem due_none {u : State} (h : ∀ d, ¬ FallsDue u d) : allDue.filter (isDue u) = [] := by
  rw [List.filter_eq_nil_iff]
  exact fun d _ hd => h d ((fallsDue_iff u d).mpr hd)

/-- One event alone falls due: it is the list. -/
theorem due_only {u : State} {d : Due} (h : FallsDue u d ∧ ∀ e, FallsDue u e → e = d) : allDue.filter (isDue u) = [d] := by
  have hf : allDue.filter (isDue u) = allDue.filter fun e => decide (e = d) := by
    refine List.filter_congr fun e _ => ?_
    rw [Bool.eq_iff_iff, ← fallsDue_iff, decide_eq_true_eq]
    exact ⟨h.2 e, fun he => he ▸ h.1⟩
  have hd : ∀ d : Due, allDue.filter (fun e => decide (e = d)) = [d] := by
    intro d
    cases d <;> first | rfl | (rename_i y; cases y <;> rfl)
  rw [hf, hd]

/-! ## The step on an empty queue -/

/-- A sample of SYNC IN touches no other event's timer. -/
theorem isDue_syncSampled (u : State) {d : Due} (hd : d ≠ .syncLevel) : isDue (syncSampled u) d = isDue u d := by
  cases d <;> first | rfl | exact absurd rfl hd

theorem quietSyncSample_eq {u : State} (h : isDue u .syncLevel = false) : quietSyncSample u = syncSampled u := by
  have hc : changesSyncLevel u.sync u.pins.syncIn = false := h
  simp [quietSyncSample, sampleSyncIn, hc, syncSampled]

/-- While RST is low nothing counts (R179, log 16). -/
theorem step_in_reset {s : State} (hp : s.pending = []) (hr : s.inReset = true) : step s = .next s := by
  simp only [step, hp, corePeriod, hr, if_true]

/-- Nothing falls due: the timers count and SYNC IN is sampled. -/
theorem step_nothing_due {s : State} (hp : s.pending = []) (hr : s.inReset = false)
    (h : ∀ d, ¬ FallsDue (countTimers s) d) : step s = .next (syncSampled (countTimers s)) := by
  have hn : isDue (countTimers s) .syncLevel = false := by
    rw [← Bool.not_eq_true, ← fallsDue_iff]
    exact h _
  simp only [step, hp, corePeriod, hr, Bool.false_eq_true, if_false, due_none h, quietSyncSample_eq hn]
  rfl

/-- One event alone falls due, and it is not a change of the filtered SYNC IN level: it is taken on the counted state. -/
theorem step_one_due {s : State} {d : Due} (hp : s.pending = []) (hr : s.inReset = false)
    (h : FallsDue (countTimers s) d ∧ ∀ e, FallsDue (countTimers s) e → e = d) (hd : d ≠ .syncLevel) :
    step s = .next (takeDue (syncSampled (countTimers s)) d) := by
  have hn : isDue (countTimers s) .syncLevel = false := by
    rw [← Bool.not_eq_true, ← fallsDue_iff]
    exact fun hh => hd (h.2 _ hh).symm
  have h1 : [d].filter (isDue (syncSampled (countTimers s))) = [d] := by
    simp [isDue_syncSampled _ hd, (fallsDue_iff _ _).mp h.1]
  simp only [step, hp, corePeriod, hr, Bool.false_eq_true, if_false, due_only h, quietSyncSample_eq hn]
  show Host.Outcome.next (runDue 1 [d] _) = _
  unfold runDue
  rw [h1]

/-- The filtered SYNC IN level alone changes: the sample that completes the run is taken (R13). -/
theorem step_sync_due {s : State} (hp : s.pending = []) (hr : s.inReset = false)
    (h : FallsDue (countTimers s) .syncLevel ∧ ∀ e, FallsDue (countTimers s) e → e = .syncLevel) :
    step s = .next (changeSyncLevel s.pins.syncIn (countTimers s)) := by
  have hn : isDue (countTimers s) .syncLevel = true := (fallsDue_iff _ _).mp h.1
  have hq : quietSyncSample (countTimers s) = countTimers s := if_pos hn
  have h1 : [Due.syncLevel].filter (isDue (countTimers s)) = [.syncLevel] := by simp [hn]
  simp only [step, hp, corePeriod, hr, Bool.false_eq_true, if_false, due_only h, hq]
  show Host.Outcome.next (runDue 1 [.syncLevel] _) = _
  unfold runDue
  rw [h1]
  rfl

end Sys2Proof.Machine
end

