-- ==== Sys2Proof/Laws/Notices.lean ====
section
/-!
SUPPORT. The notice queue: what taking an event can do (R128 to R131), and that the order left open between blocks loses and adds
nothing.
-/

namespace Sys2Proof.Machine

/-! ## Merging the lists of several blocks (log 7) -/

theorem perm_flatten_filter (ls : List (List Posting)) : (ls.filter fun l => !l.isEmpty).flatten = ls.flatten := by
  induction ls with
  | nil => rfl
  | cons l ls ih => cases l <;> simp [ih]

theorem perm_flatten_set (ls : List (List Posting)) (k : Nat) (p : Posting) (rest : List Posting)
    (h : ls[k]? = some (p :: rest)) : (p :: (ls.set k rest).flatten).Perm ls.flatten := by
  induction ls generalizing k with
  | nil => simp at h
  | cons l ls ih =>
    cases k with
    | zero =>
      simp only [List.getElem?_cons_zero, Option.some.injEq] at h
      subst h
      exact List.Perm.refl _
    | succ k =>
      simp only [List.getElem?_cons_succ] at h
      have := ih k h
      simp only [List.set_cons_succ, List.flatten_cons]
      exact List.perm_middle.symm.trans (List.Perm.append_left l this)

/-- The merged list is the lists' postings, each once (R131). -/
theorem mergePostings_perm (fuel n : Nat) (ls : List (List Posting)) :
    (mergePostings fuel n ls).1.Perm ls.flatten := by
  induction fuel generalizing n ls with
  | zero => exact List.Perm.refl _
  | succ fuel ih =>
    unfold mergePostings
    have hf := perm_flatten_filter ls
    split
    · next h => rw [h] at hf; rw [← hf]; exact List.Perm.refl _
    · next l h =>
      rw [h] at hf
      rw [← hf]
      simp
    · rw [← hf]
      dsimp only
      split
      · next p rest h =>
        exact ((ih _ _).cons p).trans (perm_flatten_set _ _ _ _ h)
      · exact List.Perm.refl _

/-- What an event of several blocks posts: its postings in some order, and nothing else (R131, log 7). -/
theorem postMerged_notices (s : State) (ls : List (List Posting)) :
    ∃ order : List Posting, order.Perm ls.flatten
      ∧ (s.postMerged ls).notices = { s.notices with queue := order.foldl postTo s.notices.queue } :=
  ⟨_, mergePostings_perm _ _ _, rfl⟩

/-! ## Taking one event (R128 to R130) -/

/-- An event of a class and source that no notice has. -/
theorem postTo_new {q : List Notice} {p : Posting} (h : ∀ n ∈ q, n.key ≠ p.key) :
    postTo q p = q ++ [{ key := p.key, count := 1, first := p.detail, last := p.detail, token := none }] := by
  unfold postTo
  rw [show q.find? (fun n => n.key = p.key) = none from List.find?_eq_none.mpr (by simpa using h)]

/-- With one notice of each class and source, the notice of the key is the one found. -/
theorem find_of_nodup {before after : List Notice} {n : Notice}
    (h : ((before ++ n :: after).map Notice.key).Nodup) :
    (before ++ n :: after).find? (fun m => m.key = n.key) = some n
      ∧ (∀ m ∈ before, m.key ≠ n.key) ∧ ∀ m ∈ after, m.key ≠ n.key := by
  simp only [List.map_append, List.map_cons, List.nodup_append, List.nodup_cons] at h
  obtain ⟨_, ⟨h2, _⟩, h4⟩ := h
  have hb : ∀ m ∈ before, m.key ≠ n.key := fun m hm => h4 _ (List.mem_map_of_mem hm) _ (by simp)
  have ha : ∀ m ∈ after, m.key ≠ n.key := fun m hm e => h2 (e ▸ List.mem_map_of_mem hm)
  refine ⟨?_, hb, ha⟩
  rw [List.find?_append, List.find?_eq_none.mpr (by simpa using hb)]
  simp

/-- An event merged into an unfetched notice (R129). -/
theorem postTo_unfetched {before after : List Notice} {n : Notice} {p : Posting}
    (h : ((before ++ n :: after).map Notice.key).Nodup) (hk : n.key = p.key) (ht : n.token = none) :
    postTo (before ++ n :: after) p = before ++ mergeNotice n p.detail :: after := by
  obtain ⟨h1, hb, ha⟩ := find_of_nodup h
  unfold postTo
  rw [← hk, h1]
  simp only [ht, List.map_append, List.map_cons, if_true]
  congr 1
  · exact (List.map_congr_left fun m hm => if_neg (hb m hm)).trans (List.map_id' _)
  · congr 1
    exact (List.map_congr_left fun m hm => if_neg (ha m hm)).trans (List.map_id' _)

/-- An event merged into a fetched notice (R130). -/
theorem postTo_fetched {before after : List Notice} {n : Notice} {p : Posting}
    (h : ((before ++ n :: after).map Notice.key).Nodup) (hk : n.key = p.key) (ht : n.token ≠ none) :
    postTo (before ++ n :: after) p = before ++ after ++ [mergeNotice n p.detail] := by
  obtain ⟨h1, hb, ha⟩ := find_of_nodup h
  obtain ⟨t, ht⟩ := Option.ne_none_iff_exists'.mp ht
  unfold postTo
  rw [← hk, h1]
  simp only [ht]
  congr 1
  rw [List.filter_append, List.filter_cons_of_neg (by simp)]
  congr 1
  · rw [List.filter_eq_self]; simpa using hb
  · rw [List.filter_eq_self]; simpa using ha

/-- The three cases of an event, on a queue with one notice of each class and source. -/
theorem postTo_cases {q : List Notice} (p : Posting) (h : (q.map Notice.key).Nodup) :
    ((∀ n ∈ q, n.key ≠ p.key)
        ∧ postTo q p = q ++ [{ key := p.key, count := 1, first := p.detail, last := p.detail, token := none }])
      ∨ ∃ before n after, q = before ++ n :: after ∧ n.key = p.key
        ∧ (postTo q p = before ++ mergeNotice n p.detail :: after
          ∨ postTo q p = before ++ after ++ [mergeNotice n p.detail]) := by
  by_cases hk : ∀ n ∈ q, n.key ≠ p.key
  · exact .inl ⟨hk, postTo_new hk⟩
  · right
    have : ∃ n ∈ q, n.key = p.key := Decidable.byContradiction fun hh => hk fun n hn e => hh ⟨n, hn, e⟩
    obtain ⟨n, hn, e⟩ := this
    obtain ⟨before, after, rfl⟩ := List.append_of_mem hn
    refine ⟨before, n, after, rfl, e, ?_⟩
    by_cases ht : n.token = none
    · exact .inl (postTo_unfetched h e ht)
    · exact .inr (postTo_fetched h e ht)

/-- An event keeps one notice of each class and source (R127). -/
theorem postTo_nodup {q : List Notice} (p : Posting) (h : (q.map Notice.key).Nodup) :
    ((postTo q p).map Notice.key).Nodup := by
  rcases postTo_cases p h with ⟨hk, e⟩ | ⟨before, n, after, rfl, hk, e | e⟩
  · rw [e]
    simp only [List.map_append, List.map_cons, List.map_nil, List.nodup_append]
    refine ⟨h, by simp, ?_⟩
    intro a ha b hb
    simp only [List.mem_singleton] at hb
    obtain ⟨n, hn, rfl⟩ := List.mem_map.mp ha
    rw [hb]
    exact hk n hn
  · rw [e]
    simpa [mergeNotice] using h
  · rw [e]
    have hp : ((before ++ after ++ [mergeNotice n p.detail]).map Notice.key).Perm
        ((before ++ n :: after).map Notice.key) := by
      have h1 : ((before ++ after ++ [mergeNotice n p.detail]).map Notice.key)
          = (before.map Notice.key ++ after.map Notice.key) ++ [n.key] := by simp [mergeNotice]
      have h2 : ((before ++ n :: after).map Notice.key) = before.map Notice.key ++ n.key :: after.map Notice.key := by simp
      rw [h1, h2]
      exact List.perm_append_comm.trans (by simpa using List.perm_middle.symm)
    exact (List.Perm.nodup_iff hp).mpr h

/-- A property of notices that a new notice has and that merging keeps is kept by an event. -/
theorem postTo_forall {P : Notice → Prop} {q : List Notice} (p : Posting) (h : ∀ n ∈ q, P n)
    (hnew : P { key := p.key, count := 1, first := p.detail, last := p.detail, token := none })
    (hmerge : ∀ n, P n → P (mergeNotice n p.detail)) : ∀ n ∈ postTo q p, P n := by
  unfold postTo
  split
  · intro n hn
    rcases List.mem_append.mp hn with hn | hn
    · exact h n hn
    · simp only [List.mem_singleton] at hn
      exact hn ▸ hnew
  · next m hm =>
    have hm' := h m (List.mem_of_find?_eq_some hm)
    split
    · intro n hn
      obtain ⟨k, hk, rfl⟩ := List.mem_map.mp hn
      split
      · exact hmerge k (h k hk)
      · exact h k hk
    · intro n hn
      rcases List.mem_append.mp hn with hn | hn
      · exact h n (List.mem_filter.mp hn).1
      · simp only [List.mem_singleton] at hn
        exact hn ▸ hmerge m hm'

/-! ## What events leave reported -/

/-- The queue holds an unfetched notice of a key whose last detail is this one. -/
def QueueReports (q : List Notice) (k : NoticeKey) (d : Detail) : Prop :=
  ∃ n ∈ q, n.key = k ∧ n.last = d ∧ n.token = none

theorem postTo_reports (q : List Notice) (p : Posting) : QueueReports (postTo q p) p.key p.detail := by
  unfold postTo
  split
  · exact ⟨_, List.mem_append_right _ (List.mem_singleton.mpr rfl), rfl, rfl, rfl⟩
  · next m hm =>
    have hk : m.key = p.key := by simpa using List.find?_some hm
    split
    · exact ⟨mergeNotice m p.detail,
        List.mem_map.mpr ⟨m, List.mem_of_find?_eq_some hm, by rw [if_pos hk]⟩, hk, rfl, rfl⟩
    · exact ⟨_, List.mem_append_right _ (List.mem_singleton.mpr rfl), hk, rfl, rfl⟩

theorem postTo_keeps_report {q : List Notice} {k : NoticeKey} {d : Detail} {p : Posting} (h : QueueReports q k d)
    (hp : p.key ≠ k) : QueueReports (postTo q p) k d := by
  obtain ⟨n, hn, h1, h2, h3⟩ := h
  have hne : n.key ≠ p.key := fun e => hp (e ▸ h1)
  refine ⟨n, ?_, h1, h2, h3⟩
  unfold postTo
  split
  · exact List.mem_append_left _ hn
  · split
    · exact List.mem_map.mpr ⟨n, hn, if_neg hne⟩
    · exact List.mem_append_left _ (List.mem_filter.mpr ⟨hn, by simpa using hne⟩)

/-- A posting is reported after its event when no other posting of the event has its class and source. -/
theorem foldl_postTo_reports {ps : List Posting} {p : Posting} (q : List Notice) (hp : p ∈ ps)
    (h : ∀ r ∈ ps, r.key = p.key → r = p) : QueueReports (ps.foldl postTo q) p.key p.detail := by
  have keep : ∀ (ps : List Posting) (q : List Notice), QueueReports q p.key p.detail →
      (∀ r ∈ ps, r.key = p.key → r = p) → QueueReports (ps.foldl postTo q) p.key p.detail := by
    intro ps
    induction ps with
    | nil => intro q hq _; exact hq
    | cons r ps ih =>
      intro q hq hr
      apply ih _ _ (fun a ha => hr a (List.mem_cons_of_mem _ ha))
      by_cases e : r.key = p.key
      · have := hr r List.mem_cons_self e
        subst this
        exact postTo_reports q r
      · exact postTo_keeps_report hq e
  induction ps generalizing q with
  | nil => cases hp
  | cons r ps ih =>
    rcases List.mem_cons.mp hp with rfl | hp
    · exact keep ps _ (postTo_reports q p) fun a ha => h a (List.mem_cons_of_mem _ ha)
    · exact ih _ hp fun a ha => h a (List.mem_cons_of_mem _ ha)

/-- The same after the postings of several blocks. -/
theorem postMerged_reports {ls : List (List Posting)} {p : Posting} (s : State) (hp : p ∈ ls.flatten)
    (h : ∀ r ∈ ls.flatten, r.key = p.key → r = p) : Reported (s.postMerged ls) p.key p.detail := by
  obtain ⟨order, ho, e⟩ := postMerged_notices s ls
  unfold Reported
  rw [e]
  exact foldl_postTo_reports _ (ho.mem_iff.mpr hp) fun r hr => h r (ho.mem_iff.mp hr)

end Sys2Proof.Machine
end

