-- ==== Sys2Proof/Laws/Routes.lean ====
section
/-!
SUPPORT. Input events and what they do to routes, outputs and notices (R69 to R71, R85 to R87, R90), and the keys of the notices
that each block raises.
-/

namespace Sys2Proof.Machine

@[simp] theorem mapRoutes_trip (s : State) (f : Slot → Route → Route) :
    (s.mapRoutes f).trip = { s.trip with routes := .ofFn fun n => (s.trip.routes.get n).map (f n) } := rfl

@[simp] theorem mapRoutes_output (s : State) (f : Slot → Route → Route) :
    (s.mapRoutes f).output.enable = s.output.enable ∧ (s.mapRoutes f).output.drained = s.output.drained
      ∧ (s.mapRoutes f).output.overrides = s.output.overrides
      ∧ (s.mapRoutes f).output.clocks = s.output.clocks := ⟨rfl, rfl, rfl, rfl⟩

@[simp] theorem setInput_trip (s : State) (i : TripName) (v : TripInput) :
    (s.setInput i v).trip = { s.trip with inputs := s.trip.inputs.set i v } := rfl

/-- An input asserted event (R69, R71, R85). -/
@[simp] theorem assertInput_trip (i : TripName) (s : State) :
    (assertInput i s).trip
      = { s.trip with
          inputs := s.trip.inputs.set i { s.trip.inputs.get i with filtered := .asserted, agreement := 0, timer := 0 }
          routes := .ofFn fun n => (s.trip.routes.get n).map (assertRoute i) } := by
  simp [assertInput]

@[simp] theorem assertInput_output (i : TripName) (s : State) :
    (assertInput i s).output.enable = s.output.enable ∧ (assertInput i s).output.drained = s.output.drained
      ∧ (assertInput i s).output.overrides = s.output.overrides := by
  simp [assertInput]

theorem assertInput_notices (i : TripName) (s : State) :
    (assertInput i s).notices = (s.post (tripNotices i s.trip.routes)).notices := by
  simp [assertInput, State.post]

/-- An input quiet event (R70, R71, R87, R90). -/
@[simp] theorem quietInput_trip (i : TripName) (s : State) :
    (quietInput i s).trip
      = { s.trip with
          inputs := s.trip.inputs.set i { s.trip.inputs.get i with filtered := .quiet, agreement := 0, timer := 0 }
          routes := .ofFn fun n => (s.trip.routes.get n).map (quietRoute i (stoppedSet s)) } := by
  simp [quietInput]

@[simp] theorem quietInput_output (i : TripName) (s : State) :
    (quietInput i s).output.enable = s.output.enable ∧ (quietInput i s).output.drained = s.output.drained
      ∧ (quietInput i s).output.overrides = s.output.overrides := by
  simp [quietInput]

theorem quietInput_notices (i : TripName) (s : State) :
    (quietInput i s).notices = (s.post (rearmNotices s.trip.routes (quietInput i s).trip.routes)).notices := by
  simp [quietInput, State.post]

/-! ## Keys of notices -/

theorem assertNotice_key {i : TripName} {n : Slot} {r : Option Route} {p : Posting} (h : assertNotice i n r = some p) :
    p.key = .trip n := by
  unfold assertNotice at h
  (repeat' split at h) <;> first | cases h; rfl | cases h

theorem rearmNotice_key {n : Slot} {b a : Option Route} {p : Posting} (h : rearmNotice n b a = some p) :
    p.key = .rearm n := by
  unfold rearmNotice at h
  (repeat' split at h) <;> first | cases h; rfl | cases h

theorem rearmNotices_key {b a : SlotFile (Option Route)} {p : Posting} (h : p ∈ rearmNotices b a) :
    ∃ n, p.key = .rearm n := by
  unfold rearmNotices at h
  obtain ⟨n, _, h⟩ := List.mem_filterMap.mp h
  exact ⟨n, rearmNotice_key h⟩

theorem releaseSet_key {set : ChannelSet} {s : State} {p : Posting} (h : p ∈ (releaseSet set s).2) :
    ∃ n, p.key = .rearm n := rearmNotices_key h

theorem drainSet_key {set : ChannelSet} {s : State} {p : Posting} (h : p ∈ (drainSet set s).2) : p.key = .outputs := by
  unfold drainSet at h
  dsimp only at h
  split at h
  · simp only [List.mem_singleton] at h
    subst h
    rfl
  · cases h

theorem commitBoundary_key {x : Tb} {b : Boundary} {s : State} {p : Posting} (h : p ∈ (commitBoundary x b s).2) :
    (∃ y, p.key = .applied y) ∨ ∃ y, p.key = .expired y := by
  have happ : ∀ (l : List Ticket) (s : State), ∀ p ∈ (applyTickets x l s).2, ∃ y, p.key = .applied y := by
    intro l
    induction l with
    | nil => intro s p hp; simp [applyTickets] at hp
    | cons t l ih =>
      intro s p hp
      simp only [applyTickets] at hp
      rcases List.mem_cons.mp hp with rfl | hp
      · exact ⟨x, rfl⟩
      · exact ih _ p hp
  cases b with
  | mid => exact .inl (happ _ _ p h)
  | start =>
    simp only [commitBoundary] at h
    rcases List.mem_append.mp h with h | h
    · exact .inl (happ _ _ p h)
    · right
      simp only [deadlineStep, List.mem_map] at h
      obtain ⟨t, _, rfl⟩ := h
      exact ⟨_, rfl⟩

end Sys2Proof.Machine
end

