-- ==== Sys2Proof/Laws/Events.lean ====
section
/-!
SUPPORT. What each event of several blocks does, said once in the words of Safety.lean: an output selection, a release, a drain, a
boundary, a stop, a SYNC IN edge, and the notices of one event (R5, R10, R11, R14, R91, R107 to R109, R117 to R120, R131).
-/

namespace Sys2Proof.Machine

/-! ## Notices of one event (R131, log 7) -/

/-- Each block's notices keep their order in the merged list (R131). -/
theorem mergePostings_sublist (fuel n : Nat) (ls : List (List Posting)) :
    ∀ l ∈ ls, l.Sublist (mergePostings fuel n ls).1 := by
  induction fuel generalizing n ls with
  | zero => exact fun l hl => List.sublist_flatten_of_mem hl
  | succ fuel ih =>
    intro l hl
    unfold mergePostings
    by_cases he : l = []
    · subst he; exact List.nil_sublist _
    have hf : l ∈ ls.filter fun l => !l.isEmpty := by
      rw [List.mem_filter]
      exact ⟨hl, by cases l <;> simp_all⟩
    generalize (ls.filter fun l => !l.isEmpty) = full at hf
    split
    · cases hf
    · have he : l = _ := List.mem_singleton.mp hf
      subst he
      exact List.Sublist.refl _
    · dsimp only
      split
      · next p rest h =>
        obtain ⟨i, hi⟩ := List.mem_iff_getElem?.mp hf
        generalize Config.pick n % full.length = k at h
        have hlt : k < full.length := by
          rw [List.getElem?_eq_some_iff] at h
          exact h.1
        by_cases hk : k = i
        · subst hk
          rw [h] at hi
          cases hi
          exact List.Sublist.cons_cons p (ih _ _ rest (List.mem_of_getElem? (i := k) (by simp [hlt])))
        · exact List.Sublist.cons p (ih _ _ l (List.mem_of_getElem? (i := i) (by simpa [hk] using hi)))
      · exact List.sublist_flatten_of_mem hf

/-- The notices of one event are posted in an order that keeps each block's own (R128 to R131). -/
theorem posted_postRaised {s u : State} (r : Raised) (h : u.notices = s.notices) : Posted s (u.postRaised r) r := by
  have hp : (u.postRaised r).notices = (s.post (mergePostings [r.commit, r.trip, r.output, r.timebase].flatten.length u.free
      [r.commit, r.trip, r.output, r.timebase]).1).notices := by
    simp only [State.post, ← h]
    rfl
  exact ⟨_, ⟨mergePostings_perm _ _ _, mergePostings_sublist _ _ _⟩, hp⟩

/-! ## Selecting and driving the outputs (R117 to R120) -/

theorem settleChannel_driven (m : PairMode) (n : Nat) (l : OutLevel) (o : OutChannel) :
    DrivenTo m n l o (settleChannel m n l o) := by
  refine ⟨settleChannel_hold m n l o, settleChannel_selected m n l o, fun h => ?_, fun hm hl ho => ⟨fun hn => ?_, fun hn => ?_⟩⟩
  · rw [settleChannel_at_once n h]
    exact ⟨rfl, rfl⟩
  · rw [hl, settleChannel_risen m hn]
    exact ⟨rfl, rfl⟩
  · rw [hm, hl, settleChannel_waits hn ho]
    exact ⟨rfl, rfl⟩

/-- What an output state reads of the state it stands in. -/
theorem OutputsFollow.congr {before : Chan → OutChannel} {clocks : Pair → Nat} {t u : State}
    (h : OutputsFollow before clocks u) (ho : t.output = u.output) (hp : t.pattern = u.pattern)
    (hr : t.trip.routes = u.trip.routes) : OutputsFollow before clocks t := by
  obtain ⟨h1, h2⟩ := h
  refine ⟨fun c => ?_, fun p => ?_⟩
  · rw [selectLevel_congr c (congrArg OutputStage.enable ho) (congrArg OutputStage.drained ho)
      (congrArg OutputStage.overrides ho) (by rw [ho]) hp hr, hp, ho]
    exact h1 c
  · rw [ho]
    exact h2 p

/-- Selecting again drives every output from what it was (R117 to R120). -/
theorem settle_follows (s : State) : OutputsFollow s.output.channels.get s.output.clocks.get s.settle := by
  have hs : ∀ c, selectLevel s.settle c = selectLevel s c := fun c =>
    selectLevel_congr c rfl rfl rfl (by simp) rfl rfl
  refine ⟨fun c => ?_, fun p => ?_⟩
  · rw [hs c, settle_channel]
    exact settleChannel_driven _ _ _ _
  · have hc : s.settle.output.clocks.get p = if startsDelay s p then 0 else s.output.clocks.get p := by
      simp [State.settle]
    rw [hc]
    refine ⟨fun ⟨c, hp, h1, h2⟩ => ?_, fun h => ?_⟩
    · rw [if_pos]
      simp only [startsDelay, List.any_eq_true, Bool.and_eq_true, Option.isNone_iff_eq_none]
      refine ⟨c, ?_, h1, ?_⟩
      · rcases member_of_pair hp with rfl | rfl <;> simp
      · rw [settle_channel] at h2
        exact Option.isSome_iff_ne_none.mpr h2
    · rw [if_neg]
      simp only [startsDelay, List.any_eq_true, Bool.and_eq_true, Option.isNone_iff_eq_none, not_exists, not_and]
      intro c hc h1 h2
      have hp : pairOf c = p := by
        simp only [List.mem_cons, List.not_mem_nil, or_false] at hc
        rcases hc with rfl | rfl <;> simp
      have := h c hp h1
      rw [settle_channel] at this
      rw [this] at h2
      cases h2

/-- The levels after a boundary, a tick or a stop of X are recomputed for the channels bound to X, and the outputs follow. -/
theorem redrive_refreshed (x : Tb) (s : State) : Refreshed x s (s.redrive x) := by
  intro c
  have h := refresh_source s x c
  refine ⟨fun hc => ?_, fun hc => ?_⟩
  · have hc' : boundTo s.pattern c = x := hc
    rw [if_pos hc', if_pos hc'] at h
    exact h
  · have hc' : boundTo s.pattern c ≠ x := hc
    rw [if_neg hc', if_neg hc'] at h
    exact h

theorem Refreshed.of_levels {x : Tb} {s u t : State} (h : Refreshed x s t)
    (he : s.pattern.source = u.pattern.source ∧ s.pattern.level = u.pattern.level) : Refreshed x u t := by
  intro c
  rw [← he.1, ← he.2]
  exact h c

theorem redrive_follows (x : Tb) (s : State) :
    OutputsFollow s.output.channels.get s.output.clocks.get (s.redrive x) := settle_follows (s.refresh x)

theorem countTick_redrive_follows (x : Tb) (s : State) :
    OutputsFollow (tickCounted x s.pattern s.output.channels) s.output.clocks.get ((s.countTick x).redrive x) := by
  have h := redrive_follows x (s.countTick x)
  have e : (s.countTick x).output.channels.get = tickCounted x s.pattern s.output.channels := by
    funext c
    simp only [State.countTick, State.countDelays, State.withOutput_output, ChanFile.get_ofFn, decide_eq_true_eq]
    rfl
  rw [e] at h
  exact h

/-! ## Releases and drains (R91 to R93, R107 to R109) -/

theorem drainSet_step (set : ChannelSet) (s : State) :
    DrainStep (fun c => inSet set c = true) s.output (drainSet set s).1.output (drainSet set s).2 := by
  have hn : (drainSet set s).2 = if (drainInto set s).2 then [gracefulDone] else [] := rfl
  have hd : (drainInto set s).2
      = (decide (s.output.enable = .draining) && decide ((s.output.drained ||| set) = allChannels)) := by
    unfold drainInto
    split
    · next h1 =>
      split
      · next h2 => simp [h1, h2]
      · next h2 => simp [h1, h2]
    · next h1 => simp [h1]
  have hall : (s.output.drained ||| set) = allChannels ↔ ∀ c, inSet s.output.drained c = true ∨ inSet set c = true := by
    rw [set_eq_all_iff]
    simp
  rw [hn, hd]
  rcases drainSet_cases set s with ⟨h, e⟩ | ⟨h, h2, e⟩ | ⟨h, h2, e⟩
  · rw [e]
    exact ⟨fun _ => ⟨rfl, rfl, by simp [h]⟩, fun hh => absurd hh h, fun hh => absurd hh h⟩
  · rw [e]
    refine ⟨fun hh => absurd h hh, fun _ _ => ⟨rfl, rfl, by simp [h, h2, gracefulDone]⟩, fun _ ⟨c, hc⟩ => ?_⟩
    rcases hall.mp h2 c with hh | hh
    · rw [hc.1] at hh; cases hh
    · exact absurd hh hc.2
  · rw [e]
    refine ⟨fun hh => absurd h hh, fun _ hh => absurd (hall.mpr hh) h2, fun _ _ => ⟨rfl, by simp [h2], fun c => ?_⟩⟩
    simp [State.setEnable]

theorem DrainStep.of_own {own own' : Chan → Prop} {b a : OutputStage} {l : List Posting} (h : DrainStep own b a l)
    (ho : ∀ c, own c ↔ own' c) : DrainStep own' b a l := by
  have : own = own' := funext fun c => propext (ho c)
  exact this ▸ h

/-- What a drain reads of the Output Stage. -/
theorem DrainStep.congr {own : Chan → Prop} {b b' a a' : OutputStage} {l : List Posting} (h : DrainStep own b a l)
    (hb : b'.enable = b.enable ∧ b'.drained = b.drained) (ha : a'.enable = a.enable ∧ a'.drained = a.drained) :
    DrainStep own b' a' l := by
  unfold DrainStep
  rw [hb.1, hb.2, ha.1, ha.2]
  exact h

/-! ## The walk and the other blocks -/

/-- A state with the timebases, the pattern and the outputs of another. -/
def State.taking (u s : State) : State := ((u.withTimebases s.timebases).withPattern s.pattern).withOutput s.output

/-- Applying a ticket reads and changes the timebases, the pattern and the outputs alone (R56). -/
theorem applyTicket_taking (x : Tb) (t : Ticket) (u s : State) :
    applyTicket x t (u.taking s) = u.taking (applyTicket x t s) := by
  have hp : ∀ (l : List (Pair × PairRecord)) (s : State),
      l.foldl applyPair (u.taking s) = u.taking (l.foldl applyPair s) := by
    intro l
    induction l with
    | nil => exact fun _ => rfl
    | cons e l ih => exact fun s => ih (applyPair s e)
  have hr : ∀ s : State, applyRecord x t.record (u.taking s) = u.taking (applyRecord x t.record s) := by
    intro s
    cases t.record <;> rfl
  have hc : ∀ (l : List (Chan × ChannelRecord)) (s : State),
      l.foldl (applyChannel x) (u.taking s) = u.taking (l.foldl (applyChannel x) s) := by
    intro l
    induction l with
    | nil => exact fun _ => rfl
    | cons e l ih =>
      intro s
      have : applyChannel x (u.taking s) e = u.taking (applyChannel x s e) := by
        by_cases hb : boundTo s.pattern e.1 = x
        · rw [applyChannel, applyChannel, if_pos hb, if_pos (show boundTo (u.taking s).pattern e.1 = x from hb)]
          rfl
        · rw [applyChannel, applyChannel, if_neg hb, if_neg (show ¬ boundTo (u.taking s).pattern e.1 = x from hb)]
      simp only [List.foldl_cons, this]
      exact ih _
  simp only [applyTicket, hp, hr, hc]

theorem applyTickets_taking (x : Tb) (l : List Ticket) (u s : State) :
    applyTickets x l (u.taking s) = (u.taking (applyTickets x l s).1, (applyTickets x l s).2) := by
  induction l generalizing s with
  | nil => rfl
  | cons t l ih =>
    simp only [applyTickets, applyTicket_taking, ih]
    rfl

/-- The walk on a state with another SYNC OUT and another queue. -/
theorem applyTickets_beside (x : Tb) (l : List Ticket) (s : State) (u : SyncUnit) (v : CommitUnit) :
    applyTickets x l ((s.withSync u).withCommit v)
      = (((applyTickets x l s).1.withSync u).withCommit v, (applyTickets x l s).2) := by
  have h := applyTickets_taking x l ((s.withSync u).withCommit v) s
  refine h.trans ?_
  congr 1
  apply State.eq_of_fields
  simp [State.taking]

/-- Applying tickets leaves the levels as they are: they are recomputed at the boundary's end (R30). -/
theorem applyTickets_levels (x : Tb) (l : List Ticket) (s : State) :
    (applyTickets x l s).1.pattern.source = s.pattern.source ∧ (applyTickets x l s).1.pattern.level = s.pattern.level := by
  have hp : ∀ (l : List (Pair × PairRecord)) (s : State),
      (l.foldl applyPair s).pattern.source = s.pattern.source ∧ (l.foldl applyPair s).pattern.level = s.pattern.level := by
    intro l
    induction l with
    | nil => exact fun _ => ⟨rfl, rfl⟩
    | cons e l ih => exact fun s => ih (applyPair s e)
  have hc : ∀ (l : List (Chan × ChannelRecord)) (s : State),
      (l.foldl (applyChannel x) s).pattern.source = s.pattern.source
        ∧ (l.foldl (applyChannel x) s).pattern.level = s.pattern.level := by
    intro l
    induction l with
    | nil => exact fun _ => ⟨rfl, rfl⟩
    | cons e l ih =>
      intro s
      have : (applyChannel x s e).pattern.source = s.pattern.source
          ∧ (applyChannel x s e).pattern.level = s.pattern.level := by
        unfold applyChannel
        split <;> exact ⟨rfl, rfl⟩
      rw [List.foldl_cons, (ih _).1, (ih _).2]
      exact this
  induction l generalizing s with
  | nil => exact ⟨rfl, rfl⟩
  | cons t l ih =>
    have : (applyTicket x t s).pattern.source = s.pattern.source ∧ (applyTicket x t s).pattern.level = s.pattern.level := by
      unfold applyTicket
      rw [(hc _ _).1, (hc _ _).2, (applyRecord_keeps _ _ _).2.2.2.1]
      exact hp _ _
    simp only [applyTickets, (ih _).1, (ih _).2]
    exact this

/-! ## Boundaries (R4, R5) -/

/-- The state after the tickets of a START boundary, by the walk from the state with the cycle counted (R6, R48). -/
theorem commitBoundary_start (x : Tb) (s : State) :
    commitBoundary x .start (countCycle x s)
      = let walk := takeReady x .start (s.commit.queue.map (countDown x .start))
        let applied := applyTickets x walk.1 (withCycle x s)
        ((applied.1.withSync (pulseAt x s.sync)).withCommit { s.commit with queue := (deadlineStep x walk.2).1 },
          applied.2 ++ (deadlineStep x walk.2).2) := by
  have h : ∀ q, (countCycle x s).setQueue q
      = ((withCycle x s).withSync (pulseAt x s.sync)).withCommit { s.commit with queue := q } := fun _ => rfl
  have hq : (countCycle x s).commit.queue = s.commit.queue := rfl
  simp only [commitBoundary, hq, h, applyTickets_beside]
  rfl

/-- A START boundary of a timebase that does not stop at it (R5). -/
theorem takeStart_taken (x : Tb) (ticked : Bool) (s : State) :
    StartTaken x ticked s (takeStart x ticked s).1 (takeStart x ticked s).2 := by
  simp only [StartTaken, takeStart, commitBoundary_start]
  generalize takeReady x .start (s.commit.queue.map (countDown x .start)) = walk
  generalize ha : applyTickets x walk.1 (withCycle x s) = applied
  generalize hb : (applied.1.withSync (pulseAt x s.sync)).withCommit
    { s.commit with queue := (deadlineStep x walk.2).1 } = before
  have htrip : before.trip = s.trip := by
    subst hb; subst ha
    simp [withCycle]
  have hrel : (releaseSet (boundSet s.pattern x) before).1
      = before.withTrip { s.trip with routes := releasedRoutes (boundSet s.pattern x) s.trip.routes } := by
    rw [releaseSet_state, htrip]
  have hrn : (releaseSet (boundSet s.pattern x) before).2
      = rearmNotices s.trip.routes (releasedRoutes (boundSet s.pattern x) s.trip.routes) := by
    have : (releaseSet (boundSet s.pattern x) before).2
        = rearmNotices before.trip.routes (releaseSet (boundSet s.pattern x) before).1.trip.routes := rfl
    rw [this, hrel, htrip]
    rfl
  have hpat : before.pattern = applied.1.pattern ∧ before.timebases = applied.1.timebases
      ∧ before.output = applied.1.output := by subst hb; exact ⟨rfl, rfl, rfl⟩
  have henable : applied.1.output.enable = s.output.enable ∧ applied.1.output.drained = s.output.drained
      ∧ applied.1.output.clocks = s.output.clocks := by
    subst ha
    simp [withCycle, State.setTimebase]
  have hlevels : applied.1.pattern.source = s.pattern.source ∧ applied.1.pattern.level = s.pattern.level := by
    subst ha
    exact applyTickets_levels _ _ _
  rw [hrel, hrn]
  generalize hR : before.withTrip { s.trip with routes := releasedRoutes (boundSet s.pattern x) s.trip.routes } = R
  have hdrain := drainSet_step (boundSet s.pattern x) R
  have hD := drainSet_keeps (boundSet s.pattern x) R
  have hO := drainSet_output (boundSet s.pattern x) R
  generalize drainSet (boundSet s.pattern x) R = D at hdrain hD hO
  have hRo : R.output = applied.1.output := by subst hR; exact hpat.2.2
  have hDp : D.1.pattern = applied.1.pattern := by rw [hD.2.2.2.2.1]; subst hR; exact hpat.1
  have hDt : D.1.timebases = applied.1.timebases := by rw [hD.2.2.1]; subst hR; exact hpat.2.1
  have hDs : D.1.sync = pulseAt x s.sync := by rw [hD.2.2.2.1]; subst hR; subst hb; rfl
  have hDc : D.1.commit = { s.commit with queue := (deadlineStep x walk.2).1 } := by
    rw [hD.2.2.2.2.2.1]; subst hR; subst hb; rfl
  have hDr : D.1.trip = { s.trip with routes := releasedRoutes (boundSet s.pattern x) s.trip.routes } := by
    rw [hD.2.2.2.2.2.2.1]; subst hR; rfl
  have hown : ∀ c, inSet (boundSet s.pattern x) c = true ↔ boundTo s.pattern c = x := by simp
  have hdrained : DrainStep (fun c => boundTo s.pattern c = x) s.output D.1.output D.2 :=
    (hdrain.of_own hown).congr (by rw [hRo]; exact ⟨henable.1.symm, henable.2.1.symm⟩) ⟨rfl, rfl⟩
  have hreleased : ∀ t : State, t.trip = D.1.trip → Released x s t
      (rearmNotices s.trip.routes (releasedRoutes (boundSet s.pattern x) s.trip.routes)) := by
    intro t ht
    rw [hDr] at ht
    refine ⟨by rw [ht], by rw [ht], fun n => ?_, by rw [ht]⟩
    rw [ht]
    exact SlotFile.get_ofFn _ n
  have hfollow : OutputsFollow
      (fun c => if ticked then tickCounted x D.1.pattern applied.1.output.channels c else applied.1.output.channels.get c)
      s.output.clocks.get ((if ticked then D.1.countTick x else D.1).redrive x) := by
    rw [← hRo, ← hO.1, ← henable.2.2, ← hRo, ← hO.2.2]
    cases ticked
    · exact redrive_follows x D.1
    · exact countTick_redrive_follows x D.1
  have hover : D.1.output.overrides = applied.1.output.overrides := by rw [hO.2.1, hRo]
  have hrefresh : ∀ u : State, u.pattern = D.1.pattern → Refreshed x s (u.redrive x) := fun u hu =>
    (redrive_refreshed x u).of_levels (by rw [hu, hDp]; exact hlevels)
  have hchannels : D.1.pattern.channels = applied.1.pattern.channels := congrArg PatternUnit.channels hDp
  have hpairs : D.1.pattern.pairs = applied.1.pattern.pairs := congrArg PatternUnit.pairs hDp
  cases ticked
  · exact ⟨⟨hDt, hchannels, hpairs, hover⟩, hDs, hDc, trivial, hreleased _ rfl, hdrained, trivial, hrefresh _ rfl, hfollow⟩
  · exact ⟨⟨hDt, hchannels, hpairs, hover⟩, hDs, hDc, trivial, hreleased _ rfl, hdrained, trivial, hrefresh _ rfl, hfollow⟩

/-- A boundary reads none of the link, the cache, the notices and the pins. -/
theorem StartTaken.of_blocks {x : Tb} {b : Bool} {s u t : State} {r : Raised} (h : StartTaken x b s t r)
    (he : u.timebases = s.timebases ∧ u.sync = s.sync ∧ u.pattern = s.pattern ∧ u.commit = s.commit ∧ u.trip = s.trip
      ∧ u.output = s.output) : StartTaken x b u t r := by
  have hw : withCycle x u = u.taking (withCycle x s) := by
    apply State.eq_of_fields
    simp [withCycle, State.taking, State.setTimebase, he]
  obtain ⟨_, h2, h3, h4, h5, h6⟩ := he
  simp only [StartTaken, Released, Refreshed, hw, applyTickets_taking, h2, h3, h4, h5, h6] at h ⊢
  exact h

/-- A MID boundary (R4, R5). -/
theorem midBoundary_taken (x : Tb) (s : State) : MidTaken x s (midBoundary x s).1 (midBoundary x s).2 := by
  have h : ∀ q, s.setQueue q = (s.withSync s.sync).withCommit { s.commit with queue := q } := fun _ => rfl
  simp only [MidTaken, midBoundary, commitBoundary, h, applyTickets_beside]
  generalize takeReady x .mid (s.commit.queue.map (countDown x .mid)) = walk
  have hl := applyTickets_levels x walk.1 s
  have hk := applyTickets_keeps x walk.1 s
  have he := applyTickets_enable x walk.1 s
  generalize applyTickets x walk.1 s = applied at hl hk he
  refine ⟨⟨rfl, rfl, rfl, rfl⟩, rfl, rfl, hk.2.2.2.2.1, he.1, he.2.1, trivial,
    (redrive_refreshed x _).of_levels hl, ?_⟩
  rw [← he.2.2]
  exact countTick_redrive_follows x _

/-! ## Stops (R9 to R11) -/

/-- A stop event on a timebase that has become STOPPED, with the deadtime clocks of its pairs begun again if it was counting
(R11, R120, log 12). -/
theorem stopEvent_taken (x : Tb) (k : StopKind) (s : State) :
    let u := s.setTimebase x (stopAtZero (s.timebases.get x))
    let u := if isStopped (s.timebases.get x) then u else u.restartClocks x
    StopTaken x k s (stopEvent x k u).1 (stopEvent x k u).2 := by
  intro v u
  have hu : u = (s.withTimebases v.timebases).withOutput { s.output with clocks := u.output.clocks } := by
    simp only [u]
    split <;> rfl
  have hclocks : u.output.clocks.get = fun p =>
      if (s.pattern.pairs.get p).timebase = x ∧ isStopped (s.timebases.get x) = false then 0 else s.output.clocks.get p := by
    funext p
    by_cases hs : isStopped (s.timebases.get x) = true
    · simp only [u, hs, if_true]
      simp [v, State.setTimebase]
    · simp only [Bool.not_eq_true] at hs
      simp [u, v, hs, State.restartClocks, State.setTimebase]
  generalize u = u at hu hclocks
  have hut : u.timebases = v.timebases := by rw [hu]; rfl
  have huo : u.output.channels = s.output.channels ∧ u.output.enable = s.output.enable
      ∧ u.output.drained = s.output.drained ∧ u.output.overrides = s.output.overrides := by
    rw [hu]; exact ⟨rfl, rfl, rfl, rfl⟩
  have hup : u.pattern = s.pattern := by rw [hu]; rfl
  have huc : u.commit = s.commit := by rw [hu]; rfl
  have hur : u.trip = s.trip := by rw [hu]; rfl
  have hus : u.sync = s.sync := by rw [hu]; rfl
  have hstop : isStopped (u.timebases.get x) = true := by
    rw [hut]
    simp [v, State.setTimebase, stopAtZero, isStopped]
  have hrel := releaseSet_state (boundSet u.pattern x) (cancelAtStop x k u).1
  have hrn : (releaseSet (boundSet u.pattern x) (cancelAtStop x k u).1).2 = rearmNotices s.trip.routes
      (releaseSet (boundSet u.pattern x) (cancelAtStop x k u).1).1.trip.routes := by
    rw [← hur]
    rfl
  have hct : (cancelAtStop x k u).1.trip = s.trip := hur
  rw [hct] at hrel
  have hR : ∀ R, R = (releaseSet (boundSet u.pattern x) (cancelAtStop x k u).1).1 →
      R.timebases = v.timebases ∧ R.sync = s.sync ∧ R.pattern = s.pattern ∧ R.output = u.output
        ∧ R.commit = { s.commit with queue := withoutTickets x s.commit.queue }
        ∧ R.trip = { s.trip with routes := releasedRoutes (boundSet s.pattern x) s.trip.routes } := by
    intro R e
    rw [e, hrel]
    exact ⟨hut, hus, hup, rfl, by rw [← huc]; rfl, by rw [← hup]; rfl⟩
  have hcn : (cancelAtStop x k u).2 = if ticketCount x s.commit.queue = 0 then []
      else [{ key := .cancelled x, detail := .cancelled (ticketCount x s.commit.queue) k }] := by
    rw [← huc]
    rfl
  unfold stopEvent
  dsimp only
  rw [hrn, hcn]
  have hR := hR _ rfl
  generalize (releaseSet (boundSet u.pattern x) (cancelAtStop x k u).1).1 = R at hR
  obtain ⟨hRt, hRs, hRp, hRo, hRc, hRr⟩ := hR
  have hdrain := drainSet_step (boundSet u.pattern x) R
  have hD := drainSet_keeps (boundSet u.pattern x) R
  have hO := drainSet_output (boundSet u.pattern x) R
  generalize drainSet (boundSet u.pattern x) R = D at hdrain hD hO
  have hDp : D.1.pattern = s.pattern := hD.2.2.2.2.1.trans hRp
  have hown : ∀ c, inSet (boundSet u.pattern x) c = true ↔ boundTo s.pattern c = x := by simp [hup]
  have hcount : ticketCount x s.commit.queue = 0 ↔ ∀ k ∈ s.commit.queue, k.timebase ≠ x := by
    simp [ticketCount, List.filter_eq_nil_iff]
  have hDr : D.1.trip = { s.trip with routes := releasedRoutes (boundSet s.pattern x) s.trip.routes } :=
    hD.2.2.2.2.2.2.1.trans hRr
  have hchannels : D.1.pattern.channels = s.pattern.channels := congrArg PatternUnit.channels hDp
  have hpairs : D.1.pattern.pairs = s.pattern.pairs := congrArg PatternUnit.pairs hDp
  have hrefresh : Refreshed x s (D.1.redrive x) := (redrive_refreshed x D.1).of_levels (by rw [hDp]; exact ⟨rfl, rfl⟩)
  refine ⟨hD.2.2.1.trans hRt, hD.2.2.2.1.trans hRs, hD.2.2.2.2.2.1.trans hRc, fun h => if_pos (hcount.mpr h),
    fun ⟨t, ht, hx⟩ => if_neg fun h => hcount.mp h t ht hx, ⟨?_, ?_, fun n => ?_, ?_⟩,
    (hdrain.of_own hown).congr (by rw [hRo]; exact ⟨huo.2.1.symm, huo.2.2.1.symm⟩) ⟨rfl, rfl⟩, rfl, hchannels, hpairs, ?_,
    hrefresh, fun c hc => ?_, ?_⟩
  · rw [show (D.1.redrive x).trip = D.1.trip from rfl, hDr]
  · rw [show (D.1.redrive x).trip = D.1.trip from rfl, hDr]
  · rw [show (D.1.redrive x).trip = D.1.trip from rfl, hDr]
    exact SlotFile.get_ofFn _ n
  · rw [show (D.1.redrive x).trip = D.1.trip from rfl, hDr, hRr]
  · rw [show (D.1.redrive x).output.overrides = D.1.output.overrides from rfl, hO.2.1, hRo]
    exact huo.2.2.2
  · rw [((hrefresh c).1 (by rw [boundTo_redrive, hDp]; exact hc)).1]
    refine sourceLevel_stopped ?_
    rw [boundTo_redrive, hDp, hc, show (D.1.redrive x).timebases = D.1.timebases from rfl, hD.2.2.1, hRt, ← hut]
    exact hstop
  · have h := redrive_follows x D.1
    rw [hO.1, hO.2.2, hRo, huo.1, hclocks] at h
    exact h

/-- The completion of a stop at a START boundary of a counting timebase, on the state the boundary left (R10, R53). -/
theorem completeStop_taken (x : Tb) (s : State) (start : Raised) (h : isStopped (s.timebases.get x) = false)
    (hs : start.timebase = []) :
    ∃ stop, StopTaken x .atBoundary s (completeStop x s).1 stop
      ∧ StopNotices x start stop (bothRaised start (completeStop x s).2) := by
  have ht := stopEvent_taken x .atBoundary s
  simp only [h, Bool.false_eq_true, if_false] at ht
  unfold completeStop
  dsimp only
  generalize stopEvent x .atBoundary ((s.setTimebase x (stopAtZero (s.timebases.get x))).restartClocks x) = ended at ht
  refine ⟨ended.2, ?_, ?_, rfl, rfl, ?_⟩
  · unfold eitherOrder
    split <;> exact ht
  · show (_ ∨ _)
    simp only [bothRaised, List.append_cancel_left_eq]
    unfold eitherOrder
    split
    · exact .inl rfl
    · dsimp only
      split
      · exact .inl rfl
      · exact .inr rfl
  · show start.timebase ++ ended.2.timebase = []
    rw [hs, ht.2.2.2.2.2.2.2.1]
    rfl

/-- A START boundary, with the completion of a stop when the timebase is STOPPING (R5, R10). -/
theorem startBoundary_taken (x : Tb) (ticked : Bool) (s : State) :
    BoundaryTaken x ticked s (startBoundary x ticked s).1 (startBoundary x ticked s).2 := by
  refine ⟨fun h => ?_, fun h => ?_⟩
  · rw [startBoundary_running ticked h]
    exact takeStart_taken x ticked s
  · have hs := takeStart_taken x ticked s
    have hc : isStopped ((takeStart x ticked s).1.timebases.get x) = false := by
      rw [takeStart_timebases]
      simp [isStopped, h]
    obtain ⟨stop, h1, h2⟩ := completeStop_taken x _ _ hc hs.2.2.2.2.2.2.1
    rw [startBoundary_stopping ticked h]
    exact ⟨_, _, stop, hs, h1, h2⟩

/-- A qualified SYNC IN edge at one timebase (R14). -/
theorem edgeOn_taken (x : Tb) (s : State) : EdgeTaken x s (edgeOn x s).1 (edgeOn x s).2 := by
  refine ⟨fun h => ?_, fun h hr => ?_, fun h => ?_⟩
  · refine ⟨(startBoundary x false (s.setTimebase x { atZero (s.timebases.get x) with state := .running, cycles := 0 })).2,
      ?_, ?_⟩
    · simp only [edgeOn, edgeActs, h, if_true]
      exact startBoundary_taken x false _
    · simp only [edgeOn, edgeActs, h, if_true]
      rfl
  · have : edgeOn x s = startBoundary x false (s.setTimebase x (atZero (s.timebases.get x))) := by
      rcases h with h | h <;> simp [edgeOn, edgeActs, h, hr]
    rw [this]
    exact startBoundary_taken x false _
  · have : edgeOn x s = (s, noneRaised) := by
      rcases h with h | ⟨h, hr⟩
      · simp [edgeOn, edgeActs, h]
      · cases hs : (s.timebases.get x).state <;> simp_all [edgeOn, edgeActs]
    rw [this]
    exact ⟨rfl, rfl⟩

/-- A qualified SYNC IN edge: tickets are marked, and it acts on both timebases, in either order (R14, R54, log 8, 9). -/
theorem syncEdge_taken (s : State) :
    ∃ (n : Nat) (x : Tb) (m v : State) (one two : Raised),
      EdgeTaken x ((s.setQueue (markTickets s.commit.queue)).withFree n) m one
        ∧ EdgeTaken (otherTb x) m v two
        ∧ syncEdge s = (v.withFree (syncEdge s).free).withNotices (syncEdge s).notices
        ∧ Posted s (syncEdge s) (bothRaised one two) := by
  have hf : ∃ n, (firstAtEdge (s.setQueue (markTickets s.commit.queue))).1
      = (s.setQueue (markTickets s.commit.queue)).withFree n := by
    unfold firstAtEdge
    split
    · exact ⟨_, rfl⟩
    · exact ⟨s.free, rfl⟩
  obtain ⟨n, hn⟩ := hf
  refine ⟨n, (firstAtEdge (s.setQueue (markTickets s.commit.queue))).2, _, _, _, _, hn ▸ edgeOn_taken _ _,
    edgeOn_taken _ _, rfl, posted_postRaised _ ?_⟩
  rw [(edgeOn_keeps _ _).2.2.1, (edgeOn_keeps _ _).2.2.1, hn]
  rfl

/-! ## The events that requests and ticks bring about -/

/-- Posting the notices of an event changes none of its other effects. -/
theorem StartTaken.posted {x : Tb} {b : Bool} {s t : State} {r : Raised} (q : Raised) (h : StartTaken x b s t r) :
    StartTaken x b s (t.postRaised q) r := h

theorem MidTaken.posted {x : Tb} {s t : State} {r : Raised} (q : Raised) (h : MidTaken x s t r) :
    MidTaken x s (t.postRaised q) r := h

theorem StopTaken.posted {x : Tb} {k : StopKind} {s t : State} {r : Raised} (q : Raised) (h : StopTaken x k s t r) :
    StopTaken x k s (t.postRaised q) r := h

theorem BoundaryTaken.posted {x : Tb} {b : Bool} {s t : State} {r : Raised} (q : Raised) (h : BoundaryTaken x b s t r) :
    BoundaryTaken x b s (t.postRaised q) r := h

/-- A start from STOPPED or WAIT_SYNC under START TIMEBASE NOW (R8). -/
theorem startNow_taken (x : Tb) (s : State) :
    ∃ r, StartTaken x false
        (s.setTimebase x { s.timebases.get x with
          state := .running, counter := 0, direction := .up, cycles := 0, tickTimer := 0 }) (startNow x s) r
      ∧ Posted s (startNow x s) r := by
  have h := (startBoundary_taken x false
    (s.setTimebase x { atZero (s.timebases.get x) with state := .running, cycles := 0 })).1 (by simp [State.setTimebase])
  exact ⟨_, h.posted _, posted_postRaised _ (by simp)⟩

/-- A stop under STOP TIMEBASE IMMEDIATE (R9). -/
theorem stopNow_taken (x : Tb) (s : State) :
    ∃ r, StopTaken x .immediate s (stopNow x s) r ∧ Posted s (stopNow x s) r := by
  refine ⟨_, (stopEvent_taken x .immediate s).posted _, posted_postRaised _ ?_⟩
  split <;> simp

/-- A tick, by the boundary it brings (R2 to R5). -/
theorem tickEvent_taken (x : Tb) (s : State) :
    let next := advance (s.timebases.get x)
    let u := s.setTimebase x { next.1 with tickTimer := 0 }
    (next.2 = none → tickEvent x s = (u.countTick x).redrive x)
      ∧ (next.2 = some .mid → ∃ r, MidTaken x u (tickEvent x s) r ∧ Posted s (tickEvent x s) r)
      ∧ (next.2 = some .start → ∃ r, BoundaryTaken x true u (tickEvent x s) r ∧ Posted s (tickEvent x s) r) := by
  refine ⟨fun h => ?_, fun h => ?_, fun h => ?_⟩
  · simp only [tickEvent, h]
  · simp only [tickEvent, h]
    exact ⟨_, (midBoundary_taken x _).posted _, posted_postRaised _ (by simp)⟩
  · simp only [tickEvent, h]
    exact ⟨_, (startBoundary_taken x true _).posted _, posted_postRaised _ (by simp)⟩

/-! ## Trip events (R69, R70, R85 to R87, R115) -/

/-- Handing on a route table and selecting again: hold levels are captured and the outputs follow (R80, R115, R117). -/
theorem handRoutes_follow (s : State) (routes : SlotFile (Option Route)) :
    OutputsFollow (recaptured s routes) s.output.clocks.get (s.handRoutes routes).settle := by
  have h := settle_follows (s.handRoutes routes)
  have e : (s.handRoutes routes).output.channels.get = recaptured s routes := by
    funext c
    simp only [State.handRoutes, State.withOutput_output, ChanFile.get_ofFn, recaptured]
    cases forcedWith s.pattern s.trip.routes .hold c <;> cases forcedWith s.pattern routes .hold c <;>
      simp [captured] <;> cases (s.output.channels.get c).output <;> rfl
  rw [e] at h
  exact h

theorem assertInput_follows (i : TripName) (s : State) :
    OutputsFollow (recaptured s (assertInput i s).trip.routes) s.output.clocks.get (assertInput i s) := by
  have h := handRoutes_follow (s.setInput i
    { s.trip.inputs.get i with filtered := .asserted, agreement := 0, timer := 0 })
    (.ofFn fun n => (s.trip.routes.get n).map (assertRoute i))
  rw [assertInput_trip]
  exact h

theorem quietInput_follows (i : TripName) (s : State) :
    OutputsFollow (recaptured s (quietInput i s).trip.routes) s.output.clocks.get (quietInput i s) := by
  have h := handRoutes_follow (s.setInput i
    { s.trip.inputs.get i with filtered := .quiet, agreement := 0, timer := 0 })
    (.ofFn fun n => (s.trip.routes.get n).map (quietRoute i (stoppedSet s)))
  rw [quietInput_trip]
  exact h

end Sys2Proof.Machine
end

