-- ==== Sys2Proof/Laws/Reading.lean ====
section
/-!
SUPPORT. What the fields of a request that was read are sure to satisfy (R184, R185).
-/

namespace Sys2Proof.Machine

/-! ## Options -/

/-- What an option gives, if anything, has a property. -/
def Gives {α : Type} (o : Option α) (P : α → Prop) : Prop := ∀ a, o = some a → P a

theorem gives_none {α : Type} {P : α → Prop} : Gives none P := fun _ h => by cases h

theorem gives_some {α : Type} {P : α → Prop} {a : α} (h : P a) : Gives (some a) P :=
  fun b e => by injection e with e; exact e ▸ h

theorem gives_map {α β : Type} {o : Option α} {f : α → β} {P : β → Prop} (h : Gives o fun a => P (f a)) :
    Gives (o.map f) P := by
  cases o with
  | none => exact gives_none
  | some a => exact gives_some (h a rfl)

theorem gives_bind {α β : Type} {o : Option α} {f : α → Option β} {P : β → Prop}
    (h : Gives o fun a => Gives (f a) P) : Gives (o.bind f) P := by
  cases o with
  | none => exact gives_none
  | some a => exact h a rfl

/-! ## Requests -/

/-- The ranges that reading a request leaves its fields in (R184, R185). -/
def RequestSound : Request → Prop
  | .setLink v => SettingsSound v
  | .stageTimebase _ r => 2 ≤ r.period.toNat
  | .issueTicket t => TicketFieldsSound t
  | .cancelById id => id ≠ 0
  | .configureTripInput _ c => 1 ≤ c.interval ∧ c.interval ≤ 256 ∧ 1 ≤ c.qualify ∧ c.qualify ≤ 16
  | .fetchNotices n => 1 ≤ n ∧ n ≤ 4
  | _ => True

theorem readSettings_sound (a b c : Byte) : Gives (readSettings a b c) SettingsSound := by
  refine gives_bind fun r _ => ?_
  split
  · next h => exact gives_some h
  · exact gives_none

theorem readTripConfig_sound (a b c d : Byte) :
    Gives (readTripConfig a b c d) fun c => 1 ≤ c.interval ∧ c.interval ≤ 256 ∧ 1 ≤ c.qualify ∧ c.qualify ≤ 16 := by
  refine gives_bind fun r _ => ?_
  dsimp only
  split
  · next h => exact gives_some h
  · exact gives_none

theorem readTimebaseRecord_sound (l : List Byte) : Gives (readTimebaseRecord l) fun r => 2 ≤ r.period.toNat := by
  unfold readTimebaseRecord
  split
  · refine gives_bind fun p hp => gives_bind fun _ _ => gives_bind fun _ _ => gives_bind fun _ _ => gives_some ?_
    simp only [readPeriod] at hp
    split at hp
    · next h => injection hp with hp; subst hp; exact h
    · cases hp
  · exact gives_none

theorem readCondition_sound (a b : Byte) : Gives (readCondition a b) fun c => c ≠ .after 0 := by
  unfold readCondition
  (repeat' split) <;> first | exact gives_none | refine gives_some ?_
  · decide
  · next h => simpa using h
  · decide

theorem readDeadline_sound (a b : Byte) : Gives (readDeadline a b) fun d => d ≠ some 0 := by
  unfold readDeadline
  (repeat' split) <;> first | exact gives_none | refine gives_some ?_
  · decide
  · next h => simpa using h

theorem readTicket_sound (l : List Byte) : Gives (readTicket l) TicketFieldsSound := by
  unfold readTicket
  split
  · exact gives_bind fun _ _ => gives_bind fun _ _ => gives_bind fun _ _ => gives_bind fun _ hc => gives_bind fun _ _ =>
      gives_bind fun _ hd => gives_some ⟨readCondition_sound _ _ _ hc, readDeadline_sound _ _ _ hd⟩
  · exact gives_none


theorem bare_sound {r : Request} (h : RequestSound r) (args : List Byte) : Gives (bare args r) RequestSound := by
  unfold bare
  split
  · exact gives_some h
  · exact gives_none

/-- Every request that is read has its fields in range. -/
theorem readRequest_sound (kind : Byte) (args : List Byte) : Gives (readRequest kind args) RequestSound := by
  unfold readRequest
  split
  · unfold readGeneralRequest
    split
    · exact bare_sound (by trivial) _
    · exact bare_sound (by trivial) _
    · split
      · exact gives_map (readSettings_sound _ _ _)
      · exact gives_none
    · exact bare_sound (by trivial) _
    · exact gives_none
  · unfold readTimebaseRequest
    split
    · exact gives_bind fun _ _ => gives_bind fun _ _ => gives_some trivial
    · exact gives_bind fun _ _ => gives_bind fun _ _ => gives_some trivial
    · exact gives_map fun _ _ => trivial
    · exact gives_bind fun _ _ => gives_bind fun _ _ => gives_some trivial
    · exact gives_none
  · unfold readRecordRequest
    split
    · exact gives_bind fun _ _ => gives_bind fun _ _ => gives_some trivial
    · exact gives_bind fun _ _ => gives_bind fun _ _ => gives_some trivial
    · exact gives_bind fun _ _ => gives_bind fun _ h => gives_some (readTimebaseRecord_sound _ _ h)
    · exact gives_map fun _ _ => trivial
    · exact gives_map fun _ _ => trivial
    · exact gives_none
  · unfold readTicketRequest
    split
    · exact gives_map (readTicket_sound _)
    · split
      · unfold readCancel
        split
        · split
          · exact gives_none
          · next h => exact gives_some h
        · exact gives_map fun _ _ => trivial
        · exact gives_none
      · exact gives_none
    · exact bare_sound (by trivial) _
    · exact gives_none
  · unfold readOutputRequest
    split
    · split
      · exact gives_map fun _ _ => trivial
      · exact gives_none
    · exact bare_sound (by trivial) _
    · split
      · exact gives_map fun _ _ => trivial
      · exact gives_none
    · exact bare_sound (by trivial) _
    · exact gives_none
  · unfold readTripRequest
    split
    · split
      · exact gives_bind fun _ _ => gives_bind fun _ h => gives_some (readTripConfig_sound _ _ _ _ _ h)
      · exact gives_none
    · split
      · exact gives_bind fun _ _ => gives_bind fun _ _ => gives_bind fun _ _ => gives_bind fun _ _ =>
          gives_some trivial
      · exact gives_none
    · split
      · exact gives_map fun _ _ => trivial
      · exact gives_none
    · split
      · exact gives_map fun _ _ => trivial
      · exact gives_none
    · exact bare_sound (by trivial) _
    · exact bare_sound (by trivial) _
    · exact gives_none
  · unfold readNoticeRequest
    split
    · split
      · next h => exact gives_some h
      · exact gives_none
    · exact gives_some trivial
    · exact gives_map fun _ _ => trivial
    · exact gives_none
  · exact gives_none

end Sys2Proof.Machine
end

