-- ==== Sys2Proof/Laws/Requests.lean ====
section
/-!
SUPPORT. The encodings read back what they write, and what a frame that the part hears leads to.
-/

namespace Sys2Proof.Machine

/-! ## Fields read back -/

@[simp] theorem readBool_boolByte (b : Bool) : readBool (boolByte b) = some b := by cases b <;> rfl
@[simp] theorem readTb_tbByte (x : Tb) : readTb (tbByte x) = some x := by cases x <;> rfl
@[simp] theorem readChan_chanByte (c : Chan) : readChan (chanByte c) = some c := by cases c <;> rfl
@[simp] theorem readPairName_pairByte (p : Pair) : readPairName (pairByte p) = some p := by cases p <;> rfl
@[simp] theorem readTripName_tripNameByte (i : TripName) : readTripName (tripNameByte i) = some i := by cases i <;> rfl
@[simp] theorem readSlot_slotByte (n : Slot) : readSlot (slotByte n) = some n := by cases n <;> rfl
@[simp] theorem readAlignment_alignmentByte (a : Alignment) : readAlignment (alignmentByte a) = some a := by
  cases a <;> rfl
@[simp] theorem readPrescale_prescaleNat (p : Prescale) : readPrescale (natByte (prescaleNat p)) = some p := by
  cases p <;> rfl
@[simp] theorem readSyncSource_syncSourceByte (v : SyncSource) : readSyncSource (syncSourceByte v) = some v := by
  cases v <;> rfl
@[simp] theorem readSyncEdge_syncEdgeByte (v : SyncEdge) : readSyncEdge (syncEdgeByte v) = some v := by cases v <;> rfl
@[simp] theorem readPairMode_pairModeByte (v : PairMode) : readPairMode (pairModeByte v) = some v := by cases v <;> rfl
@[simp] theorem readBoundaryKind_boundaryKindByte (v : BoundaryKind) :
    readBoundaryKind (boundaryKindByte v) = some v := by cases v <;> rfl
@[simp] theorem readLevel_levelByte (v : Level) : readLevel (levelByte v) = some v := by cases v <;> rfl
@[simp] theorem readAction_actionByte (v : Action) : readAction (actionByte v) = some v := by cases v <;> rfl
@[simp] theorem readClearing_clearingByte (v : Clearing) : readClearing (clearingByte v) = some v := by cases v <;> rfl
@[simp] theorem readRate_rateByte (v : Rate) : readRate (rateByte v) = some v := by cases v <;> rfl

theorem toNat_word16 (high low : Byte) : (word16 high low).toNat = high.toNat * 256 + low.toNat := by
  have h1 : high.toNat < 2 ^ 8 := high.isLt
  have h2 : low.toNat < 2 ^ 8 := low.isLt
  have h3 : high.toNat <<< 8 = high.toNat * 256 := by rw [Nat.shiftLeft_eq]
  simp only [word16, BitVec.toNat_append]
  rw [← Nat.shiftLeft_add_eq_or_of_lt h2, h3]

/-- Two bytes, high byte first, read back as the word they were written from (R184). -/
@[simp] theorem word16_extract (w : Word16) : word16 (w.extractLsb' 8 8) (w.extractLsb' 0 8) = w := by
  apply BitVec.eq_of_toNat_eq
  have h : w.toNat < 65536 := w.isLt
  simp only [toNat_word16, BitVec.extractLsb'_toNat, Nat.shiftRight_eq_div_pow]
  omega

@[simp] theorem readDeadtime_zeroExtend (d : BitVec 10) :
    readDeadtime ((d.zeroExtend 16).extractLsb' 8 8) ((d.zeroExtend 16).extractLsb' 0 8) = some d := by
  have hd : d.toNat < 1024 := d.isLt
  have hn : (d.zeroExtend 16).toNat = d.toNat := by
    simp only [BitVec.truncate_eq_setWidth, BitVec.toNat_setWidth]; omega
  unfold readDeadtime
  rw [word16_extract]
  simp only [hn]
  rw [if_pos (by omega)]
  simp

@[simp] theorem readChannelRecord_bytes (r : ChannelRecord) : readChannelRecord (channelRecordBytes r) = some r := by
  simp [readChannelRecord, channelRecordBytes, word16Bytes]

@[simp] theorem readPairRecord_bytes (r : PairRecord) : readPairRecord (pairRecordBytes r) = some r := by
  have e := readDeadtime_zeroExtend r.deadtimeEven
  have o := readDeadtime_zeroExtend r.deadtimeOdd
  simp only [pairRecordBytes, word16Bytes, List.cons_append, List.nil_append, readPairRecord, readPairMode_pairModeByte,
    readTb_tbByte, e, o]
  rfl

theorem readTimebaseRecord_bytes (r : TimebaseRecord) (h : 2 ≤ r.period.toNat) :
    readTimebaseRecord (timebaseRecordBytes r) = some r := by
  simp [readTimebaseRecord, timebaseRecordBytes, word16Bytes, readPeriod, h]

theorem readSettings_bytes (v : LinkSettings) (h : SettingsSound v) :
    readSettings (rateByte v.rate) v.turnaround v.gapLimit = some v := by
  obtain ⟨h1, h2, h3, h4⟩ := h
  simp [readSettings, h1, h2, h3, h4]

theorem readTripConfig_bytes (v : TripConfig) (h1 : 1 ≤ v.interval) (h2 : v.interval ≤ 256) (h3 : 1 ≤ v.qualify)
    (h4 : v.qualify ≤ 16) :
    readTripConfig (levelByte v.level) ((BitVec.ofNat 16 v.interval).extractLsb' 8 8)
      ((BitVec.ofNat 16 v.interval).extractLsb' 0 8) (natByte v.qualify) = some v := by
  have hi : (BitVec.ofNat 16 v.interval).toNat = v.interval := by simp; omega
  have hq : (natByte v.qualify).toNat = v.qualify := by simp [natByte]; omega
  simp only [readTripConfig, readLevel_levelByte, word16_extract, hi, hq]
  simp [h1, h2, h3, h4]

@[simp] theorem readPairSet_zeroExtend (p : PairSet) : readPairSet (p.zeroExtend 8) = some p := by
  have hp : p.toNat < 16 := p.isLt
  have hn : (p.zeroExtend 8).toNat = p.toNat := by
    simp only [BitVec.truncate_eq_setWidth, BitVec.toNat_setWidth]; omega
  unfold readPairSet
  rw [hn, if_pos hp]
  simp

theorem readBool_none {b : Byte} (h : 1 < b.toNat) : readBool b = none := by
  unfold readBool; split <;> first | omega | rfl

theorem readTb_none {b : Byte} (h : 1 < b.toNat) : readTb b = none := by
  unfold readTb; split <;> first | omega | rfl

theorem readPairMode_none {b : Byte} (h : 1 < b.toNat) : readPairMode b = none := by
  unfold readPairMode; split <;> first | omega | rfl

theorem readAlignment_none {b : Byte} (h : 1 < b.toNat) : readAlignment b = none := by
  unfold readAlignment; split <;> first | omega | rfl

theorem readChan_none {b : Byte} (h : 7 < b.toNat) : readChan b = none := by
  unfold readChan
  rw [List.getElem?_eq_none]
  exact h

theorem readPairName_none {b : Byte} (h : 3 < b.toNat) : readPairName b = none := by
  unfold readPairName
  rw [List.getElem?_eq_none]
  exact h

/-- Every spelling of a ticket request reads back as it (R44, R184, R185). -/
theorem readTicket_spelling {t : TicketRequest} {args : List Byte} (h : SpellsTicket t args) (hs : TicketFieldsSound t) :
    readTicket args = some t := by
  obtain ⟨hk, hd⟩ := hs
  have hdl : readDeadline (boolByte t.deadline.isSome) (t.deadline.getD 0) = some t.deadline := by
    cases e : t.deadline with
    | none => rfl
    | some d =>
      have : d ≠ 0 := by rintro rfl; exact hd e
      simpa [readDeadline, boolByte] using this
  unfold SpellsTicket at h
  split at h
  · next k e =>
    have hk0 : k ≠ 0 := by rintro rfl; exact hk e
    rcases h with rfl | ⟨rfl, rfl⟩
    · have : readCondition 1 k = some (.after k) := by simpa [readCondition] using hk0
      simp only [readTicket, ticketBytes, readTb_tbByte, readPairSet_zeroExtend, readBool_boolByte, this,
        readBoundaryKind_boundaryKindByte, hdl]
      cases t; simp_all
    · have : readCondition 0 0 = some (.after 1) := rfl
      simp only [readTicket, ticketBytes, readTb_tbByte, readPairSet_zeroExtend, readBool_boolByte, this,
        readBoundaryKind_boundaryKindByte, hdl]
      cases t; simp_all
  · next e =>
    subst h
    have : readCondition 2 0 = some .sync := rfl
    simp only [readTicket, ticketBytes, readTb_tbByte, readPairSet_zeroExtend, readBool_boolByte, this,
      readBoundaryKind_boundaryKindByte, hdl]
    cases t; simp_all

/-- The bytes of a ticket request are nine. -/
theorem length_spelling {t : TicketRequest} {args : List Byte} (h : SpellsTicket t args) : args.length = 9 := by
  unfold SpellsTicket at h
  split at h
  · rcases h with rfl | ⟨_, rfl⟩ <;> rfl
  · subst h; rfl

/-! ## What each kind reads (R185) -/

theorem readRequest_identify : readRequest 0x01 [] =
    some .identify := rfl

theorem readRequest_readStatus : readRequest 0x02 [] =
    some .readStatus := rfl

theorem readRequest_setLink (b1 b2 b3 : Byte) : readRequest 0x03 [b1, b2, b3] =
    (readSettings b1 b2 b3).map .setLink := rfl

theorem readRequest_resetController : readRequest 0x04 [] =
    some .resetController := rfl

theorem readRequest_startTimebase (b1 b2 : Byte) : readRequest 0x11 [b1, b2] =
    (readTb b1).bind fun x => (readStartMode b2).bind fun m => some (.startTimebase x m) := rfl

theorem readRequest_stopTimebase (b1 b2 : Byte) : readRequest 0x12 [b1, b2] =
    (readTb b1).bind fun x => (readStopMode b2).bind fun m => some (.stopTimebase x m) := rfl

theorem readRequest_readTimebase (b1 : Byte) : readRequest 0x13 [b1] =
    (readTb b1).map .readTimebase := rfl

theorem readRequest_configureSync (b1 b2 : Byte) : readRequest 0x14 [b1, b2] =
    (readSyncSource b1).bind fun c => (readSyncEdge b2).bind fun e => some (.configureSync c e) := rfl

theorem readRequest_stageChannel (b : Byte) (record : List Byte) : readRequest 0x20 (b :: record) =
    (readChan b).bind fun c => (readChannelRecord record).bind fun r => some (.stageChannel c r) := rfl

theorem readRequest_stagePair (b : Byte) (record : List Byte) : readRequest 0x21 (b :: record) =
    (readPairName b).bind fun p => (readPairRecord record).bind fun r => some (.stagePair p r) := rfl

theorem readRequest_stageTimebase (b : Byte) (record : List Byte) : readRequest 0x22 (b :: record) =
    (readTb b).bind fun x => (readTimebaseRecord record).bind fun r => some (.stageTimebase x r) := rfl

theorem readRequest_readChannel (b1 : Byte) : readRequest 0x23 [b1] =
    (readChan b1).map .readChannel := rfl

theorem readRequest_readPair (b1 : Byte) : readRequest 0x24 [b1] =
    (readPairName b1).map .readPair := rfl

theorem readRequest_issueTicket (args : List Byte) : readRequest 0x30 args =
    (readTicket args).map .issueTicket := rfl

theorem readRequest_cancelById (id : Byte) : readRequest 0x31 [0, id] =
    if id = 0 then none else some (.cancelById id) := rfl

theorem readRequest_cancelAll (b1 : Byte) : readRequest 0x31 [1, b1] =
    (readTb b1).map .cancelAll := rfl

theorem readRequest_listTickets : readRequest 0x32 [] =
    some .listTickets := rfl

theorem readRequest_setOverride (b1 b2 b3 : Byte) : readRequest 0x40 [b1, b2, b3] =
    (readOverride b1 b2 b3).map .setOverride := rfl

theorem readRequest_enableOutputs : readRequest 0x41 [] =
    some .enableOutputs := rfl

theorem readRequest_disableOutputs (b1 : Byte) : readRequest 0x42 [b1] =
    (readDisableMode b1).map .disableOutputs := rfl

theorem readRequest_readOutputs : readRequest 0x43 [] =
    some .readOutputs := rfl

theorem readRequest_configureTripInput (b1 b2 b3 b4 b5 : Byte) : readRequest 0x50 [b1, b2, b3, b4, b5] =
    (readTripName b1).bind fun i => (readTripConfig b2 b3 b4 b5).bind fun v => some (.configureTripInput i v) := rfl

theorem readRequest_defineRoute (b1 b2 b3 b4 b5 : Byte) : readRequest 0x51 [b1, b2, b3, b4, b5] =
    (readSlot b1).bind fun n => (readTripName b2).bind fun i => (readAction b4).bind fun a => (readClearing b5).bind fun c =>
      some (.defineRoute n { input := i, channels := b3, action := a, clearing := c }) := rfl

theorem readRequest_removeRoute (b1 : Byte) : readRequest 0x52 [b1] =
    (readSlot b1).map .removeRoute := rfl

theorem readRequest_clearTrip (b1 : Byte) : readRequest 0x53 [b1] =
    (readSlot b1).map .clearTrip := rfl

theorem readRequest_readTrips : readRequest 0x54 [] =
    some .readTrips := rfl

theorem readRequest_freezeProtection : readRequest 0x55 [] =
    some .freezeProtection := rfl

theorem readRequest_fetchNotices (n : Byte) : readRequest 0x60 [n] =
    if 1 ≤ n.toNat ∧ n.toNat ≤ 4 then some (.fetchNotices n.toNat) else none := rfl

theorem readRequest_ackNotices (t : Byte) : readRequest 0x61 [t] =
    some (.ackNotices t) := rfl

theorem readRequest_setAttentionMask (b1 b2 : Byte) : readRequest 0x62 [b1, b2] =
    (readClassSet b1 b2).map .setAttentionMask := rfl

/-! ## Frames that the part hears -/

theorem deaf_of_listening {s : State} (h : Listening s) : deaf s = false := by
  obtain ⟨h1, h2⟩ := h
  simp [deaf, transmitterIdle, h1, h2]

theorem deaf_of_not_listening {s : State} (h : ¬ Listening s) : deaf s = true := by
  unfold Listening at h
  unfold deaf transmitterIdle
  cases hr : s.inReset <;> cases ht : s.link.transmitter <;> simp_all

theorem cachedReply_of_unanswered {s : State} {tag kind : Byte} {args : List Byte} (h : Unanswered s tag kind args) :
    cachedReply s.cache tag (frameCheck s.link.nodeAddress tag kind args) = none := by
  unfold cachedReply
  rw [List.find?_eq_none]
  intro e he
  have := h e he
  simpa using this

@[simp] theorem afterLastByte_cache (s : State) : (afterLastByte s).cache = s.cache := rfl
@[simp] theorem afterLastByte_link (s : State) : (afterLastByte s).link = heardLink s.link := rfl
@[simp] theorem afterLastByte_pins (s : State) : (afterLastByte s).pins = { s.pins with line := .high } := rfl
@[simp] theorem heardLink_nodeAddress (l : LinkInterface) : (heardLink l).nodeAddress = l.nodeAddress := rfl
@[simp] theorem heardLink_strapFault (l : LinkInterface) : (heardLink l).strapFault = l.strapFault := rfl
@[simp] theorem heardLink_settings (l : LinkInterface) : (heardLink l).settings = l.settings := rfl

/-- The state after an answer depends on the blocks of `o` alone, not on its link, cache and pins. -/
theorem answered_congr {s o u : State} {tag kind : Byte} {args payload : List Byte} {action : Option PendingAction}
    (h : o.timebases = u.timebases ∧ o.sync = u.sync ∧ o.pattern = u.pattern ∧ o.commit = u.commit ∧ o.trip = u.trip
      ∧ o.output = u.output ∧ o.notices = u.notices ∧ o.inReset = u.inReset ∧ o.free = u.free ∧ o.pending = u.pending) :
    answered s o tag kind args payload action = answered s u tag kind args payload action := by
  apply State.eq_of_fields
  simp [answered, h]

/-- The same for a frame that draws no reply. -/
theorem heard_congr {s o u : State}
    (h : o.timebases = u.timebases ∧ o.sync = u.sync ∧ o.pattern = u.pattern ∧ o.commit = u.commit ∧ o.trip = u.trip
      ∧ o.output = u.output ∧ o.notices = u.notices ∧ o.inReset = u.inReset ∧ o.free = u.free ∧ o.pending = u.pending) :
    heard s o = heard s u := by
  apply State.eq_of_fields
  simp [heard, h]

/-- An addressed request that the part hears and the cache does not answer is checked, carried out, remembered and answered
(R164, R173). -/
theorem acceptFrame_addressed {s : State} {tag kind : Byte} {args : List Byte} (hl : Listening s)
    (hu : Unanswered s tag kind args) :
    acceptFrame .addressed tag kind args s =
      answered s (carryOut kind args (afterLastByte s)).state tag kind args
        (statusCode (carryOut kind args (afterLastByte s)).status :: (carryOut kind args (afterLastByte s)).content)
        (carryOut kind args (afterLastByte s)).action := by
  have hc := cachedReply_of_unanswered hu
  apply State.eq_of_fields
  simp [acceptFrame, deaf_of_listening hl, acceptAddressed, hc, answerNew, handReply, answered, replyFrame]

/-- A retransmission draws the cached reply and nothing else (R171). -/
theorem acceptFrame_cached {s : State} {tag kind : Byte} {args : List Byte} {e : CacheEntry} (hl : Listening s)
    (hc : cachedReply s.cache tag (frameCheck s.link.nodeAddress tag kind args) = some e) :
    acceptFrame .addressed tag kind args s =
      { s with
        link := { heardLink s.link with
          transmitter := .turnaround { frame := e.frame, action := none } 0 s.link.settings.turnaround }
        pins := { s.pins with line := .high } } := by
  apply State.eq_of_fields
  simp [acceptFrame, deaf_of_listening hl, acceptAddressed, hc, handReply]

/-- A broadcast that the part hears (R168, R169). -/
theorem acceptFrame_broadcast {s : State} {tag kind : Byte} {args : List Byte} (hl : Listening s) :
    acceptFrame .broadcast tag kind args s =
      if broadcastAllowed kind then
        if (carryOut kind args (afterLastByte s)).status = .ok then heard s (carryOut kind args (afterLastByte s)).state
        else heard s (s.post [linkEvent .broadcastRefused])
      else heard s (s.post [linkEvent .broadcastKind]) := by
  simp only [acceptFrame, deaf_of_listening hl, acceptBroadcast, Bool.false_eq_true, if_false]
  repeat' split
  all_goals
    apply State.eq_of_fields
    simp [heard, State.post]

/-- A request of a known kind and fitting fields is handed to its owner (R165). -/
theorem carryOut_of_read {kind : Byte} {args : List Byte} {r : Request} {s : State}
    (hn : requestLength kind = some args.length) (hr : readRequest kind args = some r) :
    carryOut kind args s = perform r s := by
  simp [carryOut, hn, hr]

/-! ## Request rows -/

/-- A request row is its frame, at a part whose trip pins show the levels the row brings (R164). -/
theorem exec_requestFrame {i : Instr} {h : Header} {kind : Byte} {args : List Byte}
    (e : requestFrame i = some (h, kind, args)) (s : State) :
    exec i s = .next (acceptFrame h.cast h.tag kind args (withRowPins i s)) := by
  cases i <;> simp only [requestFrame, Option.some.injEq, Prod.mk.injEq, reduceCtorEq] at e <;>
    (obtain ⟨rfl, rfl, rfl⟩ := e; rfl)

@[simp] theorem listening_withRowPins {i : Instr} {s : State} : Listening (withRowPins i s) ↔ Listening s := by
  cases i <;> rfl

@[simp] theorem unanswered_withRowPins {i : Instr} {s : State} {tag kind : Byte} {args : List Byte} :
    Unanswered (withRowPins i s) tag kind args ↔ Unanswered s tag kind args := by
  cases i <;> rfl

@[simp] theorem withRowPins_keeps (i : Instr) (s : State) :
    (withRowPins i s).link = s.link ∧ (withRowPins i s).cache = s.cache ∧ (withRowPins i s).timebases = s.timebases
      ∧ (withRowPins i s).sync = s.sync ∧ (withRowPins i s).pattern = s.pattern ∧ (withRowPins i s).commit = s.commit
      ∧ (withRowPins i s).trip = s.trip ∧ (withRowPins i s).output = s.output
      ∧ (withRowPins i s).notices = s.notices ∧ (withRowPins i s).inReset = s.inReset
      ∧ (withRowPins i s).free = s.free ∧ (withRowPins i s).pending = s.pending := by
  cases i <;> simp [withRowPins]

@[simp] theorem answered_afterLastByte (s o : State) (tag kind : Byte) (args payload : List Byte)
    (action : Option PendingAction) :
    answered s (afterLastByte o) tag kind args payload action = answered s o tag kind args payload action :=
  answered_congr (by simp)

@[simp] theorem heard_afterLastByte (s o : State) : heard s (afterLastByte o) = heard s o := heard_congr (by simp)

/-- An addressed request with fields in range, heard and not cached: its owner carries it out (R164, R165). -/
theorem exec_addressed {i : Instr} {tag kind : Byte} {args : List Byte} {r : Request} {s : State}
    (e : requestFrame i = some (addressedTo tag, kind, args)) (hl : Listening s) (hu : Unanswered s tag kind args)
    (hn : requestLength kind = some args.length) (hr : readRequest kind args = some r) :
    exec i s = .next
      (let a := perform r (afterLastByte (withRowPins i s))
       answered (withRowPins i s) a.state tag kind args (statusCode a.status :: a.content) a.action) := by
  rw [exec_requestFrame e]
  simp only [addressedTo, acceptFrame_addressed (listening_withRowPins.mpr hl) (unanswered_withRowPins.mpr hu),
    carryOut_of_read hn hr]

/-- What an addressed request leaves, read off its owner's answer (R164, R165). -/
theorem exec_answers {i : Instr} {tag kind : Byte} {args payload : List Byte} {r : Request} {s o : State}
    {action : Option PendingAction} (e : requestFrame i = some (addressedTo tag, kind, args)) (hl : Listening s)
    (hu : Unanswered s tag kind args) (hn : requestLength kind = some args.length)
    (hr : readRequest kind args = some r) (hw : withRowPins i s = s)
    (hp : statusCode (perform r (afterLastByte s)).status :: (perform r (afterLastByte s)).content = payload)
    (ha : (perform r (afterLastByte s)).action = action)
    (hf : let v := (perform r (afterLastByte s)).state
      v.timebases = o.timebases ∧ v.sync = o.sync ∧ v.pattern = o.pattern ∧ v.commit = o.commit ∧ v.trip = o.trip
        ∧ v.output = o.output ∧ v.notices = o.notices ∧ v.inReset = o.inReset ∧ v.free = o.free
        ∧ v.pending = o.pending) :
    exec i s = .next (answered s o tag kind args payload action) := by
  rw [exec_addressed e hl hu hn hr, hw]
  subst hp
  subst ha
  exact congrArg _ (answered_congr hf)

/-- An addressed request with a field out of range is refused BAD_ARGUMENT (R165). -/
theorem exec_badArgument {i : Instr} {tag kind : Byte} {args : List Byte} {s : State}
    (e : requestFrame i = some (addressedTo tag, kind, args)) (hl : Listening s) (hu : Unanswered s tag kind args)
    (hn : requestLength kind = some args.length) (hr : readRequest kind args = none) :
    exec i s = .next (answered (withRowPins i s) (withRowPins i s) tag kind args [0x03] none) := by
  rw [exec_requestFrame e]
  simp only [addressedTo, acceptFrame_addressed (listening_withRowPins.mpr hl) (unanswered_withRowPins.mpr hu)]
  simp [carryOut, hn, hr, refusedWith, statusCode]

/-- A broadcast of a kind on the list: carried out, or reported as refused (R168). -/
theorem exec_broadcast {i : Instr} {tag kind : Byte} {args : List Byte} {s : State}
    (e : requestFrame i = some (broadcastWith tag, kind, args)) (hl : Listening s)
    (ha : broadcastAllowed kind = true) (hp : withRowPins i s = s) :
    exec i s = .next
      (if (carryOut kind args (afterLastByte s)).status = .ok then heard s (carryOut kind args (afterLastByte s)).state
       else heard s (s.post [linkEvent .broadcastRefused])) := by
  rw [exec_requestFrame e, hp, broadcastWith]
  simp only [acceptFrame_broadcast hl, ha, if_true]

/-! ## The reply cache -/

/-- In a sound cache the entry with a tag is the one found (R170, R171). -/
theorem cachedReply_of_mem {cache : List CacheEntry} {e : CacheEntry} (hn : (cache.map CacheEntry.tag).Nodup)
    (he : e ∈ cache) : cachedReply cache e.tag e.check = some e := by
  induction cache with
  | nil => simp at he
  | cons d ds ih =>
    simp only [List.map_cons, List.nodup_cons] at hn
    unfold cachedReply
    rw [List.find?_cons]
    rcases List.mem_cons.mp he with rfl | he
    · simp
    · have hd : d.tag ≠ e.tag := by
        intro h
        apply hn.1
        rw [h]
        exact List.mem_map_of_mem he
      simp only [hd, decide_false, Bool.false_and]
      exact ih hn.2 he

theorem withoutTag_of_fresh {cache : List CacheEntry} {t : Byte} (h : ∀ d ∈ cache, d.tag ≠ t) :
    withoutTag t cache = cache := by
  unfold withoutTag
  rw [List.filter_eq_self]
  simpa using h

end Sys2Proof.Machine
end

