-- ==== Sys2Proof/Laws/Resets.lean ====
section
/-!
SUPPORT. What a controller reset leaves in the notice queue (R101, R141, R177).
-/

namespace Sys2Proof.Machine

theorem repostNotice_key {n : Slot} {r : Option Route} {p : Posting} (h : repostNotice n r = some p) : p.key = .trip n := by
  unfold repostNotice at h
  (repeat' split at h) <;> first | cases h; rfl | cases h

/-- The notice of an event that is new to the queue (R128). -/
def freshNotice (p : Posting) : Notice := { key := p.key, count := 1, first := p.detail, last := p.detail, token := none }

/-- Events of different classes and sources, none of them in the queue, join the tail in their order (R128, R131). -/
theorem foldl_postTo_fresh {ps : List Posting} {q : List Notice} (hn : (ps.map Posting.key).Nodup)
    (hq : ∀ n ∈ q, ∀ p ∈ ps, n.key ≠ p.key) : ps.foldl postTo q = q ++ ps.map freshNotice := by
  induction ps generalizing q with
  | nil => simp
  | cons p ps ih =>
    simp only [List.map_cons, List.nodup_cons] at hn
    simp only [List.foldl_cons, List.map_cons]
    rw [postTo_new fun n h => hq n h p List.mem_cons_self, ih hn.2]
    · simp [freshNotice]
    · intro n h r hr
      rcases List.mem_append.mp h with h | h
      · exact hq n h r (List.mem_cons_of_mem _ hr)
      · simp only [List.mem_singleton] at h
        subst h
        intro e
        exact hn.1 (List.mem_map.mpr ⟨r, hr, e.symm⟩)

theorem repostNotices_nodup (routes : SlotFile (Option Route)) : ((repostNotices routes).map Posting.key).Nodup := by
  have h : ∀ l : List Slot, l.Nodup →
      ((l.filterMap fun n => repostNotice n (routes.get n)).map Posting.key).Nodup := by
    intro l
    induction l with
    | nil => intro _; simp
    | cons m l ih =>
      intro hn
      rw [List.nodup_cons] at hn
      rw [List.filterMap_cons]
      split
      · exact ih hn.2
      · next p e =>
        rw [List.map_cons, List.nodup_cons]
        refine ⟨?_, ih hn.2⟩
        intro hk
        obtain ⟨r, hr, hrk⟩ := List.mem_map.mp hk
        obtain ⟨k, hkl, e'⟩ := List.mem_filterMap.mp hr
        rw [repostNotice_key e', repostNotice_key e] at hrk
        injection hrk with hrk
        exact hn.1 (hrk ▸ hkl)
  exact h Slot.all (by decide)

/-- The RESET notice stands first, and behind it the TRIP notices of the routes that are not ARMED, in route index order
(R101, R141). -/
theorem controllerReset_notices (s : State) :
    (controllerReset s).notices
      = { queue := resetNotice .controller s.link.strapFault :: (repostNotices s.trip.routes).map freshNotice
          nextToken := s.notices.nextToken
          mask := allClasses } := by
  have h := foldl_postTo_fresh (q := [resetNotice .controller s.link.strapFault])
    (repostNotices_nodup s.trip.routes) (by
      intro n hn p hp
      simp only [List.mem_singleton] at hn
      subst hn
      obtain ⟨m, _, e⟩ := List.mem_filterMap.mp hp
      rw [repostNotice_key e]
      simp [resetNotice])
  simp only [controllerReset, State.post, noticesAfterReset, State.withNotices_notices, h]
  rfl

end Sys2Proof.Machine
end

