-- ==== Sys2Proof/Laws/Steps.lean ====
section
/-!
SUPPORT. What a step can do, said once: a property of the blocks that each of their operations keeps is kept by every step.
-/

namespace Sys2Proof.Machine

/-- Two states whose blocks, but for the Link Interface and the reply cache, are the same. -/
def SameBlocks (s t : State) : Prop :=
  t.timebases = s.timebases ∧ t.sync = s.sync ∧ t.pattern = s.pattern ∧ t.commit = s.commit ∧ t.trip = s.trip
    ∧ t.output = s.output ∧ t.notices = s.notices

/-- A property of the blocks that each of their operations keeps. The fields of a request are in range (R165). -/
structure BlocksKeep (P : State → Prop) : Prop where
  frame : ∀ {s t}, P s → SameBlocks s t → P t
  perform : ∀ {r}, RequestSound r → ∀ {s}, P s → P (perform r s).state
  post : ∀ ps {s}, P s → P (s.post ps)
  controllerReset : ∀ {s}, P s → P (controllerReset s)
  poweredOn : ∀ pins s, P (poweredOn pins s)
  silenced : ∀ {s}, P s → P (s.withNotices { queue := [], nextToken := 1, mask := allClasses })
  tick : ∀ x {s}, isStopped (s.timebases.get x) = false → P s → P (tickEvent x s)
  expired : ∀ id {s t}, execExpired id s = .next t → P s → P t
  pulse : ∀ {s}, P s → P (s.withSync { s.sync with pulse := none })
  syncCount : ∀ n {s}, P s → P (s.withSync { s.sync with agreement := n })
  syncLevel : ∀ l {s}, P s → P (changeSyncLevel l s)
  input : ∀ i l {s}, P s → P (sampleInput i l s)
  assert : ∀ i {s}, (s.trip.inputs.get i).filtered = .quiet → P s → P (assertInput i s)
  quiet : ∀ i {s}, (s.trip.inputs.get i).filtered = .asserted → P s → P (quietInput i s)
  clock : ∀ p {s}, clockRuns s p = true → P s → P (clockTick p s)
  delayEnd : ∀ c {s t}, execDeadtimeDelayEnd c s = .next t → P s → P t
  timers : ∀ {s}, P s → P (countTimers s)

namespace BlocksKeep

variable {P : State → Prop}

theorem carryOut (h : BlocksKeep P) (kind : Byte) (args : List Byte) {s : State} (hs : P s) :
    P (carryOut kind args s).state := by
  unfold Machine.carryOut
  (repeat' split) <;> first | exact hs | exact h.perform (readRequest_sound _ _ _ ‹_›) hs

theorem acceptAddressed (h : BlocksKeep P) (tag kind : Byte) (args : List Byte) {s : State} (hs : P s) :
    P (acceptAddressed tag kind args s) := by
  unfold Machine.acceptAddressed
  dsimp only
  split
  · exact h.frame hs ⟨rfl, rfl, rfl, rfl, rfl, rfl, rfl⟩
  · exact h.frame (h.carryOut kind args hs) ⟨rfl, rfl, rfl, rfl, rfl, rfl, rfl⟩

theorem acceptBroadcast (h : BlocksKeep P) (kind : Byte) (args : List Byte) {s : State} (hs : P s) :
    P (acceptBroadcast kind args s) := by
  unfold Machine.acceptBroadcast
  (repeat' split) <;> first | exact h.carryOut kind args hs | exact h.post _ hs

theorem afterLastByte (h : BlocksKeep P) {s : State} (hs : P s) : P (afterLastByte s) :=
  h.frame hs ⟨rfl, rfl, rfl, rfl, rfl, rfl, rfl⟩

theorem acceptFrame (h : BlocksKeep P) (c : Cast) (tag kind : Byte) (args : List Byte) {s : State} (hs : P s) :
    P (acceptFrame c tag kind args s) := by
  unfold Machine.acceptFrame
  split
  · exact hs
  · split
    · exact h.acceptAddressed tag kind args (h.afterLastByte hs)
    · exact h.acceptBroadcast kind args (h.afterLastByte hs)

theorem withRowPins (h : BlocksKeep P) (i : Instr) {s : State} (hs : P s) : P (withRowPins i s) :=
  h.frame hs (by simp [SameBlocks])

theorem linkReset (h : BlocksKeep P) {s : State} (hs : P s) : P (linkReset s) := by
  have h1 : P (((s.withLink (linkAfterBreak s.link)).withCache []).post [linkEvent .lineBreak]) :=
    h.post _ (h.frame hs ⟨rfl, rfl, rfl, rfl, rfl, rfl, rfl⟩)
  unfold Machine.linkReset
  dsimp only
  split
  · exact h.controllerReset h1
  · exact h1
  · exact h1

theorem completeReply (h : BlocksKeep P) (r : Reply) {s : State} (hs : P s) : P (completeReply r s) := by
  unfold Machine.completeReply settleAction
  split
  · exact h.frame hs ⟨rfl, rfl, rfl, rfl, rfl, rfl, rfl⟩
  · exact h.frame hs ⟨rfl, rfl, rfl, rfl, rfl, rfl, rfl⟩
  · exact h.controllerReset (h.frame hs ⟨rfl, rfl, rfl, rfl, rfl, rfl, rfl⟩)

theorem dropFrame (h : BlocksKeep P) (r : LinkReason) {s : State} (hs : P s) : P (s.dropFrame r) :=
  h.post _ (h.frame hs ⟨rfl, rfl, rfl, rfl, rfl, rfl, rfl⟩)

theorem receiverAt (h : BlocksKeep P) (r : Receiver) {s : State} (hs : P s) : P (s.receiverAt r) :=
  h.frame hs ⟨rfl, rfl, rfl, rfl, rfl, rfl, rfl⟩

theorem backToHunt (h : BlocksKeep P) {s : State} (hs : P s) : P s.backToHunt :=
  h.frame hs ⟨rfl, rfl, rfl, rfl, rfl, rfl, rfl⟩

theorem receiveByte (h : BlocksKeep P) (b : Byte) {s : State} (hs : P s) : P (receiveByte b s) := by
  unfold Machine.receiveByte
  split
  · split
    · exact h.receiverAt _ hs
    · exact hs
  · exact h.receiverAt _ hs
  · exact h.receiverAt _ hs
  · exact h.receiverAt _ hs
  · dsimp only
    (repeat' split) <;> first | exact h.dropFrame _ hs | exact h.receiverAt _ hs
  · split <;> exact h.receiverAt _ hs
  · exact h.receiverAt _ hs
  · unfold judgeFrame
    (repeat' split) <;>
      first
        | exact h.dropFrame _ hs
        | exact h.acceptAddressed _ _ _ (h.backToHunt hs)
        | exact h.acceptBroadcast _ _ (h.backToHunt hs)
        | exact h.backToHunt hs

theorem byteArrives (h : BlocksKeep P) (b : Byte) {s : State} (hs : P s) : P (byteArrives b s) :=
  h.receiveByte b (h.frame hs ⟨rfl, rfl, rfl, rfl, rfl, rfl, rfl⟩)

theorem framingError (h : BlocksKeep P) {s : State} (hs : P s) : P (framingError s) := by
  have h1 : P (lineLow 0 s).bitsWait := h.frame hs ⟨rfl, rfl, rfl, rfl, rfl, rfl, rfl⟩
  unfold Machine.framingError
  dsimp only
  split
  · exact h1
  · exact h.dropFrame _ h1

/-- Every command keeps the property. -/
theorem exec (h : BlocksKeep P) {i : Instr} {s t : State} (he : exec i s = .next t) (hs : P s) : P t := by
  cases hr : requestFrame i with
  | some f =>
    obtain ⟨hd, kind, args⟩ := f
    rw [exec_requestFrame hr] at he
    injection he with he
    subst he
    exact h.acceptFrame _ _ _ _ (h.withRowPins i hs)
  | none =>
    have hf : ∀ {u : State}, SameBlocks s u → P u := fun hu => h.frame hs hu
    cases i <;> simp only [requestFrame, reduceCtorEq] at hr <;> simp only [Machine.exec] at he
    case checkFail =>
      injection he with he; subst he; split
      · exact hs
      · exact h.post _ (h.afterLastByte hs)
    case frameForAnotherNode =>
      injection he with he; subst he; split
      · exact hs
      · exact h.afterLastByte hs
    case tooLong =>
      injection he with he; subst he; split
      · exact hs
      · exact h.post _ (h.afterLastByte hs)
    case framing =>
      injection he with he; subst he; split
      · exact hs
      · exact h.framingError hs
    case gap =>
      injection he with he; subst he; split
      · exact hs
      · exact h.dropFrame _ hs
    case turnaround =>
      unfold execTurnaround at he
      split at he <;> (injection he with he; subst he)
      · exact hf ⟨rfl, rfl, rfl, rfl, rfl, rfl, rfl⟩
      · exact hs
      · exact hs
    case completion =>
      unfold execCompletion at he
      split at he <;> (injection he with he; subst he)
      · exact h.completeReply _ hs
      · exact hs
      · exact hs
    case lineBreak =>
      injection he with he; subst he; split
      · exact hs
      · exact h.linkReset (hf ⟨rfl, rfl, rfl, rfl, rfl, rfl, rfl⟩)
    case powerOnReset =>
      injection he with he; subst he
      exact h.frame (h.silenced (h.poweredOn s.pins s)) ⟨rfl, rfl, rfl, rfl, rfl, rfl, rfl⟩
    case endOfPowerOnReset pins =>
      injection he with he; subst he
      exact h.poweredOn pins s
    case tick x =>
      injection he with he; subst he; split
      · exact hs
      · next hn =>
        simp only [not_or, Bool.not_eq_true] at hn
        exact h.tick x hn.2 hs
    case expired id => exact h.expired id he hs
    case syncOutPulseEnd => injection he with he; subst he; exact h.pulse hs
    case qualifiedSyncInEdge =>
      injection he with he; subst he; split
      · exact hs
      · exact h.syncLevel _ (hf ⟨rfl, rfl, rfl, rfl, rfl, rfl, rfl⟩)
    case inputAsserted i =>
      injection he with he; subst he; split
      · exact hs
      · next hn =>
        refine h.assert i ?_ (hf ⟨rfl, rfl, rfl, rfl, rfl, rfl, rfl⟩)
        simp only [not_or] at hn
        rw [(State.setTripPin_keeps _ _ _).2.2.2.2.2.2.1]
        cases hv : (s.trip.inputs.get i).filtered
        · rfl
        · exact absurd hv hn.2
    case inputQuiet i =>
      injection he with he; subst he; split
      · exact hs
      · next hn =>
        refine h.quiet i ?_ (hf ⟨rfl, rfl, rfl, rfl, rfl, rfl, rfl⟩)
        simp only [not_or] at hn
        rw [(State.setTripPin_keeps _ _ _).2.2.2.2.2.2.1]
        cases hv : (s.trip.inputs.get i).filtered
        · exact absurd hv hn.2
        · rfl
    case deadtimeClockTick p =>
      injection he with he; subst he; split
      · exact hs
      · next hn =>
        simp only [not_or, Bool.not_eq_false] at hn
        exact h.clock p hn.2 hs
    case deadtimeDelayEnd c => exact h.delayEnd c he hs
    case syncInSample l =>
      have h1 : P (s.setSyncPin l) := hf ⟨rfl, rfl, rfl, rfl, rfl, rfl, rfl⟩
      injection he with he; subst he; split
      · exact h1
      · unfold sampleSyncIn
        split
        · exact h.syncLevel _ h1
        · exact h.syncCount _ h1
    case tripInputSample i l =>
      have h1 : P (s.setTripPin i l) := hf ⟨rfl, rfl, rfl, rfl, rfl, rfl, rfl⟩
      injection he with he; subst he; split
      · exact h1
      · exact h.input i l h1
    case lineFallingEdge =>
      injection he with he; subst he
      dsimp only
      (repeat' split) <;> first | exact hs | exact hf ⟨rfl, rfl, rfl, rfl, rfl, rfl, rfl⟩
    case startBitConfirmed =>
      injection he with he; subst he; split
      · exact hs
      · exact hf ⟨rfl, rfl, rfl, rfl, rfl, rfl, rfl⟩
    case byteArrival b =>
      injection he with he; subst he; split
      · exact hs
      · exact h.byteArrives b hs
    case lineRisingEdge =>
      injection he with he; subst he; split <;> exact hf ⟨rfl, rfl, rfl, rfl, rfl, rfl, rfl⟩
    case lineHighForOneBitTime =>
      injection he with he; subst he; split
      · exact hs
      · exact hf ⟨rfl, rfl, rfl, rfl, rfl, rfl, rfl⟩

theorem takeDue (h : BlocksKeep P) (d : Due) {s : State} (hd : isDue s d = true) (hs : P s) : P (takeDue s d) := by
  have hf : ∀ {u : State}, SameBlocks s u → P u := fun hu => h.frame hs hu
  cases d with
  | syncLevel => exact h.syncLevel _ hs
  | tripSample i => exact h.input i _ hs
  | tick x =>
    simp only [isDue, Bool.and_eq_true, Bool.not_eq_true'] at hd
    exact h.tick x hd.1 hs
  | pulseEnd => exact h.pulse hs
  | deadtimeTick p =>
    simp only [isDue, Bool.and_eq_true] at hd
    exact h.clock p hd.1 hs
  | turnaround =>
    simp only [Machine.takeDue]
    split <;> first | exact hs | exact hf ⟨rfl, rfl, rfl, rfl, rfl, rfl, rfl⟩
  | completion =>
    simp only [Machine.takeDue]
    split <;> first | exact hs | exact h.completeReply _ hs
  | lineBreak => exact h.linkReset hs
  | gap => exact h.dropFrame _ hs
  | startBit =>
    simp only [Machine.takeDue, checkStart]
    split <;> exact hf ⟨rfl, rfl, rfl, rfl, rfl, rfl, rfl⟩
  | bitSample =>
    simp only [Machine.takeDue, sampleBit]
    split
    · split
      · exact hf ⟨rfl, rfl, rfl, rfl, rfl, rfl, rfl⟩
      · split
        · exact h.byteArrives _ hs
        · exact h.framingError hs
    · exact hs
    · exact hs
  | highForOneBit => exact hf ⟨rfl, rfl, rfl, rfl, rfl, rfl, rfl⟩

theorem runDue (h : BlocksKeep P) (fuel : Nat) (ds : List Due) {s : State} (hs : P s) : P (runDue fuel ds s) := by
  induction fuel generalizing ds s with
  | zero => exact hs
  | succ fuel ih =>
    unfold Machine.runDue
    split
    · exact hs
    · next d hd =>
      have hm : d ∈ ds.filter (isDue s) := by rw [hd]; exact List.mem_singleton.mpr rfl
      exact h.takeDue d (List.mem_filter.mp hm).2 hs
    · dsimp only
      split
      · next d hd =>
        have hm := List.mem_of_getElem? hd
        refine ih _ (h.takeDue d ?_ (h.frame hs ⟨rfl, rfl, rfl, rfl, rfl, rfl, rfl⟩))
        have := (List.mem_filter.mp hm).2
        cases d <;> exact this
      · exact hs

/-- A core period keeps the property. -/
theorem corePeriod (h : BlocksKeep P) {s : State} (hs : P s) : P (corePeriod s) := by
  unfold Machine.corePeriod
  split
  · exact hs
  · refine h.runDue _ _ ?_
    unfold quietSyncSample
    split
    · exact h.timers hs
    · next hn =>
      unfold sampleSyncIn
      rw [if_neg hn]
      exact h.syncCount _ (h.timers hs)

/-- Every step keeps the property. -/
theorem step (h : BlocksKeep P) {s t : State} (hs : P s) (he : step s = .next t) : P t := by
  unfold Machine.step at he
  split at he
  · injection he with he
    subst he
    exact h.corePeriod hs
  · exact h.exec he (h.frame hs ⟨rfl, rfl, rfl, rfl, rfl, rfl, rfl⟩)

end BlocksKeep

end Sys2Proof.Machine
end

