-- ==== Sys2Proof/WellFormed.lean ====
section
/-!
DEFINITION. Which commands name something that can reach the part: a payload fits a frame (R147), an UNKNOWN_KIND row's
kind names no request kind (R165), a BROADCAST_KIND row's kind is outside the broadcast list (R169), and a ticket id is
never 0 (R43).
-/

namespace Sys2Proof

/-- The payload of a frame is at most 60 bytes (R147). -/
def payloadFits (args : List Byte) : Bool := decide (args.length ≤ maxPayload)

/-- The check on each command; true for a command with no operand to check. -/
def Instr.wellFormed : Instr → Bool
  | .identify _ args => payloadFits args
  | .readStatus _ args => payloadFits args
  | .setLink _ args => payloadFits args
  | .resetController _ args => payloadFits args
  | .startTimebase _ args => payloadFits args
  | .stopTimebaseImmediate _ _ => true
  | .stopTimebaseAtBoundary _ _ => true
  | .readTimebase _ args => payloadFits args
  | .configureSync _ args => payloadFits args
  | .stageChannel _ args => payloadFits args
  | .stagePair _ args => payloadFits args
  | .stageTimebase _ args => payloadFits args
  | .readChannel _ args => payloadFits args
  | .readPair _ args => payloadFits args
  | .issueTicket _ args => payloadFits args
  | .cancelTicketById _ _ => true
  | .cancelTicketAll _ _ => true
  | .listTickets _ args => payloadFits args
  | .setOverride _ args => payloadFits args
  | .enableOutputs _ args => payloadFits args
  | .disableOutputsImmediate _ => true
  | .disableOutputsGraceful _ => true
  | .readOutputs _ args => payloadFits args
  | .configureTripInput _ args => payloadFits args
  | .defineRoute _ args => payloadFits args
  | .removeRoute _ args => payloadFits args
  | .clearTrip _ args => payloadFits args
  | .readTrips _ args _ => payloadFits args
  | .freezeProtection _ args => payloadFits args
  | .fetchNotices _ args => payloadFits args
  | .ackNotices _ args => payloadFits args
  | .setAttentionMask _ args => payloadFits args
  | .unknownKind _ kind args => payloadFits args && (requestLength kind).isNone
  | .retransmission _ _ args => payloadFits args
  | .broadcastKind _ kind args => payloadFits args && !broadcastAllowed kind
  | .checkFail => true
  | .frameForAnotherNode => true
  | .tooLong => true
  | .framing => true
  | .gap => true
  | .turnaround => true
  | .completion => true
  | .lineBreak => true
  | .powerOnReset => true
  | .endOfPowerOnReset _ => true
  | .tick _ => true
  | .expired id => id != 0
  | .syncOutPulseEnd => true
  | .qualifiedSyncInEdge => true
  | .inputAsserted _ => true
  | .inputQuiet _ => true
  | .deadtimeClockTick _ => true
  | .deadtimeDelayEnd _ => true
  | .syncInSample _ => true
  | .tripInputSample _ _ => true
  | .lineFallingEdge => true
  | .startBitConfirmed => true
  | .byteArrival _ => true
  | .lineRisingEdge => true
  | .lineHighForOneBitTime => true

end Sys2Proof
end

