-- ==== Sys2Proof/Tests/Slice0.lean ====
section
/-!
SUPPORT. Small tests on fixed values, and for every obligation with hypotheses a state and operands that meet them.
-/

namespace Sys2Proof.Machine.Tests

/-! ## Well-formed commands -/

def hd : Header := { cast := .addressed, tag := 1 }

theorem test_wellFormed_short_payload : (Instr.identify hd (List.replicate 60 0)).wellFormed = true := by decide
theorem test_illFormed_long_payload : (Instr.identify hd (List.replicate 61 0)).wellFormed = false := by decide
theorem test_illFormed_known_unknownKind : (Instr.unknownKind 1 0x01 []).wellFormed = false := by decide
theorem test_wellFormed_unknownKind : (Instr.unknownKind 1 0x70 [1, 2]).wellFormed = true := by decide
theorem test_illFormed_allowed_broadcastKind : (Instr.broadcastKind 1 0x11 [0, 0]).wellFormed = false := by decide
theorem test_wellFormed_broadcastKind : (Instr.broadcastKind 1 0x04 []).wellFormed = true := by decide
theorem test_illFormed_expired_zero : (Instr.expired 0).wellFormed = false := by decide

/-- The table gives its rows no bits (log 24). -/
theorem test_no_word_spells_a_command (n w : Nat) : decodeTableWord n w = none := rfl

/-! ## Frames and reset -/

/-- R183's own value: the check value of the bytes 0x31 to 0x39. -/
theorem test_checkValue :
    checkValue [0x31, 0x32, 0x33, 0x34, 0x35, 0x36, 0x37, 0x38, 0x39] = 0x29B1 := by decide +kernel

/-- IDENTIFY with tag 1 to node 7. -/
theorem test_identify_frame : frameBytes 0x5A 7 1 0x01 [] = [0x5A, 7, 1, 1, 0, 0xD1, 0xEC] := by decide +kernel

theorem test_reset_is_power_on : State.reset = poweredOn assumedContacts State.reset := by decide

/-! ## Small states -/

/-- State.reset after the line was high for one bit time. -/
def ready : State := State.reset.withLink { State.reset.link with highWait := none }

theorem ready_listens : Listening ready := ⟨rfl, rfl⟩

theorem uncached {s : State} (h : s.cache = []) (tag kind : Byte) (args : List Byte) : Unanswered s tag kind args := by
  intro e he
  rw [h] at he
  cases he

/-- Timebase A in a state, with a record, at a count. -/
def counting (st : TimebaseState) (r : TimebaseRecord) (n : Word16) (d : Direction) : State :=
  ready.setTimebase .a { Timebase.default with state := st, active := r, counter := n, direction := d }

def edge10 : TimebaseRecord := { period := 10, alignment := .edge, prescale := .by1, syncRestart := true }
def center10 : TimebaseRecord := { period := 10, alignment := .center, prescale := .by1, syncRestart := false }

/-- Timebase A in a state at rest. -/
def timebaseIn (st : TimebaseState) : State := counting st edge10 0 .up

def syncTicket : Ticket :=
  { id := 1, timebase := .a, condition := .sync, remaining := 0, deadline := some 1, syncSeen := false
    boundaryKind := .startOnly, channels := [(.ch0, .default)], pairs := [], record := none }

def afterTicket : Ticket := { syncTicket with id := 2, condition := .after 2, remaining := 2, deadline := none }

def queued (q : List Ticket) : State := ready.setQueue q

/-- Outputs that drain, P0 bound to a timebase: a drain over A's channels ends with all eight, or leaves those of P0. -/
def drainingWith (x : Tb) (s : State) : State :=
  (s.withPattern { s.pattern with pairs := s.pattern.pairs.set .p0 { PairRecord.default with timebase := x } }).setEnable
    .draining 0

/-- A request for a ticket of A that carries CH0. -/
def request : TicketRequest :=
  { timebase := .a, channels := 1, pairs := 0, record := false, condition := .after 1, boundaryKind := .startOnly
    deadline := none }

/-- A route of TRIP0 over CH0 in a state. -/
def routeIn (st : RouteState) (clearing : Clearing) : Route :=
  { input := .trip0, channels := 1, action := .hold, clearing := clearing, state := st
    held := if st = .armed then 0 else 1, count := if st = .armed then 0 else 1 }

/-- Route 0 as given, TRIP0 in a filtered state. -/
def routed (r : Option Route) (f : Filtered) (frozen : Bool) : State :=
  ready.withTrip
    { inputs := ready.trip.inputs.set .trip0 { TripInput.default with filtered := f, agreement := 3 }
      routes := ready.trip.routes.set .route0 r
      frozen := frozen }

/-- Pair P0 COMPLEMENTARY with deadtimes of 3 ticks; the outputs in an enable state; CH0 waiting on deadtime at a count. -/
def complementaryPair (e : Enable) (delay : Option Nat) : State :=
  (ready.withPattern
    { ready.pattern with
      pairs := ready.pattern.pairs.set .p0 { PairRecord.default with mode := .complementary, deadtimeEven := 3, deadtimeOdd := 3 }
      level := ready.pattern.level.set .ch0 .active }).withOutput
    { ready.output with
      enable := e
      overrides := ready.output.overrides.set .p0 (.complementary .none)
      channels := ready.output.channels.set .ch0
        { hold := .inactive, selected := .active, output := .inactive, delay := delay } }

/-- A pair record that keeps a pair COMPLEMENTARY and sets both deadtimes. -/
def withDeadtime (n : BitVec 10) : PairRecord :=
  { PairRecord.default with mode := .complementary, deadtimeEven := n, deadtimeOdd := n }

def linkNotice (token : Option Byte) : Notice :=
  { key := .link, count := 1, first := .link .gap, last := .link .gap, token := token }

def noticed (q : List Notice) : State := ready.withNotices { ready.notices with queue := q }

/-- A reply in the cache. -/
def entry (tag : Byte) : CacheEntry := { tag := tag, check := 0x1234, frame := [0xA5] }

/-- The entry of IDENTIFY with tag 1. -/
def identified : CacheEntry := { entry 1 with check := frameCheck 7 1 0x01 [] }

def cached (q : List CacheEntry) : State := ready.withCache q

def receiving (r : Receiver) : State := ready.withLink { ready.link with receiver := r, gapTimer := some 0 }

def replying (t : Transmitter) : State := ready.withLink { ready.link with transmitter := t }

def okReply (a : Option PendingAction) : Reply := { frame := [0xA5, 7, 1, 3, 1, 0, 0, 0], action := a }

/-! ## One command on a small state -/

/-- The state after a command. -/
def after (i : Instr) (s : State) : State :=
  match exec i s with
  | .next t => t
  | .fault _ | .refused _ => s

/-- The payload of the reply that the transmitter holds. -/
def payload (s : State) : List Byte :=
  match replyHeld s.link.transmitter with
  | some r => (r.frame.drop 5).take (r.frame.length - 7)
  | none => []

theorem test_identify :
    payload (after (.identify hd []) ready) = [0x00, 0x0E, 0x21, 0x53, 0x08, 0x01, 7, 0, 8, 2, 8, 16, 4, 8, 27] := by
  decide +kernel

theorem test_readStatus : payload (after (.readStatus hd []) ready) = [0, 0, 0, 0, 0, 16, 1, 1, 0, 0, 0] := by
  decide +kernel

/-- The RESET notice under token 1. -/
theorem test_fetchNotices :
    (payload (after (.fetchNotices hd [4]) ready)).take 6 = [0, 1, 1, 1, 0x80, 1]
      ∧ attention ready = true ∧ attention (after (.fetchNotices hd [4]) ready) = false := by
  decide +kernel

theorem test_retransmission_keeps_the_token :
    let s := after .completion (after .turnaround (after (.fetchNotices hd [4]) ready))
    (after (.retransmission 1 0x60 [4]) s).notices = s.notices
      ∧ payload (after (.retransmission 1 0x60 [4]) s) = payload (after (.fetchNotices hd [4]) ready) := by
  decide +kernel

theorem test_startTimebase_now :
    (after (.startTimebase hd [0, 0]) ready).timebases.get .a
      = { Timebase.default with state := .running, cycles := 1 } := by
  decide +kernel

theorem test_startTimebase_running : payload (after (.startTimebase hd [0, 0]) (timebaseIn .running)) = [4, 2] := by
  decide +kernel

theorem test_tick_edge :
    ((after (.tick .a) (counting .running edge10 9 .up)).timebases.get .a).counter = 0
      ∧ ((after (.tick .a) (counting .running edge10 9 .up)).timebases.get .a).cycles = 1 := by
  decide +kernel

theorem test_tick_center :
    ((after (.tick .a) (counting .running center10 10 .up)).timebases.get .a).counter = 9
      ∧ ((after (.tick .a) (counting .running center10 10 .up)).timebases.get .a).direction = .down := by
  decide +kernel

/-- The count that on_point 2 and off_point 5, and on_point 5 and off_point 2, make ACTIVE. -/
theorem test_edge_pulse :
    [0, 1, 2, 4, 5, 9].map (fun n => edgePulse 2 5 n) = [false, false, true, true, false, false]
      ∧ [0, 1, 2, 4, 5, 9].map (fun n => edgePulse 5 2 n) = [true, true, false, false, true, true]
      ∧ edgePulse 3 3 3 = false := by
  decide

theorem test_issueTicket :
    payload (after (.issueTicket hd (ticketBytes request 0 0)) ready) = [0, 1, 15]
      ∧ (after (.issueTicket hd (ticketBytes request 0 0)) ready).commit.nextId = 2 := by
  decide +kernel

theorem test_cancelTicketById : payload (after (.cancelTicketById hd 9) (queued [afterTicket])) = [6] := by
  decide +kernel

theorem test_walk_stops_at_the_first_not_ready :
    takeReady .a .start [afterTicket, { afterTicket with remaining := 0 }]
      = ([], [afterTicket, { afterTicket with remaining := 0 }]) := by
  decide

/-- A drained timebase that does not count ends the drain at once. -/
theorem test_disableOutputsGraceful :
    (after (.disableOutputsGraceful hd) (complementaryPair .enabled none)).output.enable = .disabled
      ∧ (after (.disableOutputsGraceful hd) ((timebaseIn .running).setEnable .enabled 0)).output.enable = .draining := by
  decide +kernel

theorem test_deadtime_tick :
    padOf (after (.deadtimeClockTick .p0) (complementaryPair .enabled (some 1))) .ch0 = .low
      ∧ padOf (after (.deadtimeClockTick .p0) (complementaryPair .enabled (some 2))) .ch0 = .high := by
  decide +kernel

/-- A ticket that lowers the deadtime to the count drives the output ACTIVE at its application, also where a younger ticket of the
same boundary raises the deadtime again; one that leaves it above the count does not (R119, R120). -/
theorem test_deadtime_compared_at_each_application :
    let s := complementaryPair .enabled (some 2)
    let ticket : BitVec 10 → Ticket := fun n => { afterTicket with pairs := [(.p0, withDeadtime n)], channels := [] }
    let applied : List Ticket → OutLevel := fun ts => (((applyTickets .a ts s).1.settle).output.channels.get .ch0).output
    applied [ticket 2, ticket 9] = .active ∧ applied [ticket 9, ticket 2] = .active ∧ applied [ticket 3, ticket 9] = .inactive := by
  decide +kernel

/-- A route of action HOLD trips while CH0 floats: it holds INACTIVE. -/
theorem test_inputAsserted :
    let t := after (.inputAsserted .trip0) (routed (some (routeIn .armed .latched)) .quiet false)
    t.trip.routes.get .route0 = some (routeIn .tripped .latched) ∧ (t.output.channels.get .ch0).hold = .inactive
      ∧ (t.notices.queue.map Notice.key) = [.reset, .trip .route0] := by
  decide +kernel

theorem test_clearTrip_still_active :
    payload (after (.clearTrip hd [0]) (routed (some (routeIn .tripped .latched)) .asserted false)) = [7]
      ∧ payload (after (.clearTrip hd [0]) (routed (some (routeIn .tripped .latched)) .quiet false)) = [0, 0] := by
  decide +kernel

theorem test_unknownKind : payload (after (.unknownKind 1 0x70 []) ready) = [1] := by decide +kernel

theorem test_broadcastKind :
    (after (.broadcastKind 1 0x04 []) ready).notices.queue.map Notice.key = [.reset, .link]
      ∧ (after (.broadcastKind 1 0x04 []) ready).link.transmitter = .idle := by
  decide +kernel

/-- SET LINK takes effect at the completion of its reply, and a break before that drops it. -/
theorem test_setLink :
    let s := after (.setLink hd [3, 1, 2]) ready
    s.link.settings = ready.link.settings
      ∧ (after .completion (after .turnaround s)).link.settings = { rate := .r2000000, turnaround := 1, gapLimit := 2 }
      ∧ (after .lineBreak s).link.settings = ready.link.settings := by
  decide +kernel

theorem test_resetController_and_break :
    let s := after .lineBreak (after (.resetController hd []) (timebaseIn .running))
    s.timebases.get .a = Timebase.default ∧ s.cache = [] ∧ s.notices.queue.map Notice.key = [.reset] := by
  decide +kernel

/-! ## Hypotheses that are met: the block and its frames -/

theorem witness_StepRunsFrontCommand :
    (ready.withPending [.tick .a, .tick .b]).pending = .tick .a :: [.tick .b] := rfl

theorem witness_EveryStepAnswersNextAndKeepsTheQueue :
    (∃ t, exec (.tick .a) ready = .next t) ∧ ready.pending = [] ∧ ∃ t, step ready = .next t :=
  ⟨⟨_, rfl⟩, rfl, ⟨_, rfl⟩⟩

/-- Payloads of 0 and 60 bytes, an addressed frame and a broadcast, and READ TRIPS with the pins as they are. -/
theorem witness_BytesOfAFrameMakeItsRow :
    (Listening ready ∧ ready.link.receiver = .hunt ∧ ready.link.highWait = none ∧ ready.link.nodeAddress ≠ 31)
      ∧ (requestFrame (.identify hd []) = some (hd, 0x01, []) ∧ withRowPins (.identify hd []) ready = ready)
      ∧ (requestFrame (.broadcastKind 1 0x70 (List.replicate 60 0)) = some (broadcastWith 1, 0x70, List.replicate 60 0)
        ∧ (List.replicate 60 (0 : Byte)).length ≤ 60
        ∧ withRowPins (.broadcastKind 1 0x70 (List.replicate 60 0)) ready = ready)
      ∧ requestFrame (.readTrips hd [] ready.pins.trip) = some (hd, 0x54, [])
      ∧ withRowPins (.readTrips hd [] ready.pins.trip) ready = ready :=
  ⟨⟨ready_listens, rfl, rfl, by decide⟩, ⟨rfl, rfl⟩, ⟨rfl, by decide, rfl⟩, rfl, rfl⟩

theorem witness_RequestsToADeafPartAreLost :
    requestFrame (.identify hd []) = some (hd, 0x01, []) ∧ ¬ Listening (ready.withInReset true)
      ∧ ¬ Listening (replying (.sending (okReply none) 0)) :=
  ⟨rfl, (fun h => nomatch h.1), (fun h => nomatch h.2)⟩

/-- An unknown kind; a payload one byte short and one byte long; a reserved encoding. -/
theorem witness_GeneralChecksInOrder :
    (requestFrame (.unknownKind 1 0x70 []) = some (hd, 0x70, []) ∧ Unanswered ready 1 0x70 [] ∧ requestLength 0x70 = none)
      ∧ (requestFrame (.fetchNotices hd []) = some (hd, 0x60, []) ∧ requestLength 0x60 = some 1
        ∧ requestFrame (.identify hd [0]) = some (hd, 0x01, [0]) ∧ requestLength 0x01 = some 0)
      ∧ (requestFrame (.fetchNotices hd [5]) = some (hd, 0x60, [5]) ∧ readRequest 0x60 [5] = none ∧ Listening ready)
      ∧ (0x63 : Byte) ∉ [0x01, 0x32, 0x41, 0x60, 0x61, 0x62] ∧ requestLength 0x63 = none :=
  ⟨⟨rfl, uncached rfl _ _ _, rfl⟩, ⟨rfl, rfl, rfl, rfl⟩, ⟨rfl, by decide +kernel, ready_listens⟩, by decide, rfl⟩

theorem witness_ReplyCache :
    (requestFrame (.identify hd []) = some (hd, 0x01, []) ∧ Listening (cached [identified])
        ∧ CacheSound (cached [identified]) ∧ identified ∈ (cached [identified]).cache
        ∧ identified.check = frameCheck (cached [identified]).link.nodeAddress 1 0x01 [])
      ∧ (([entry 1, entry 2, entry 3, entry 4].map CacheEntry.tag).Nodup
        ∧ ∀ d ∈ [entry 1, entry 2, entry 3, entry 4], d.tag ≠ (entry 5).tag)
      ∧ (∀ d ∈ [entry 1, entry 2, entry 3], d.tag ≠ (entry 5).tag)
      ∧ [entry 1, entry 2, entry 3] = [entry 1] ++ entry 2 :: [entry 3] :=
  ⟨⟨rfl, ⟨rfl, rfl⟩, ⟨by decide, by decide⟩, .head _, by decide +kernel⟩,
    ⟨by decide, by decide⟩, by decide, rfl⟩

/-- Each of the four kinds broadcast with a fault, a RUNNING timebase, and a ticket that carries nothing. -/
theorem witness_BroadcastsNotCarriedOut :
    requestFrame (.identify (broadcastWith 1) []) = some (broadcastWith 1, 0x01, [])
      ∧ requestFrame (.startTimebase (broadcastWith 1) [2, 0]) = some (broadcastWith 1, 0x11, [2, 0])
      ∧ readRequest 0x11 [2, 0] = none
      ∧ requestFrame (.stopTimebaseImmediate (broadcastWith 1) 2) = some (broadcastWith 1, 0x12, [2, 0])
      ∧ readRequest 0x12 [2, 0] = none
      ∧ requestFrame (.issueTicket (broadcastWith 1) [0]) = some (broadcastWith 1, 0x30, [0])
      ∧ requestLength 0x30 ≠ some [(0 : Byte)].length ∧ readRequest 0x42 [2] = none
      ∧ ((timebaseIn .running).timebases.get .a).state = .running ∧ Listening (timebaseIn .running)
      ∧ SpellsTicket { request with channels := 0 } (ticketBytes { request with channels := 0 } 0 0)
      ∧ ticketRefusal ready { request with channels := 0 } ≠ none :=
  ⟨rfl, rfl, rfl, rfl, rfl, rfl, by decide, rfl, rfl, ⟨rfl, rfl⟩, .inr ⟨rfl, rfl⟩, by decide⟩

theorem request_spelled : SpellsTicket request (ticketBytes request 0 0) := .inr ⟨rfl, rfl⟩
theorem request_sound : TicketFieldsSound request := ⟨by decide, by decide⟩

theorem witness_BroadcastsAreCarriedOut :
    ((timebaseIn .stopped).timebases.get .a).state = .stopped ∧ Listening (timebaseIn .stopped)
      ∧ ((timebaseIn .running).timebases.get .a).state = .running ∧ Listening (timebaseIn .running)
      ∧ SpellsTicket request (ticketBytes request 0 0) ∧ TicketFieldsSound request ∧ ticketRefusal ready request = none
      ∧ ready.output.enable = .disabled ∧ (complementaryPair .draining none).output.enable = .draining
      ∧ requestFrame (.disableOutputsImmediate (addressedTo 1)) = some (addressedTo 1, 0x42, [0])
      ∧ requestFrame (.disableOutputsImmediate (broadcastWith 1)) = some (broadcastWith 1, 0x42, [0])
      ∧ ∃ t r, exec (.disableOutputsImmediate (addressedTo 1)) ready = .next t
        ∧ replyHeld t.link.transmitter = some r ∧ r.frame[5]? = some 0x00 :=
  ⟨rfl, ⟨rfl, rfl⟩, rfl, ⟨rfl, rfl⟩, request_spelled, request_sound, by decide, rfl, rfl, rfl, rfl, _, _, rfl, rfl, rfl⟩

/-! ## Hypotheses that are met: reading, link and timebase requests -/

theorem witness_IdentifyAndStatusReplies :
    Listening ready ∧ Unanswered ready 1 0x01 [] ∧ Unanswered ready 1 0x02 [] :=
  ⟨ready_listens, uncached rfl _ _ _, uncached rfl _ _ _⟩

theorem witness_ReadingRequestsChangeNothing :
    Listening ready ∧ (∀ x, Unanswered ready 1 0x13 [tbByte x]) ∧ (∀ c, Unanswered ready 1 0x23 [chanByte c])
      ∧ (∀ p, Unanswered ready 1 0x24 [pairByte p]) ∧ Unanswered ready 1 0x32 [] ∧ Unanswered ready 1 0x43 []
      ∧ Unanswered ready 1 0x54 [] :=
  ⟨ready_listens, fun _ => uncached rfl _ _ _, fun _ => uncached rfl _ _ _, fun _ => uncached rfl _ _ _,
    uncached rfl _ _ _, uncached rfl _ _ _, uncached rfl _ _ _⟩

/-- The settings at both ends of their ranges. -/
theorem witness_SetLinkAndResetControllerWaitForTheirReply :
    Listening ready ∧ SettingsSound { rate := .r115200, turnaround := 1, gapLimit := 2 }
      ∧ SettingsSound { rate := .r2000000, turnaround := 15, gapLimit := 15 } ∧ Unanswered ready 1 0x03 [3, 15, 15]
      ∧ Unanswered ready 1 0x04 [] :=
  ⟨ready_listens, ⟨by decide, by decide, by decide, by decide⟩, ⟨by decide, by decide, by decide, by decide⟩,
    uncached rfl _ _ _, uncached rfl _ _ _⟩

/-- Timebase A in each of the four states. -/
theorem witness_StartAndStopWithoutBoundary :
    ∀ st, Listening (timebaseIn st) ∧ ((timebaseIn st).timebases.get .a).state = st
      ∧ (∀ mode, Unanswered (timebaseIn st) 1 0x11 [tbByte .a, mode]) ∧ Unanswered (timebaseIn st) 1 0x12 [tbByte .a, 1] :=
  fun _ => ⟨⟨rfl, rfl⟩, rfl, fun _ => uncached rfl _ _ _, uncached rfl _ _ _⟩

/-- From each state, with outputs that do not drain, that drain to the end, and that drain on. -/
theorem witness_StartNowProducesTheFirstBoundary :
    (∀ st, Listening (timebaseIn st) ∧ ((timebaseIn st).timebases.get .a).state = st
      ∧ Unanswered (timebaseIn st) 1 0x11 [tbByte .a, 0] ∧ (timebaseIn st).output.enable ≠ .draining)
      ∧ (∀ x st, let s := drainingWith x (timebaseIn st)
        Listening s ∧ (s.timebases.get .a).state = st ∧ Unanswered s 1 0x11 [tbByte .a, 0]
          ∧ s.output.enable = .draining)
      ∧ (∀ c, boundTo (drainingWith .a ready).pattern c = .a)
      ∧ inSet (drainingWith .b ready).output.drained .ch0 = false ∧ boundTo (drainingWith .b ready).pattern .ch0 ≠ .a :=
  ⟨fun _ => ⟨⟨rfl, rfl⟩, rfl, uncached rfl _ _ _, (by decide : Enable.disabled ≠ .draining)⟩, fun _ _ => ⟨⟨rfl, rfl⟩, rfl, uncached rfl _ _ _, rfl⟩,
    fun c => by cases c <;> rfl, by decide, by decide⟩

/-- A RUNNING timebase with a ticket pending while the outputs drain. -/
theorem witness_StopImmediateStopsAtOnce :
    let s := ((timebaseIn .running).setQueue [afterTicket]).setEnable .draining 0
    Listening s ∧ Unanswered s 1 0x12 [tbByte .a, 0] ∧ (s.timebases.get .a).state ≠ .stopped
      ∧ (∃ k ∈ s.commit.queue, k.timebase = .a) ∧ s.output.enable = .draining ∧ boundTo s.pattern .ch0 = .a
      ∧ boundTo (s.withPattern { s.pattern with
          pairs := s.pattern.pairs.set .p0 { PairRecord.default with timebase := .b } }).pattern .ch0 ≠ .a
      ∧ (s.timebases.get .b).state = .stopped
      ∧ (∀ k ∈ (timebaseIn .running).commit.queue, k.timebase ≠ .a)
      ∧ ∀ x, let s := drainingWith x (timebaseIn .running)
        Listening s ∧ Unanswered s 1 0x12 [tbByte .a, 0] ∧ (s.timebases.get .a).state ≠ .stopped
          ∧ s.output.enable = .draining
          ∧ (x = .a → ∀ c, boundTo s.pattern c = .a)
          ∧ (x = .b → inSet s.output.drained .ch0 = false ∧ boundTo s.pattern .ch0 ≠ .a) :=
  ⟨⟨rfl, rfl⟩, uncached rfl _ _ _, by decide, ⟨afterTicket, by decide, rfl⟩, rfl, rfl, by decide, rfl, by decide,
    fun _ => ⟨⟨rfl, rfl⟩, uncached rfl _ _ _, (by decide : TimebaseState.running ≠ .stopped), rfl, by rintro rfl c; cases c <;> rfl,
      by rintro rfl; exact ⟨by decide, by decide⟩⟩⟩

theorem witness_SyncConfigurationAndPulse :
    Listening ready ∧ ∀ source edge, Unanswered ready 1 0x14 [syncSourceByte source, syncEdgeByte edge] :=
  ⟨ready_listens, fun _ _ => uncached rfl _ _ _⟩

/-- EDGE one tick short of its end; CENTER one tick short of the turning point, at it, and at count 2 going down. -/
theorem witness_TickAdvancesTheCounter :
    ((counting .running edge10 8 .up).timebases.get .a).counter.toNat + 1
          < ((counting .running edge10 8 .up).timebases.get .a).active.period.toNat
      ∧ ((counting .stopping center10 8 .up).timebases.get .a).counter.toNat + 1
          < ((counting .stopping center10 8 .up).timebases.get .a).active.period.toNat
      ∧ ((counting .running center10 10 .up).timebases.get .a).counter
          = ((counting .running center10 10 .up).timebases.get .a).active.period
      ∧ 1 < ((counting .running center10 2 .down).timebases.get .a).counter.toNat
      ∧ (counting .running edge10 8 .up).inReset = false
      ∧ isStopped ((counting .running edge10 8 .up).timebases.get .a) = false
      ∧ isStopped ((timebaseIn .waitSync).timebases.get .a) = true :=
  ⟨by decide, by decide, by decide, by decide, rfl, rfl, rfl⟩

theorem witness_TickAtTheEndOfACycle :
    (counting .running edge10 9 .up).inReset = false ∧ ((counting .running edge10 9 .up).timebases.get .a).state = .running
      ∧ ((counting .running edge10 9 .up).timebases.get .a).active.period.toNat
          ≤ ((counting .running edge10 9 .up).timebases.get .a).counter.toNat + 1
      ∧ ((counting .running center10 1 .down).timebases.get .a).direction = .down
      ∧ ((counting .running center10 1 .down).timebases.get .a).counter = 1
      ∧ ((counting .running edge10 9 .up).setEnable .draining 0).output.enable = .draining
      ∧ (∀ c, boundTo (drainingWith .a (counting .running edge10 9 .up)).pattern c = .a)
      ∧ boundTo (drainingWith .b (counting .running edge10 9 .up)).pattern .ch0 ≠ .a :=
  ⟨rfl, rfl, by decide, rfl, rfl, rfl, fun c => by cases c <;> rfl, by decide⟩

theorem witness_StoppingCompletesAtTheBoundary :
    (counting .stopping edge10 9 .up).inReset = false
      ∧ ((counting .stopping edge10 9 .up).timebases.get .a).state = .stopping
      ∧ ((counting .stopping edge10 9 .up).timebases.get .a).active.period.toNat
          ≤ ((counting .stopping edge10 9 .up).timebases.get .a).counter.toNat + 1
      ∧ ((counting .stopping center10 1 .down).timebases.get .a).active.alignment = .center
      ∧ ((counting .stopping center10 1 .down).timebases.get .a).counter = 1
      ∧ (∃ k ∈ ((counting .stopping edge10 9 .up).setQueue [afterTicket]).commit.queue, k.timebase = .a)
      ∧ ∀ x, (drainingWith x (counting .stopping edge10 9 .up)).output.enable = .draining
        ∧ ((drainingWith x (counting .stopping edge10 9 .up)).timebases.get .a).state = .stopping :=
  ⟨rfl, rfl, by decide, rfl, rfl, ⟨afterTicket, by decide, rfl⟩, fun _ => ⟨rfl, rfl⟩⟩

theorem witness_TickAtTheTurningPoint :
    let s := counting .running center10 9 .up
    s.inReset = false ∧ isStopped (s.timebases.get .a) = false ∧ (s.timebases.get .a).active.alignment = .center
      ∧ (s.timebases.get .a).direction = .up
      ∧ (s.timebases.get .a).counter.toNat + 1 = (s.timebases.get .a).active.period.toNat :=
  ⟨rfl, rfl, rfl, rfl, rfl⟩

/-- SYNC IN LOW after 2 and after 3 samples at HIGH, with either edge selected. -/
def sampled (n : Nat) (e : SyncEdge) : State := ready.withSync { ready.sync with agreement := n, edge := e }

theorem witness_SyncInSamplesAndEdges :
    (ready.inReset = false ∧ Level.low = ready.sync.filtered)
      ∧ (Level.high ≠ (sampled 2 .rising).sync.filtered ∧ (sampled 2 .rising).sync.agreement < 3)
      ∧ (Level.high ≠ (sampled 3 .falling).sync.filtered ∧ (sampled 3 .falling).sync.agreement = 3
        ∧ Level.high ≠ edgeLevel (sampled 3 .falling).sync.edge)
      ∧ ((sampled 3 .rising).sync.agreement = 3 ∧ Level.high = edgeLevel (sampled 3 .rising).sync.edge)
      ∧ (∀ st, ((timebaseIn st).timebases.get .a).state = st
        ∧ ((timebaseIn st).timebases.get .a).active.syncRestart = true ∧ (timebaseIn st).inReset = false)
      ∧ ((counting .running center10 4 .up).timebases.get .a).active.syncRestart = false
      ∧ (ready.timebases.get .a).state = .stopped :=
  ⟨⟨rfl, rfl⟩, ⟨by decide, by decide⟩, ⟨by decide, rfl, by decide⟩, ⟨rfl, rfl⟩, fun _ => ⟨rfl, rfl, rfl⟩, rfl, rfl⟩

/-- A masked channel, an independent one, a secondary member, a stopped timebase, and both shapes. -/
theorem witness_PatternLevelFromCount :
    (({ ready.pattern with
        channels := ready.pattern.channels.set .ch0 { ChannelRecord.default with mask := true } } :
          PatternUnit).channels.get .ch0).mask = true
      ∧ (ready.pattern.channels.get .ch0).mask = false ∧ modeOf ready.pattern .ch0 = .independent
      ∧ modeOf (complementaryPair .enabled none).pattern .ch1 = .complementary ∧ isPrimary .ch1 = false
      ∧ isStopped (ready.timebases.get .a) = true
      ∧ ((counting .running edge10 0 .up).timebases.get .a).active.alignment = .edge
      ∧ ((counting .running center10 0 .up).timebases.get .a).active.alignment = .center :=
  ⟨rfl, rfl, rfl, rfl, rfl, rfl, rfl, rfl⟩

/-! ## Hypotheses that are met: staging and tickets -/

/-- Period 2; and each field one above its range. -/
theorem witness_StageRequestsReplaceTheRecord :
    Listening ready ∧ (∀ tag kind args, Unanswered ready tag kind args)
      ∧ 2 ≤ ({ edge10 with period := 2 } : TimebaseRecord).period.toNat
      ∧ 7 < (8 : Byte).toNat ∧ 1 < (2 : Byte).toNat ∧ 3 < (4 : Byte).toNat
      ∧ 1023 < (4 : Byte).toNat * 256 + (0 : Byte).toNat ∧ (0 : Byte).toNat * 256 + (1 : Byte).toNat < 2
      ∧ (3 : Byte).toNat ∉ [1, 2, 4, 8, 16, 32, 64, 128] :=
  ⟨ready_listens, fun _ _ _ => uncached rfl _ _ _, by decide, by decide, by decide, by decide, by decide, by decide,
    by decide⟩

/-- The next id is 255, and the ids 255 and 1 are pending. -/
def idsTaken : State :=
  ready.withCommit
    { ready.commit with queue := [{ afterTicket with id := 255 }, { afterTicket with id := 1 }], nextId := 255 }

/-- A request that passes every check, also where the first free id comes after 255 and 1; and one that each check refuses. -/
theorem witness_IssueTicket :
    (Listening ready ∧ SpellsTicket request (ticketBytes request 0 0) ∧ TicketFieldsSound request
        ∧ Unanswered ready 1 0x30 (ticketBytes request 0 0) ∧ CommitSound ready ∧ ticketRefusal ready request = none)
      ∧ ticketRefusal ready { request with channels := 0 } = some .badArgument
      ∧ ticketRefusal ready { request with deadline := some 1 } = some .badArgument
      ∧ ticketRefusal ready { request with record := true, boundaryKind := .any } = some .badArgument
      ∧ ticketRefusal (queued (List.replicate 8 afterTicket)) request = some .noRoom
      ∧ ticketRefusal (queued [{ afterTicket with channels := Chan.all.flatMap fun c => [(c, .default), (c, .default)] }])
          request = some .noRoom
      ∧ ticketRefusal ready { request with timebase := .b, channels := 0, pairs := 1 } = some .badArgument
      ∧ ticketRefusal ready { request with timebase := .b } = some .badArgument
      ∧ Listening idsTaken ∧ Unanswered idsTaken 1 0x30 (ticketBytes request 0 0) ∧ CommitSound idsTaken
      ∧ ticketRefusal idsTaken request = none
      ∧ (2 : Byte) = Nat.repeat (fun i => if i = 255 then 1 else i + 1) 2 idsTaken.commit.nextId
      ∧ ∀ k ∈ idsTaken.commit.queue, k.id ≠ 2 :=
  ⟨⟨ready_listens, request_spelled, request_sound, uncached rfl _ _ _,
      ⟨by decide, by decide, by decide, by decide, by decide⟩, by decide⟩,
    by decide, by decide, by decide, by decide, by decide, by decide, by decide,
    ⟨rfl, rfl⟩, uncached rfl _ _ _, ⟨by decide, by decide, by decide, by decide, by decide⟩, by decide, by decide, by decide⟩

theorem witness_CancelTicketBothForms :
    Listening (queued [afterTicket]) ∧ (∀ args, Unanswered (queued [afterTicket]) 1 0x31 args)
      ∧ (∃ t ∈ (queued [afterTicket]).commit.queue, t.id = 2) ∧ (∀ t ∈ (queued [afterTicket]).commit.queue, t.id ≠ 1)
      ∧ (1 : Byte) = tbByte .b ∧ 1 < (2 : Byte).toNat :=
  ⟨⟨rfl, rfl⟩, fun _ => uncached rfl _ _ _, ⟨afterTicket, by decide, rfl⟩, by decide, rfl, by decide⟩

/-- A ticket with a count of 1 that a START reaches, and one that is not concerned. -/
theorem witness_DecrementReadinessAndWalk :
    afterTicket.condition = .after 2 ∧ afterTicket.timebase = .a ∧ qualifies .start afterTicket.boundaryKind = true
      ∧ { afterTicket with remaining := 1 }.remaining ≠ 0 ∧ syncTicket.condition = .sync
      ∧ qualifies .mid afterTicket.boundaryKind = false
      ∧ ((takeReady .a .start [afterTicket]).2.filter fun t => t.timebase = .a).head? = some afterTicket
      ∧ { afterTicket with remaining := 0 } ∈ (takeReady .a .start [{ afterTicket with remaining := 0 }, afterTicket]).1 :=
  ⟨rfl, rfl, rfl, by decide, rfl, rfl, by decide, by decide⟩

theorem witness_DeadlinesExpire :
    (∀ t ∈ [syncTicket, afterTicket], t.deadline ≠ some 0) ∧ CommitSound (queued [afterTicket, syncTicket])
      ∧ (queued [afterTicket, syncTicket]).commit.queue = [afterTicket] ++ syncTicket :: []
      ∧ syncTicket.condition = .sync ∧ syncTicket.syncSeen = false ∧ syncTicket.deadline ≠ none :=
  ⟨by decide, ⟨by decide, by decide, by decide, by decide, by decide⟩, rfl, rfl, rfl, by decide⟩

/-- A ticket with one pair, a timebase record and one channel; pair records that change the mode to INDEPENDENT, with a member that
waits and one that does not, and to COMPLEMENTARY; and records that keep it: INDEPENDENT, and COMPLEMENTARY with a deadtime that
the count has reached and one that it has not. -/
theorem witness_ApplicationOfATicket :
    let t : Ticket := { afterTicket with pairs := [(.p1, .default)], record := some edge10 }
    (t.pairs.map Prod.fst).Nodup ∧ (t.channels.map Prod.fst).Nodup ∧ (Pair.p1, PairRecord.default) ∈ t.pairs
      ∧ Pair.p0 ∉ t.pairs.map Prod.fst ∧ t.record = some edge10 ∧ afterTicket.record = none
      ∧ (Chan.ch0, ChannelRecord.default) ∈ t.channels ∧ boundTo (applyTicket .a t ready).pattern .ch0 = .a
      ∧ boundTo (applyTicket .b t ready).pattern .ch0 ≠ .b
      ∧ (let s := complementaryPair .enabled (some 1)
        (s.pattern.pairs.get .p0).mode ≠ PairRecord.default.mode ∧ PairRecord.default.mode = .independent
          ∧ (s.output.channels.get .ch0).delay ≠ none ∧ (s.output.channels.get .ch1).delay = none
          ∧ pairOf .ch0 = .p0 ∧ pairOf .ch1 = .p0)
      ∧ (ready.pattern.pairs.get .p1).mode ≠ { PairRecord.default with mode := .complementary }.mode
      ∧ (ready.pattern.pairs.get .p1).mode = PairRecord.default.mode
      ∧ (let s := complementaryPair .enabled (some 1)
        (∀ n, (s.pattern.pairs.get .p0).mode = (withDeadtime n).mode) ∧ (s.output.channels.get .ch0).delay = some 1
          ∧ isPrimary .ch0 = true ∧ (withDeadtime 1).deadtimeEven.toNat ≤ 1 ∧ 1 < (withDeadtime 2).deadtimeEven.toNat) :=
  ⟨by decide, by decide, by decide, by decide, rfl, rfl, by decide, by decide, by decide,
    ⟨by decide, rfl, by decide, rfl, rfl, rfl⟩, by decide, rfl, ⟨fun _ => rfl, rfl, rfl, by decide, by decide⟩⟩

/-! ## Hypotheses that are met: outputs -/

theorem witness_EnableAndDisableOutputs :
    (∀ e, Listening (complementaryPair e none) ∧ (complementaryPair e none).output.enable = e
        ∧ ∀ kind args, Unanswered (complementaryPair e none) 1 kind args)
      ∧ (∀ c, isStopped (ready.timebases.get (boundTo ready.pattern c)) = true)
      ∧ ∃ c, isStopped ((timebaseIn .running).timebases.get (boundTo (timebaseIn .running).pattern c)) = false :=
  ⟨fun _ => ⟨⟨rfl, rfl⟩, rfl, fun _ _ => uncached rfl _ _ _⟩, fun c => by cases c <;> rfl, ⟨.ch0, rfl⟩⟩

theorem witness_SetOverrideChecksTheForm :
    let s := complementaryPair .enabled none
    Listening s ∧ (∀ p, entryFits (s.output.overrides.get p) (s.pattern.pairs.get p).mode = true)
      ∧ (∀ args, Unanswered s 1 0x40 args) ∧ modeOf s.pattern .ch0 = .complementary
      ∧ (s.pattern.pairs.get .p1).mode = .independent ∧ modeOf s.pattern .ch2 = .independent
      ∧ (s.pattern.pairs.get .p0).mode = .complementary :=
  ⟨⟨rfl, rfl⟩, fun p => by cases p <;> rfl, fun _ => uncached rfl _ _ _, rfl, rfl, rfl, rfl⟩

/-- Each enable state, and each governing action with the channel in the held set. -/
theorem witness_ForcingAndSelectionOrder :
    (∀ e, (complementaryPair e none).output.enable = e)
      ∧ ((complementaryPair .draining none).setEnable .draining 1).output.enable = .draining
      ∧ inSet ((complementaryPair .draining none).setEnable .draining 1).output.drained .ch0 = true
      ∧ inSet ((complementaryPair .draining none).setEnable .draining 1).output.drained .ch1 = false
      ∧ (∀ a, governing ready.pattern
          (ready.trip.routes.set .route0 (some { routeIn .tripped .auto with action := a })) .ch0 = some a)
      ∧ governing ready.pattern ready.trip.routes .ch0 = none
      ∧ overrideLevel (.complementary .evenActive) .ch0 = some .active
      ∧ overrideLevel (ready.output.overrides.get .p0) .ch0 = none ∧ isPrimary .ch0 = true ∧ isPrimary .ch1 = false :=
  ⟨fun _ => rfl, rfl, by decide, by decide, fun a => by cases a <;> decide, by decide, rfl, rfl, rfl, rfl⟩

/-- A rise that waits, before and at its deadtime; a level that is not ACTIVE; an output that is. -/
theorem witness_OutputsFollowWithDeadtime :
    selectLevel (complementaryPair .enabled (some 2)) .ch0 = .active
      ∧ modeOf (complementaryPair .enabled (some 2)).pattern .ch0 = .complementary
      ∧ ((complementaryPair .enabled (some 2)).output.channels.get .ch0).output ≠ .active
      ∧ ((complementaryPair .enabled (some 2)).output.channels.get .ch0).delay.getD 0
          < deadtimeOf (complementaryPair .enabled (some 2)).pattern .ch0
      ∧ deadtimeOf (complementaryPair .enabled (some 3)).pattern .ch0
          ≤ ((complementaryPair .enabled (some 3)).output.channels.get .ch0).delay.getD 0
      ∧ selectLevel (complementaryPair .enabled none) .ch1 ≠ .active
      ∧ modeOf (complementaryPair .enabled none).pattern .ch2 = .independent :=
  ⟨by decide, by decide, by decide, by decide, by decide, by decide, by decide⟩

/-- A rise that begins to wait takes its pair's deadtime clock back to 0, and no other clock. -/
theorem test_a_rise_starts_its_clock :
    let s := complementaryPair .enabled none
    let t := (s.withOutput { s.output with clocks := .ofFn fun _ => 5 }).settle
    (t.output.channels.get .ch0).delay = some 0 ∧ t.output.clocks.get .p0 = 0 ∧ t.output.clocks.get .p1 = 5 := by
  decide +kernel

/-- A rise that waits on a stopped timebase, one tick short of its deadtime of 3 and two short; a running timebase. -/
theorem witness_DeadtimeEvents :
    (∀ n, ((complementaryPair .enabled (some n)).output.channels.get .ch0).delay = some n)
      ∧ pairOf .ch0 = .p0 ∧ modeOf (complementaryPair .enabled (some 2)).pattern .ch0 = .complementary
      ∧ ((complementaryPair .enabled (some 2)).output.channels.get .ch0).output ≠ .active
      ∧ selectLevel (complementaryPair .enabled (some 2)) .ch0 = .active
      ∧ isStopped ((complementaryPair .enabled (some 2)).timebases.get .a) = true
      ∧ deadtimeOf (complementaryPair .enabled (some 2)).pattern .ch0 ≤ 2 + 1
      ∧ 1 + 1 < deadtimeOf (complementaryPair .enabled (some 1)).pattern .ch0
      ∧ (complementaryPair .enabled (some 2)).inReset = false
      ∧ isStopped ((timebaseIn .running).timebases.get ((timebaseIn .running).pattern.pairs.get .p0).timebase) = false :=
  ⟨fun _ => rfl, rfl, by decide, by decide, by decide, by decide, by decide, by decide, rfl, by decide⟩

/-! ## Hypotheses that are met: trip inputs and routes -/

/-- Both ends of the ranges, frozen and not. -/
theorem witness_ConfigureTripInput :
    let low : TripConfig := { level := .low, interval := 1, qualify := 1 }
    let high : TripConfig := { level := .high, interval := 256, qualify := 16 }
    1 ≤ low.interval ∧ 1 ≤ low.qualify ∧ high.interval ≤ 256 ∧ high.qualify ≤ 16
      ∧ ∀ f, Listening (routed none .quiet f) ∧ (routed none .quiet f).trip.frozen = f
        ∧ ∀ args, Unanswered (routed none .quiet f) 1 0x50 args :=
  ⟨by decide, by decide, by decide, by decide, fun _ => ⟨⟨rfl, rfl⟩, rfl, fun _ => uncached rfl _ _ _⟩⟩

theorem witness_DefineRoute :
    (∀ r f z, Listening (routed r f z) ∧ (routed r f z).trip.frozen = z ∧ (routed r f z).trip.routes.get .route0 = r
        ∧ ((routed r f z).trip.inputs.get .trip0).filtered = f ∧ ∀ args, Unanswered (routed r f z) 1 0x51 args)
      ∧ (routeIn .tripped .auto).state ≠ .armed ∧ (routeIn .armed .auto).state = .armed ∧ (routeIn .armed .auto).held = 0
      ∧ (0x01 : ChannelSet) ≠ 0 :=
  ⟨fun _ _ _ => ⟨⟨rfl, rfl⟩, rfl, rfl, rfl, fun _ => uncached rfl _ _ _⟩, by decide, rfl, rfl, by decide⟩

/-- The slot undefined, with an ARMED route and with a RELEASING one, frozen and not. -/
theorem witness_RemoveRouteAndFreeze :
    (∀ r f z, Listening (routed r f z) ∧ (routed r f z).trip.frozen = z ∧ (routed r f z).trip.routes.get .route0 = r
        ∧ Unanswered (routed r f z) 1 0x52 [slotByte .route0] ∧ Unanswered (routed r f z) 1 0x55 [])
      ∧ (routeIn .releasing .auto).state ≠ .armed ∧ (routeIn .armed .latched).state = .armed
      ∧ (routeIn .armed .latched).held = 0 :=
  ⟨fun _ _ _ => ⟨⟨rfl, rfl⟩, rfl, rfl, uncached rfl _ _ _, uncached rfl _ _ _⟩, by decide, rfl, rfl⟩

/-- A route in each state, its input in each state; a release that re-arms at once and one that waits for a timebase. -/
theorem witness_ClearTrip :
    (∀ r f, Listening (routed r f false) ∧ Unanswered (routed r f false) 1 0x53 [slotByte .route0]
        ∧ (routed r f false).trip.routes.get .route0 = r ∧ ((routed r f false).trip.inputs.get .trip0).filtered = f)
      ∧ (∀ st, (routeIn st .latched).state = st ∧ (routeIn st .latched).input = .trip0)
      ∧ (beginRelease (stoppedSet ready) (routeIn .tripped .latched)).state = .armed
      ∧ (beginRelease (stoppedSet (timebaseIn .running)) (routeIn .tripped .latched)).state = .releasing :=
  ⟨fun _ _ => ⟨⟨rfl, rfl⟩, uncached rfl _ _ _, rfl, rfl⟩, fun _ => ⟨rfl, rfl⟩, by decide, by decide⟩

/-- TRIP0 with qualify 4 after 3 and after 2 samples that disagree, QUIET and ASSERTED. -/
theorem witness_TripInputSamples :
    (∀ f, ((routed none f false).trip.inputs.get .trip0).filtered = f
        ∧ ((routed none f false).trip.inputs.get .trip0).config.level = .high
        ∧ ((routed none f false).trip.inputs.get .trip0).config.qualify
            ≤ ((routed none f false).trip.inputs.get .trip0).agreement + 1
        ∧ (routed none f false).inReset = false)
      ∧ (ready.trip.inputs.get .trip0).agreement + 1 < (ready.trip.inputs.get .trip0).config.qualify
      ∧ (ready.trip.inputs.get .trip0).filtered = .quiet ∧ (ready.trip.inputs.get .trip0).config.level = .high
      ∧ ready.inReset = false :=
  ⟨fun f => ⟨rfl, rfl, by cases f <;> decide, rfl⟩, by decide, rfl, rfl, rfl⟩

/-- A QUIET input with a route of its own in each state, an undefined slot, and a route of another input. -/
theorem witness_InputAssertedTripsItsRoutes :
    (∀ r, (routed r .quiet false).inReset = false ∧ ((routed r .quiet false).trip.inputs.get .trip0).filtered = .quiet
        ∧ (routed r .quiet false).trip.routes.get .route0 = r
        ∧ (routed r .quiet false).trip.routes.get .route1 = none)
      ∧ (routeIn .armed .auto).state ≠ .tripped ∧ (routeIn .releasing .auto).state ≠ .tripped
      ∧ (routeIn .tripped .auto).state = .tripped ∧ { routeIn .armed .auto with input := .trip1 }.input ≠ .trip0
      ∧ (let s := routed (some (routeIn .armed .auto)) .quiet false
        forcedWith s.pattern s.trip.routes .hold .ch0 = false
          ∧ forcedWith s.pattern (assertInput .trip0 s).trip.routes .hold .ch0 = true) :=
  ⟨fun _ => ⟨rfl, rfl, rfl, rfl⟩, by decide, by decide, rfl, by decide, by decide, by decide⟩

/-- An ASSERTED input with a TRIPPED route, AUTO and LATCHED; a held set that empties at once and one that does not. -/
theorem witness_InputQuietReleasesAutoRoutes :
    (∀ r, (routed r .asserted false).inReset = false
        ∧ ((routed r .asserted false).trip.inputs.get .trip0).filtered = .asserted
        ∧ (routed r .asserted false).trip.routes.get .route0 = r
        ∧ (routed r .asserted false).trip.routes.get .route1 = none)
      ∧ (∀ k, (routeIn .tripped k).state = .tripped ∧ (routeIn .tripped k).clearing = k)
      ∧ (quietRoute .trip0 (stoppedSet ready) (routeIn .tripped .auto)).held = 0
      ∧ (quietRoute .trip0 (stoppedSet (timebaseIn .running)) (routeIn .tripped .auto)).held ≠ 0 :=
  ⟨fun _ => ⟨rfl, rfl, rfl, rfl⟩, fun _ => ⟨rfl, rfl⟩, by decide, by decide⟩

theorem witness_ReleasingRouteGivesBack :
    (routeIn .tripped .auto).state ≠ .releasing ∧ (routeIn .releasing .auto).state = .releasing
      ∧ (releaseRoute 1 (routeIn .releasing .auto)).held = 0 ∧ (releaseRoute 2 (routeIn .releasing .auto)).held ≠ 0
      ∧ rearmNotices (ready.trip.routes.set .route0 (some (routeIn .releasing .latched)))
          (ready.trip.routes.set .route0 (some (releaseRoute 1 (routeIn .releasing .latched))))
        = [{ key := .rearm .route0, detail := .rearm .cleared }] :=
  ⟨by decide, rfl, by decide, by decide, by decide⟩

theorem witness_HoldLevelIsCapturedAtTheTrip :
    forcedWith ready.pattern ready.trip.routes .hold .ch0 = false
      ∧ forcedWith ready.pattern (ready.trip.routes.set .route0 (some (routeIn .tripped .auto))) .hold .ch0 = true :=
  ⟨by decide, by decide⟩

/-! ## Hypotheses that are met: notices -/

theorem witness_PostingAnEvent :
    (∀ n ∈ ready.notices.queue, n.key ≠ NoticeKey.link)
      ∧ (∀ token, token ≠ some 0 → NoticesSound (noticed [linkNotice token]))
      ∧ (∀ token, (noticed [linkNotice token]).notices.queue = [] ++ linkNotice token :: [])
      ∧ (linkNotice none).key = .link ∧ (linkNotice none).token = none ∧ (linkNotice (some 1)).token ≠ none :=
  ⟨by decide, fun t ht => ⟨by simp [noticed], (by decide : (1 : Byte) ≠ 0), fun n hn => by
      simp only [noticed, linkNotice, State.withNotices, List.mem_singleton] at hn
      subst hn
      exact ⟨(by decide : (1 : Byte) ≠ 0), ht, fun _ => rfl⟩⟩, fun _ => rfl, rfl, rfl, by decide⟩

/-- The numbers 0, 1, 4 and 5; an empty queue and one with a notice. -/
theorem witness_FetchNoticesStampsTheHead :
    (∀ q, Listening (noticed q) ∧ (noticed q).notices.queue = q ∧ ∀ n, Unanswered (noticed q) 1 0x60 [n])
      ∧ (0 : Byte).toNat = 0 ∧ 4 < (5 : Byte).toNat ∧ 1 ≤ (1 : Byte).toNat ∧ (4 : Byte).toNat ≤ 4
      ∧ [linkNotice none] ≠ [] :=
  ⟨fun _ => ⟨⟨rfl, rfl⟩, rfl, fun _ => uncached rfl _ _ _⟩, rfl, by decide, by decide, by decide, by decide⟩

theorem witness_AckMaskAndAttention :
    Listening ready ∧ (∀ kind args, Unanswered ready 1 kind args) ∧ 1 < (2 : Byte).toNat
      ∧ (0x1FF : ClassSet).toNat = (1 : Byte).toNat * 256 + (255 : Byte).toNat
      ∧ (0 : ClassSet).toNat = (0 : Byte).toNat * 256 + (0 : Byte).toNat :=
  ⟨ready_listens, fun _ _ => uncached rfl _ _ _, by decide, rfl, rfl⟩

/-! ## Hypotheses that are met: the link and power-on -/

theorem witness_DamagedFramesAreReported :
    Listening ready ∧ ready.link.highWait = none ∧ ready.link.receiver = .hunt ∧ ready.link.gapTimer = none
      ∧ Listening (receiving .headerAddress) ∧ (receiving .headerAddress).link.receiver ≠ .hunt
      ∧ (receiving .headerAddress).link.gapTimer ≠ none ∧ (receiving .headerAddress).link.highWait = none :=
  ⟨ready_listens, rfl, rfl, rfl, ⟨rfl, rfl⟩, by decide, by decide, rfl⟩

/-- Every state of the receiver; lengths 0, 1, 60 and 61; a payload with one byte to come and with two; a check value that differs,
and that of a good frame for node 8, where the part is node 7. -/
theorem witness_ReceiverTakesBytes :
    (∀ r, Listening (receiving r) ∧ (receiving r).link.highWait = none ∧ (receiving r).link.receiver = r)
      ∧ (0x5B : Byte) ≠ 0x5A ∧ 1 ≤ (1 : Byte).toNat ∧ (60 : Byte).toNat ≤ 60 ∧ 60 < (61 : Byte).toNat
      ∧ [(0 : Byte)].length + 1 < (⟨7, 1, 1, 3⟩ : FrameHead).length.toNat
      ∧ [(0 : Byte), 0].length + 1 = (⟨7, 1, 1, 3⟩ : FrameHead).length.toNat
      ∧ checkValue [7, 1, 1, 0] ≠ word16 0xD1 0xED ∧ word16 0xD1 0xED ≠ frameCheck 7 1 1 []
      ∧ checkValue [8, 1, 1, 0] = frameCheck 8 1 1 [] ∧ (8 : Byte) ≠ ready.link.nodeAddress ∧ (8 : Byte) ≠ 31
      ∧ Listening ready ∧ ready.link.receiver = .hunt ∧ ready.link.highWait = none
      ∧ (List.replicate 60 (0 : Byte)).length ≤ 60 :=
  ⟨fun _ => ⟨⟨rfl, rfl⟩, rfl, rfl⟩, by decide, by decide, by decide, by decide, by decide, by decide,
    by decide +kernel, by decide +kernel, rfl, by decide, by decide, ready_listens, rfl, rfl, by decide⟩

/-- A reply with no action, with settings, and with a controller reset, in TURNAROUND and SENDING. -/
theorem witness_TransmitterSendsAndSettles :
    ∀ a, (replying (.turnaround (okReply a) 0 2)).link.transmitter = .turnaround (okReply a) 0 2
      ∧ (replying (.sending (okReply a) 0)).link.transmitter = .sending (okReply a) 0 ∧ (okReply a).action = a :=
  fun _ => ⟨rfl, rfl, rfl⟩

theorem witness_BreakResetsTheLink :
    (ready.withInReset true).inReset = true ∧ dirHigh (replying (.sending (okReply none) 0)) = true
      ∧ (∀ a, (replying (.turnaround (okReply a) 0 2)).inReset = false
        ∧ dirHigh (replying (.turnaround (okReply a) 0 2)) = false
        ∧ (replying (.turnaround (okReply a) 0 2)).link.breakSeen = false
        ∧ replyHeld (replying (.turnaround (okReply a) 0 2)).link.transmitter = some (okReply a))
      ∧ ∀ r, replyHeld ready.link.transmitter = some r → r.action ≠ some .controllerReset :=
  ⟨rfl, rfl, fun _ => ⟨rfl, rfl, rfl, rfl⟩, fun _ h => by cases h⟩

/-- A line that is high and one that fell; a part that listens, one in TURNAROUND and one that waits for a high line. -/
theorem witness_LineEventsAndStartBit :
    (ready.inReset = false ∧ ready.pins.line = .high ∧ Listening ready ∧ ready.link.highWait = none
        ∧ ready.link.bits = .waiting)
      ∧ (let t := replying (.turnaround (okReply none) 0 2)
        t.inReset = false ∧ t.pins.line = .high ∧ dirHigh t = false ∧ ¬ Listening t)
      ∧ State.reset.link.highWait ≠ none ∧ dirHigh State.reset = false
      ∧ (let s := (ready.withLink { ready.link with bits := .edge 20, lowTime := some 20 }).withPins
          { ready.pins with line := .low }
        s.inReset = false ∧ Listening s ∧ s.link.highWait = none ∧ s.link.bits = .edge 20 ∧ s.link.lowTime ≠ none
          ∧ s.pins.line = .low) :=
  ⟨⟨rfl, rfl, ready_listens, rfl, rfl⟩, ⟨rfl, rfl, rfl, fun h => nomatch h.2⟩, by decide, rfl,
    ⟨rfl, ⟨rfl, rfl⟩, rfl, rfl, by decide, rfl⟩⟩

/-- Straps 0, 31 and both ends of the valid range. -/
theorem witness_PowerOnReset :
    (({ assumedContacts with address := 0 } : Contacts).address = 0)
      ∧ ({ assumedContacts with address := 31 } : Contacts).address = 31
      ∧ (1 : BitVec 5) ≠ 0 ∧ (1 : BitVec 5) ≠ 31 ∧ (30 : BitVec 5) ≠ 0 ∧ (30 : BitVec 5) ≠ 31 :=
  ⟨rfl, rfl, by decide, by decide, by decide, by decide⟩

/-! ## Hypotheses that are met: invariants -/

theorem witness_CacheStaysSound : CacheSound (cached [entry 1]) ∧ ∃ t, step (cached [entry 1]) = .next t :=
  ⟨⟨by decide, by decide⟩, _, rfl⟩

theorem witness_NoticesStaySound : NoticesSound ready ∧ ∃ t, step ready = .next t :=
  ⟨⟨by decide, by decide, by decide⟩, _, rfl⟩

theorem witness_CommitQueueStaysSound :
    CommitSound (queued [afterTicket, syncTicket]) ∧ ∃ t, step (queued [afterTicket, syncTicket]) = .next t :=
  ⟨⟨by decide, by decide, by decide, by decide, by decide⟩, _, rfl⟩

/-- A CENTER timebase on its way down. -/
theorem witness_TimebasesStaySound :
    TimebasesSound (counting .running center10 1 .down) ∧ ∃ t, step (counting .running center10 1 .down) = .next t := by
  refine ⟨⟨fun x => ?_, fun x => ?_, fun t h => (nomatch h)⟩, _, rfl⟩
  · cases x <;> (refine ⟨?_, ?_, ?_, ?_, ?_⟩ <;> decide)
  · cases x <;> decide

/-- A TRIPPED AUTO route of an ASSERTED input. -/
theorem witness_TripsStaySound :
    TripSound (routed (some (routeIn .tripped .auto)) .asserted true)
      ∧ ∃ t, step (routed (some (routeIn .tripped .auto)) .asserted true) = .next t := by
  refine ⟨⟨fun i => ?_, fun n r h => ?_⟩, _, rfl⟩
  · cases i <;> (refine ⟨?_, ?_, ?_, ?_, ?_⟩ <;> decide)
  · cases n <;> cases h
    refine ⟨?_, ?_, ?_, ?_⟩ <;> decide

/-- A reply with pending settings in TURNAROUND. -/
theorem witness_LinkStaysSound :
    let s := replying (.turnaround (okReply (some (.settings { rate := .r115200, turnaround := 15, gapLimit := 2 }))) 0 2)
    LinkSound s ∧ ∃ t, step s = .next t := by
  refine ⟨⟨?_, by decide, by decide, ?_, by decide, by decide⟩, _, rfl⟩
  · refine ⟨?_, ?_, ?_, ?_⟩ <;> decide
  · intro r v h hv
    cases h
    cases hv
    refine ⟨?_, ?_, ?_, ?_⟩ <;> decide

/-- A COMPLEMENTARY pair whose primary waits on deadtime. -/
theorem witness_OutputsStaySound :
    OutputsSound (complementaryPair .enabled (some 1)).settle
      ∧ ∃ t, step (complementaryPair .enabled (some 1)).settle = .next t := by
  refine ⟨⟨by decide, by decide, ?_, ?_, ?_, fun t h => (nomatch h)⟩, _, rfl⟩
  · intro h
    exact absurd h (by decide)
  · intro p
    cases p <;> decide
  · intro c
    cases c <;> (refine ⟨fun _ => ⟨?_, ?_, ?_⟩, ?_, ?_⟩ <;> decide)

/-- Timebase A at count 3 of 10, CH0 ACTIVE from 2 to 5 and the outputs ENABLED. -/
def pulsing : State :=
  let s := counting .running edge10 3 .up
  ((s.withPattern
    { s.pattern with
      channels := s.pattern.channels.set .ch0 { onPoint := 2, offPoint := 5, invert := false, mask := false } }).setEnable
    .enabled 0).redrive .a

theorem witness_LevelsAndSelectionsStayCurrent :
    TripSound pulsing ∧ LevelsSound pulsing ∧ (pulsing.output.channels.get .ch0).selected = .active
      ∧ ∃ t, step pulsing = .next t := by
  refine ⟨⟨fun i => ?_, fun n r h => ?_⟩, ⟨fun c => ?_, fun t h => (nomatch h)⟩, by decide +kernel, _, rfl⟩
  · cases i <;> (refine ⟨?_, ?_, ?_, ?_, ?_⟩ <;> decide)
  · cases n <;> cases h
  · cases c <;> decide +kernel

/-! ## Hypotheses that are met: the core period -/

/-- On an empty queue, with RST high and a sound link, one event alone falls due. -/
def OnlyDue (s : State) (d : Due) : Prop :=
  s.pending = [] ∧ s.inReset = false ∧ LinkSound s ∧ FallsDue (countTimers s) d ∧ ∀ e, FallsDue (countTimers s) e → e = d

theorem onlyDue_of {s : State} {d : Due} (hp : s.pending = []) (hr : s.inReset = false) (hl : LinkSound s)
    (h : allDue.filter (isDue (countTimers s)) = [d]) : OnlyDue s d := by
  have hm : ∀ e, FallsDue (countTimers s) e ↔ e = d := by
    intro e
    have he : e ∈ allDue.filter (isDue (countTimers s)) ↔ e = d := by rw [h]; exact List.mem_singleton
    rw [fallsDue_iff, ← he, List.mem_filter]
    exact ⟨fun hd => ⟨mem_allDue e, hd⟩, fun hd => hd.2⟩
  exact ⟨hp, hr, hl, (hm d).mpr rfl, fun e => (hm e).mp⟩

/-- A link with the settings and address of power-on that holds no pending settings. -/
theorem linkSound_of {s : State} (hs : s.link.settings = ready.link.settings) (ha : s.link.nodeAddress = ready.link.nodeAddress)
    (hr : ∀ r, replyHeld s.link.transmitter = some r → r.action = none)
    (hh : s.link.transmitter ≠ .idle ∨ s.link.highWait ≠ none → s.link.receiver = .hunt ∧ s.link.bits = .waiting)
    (hg : s.link.receiver = .hunt → s.link.gapTimer = none) : LinkSound s := by
  refine ⟨?_, ?_, ?_, fun r v h1 h2 => ?_, hh, hg⟩
  · rw [hs]; refine ⟨?_, ?_, ?_, ?_⟩ <;> decide
  · rw [ha]; decide
  · rw [ha]; decide
  · rw [hr r h1] at h2; cases h2

theorem ready_link_sound {s : State} (h : s.link = ready.link) : LinkSound s := by
  refine linkSound_of (by rw [h]) (by rw [h]) ?_ ?_ ?_ <;> rw [h]
  · exact fun _ h => nomatch h
  · exact fun h => h.elim (fun h => (h rfl).elim) (fun h => (h rfl).elim)
  · exact fun _ => rfl

/-- Nothing is due after reset. For each event, a state in which it alone is due: the fourth SYNC IN sample, a trip sample, a tick, the
pulse's end, a deadtime tick, the turnaround, the completion, a break, a gap, both levels at the check of a start bit, the first
and the last data bit and the stop bit, and the end of the wait for a high line. -/
theorem witness_CorePeriodCountsAndTakesWhatFallsDue :
    (ready.pending = [] ∧ ready.inReset = false ∧ LinkSound ready ∧ (∀ d, ¬ FallsDue (countTimers ready) d)
        ∧ (ready.withInReset true).pending = [] ∧ (ready.withInReset true).inReset = true)
      ∧ OnlyDue ((sampled 3 .rising).withPins { ready.pins with syncIn := .high }) .syncLevel
      ∧ OnlyDue (ready.setInput .trip0 { TripInput.default with timer := 3 }) (.tripSample .trip0)
      ∧ OnlyDue (timebaseIn .running) (.tick .a)
      ∧ OnlyDue (ready.withSync { ready.sync with pulse := some 7 }) .pulseEnd
      ∧ OnlyDue (complementaryPair .enabled (some 1)) (.deadtimeTick .p0)
      ∧ OnlyDue (replying (.turnaround (okReply none) (2 * byteTime ready - 1) 2)) .turnaround
      ∧ OnlyDue (replying (.sending (okReply none) (8 * byteTime ready - 1))) .completion
      ∧ OnlyDue ((ready.withLink { ready.link with lowTime := some (20 * bitPeriods ready.link.settings.rate - 1) }).withPins
          { ready.pins with line := .low }) .lineBreak
      ∧ OnlyDue (ready.withLink { ready.link with receiver := .headerAddress, gapTimer := some (4 * byteTime ready - 1) }) .gap
      ∧ (∀ l, OnlyDue ((ready.withLink
          { ready.link with bits := .edge (bitPeriods ready.link.settings.rate / 2 - 1) }).withPins
            { ready.pins with line := l }) .startBit)
      ∧ (∀ l, ∀ n ∈ [0, 7, 8], OnlyDue ((ready.withLink
          { ready.link with bits := .sampling n 0 (bitPeriods ready.link.settings.rate - 1) }).withPins
            { ready.pins with line := l }) .bitSample)
      ∧ OnlyDue (ready.withLink { ready.link with highWait := some (bitPeriods ready.link.strapRate - 1) }) .highForOneBit := by
  refine ⟨⟨rfl, rfl, ready_link_sound rfl, fun d hd => ?_, rfl, rfl⟩, ?_, ?_, ?_, ?_, ?_, ?_, ?_, ?_, ?_, fun l => ?_,
    fun l n hn => ?_, ?_⟩
  · have hm := List.mem_filter.mpr ⟨mem_allDue d, (fallsDue_iff _ d).mp hd⟩
    rw [show allDue.filter (isDue (countTimers ready)) = [] by decide +kernel] at hm
    cases hm
  · exact onlyDue_of rfl rfl (ready_link_sound rfl) (by decide +kernel)
  · exact onlyDue_of rfl rfl (ready_link_sound rfl) (by decide +kernel)
  · exact onlyDue_of rfl rfl (ready_link_sound rfl) (by decide +kernel)
  · exact onlyDue_of rfl rfl (ready_link_sound rfl) (by decide +kernel)
  · exact onlyDue_of rfl rfl (ready_link_sound rfl) (by decide +kernel)
  · exact onlyDue_of rfl rfl (linkSound_of rfl rfl (fun r h => by cases h; rfl) (fun _ => ⟨rfl, rfl⟩) fun _ => rfl)
      (by decide +kernel)
  · exact onlyDue_of rfl rfl (linkSound_of rfl rfl (fun r h => by cases h; rfl) (fun _ => ⟨rfl, rfl⟩) fun _ => rfl)
      (by decide +kernel)
  · exact onlyDue_of rfl rfl (linkSound_of rfl rfl (fun r h => nomatch h) (fun _ => ⟨rfl, rfl⟩) fun _ => rfl)
      (by decide +kernel)
  · exact onlyDue_of rfl rfl (linkSound_of rfl rfl (fun r h => nomatch h)
      (fun h => h.elim (fun h => (h rfl).elim) (fun h => (h rfl).elim)) fun h => nomatch h) (by decide +kernel)
  · exact onlyDue_of rfl rfl (linkSound_of rfl rfl (fun r h => nomatch h)
      (fun h => h.elim (fun h => (h rfl).elim) (fun h => (h rfl).elim)) fun _ => rfl) (by cases l <;> decide +kernel)
  · refine onlyDue_of rfl rfl (linkSound_of rfl rfl (fun r h => nomatch h)
      (fun h => h.elim (fun h => (h rfl).elim) (fun h => (h rfl).elim)) fun _ => rfl) ?_
    simp only [List.mem_cons, List.not_mem_nil, or_false] at hn
    rcases hn with rfl | rfl | rfl <;> cases l <;> decide +kernel
  · exact onlyDue_of rfl rfl (linkSound_of rfl rfl (fun r h => nomatch h) (fun _ => ⟨rfl, rfl⟩) fun _ => rfl)
      (by decide +kernel)

end Sys2Proof.Machine.Tests
end

section
/-!
PROOFS (01_timebases_and_boundaries.md): what a boundary, a stop and a SYNC IN edge do to the timebases and to the queue, and the
invariant of the timebases.
-/

namespace Sys2Proof.Machine

/-! ## One of the two timebases -/

theorem otherTb_ne (x : Tb) : otherTb x ≠ x := by cases x <;> decide

theorem eq_otherTb_of_ne {x y : Tb} (h : y ≠ x) : y = otherTb x := by
  revert h
  cases x <;> cases y <;> decide

@[simp] theorem TbFile.set_set {α : Type} (f : TbFile α) (x : Tb) (v w : α) : (f.set x v).set x w = f.set x w := by
  refine TbFile.ext fun y => ?_
  simp only [TbFile.get_set]
  split <;> rfl

@[simp] theorem State.setTimebase_timebases (s : State) (x : Tb) (t : Timebase) :
    (s.setTimebase x t).timebases = s.timebases.set x t := rfl

@[simp] theorem State.setQueue_commit (s : State) (q : List Ticket) :
    (s.setQueue q).commit = { s.commit with queue := q } := rfl

@[simp] theorem State.setEnable_output (s : State) (e : Enable) (d : ChannelSet) :
    (s.setEnable e d).output = { s.output with enable := e, drained := d } := rfl

/-! ## A START boundary, on the timebases and on the queue (R5, R6, R10) -/

/-- A timebase with one more cycle counted and the records of the tickets taken at its START boundary active (R6, R56). -/
def cycled (x : Tb) (s : State) : Timebase :=
  { s.timebases.get x with
    cycles := (s.timebases.get x).cycles + 1
    active := lastRecord (s.timebases.get x).active (takenAt x .start s.commit.queue) }

theorem startBoundary_timebases_running {x : Tb} {s : State} (ticked : Bool) (h : (s.timebases.get x).state ≠ .stopping) :
    (startBoundary x ticked s).1.timebases = s.timebases.set x (cycled x s) := by
  rw [startBoundary_running ticked h, takeStart_timebases]
  rfl

theorem startBoundary_timebases_stopping {x : Tb} {s : State} (ticked : Bool)
    (h : (s.timebases.get x).state = .stopping) :
    (startBoundary x ticked s).1.timebases = s.timebases.set x (stopAtZero (cycled x s)) := by
  rw [startBoundary_stopping ticked h]
  simp [cycled]

/-- A START boundary of X leaves the other timebase as it is. -/
theorem startBoundary_timebases_other {x y : Tb} (ticked : Bool) (s : State) (h : y ≠ x) :
    (startBoundary x ticked s).1.timebases.get y = s.timebases.get y := by
  by_cases hs : (s.timebases.get x).state = .stopping
  · simp [startBoundary_timebases_stopping ticked hs, h]
  · simp [startBoundary_timebases_running ticked hs, h]

theorem startBoundary_commit_running {x : Tb} {s : State} (ticked : Bool) (h : (s.timebases.get x).state ≠ .stopping) :
    (startBoundary x ticked s).1.commit = { s.commit with queue := leftAt x .start s.commit.queue } := by
  rw [startBoundary_running ticked h, takeStart_commit]

/-- The stop that completes at a START boundary leaves pending the tickets of the other timebase, and no other (R10, R53). -/
theorem startBoundary_commit_stopping {x : Tb} {s : State} (ticked : Bool)
    (h : (s.timebases.get x).state = .stopping) :
    (startBoundary x ticked s).1.commit = { s.commit with queue := withoutTickets x s.commit.queue } := by
  rw [startBoundary_stopping ticked h, completeStop_commit, takeStart_commit]
  exact congrArg (fun q => { s.commit with queue := q }) (leftAt_others x .start s.commit.queue)

theorem filter_own_eq {x y : Tb} (h : y ≠ x) (q : List Ticket) :
    (q.filter fun k => k.timebase = y) = q.filter fun k => k.timebase ≠ x := by
  refine List.filter_congr fun k _ => ?_
  obtain rfl := eq_otherTb_of_ne h
  cases hk : k.timebase <;> cases x <;> rfl

/-- A START boundary of X leaves the tickets of the other timebase pending, as they are. -/
theorem startBoundary_queue_other {x y : Tb} (ticked : Bool) (s : State) (h : y ≠ x) :
    ((startBoundary x ticked s).1.commit.queue.filter fun k => k.timebase = y)
      = s.commit.queue.filter fun k => k.timebase = y := by
  rw [filter_own_eq h, filter_own_eq h]
  by_cases hs : (s.timebases.get x).state = .stopping
  · rw [startBoundary_commit_stopping ticked hs]
    simp [withoutTickets]
  · rw [startBoundary_commit_running ticked hs]
    exact leftAt_others x .start s.commit.queue

/-! ## Records that tickets carry (R12, R38, R44) -/

/-- A ticket's timebase record, if it carries one, waits for a START boundary and has a period of at least 2. -/
def RecordWaits (t : Ticket) : Prop := ∀ r, t.record = some r → t.boundaryKind = .startOnly ∧ 2 ≤ r.period.toNat

/-- A queue whose tickets are some of those of another, but for countdown, deadline and SYNC mark. -/
theorem recordsWait_of_fixed {q q' : List Ticket} (h : (q'.map Ticket.fixed).Sublist (q.map Ticket.fixed))
    (hq : ∀ t ∈ q, RecordWaits t) : ∀ t ∈ q', RecordWaits t := by
  intro t ht
  obtain ⟨k, hk, e⟩ := List.mem_map.mp (h.subset (List.mem_map_of_mem ht))
  have hw : RecordWaits k.fixed := hq k hk
  rw [e] at hw
  exact hw

theorem takenAt_subset (x : Tb) (b : Boundary) (q : List Ticket) : takenAt x b q ⊆ q.map (countDown x b) := by
  intro t ht
  have hm : t ∈ takenAt x b q ++ (takeReady x b (q.map (countDown x b))).2.filter fun t => t.timebase = x :=
    List.mem_append_left _ ht
  rw [takenAt, ← takeReady_own] at hm
  exact (List.mem_filter.mp hm).1

theorem takenAt_recordWaits (x : Tb) (b : Boundary) {q : List Ticket} (hq : ∀ t ∈ q, RecordWaits t) :
    ∀ t ∈ takenAt x b q, RecordWaits t := by
  intro t ht
  obtain ⟨k, hk, e⟩ := List.mem_map.mp (takenAt_subset x b q ht)
  have hw : RecordWaits (countDown x b k).fixed := by rw [fixed_countDown]; exact hq k hk
  rw [e] at hw
  exact hw

/-- No ticket that a MID boundary applies carries a timebase record (R44, R48). -/
theorem takenAt_mid_record (x : Tb) {q : List Ticket} (hq : ∀ t ∈ q, RecordWaits t) :
    ∀ t ∈ takenAt x .mid q, t.record = none := by
  intro t ht
  have hready := (takeReady_taken x .mid _ t ht).2
  cases hr : t.record with
  | none => rfl
  | some r =>
    have hk := (takenAt_recordWaits x .mid hq t ht r hr).1
    simp [isReady, qualifies, hk] at hready

theorem lastRecord_period {l : List Ticket} {active : TimebaseRecord} (ha : 2 ≤ active.period.toNat)
    (hl : ∀ t ∈ l, RecordWaits t) : 2 ≤ (lastRecord active l).period.toNat := by
  induction l generalizing active with
  | nil => exact ha
  | cons t l ih =>
    refine ih ?_ fun k hk => hl k (List.mem_cons_of_mem _ hk)
    cases hr : t.record with
    | none => exact ha
    | some r => exact (hl t List.mem_cons_self r hr).2

theorem lastRecord_of_none {l : List Ticket} (active : TimebaseRecord) (hl : ∀ t ∈ l, t.record = none) :
    lastRecord active l = active := by
  induction l with
  | nil => rfl
  | cons t l ih =>
    rw [lastRecord, hl t List.mem_cons_self, Option.getD_none]
    exact ih fun k hk => hl k (List.mem_cons_of_mem _ hk)

/-! ## Timebases in the range of their shape (R1 to R4, R9) -/

/-- A timebase at count 0 going up is in the range of either shape, whatever record of a period of at least 2 is active. -/
theorem countSound_atZero {t : Timebase} (hp : 2 ≤ t.active.period.toNat) (hc : t.counter = 0) (hd : t.direction = .up)
    (ht : t.tickTimer = 0) : CountSound t := by
  have h0 : t.counter.toNat = 0 := by rw [hc]; rfl
  refine ⟨hp, fun _ => ⟨hc, hd, ht⟩, fun _ => ⟨hd, by omega⟩, fun _ _ => by omega, fun _ h => ?_⟩
  rw [hd] at h
  cases h

/-- A counting timebase of shape EDGE. -/
theorem countSound_edge {t : Timebase} (hp : 2 ≤ t.active.period.toNat) (hs : isStopped t = false)
    (ha : t.active.alignment = .edge) (hd : t.direction = .up) (hc : t.counter.toNat < t.active.period.toNat) :
    CountSound t :=
  ⟨hp, fun h => by simp [hs] at h, fun _ => ⟨hd, hc⟩, fun h => by simp [ha] at h, fun h => by simp [ha] at h⟩

/-- A counting timebase of shape CENTER on its way up. -/
theorem countSound_up {t : Timebase} (hp : 2 ≤ t.active.period.toNat) (hs : isStopped t = false)
    (ha : t.active.alignment = .center) (hd : t.direction = .up) (hc : t.counter.toNat ≤ t.active.period.toNat) :
    CountSound t :=
  ⟨hp, fun h => by simp [hs] at h, fun h => by simp [ha] at h, fun _ _ => hc, fun _ h => by simp [hd] at h⟩

/-- A counting timebase of shape CENTER on its way down. -/
theorem countSound_down {t : Timebase} (hp : 2 ≤ t.active.period.toNat) (hs : isStopped t = false)
    (ha : t.active.alignment = .center) (hd : t.direction = .down) (h1 : 1 ≤ t.counter.toNat)
    (h2 : t.counter.toNat < t.active.period.toNat) : CountSound t :=
  ⟨hp, fun h => by simp [hs] at h, fun h => by simp [ha] at h, fun _ h => by simp [hd] at h, fun _ _ => ⟨h1, h2⟩⟩

theorem toNat_add_one_of_lt {n m : Word16} (h : n.toNat < m.toNat) : (n + 1).toNat = n.toNat + 1 := by
  bv_omega

theorem toNat_sub_one_of_pos {n : Word16} (h : 1 ≤ n.toNat) : (n - 1).toNat = n.toNat - 1 := by
  bv_omega

/-- A step of the counter of a counting timebase stays in the range of its shape (R3, R4). -/
theorem advance_sound {t : Timebase} (h : CountSound t) (hs : isStopped t = false) :
    CountSound { (advance t).1 with tickTimer := 0 } := by
  obtain ⟨hp, -, hedge, hup, hdown⟩ := h
  unfold advance
  split
  · next ha =>
    split
    · next hc =>
      have hn := toNat_add_one_of_lt (show t.counter.toNat < t.active.period.toNat by omega)
      exact countSound_edge hp hs ha rfl (by dsimp only; omega)
    · exact countSound_atZero hp rfl rfl rfl
  · next ha hd =>
    split
    · next hc =>
      have hn := toNat_add_one_of_lt hc
      exact countSound_up hp hs ha hd (by dsimp only; omega)
    · have hn := toNat_sub_one_of_pos (show 1 ≤ t.active.period.toNat by omega)
      exact countSound_down hp hs ha rfl (by dsimp only; omega) (by dsimp only; omega)
  · next ha hd =>
    split
    · exact countSound_atZero hp rfl rfl rfl
    · next hc =>
      obtain ⟨h1, h2⟩ := hdown ha hd
      have hn := toNat_sub_one_of_pos h1
      exact countSound_down hp hs ha hd (by dsimp only; omega) (by dsimp only; omega)

/-- A START boundary comes with the counter at 0 going up (R3, R4). -/
theorem advance_start {t : Timebase} (h : (advance t).2 = some .start) :
    (advance t).1.counter = 0 ∧ (advance t).1.direction = .up := by
  revert h
  unfold advance
  (repeat' split) <;> simp

/-! ## The invariant through the shared operations -/

theorem TimebasesSound.congr {s t : State} (h : TimebasesSound s) (ht : t.timebases = s.timebases)
    (hs : t.commit.timebases = s.commit.timebases) (hq : ∀ k ∈ t.commit.queue, RecordWaits k) : TimebasesSound t := by
  obtain ⟨h1, h2, _⟩ := h
  exact ⟨by rwa [ht], by rwa [hs], hq⟩

/-- One timebase replaced, and the queue. -/
theorem TimebasesSound.of_set {s t : State} {x : Tb} {v : Timebase} {q : List Ticket} (h : TimebasesSound s)
    (hv : CountSound v) (ht : t.timebases = s.timebases.set x v) (hc : t.commit = { s.commit with queue := q })
    (hq : ∀ k ∈ q, RecordWaits k) : TimebasesSound t := by
  obtain ⟨h1, h2, _⟩ := h
  refine ⟨fun y => ?_, by rw [hc]; exact h2, by rw [hc]; exact hq⟩
  rw [ht, TbFile.get_set]
  split
  · exact hv
  · exact h1 y

theorem TimebasesSound.setTimebase {s : State} {x : Tb} {v : Timebase} (h : TimebasesSound s) (hv : CountSound v) :
    TimebasesSound (s.setTimebase x v) := h.of_set hv rfl rfl h.2.2

/-- A queue whose tickets are some of those pending. -/
theorem TimebasesSound.setQueue {s : State} {q : List Ticket} (h : TimebasesSound s)
    (hq : (q.map Ticket.fixed).Sublist (s.commit.queue.map Ticket.fixed)) : TimebasesSound (s.setQueue q) :=
  h.congr rfl rfl (recordsWait_of_fixed hq h.2.2)

theorem TimebasesSound.filterQueue {s : State} (p : Ticket → Bool) (h : TimebasesSound s) :
    TimebasesSound (s.setQueue (s.commit.queue.filter p)) :=
  h.setQueue (List.filter_sublist.map _)

theorem startBoundary_sound {x : Tb} {s : State} (ticked : Bool) (h : TimebasesSound s)
    (hc : (s.timebases.get x).counter = 0) (hd : (s.timebases.get x).direction = .up)
    (ht : (s.timebases.get x).tickTimer = 0) : TimebasesSound (startBoundary x ticked s).1 := by
  have hp : 2 ≤ (cycled x s).active.period.toNat :=
    lastRecord_period (h.1 x).1 (takenAt_recordWaits x .start h.2.2)
  by_cases hs : (s.timebases.get x).state = .stopping
  · exact h.of_set (countSound_atZero (t := stopAtZero (cycled x s)) hp rfl rfl rfl)
      (startBoundary_timebases_stopping ticked hs) (startBoundary_commit_stopping ticked hs)
      (h.filterQueue fun k => k.timebase ≠ x).2.2
  · exact h.of_set (countSound_atZero (t := cycled x s) hp hc hd ht) (startBoundary_timebases_running ticked hs)
      (startBoundary_commit_running ticked hs) (recordsWait_of_fixed (leftAt_fixed x .start _) h.2.2)

/-- A MID boundary makes no timebase record active. -/
theorem midBoundary_timebases_kept (x : Tb) {s : State} (h : ∀ t ∈ s.commit.queue, RecordWaits t) :
    (midBoundary x s).1.timebases = s.timebases := by
  rw [midBoundary_timebases, lastRecord_of_none _ (takenAt_mid_record x h)]
  refine TbFile.ext fun y => ?_
  simp only [TbFile.get_set]
  split
  · next hy => rw [hy]
  · rfl

theorem midBoundary_sound (x : Tb) {s : State} (h : TimebasesSound s) : TimebasesSound (midBoundary x s).1 :=
  h.congr (midBoundary_timebases_kept x h.2.2) (by rw [midBoundary_commit])
    (by rw [midBoundary_commit]; exact recordsWait_of_fixed (leftAt_fixed x .mid _) h.2.2)

theorem tickEvent_sound (x : Tb) {s : State} (h : TimebasesSound s) (hs : isStopped (s.timebases.get x) = false) :
    TimebasesSound (tickEvent x s) := by
  have hu : TimebasesSound (s.setTimebase x { (advance (s.timebases.get x)).1 with tickTimer := 0 }) :=
    h.setTimebase (advance_sound (h.1 x) hs)
  have hz := advance_start (t := s.timebases.get x)
  unfold tickEvent
  generalize advance (s.timebases.get x) = moved at hu hz
  generalize hv : s.setTimebase x { moved.1 with tickTimer := 0 } = u at hu
  dsimp only
  rw [hv]
  split
  · exact hu
  · exact midBoundary_sound x hu
  · next hb =>
    obtain ⟨hc, hd⟩ := hz hb
    subst hv
    exact startBoundary_sound true hu (by simpa using hc) (by simpa using hd) (by simp)

/-- A timebase taken to count 0 in some state and with some cycle count, and the START boundary that follows (R8, R14). -/
theorem startBoundary_atZero_sound {x : Tb} {s : State} (ticked : Bool) (st : TimebaseState) (n : Word32)
    (h : TimebasesSound s) :
    TimebasesSound (startBoundary x ticked
      (s.setTimebase x { atZero (s.timebases.get x) with state := st, cycles := n })).1 := by
  have hz : CountSound { atZero (s.timebases.get x) with state := st, cycles := n } :=
    countSound_atZero (h.1 x).1 rfl rfl rfl
  exact startBoundary_sound ticked (h.setTimebase hz) (by simp [atZero]) (by simp [atZero]) (by simp [atZero])

theorem stopEvent_sound (x : Tb) (k : StopKind) {s : State} (h : TimebasesSound s) :
    TimebasesSound (stopEvent x k s).1 :=
  h.congr (stopEvent_keeps x k s).2.2.1 (by rw [stopEvent_commit])
    (by rw [stopEvent_commit]; exact (h.filterQueue fun k => k.timebase ≠ x).2.2)

theorem stopAtZero_sound {t : Timebase} (h : CountSound t) : CountSound (stopAtZero t) :=
  countSound_atZero (t := stopAtZero t) h.1 rfl rfl rfl

theorem stopNow_sound (x : Tb) {s : State} (h : TimebasesSound s) : TimebasesSound (stopNow x s) := by
  have hz := h.setTimebase (x := x) (stopAtZero_sound (h.1 x))
  unfold stopNow
  dsimp only
  split
  · exact stopEvent_sound x .immediate hz
  · exact stopEvent_sound x .immediate (s := (s.setTimebase x (stopAtZero (s.timebases.get x))).restartClocks x) hz

theorem edgeOn_sound (x : Tb) {s : State} (h : TimebasesSound s) : TimebasesSound (edgeOn x s).1 := by
  have hb : TimebasesSound (startBoundary x false (s.setTimebase x (atZero (s.timebases.get x)))).1 :=
    startBoundary_atZero_sound false _ _ h
  unfold edgeOn
  dsimp only
  split
  · split
    · exact startBoundary_atZero_sound false .running 0 h
    · exact hb
    · exact hb
    · exact hb
  · exact h

theorem markTickets_fixed (q : List Ticket) : (markTickets q).map Ticket.fixed = q.map Ticket.fixed := by
  rw [markTickets, List.map_map]
  refine List.map_congr_left fun t _ => ?_
  dsimp only [Function.comp]
  split <;> rfl

theorem syncEdge_sound {s : State} (h : TimebasesSound s) : TimebasesSound (syncEdge s) := by
  have hm : TimebasesSound (firstAtEdge (s.setQueue (markTickets s.commit.queue))).1 := by
    have := h.setQueue (q := markTickets s.commit.queue) (by simp only [markTickets_fixed, List.Sublist.refl])
    exact this.congr (by simp) (by simp) (by rw [(firstAtEdge_keeps _).2.2.2.2.2.1]; exact this.2.2)
  exact edgeOn_sound _ (edgeOn_sound _ hm)

theorem changeSyncLevel_sound (l : Level) {s : State} (h : TimebasesSound s) :
    TimebasesSound (changeSyncLevel l s) := by
  unfold changeSyncLevel
  dsimp only
  split
  · exact syncEdge_sound (s := s.withSync _) h
  · exact h

/-- A ticket that passes the checks carries no record, or waits for a START boundary (R44, check 1). -/
theorem makeTicket_recordWaits {s : State} {t : TicketRequest} (id : Byte) (h : TimebasesSound s)
    (hr : ticketRefusal s t = none) : RecordWaits (makeTicket s.commit t id) := by
  have hm : ticketMisfit t = false := by
    rw [← Bool.not_eq_true]
    intro hm
    simp [ticketRefusal, hm] at hr
  intro r he
  by_cases hrec : t.record = true
  · have hk : t.boundaryKind ≠ .any := by
      intro hk
      simp [ticketMisfit, hrec, hk] at hm
    have hr : s.commit.timebases.get t.timebase = r := by simpa [makeTicket, hrec] using he
    refine ⟨?_, hr ▸ h.2.1 t.timebase⟩
    cases hb : t.boundaryKind
    · exact hb
    · exact absurd hb hk
  · simp [makeTicket, hrec] at he

/-! ## The invariant through requests and steps -/

theorem doStartTimebase_sound (x : Tb) (m : StartMode) {s : State} (h : TimebasesSound s) :
    TimebasesSound (doStartTimebase x m s).state := by
  have hn : TimebasesSound (startNow x s) := startBoundary_atZero_sound false .running 0 h
  obtain ⟨hp, hz, hr⟩ := h.1 x
  unfold doStartTimebase
  dsimp only
  split
  · exact hn
  · next hs =>
    exact h.setTimebase ⟨hp, fun _ => hz (by simp [isStopped, hs]), hr⟩
  · exact hn
  · exact h
  · exact h.setTimebase ⟨hp, fun hh => by simp [isStopped] at hh, hr⟩
  · exact h

theorem doStopTimebase_sound (x : Tb) (m : StopKind) {s : State} (h : TimebasesSound s) :
    TimebasesSound (doStopTimebase x m s).state := by
  cases m with
  | immediate =>
    simp only [doStopTimebase, stopImmediate]
    split
    · exact h
    · exact stopNow_sound x h
  | atBoundary =>
    simp only [doStopTimebase, stopAtBoundary]
    split
    · obtain ⟨hp, _, hr⟩ := h.1 x
      exact h.setTimebase ⟨hp, fun hh => by simp [isStopped] at hh, hr⟩
    · exact h
    · exact h.setTimebase (stopAtZero_sound (h.1 x))
    · exact h

theorem drainInto_sound (set : ChannelSet) {s : State} (h : TimebasesSound s) : TimebasesSound (drainInto set s).1 := by
  unfold drainInto
  (repeat' split) <;> exact h

theorem perform_timebases_sound {r : Request} (hr : RequestSound r) {s : State} (h : TimebasesSound s) :
    TimebasesSound (perform r s).state := by
  cases r <;> simp only [perform]
  case startTimebase x m => exact doStartTimebase_sound x m h
  case stopTimebase x m => exact doStopTimebase_sound x m h
  case stageTimebase x v =>
    refine ⟨h.1, fun y => ?_, h.2.2⟩
    simp only [doStageTimebase, accepted, State.withCommit_commit, TbFile.get_set]
    split
    · exact hr
    · exact h.2.1 y
  case issueTicket t =>
    unfold doIssueTicket
    split
    · exact h
    · next hn =>
      refine h.congr rfl rfl fun k hk => ?_
      rcases List.mem_append.mp hk with hk | hk
      · exact h.2.2 k hk
      · rw [List.mem_singleton.mp hk]
        exact makeTicket_recordWaits _ h hn
  case cancelById id =>
    unfold doCancelById
    split
    · exact h.filterQueue _
    · exact h
  case cancelAll x => exact h.filterQueue _
  case setOverride t =>
    cases t <;> simp only [doSetOverride] <;> split <;> exact h
  case enableOutputs => unfold doEnableOutputs; split <;> exact h
  case disableOutputs m =>
    cases m with
    | immediate => exact h
    | graceful =>
      simp only [doDisableOutputs, disableGraceful]
      split
      · exact h
      · exact h
      · exact drainInto_sound _ h
  case configureTripInput i v => unfold doConfigureTripInput; split <;> exact h
  case defineRoute n v =>
    unfold doDefineRoute
    (repeat' split) <;> exact h
  case removeRoute n =>
    unfold doRemoveRoute
    (repeat' split) <;> exact h
  case clearTrip n =>
    unfold doClearTrip
    (repeat' split) <;> exact h
  case fetchNotices n => unfold doFetchNotices; split <;> exact h
  all_goals exact h

/-- A core period leaves a stopped timebase's tick timer at 0 (R2). -/
theorem countTimebase_sound {t : Timebase} (h : CountSound t) : CountSound (countTimebase t) := by
  unfold countTimebase
  split
  · exact h
  · next hs =>
    obtain ⟨hp, _, hr⟩ := h
    exact ⟨hp, fun hh => absurd hh hs, hr⟩

theorem timebasesSound_default {s : State} (ht : s.timebases = .ofFn fun _ => .default) (hc : s.commit = .default) :
    TimebasesSound s := by
  refine ⟨fun x => ?_, fun x => ?_, ?_⟩
  · rw [ht, TbFile.get_ofFn]
    exact countSound_atZero (by decide) rfl rfl rfl
  · rw [hc]
    cases x <;> decide
  · rw [hc]
    exact fun t ht => by cases ht

theorem timebasesSound_kept : BlocksKeep TimebasesSound where
  frame h hf := by
    obtain ⟨ht, _, _, hc, _⟩ := hf
    exact h.congr ht (by rw [hc]) (by rw [hc]; exact h.2.2)
  perform hr _ h := perform_timebases_sound hr h
  post _ _ h := h
  controllerReset := fun _ => timebasesSound_default (by simp [controllerReset]) (by simp [controllerReset])
  poweredOn _ _ := timebasesSound_default rfl rfl
  silenced h := h
  tick x _ hs h := tickEvent_sound x h hs
  expired id _ _ he h := by
    injection he with he
    subst he
    exact h.filterQueue _
  pulse h := h
  syncCount _ _ h := h
  syncLevel l _ h := changeSyncLevel_sound l h
  input i l s h := h.congr (by simp) (by simp) (by rw [(sampleInput_keeps i l s).2.2.2.2.2.1]; exact h.2.2)
  assert _ _ _ h := h
  quiet _ _ _ h := h
  clock _ _ _ h := h
  delayEnd c s t he h := by
    injection he with he
    subst he
    dsimp only
    split <;> exact h
  timers h := ⟨fun x => by
    have := countTimebase_sound (h.1 x)
    simpa [countTimers] using this, h.2⟩

/-- Settles O55: the invariant is one that each operation of the blocks keeps (`BlocksKeep`). -/
theorem timebasesStaySound : Obligations.TimebasesStaySound :=
  fun _ _ hs he => timebasesSound_kept.step hs he

end Sys2Proof.Machine
end

section
/-!
PROOFS (01_timebases_and_boundaries.md): the requests that read, and those on timebases and on SYNC (R8 to R10, R16, R17, R39, R64,
R74, R122).
-/

namespace Sys2Proof.Machine

/-! ## From an owner's answer to the row -/

/-- An addressed request, heard and not cached, leaves what its owner answered (R164, R165). -/
theorem exec_performs {i : Instr} {tag kind : Byte} {args : List Byte} {r : Request} {s : State} {a : Answer}
    (e : requestFrame i = some (addressedTo tag, kind, args)) (hl : Listening s) (hu : Unanswered s tag kind args)
    (hn : requestLength kind = some args.length) (hr : readRequest kind args = some r) (hw : withRowPins i s = s)
    (hp : perform r (afterLastByte s) = a) :
    exec i s = .next (answered s a.state tag kind args (statusCode a.status :: a.content) a.action) := by
  rw [exec_addressed e hl hu hn hr, hw, hp]

/-- A request that its owner only reads for is answered OK and changes nothing but the link and the cache (R17, R39, R64, R122). -/
theorem exec_reads {i : Instr} {tag kind : Byte} {args content : List Byte} {r : Request} {s : State}
    (e : requestFrame i = some (addressedTo tag, kind, args)) (hl : Listening s) (hu : Unanswered s tag kind args)
    (hn : requestLength kind = some args.length) (hr : readRequest kind args = some r) (hw : withRowPins i s = s)
    (hp : perform r (afterLastByte s) = accepted (afterLastByte s) content) :
    exec i s = .next (answered s s tag kind args (0x00 :: content) none) := by
  rw [exec_performs e hl hu hn hr hw hp]
  exact congrArg _ (answered_afterLastByte s s tag kind args _ _)

/-! ## Reading requests -/

theorem exec_readTimebase {s : State} {tag : Byte} (hl : Listening s) (x : Tb) (hu : Unanswered s tag 0x13 [tbByte x]) :
    exec (.readTimebase (addressedTo tag) [tbByte x]) s
      = .next (answered s s tag 0x13 [tbByte x] (0x00 :: (doReadTimebase x s).content) none) :=
  exec_reads rfl hl hu rfl (by rw [readRequest_readTimebase, readTb_tbByte]; rfl) rfl rfl

theorem exec_readChannel {s : State} {tag : Byte} (hl : Listening s) (c : Chan) (hu : Unanswered s tag 0x23 [chanByte c]) :
    exec (.readChannel (addressedTo tag) [chanByte c]) s
      = .next (answered s s tag 0x23 [chanByte c] (0x00 :: (doReadChannel c s).content) none) :=
  exec_reads rfl hl hu rfl (by rw [readRequest_readChannel, readChan_chanByte]; rfl) rfl rfl

theorem exec_readPair {s : State} {tag : Byte} (hl : Listening s) (p : Pair) (hu : Unanswered s tag 0x24 [pairByte p]) :
    exec (.readPair (addressedTo tag) [pairByte p]) s
      = .next (answered s s tag 0x24 [pairByte p] (0x00 :: (doReadPair p s).content) none) :=
  exec_reads rfl hl hu rfl (by rw [readRequest_readPair, readPairName_pairByte]; rfl) rfl rfl

theorem exec_listTickets {s : State} {tag : Byte} (hl : Listening s) (hu : Unanswered s tag 0x32 []) :
    exec (.listTickets (addressedTo tag) []) s
      = .next (answered s s tag 0x32 [] (0x00 :: (doListTickets s).content) none) :=
  exec_reads rfl hl hu rfl readRequest_listTickets rfl rfl

theorem exec_readOutputs {s : State} {tag : Byte} (hl : Listening s) (hu : Unanswered s tag 0x43 []) :
    exec (.readOutputs (addressedTo tag) []) s
      = .next (answered s s tag 0x43 [] (0x00 :: (doReadOutputs s).content) none) :=
  exec_reads rfl hl hu rfl readRequest_readOutputs rfl rfl

/-- READ TRIPS reports the pin levels that its row brings, and leaves them on the pins (log 18). -/
theorem exec_readTrips {s : State} {tag : Byte} (hl : Listening s) (raw : TripFile Level) (hu : Unanswered s tag 0x54 []) :
    exec (.readTrips (addressedTo tag) [] raw) s
      = .next { answered s s tag 0x54 []
            (0x00 :: (doReadTrips (s.withPins { s.pins with trip := raw })).content) none with
          pins := { s.pins with line := .high, trip := raw } } := by
  rw [exec_addressed rfl hl hu rfl readRequest_readTrips]
  rfl

/-- Settles O10: each row is its owner's answer, which holds the values and leaves the state. -/
theorem readingRequestsChangeNothing : Obligations.ReadingRequestsChangeNothing := by
  intro s tag hl
  exact ⟨exec_readTimebase hl, exec_readChannel hl, exec_readPair hl, exec_listTickets hl, exec_readOutputs hl,
    exec_readTrips hl⟩

/-! ## START TIMEBASE and STOP TIMEBASE (R8 to R10) -/

theorem doStartTimebase_now {x : Tb} {s : State}
    (h : (s.timebases.get x).state = .stopped ∨ (s.timebases.get x).state = .waitSync) :
    doStartTimebase x .now s
      = accepted (startNow x s) [timebaseStateByte ((startNow x s).timebases.get x).state] := by
  rcases h with h | h <;> simp [doStartTimebase, h]

theorem doStartTimebase_atSync_stopped {x : Tb} {s : State} (h : (s.timebases.get x).state = .stopped) :
    doStartTimebase x .atSync s
      = accepted (s.setTimebase x { s.timebases.get x with state := .waitSync, cycles := 0 }) [0x01] := by
  simp [doStartTimebase, h, timebaseStateByte]

theorem doStartTimebase_atSync_waitSync {x : Tb} {s : State} (h : (s.timebases.get x).state = .waitSync) :
    doStartTimebase x .atSync s = accepted s [0x01] := by
  simp [doStartTimebase, h, timebaseStateByte]

theorem doStartTimebase_stopping {x : Tb} {s : State} (m : StartMode) (h : (s.timebases.get x).state = .stopping) :
    doStartTimebase x m s = accepted (s.setTimebase x { s.timebases.get x with state := .running }) [0x02] := by
  simp [doStartTimebase, h, timebaseStateByte]

theorem doStartTimebase_running {x : Tb} {s : State} (m : StartMode) (h : (s.timebases.get x).state = .running) :
    doStartTimebase x m s = { state := s, status := .wrongState, content := [0x02], action := none } := by
  simp [doStartTimebase, h, timebaseStateByte]

/-- STOP TIMEBASE AT_BOUNDARY by the state of the timebase (R10). -/
theorem stopAtBoundary_cases (x : Tb) (s : State) :
    ((s.timebases.get x).state = .running →
        stopAtBoundary x s = accepted (s.setTimebase x { s.timebases.get x with state := .stopping }) [0x03])
      ∧ ((s.timebases.get x).state = .stopping → stopAtBoundary x s = accepted s [0x03])
      ∧ ((s.timebases.get x).state = .waitSync →
        stopAtBoundary x s = accepted (s.setTimebase x (stopAtZero (s.timebases.get x))) [0x00])
      ∧ ((s.timebases.get x).state = .stopped → stopAtBoundary x s = accepted s [0x00]) := by
  refine ⟨?_, ?_, ?_, ?_⟩ <;> intro h <;> simp [stopAtBoundary, h, timebaseStateByte]

theorem exec_startTimebase {s : State} {tag mode : Byte} {x : Tb} {m : StartMode} {a : Answer} (hl : Listening s)
    (hm : readStartMode mode = some m) (hu : Unanswered s tag 0x11 [tbByte x, mode])
    (ha : doStartTimebase x m (afterLastByte s) = a) :
    exec (.startTimebase (addressedTo tag) [tbByte x, mode]) s
      = .next (answered s a.state tag 0x11 [tbByte x, mode] (statusCode a.status :: a.content) a.action) :=
  exec_performs (r := .startTimebase x m) rfl hl hu rfl (by rw [readRequest_startTimebase, readTb_tbByte, hm]; rfl)
    rfl ha

theorem exec_stopTimebaseAtBoundary {s : State} {tag : Byte} {x : Tb} {a : Answer} (hl : Listening s)
    (hu : Unanswered s tag 0x12 [tbByte x, 1]) (ha : stopAtBoundary x (afterLastByte s) = a) :
    exec (.stopTimebaseAtBoundary (addressedTo tag) (tbByte x)) s
      = .next (answered s a.state tag 0x12 [tbByte x, 1] (statusCode a.status :: a.content) a.action) :=
  exec_performs (r := .stopTimebase x .atBoundary) rfl hl hu rfl
    (by rw [readRequest_stopTimebase, readTb_tbByte]; rfl) rfl ha

theorem exec_stopTimebaseImmediate {s : State} {tag : Byte} {x : Tb} {a : Answer} (hl : Listening s)
    (hu : Unanswered s tag 0x12 [tbByte x, 0]) (ha : stopImmediate x (afterLastByte s) = a) :
    exec (.stopTimebaseImmediate (addressedTo tag) (tbByte x)) s
      = .next (answered s a.state tag 0x12 [tbByte x, 0] (statusCode a.status :: a.content) a.action) :=
  exec_performs (r := .stopTimebase x .immediate) rfl hl hu rfl
    (by rw [readRequest_stopTimebase, readTb_tbByte]; rfl) rfl ha

/-- An answer that replaces one timebase. -/
theorem answered_setTimebase (s : State) (x : Tb) (t : Timebase) (tag kind : Byte) (args payload : List Byte) :
    answered s ((afterLastByte s).setTimebase x t) tag kind args payload none
      = answered s (s.setTimebase x t) tag kind args payload none :=
  answered_congr (by simp)

/-- Settles O12: the cells of the two tables that bring no boundary, by the state of the timebase. -/
theorem startAndStopWithoutBoundary : Obligations.StartAndStopWithoutBoundary := by
  refine ⟨fun s tag x mode hl hmode hu => ?_, fun s tag x hl hu => ?_⟩
  · obtain ⟨m, hm⟩ : ∃ m, readStartMode mode = some m := by
      rcases hmode with rfl | rfl <;> exact ⟨_, rfl⟩
    have hsync : mode = 1 → readStartMode mode = some .atSync := fun h => h ▸ rfl
    refine ⟨fun h h1 => ?_, fun h h1 => ?_, fun h => ?_, fun h => ?_⟩
    · rw [exec_startTimebase hl (hsync h1) hu (doStartTimebase_atSync_stopped h)]
      exact congrArg _ (answered_setTimebase s x _ tag _ _ _)
    · rw [exec_startTimebase hl (hsync h1) hu (doStartTimebase_atSync_waitSync h)]
      exact congrArg _ (answered_afterLastByte s s tag _ _ _ none)
    · rw [exec_startTimebase hl hm hu (doStartTimebase_stopping m h)]
      exact congrArg _ (answered_setTimebase s x _ tag _ _ _)
    · rw [exec_startTimebase hl hm hu (doStartTimebase_running m h)]
      exact congrArg _ (answered_afterLastByte s s tag _ _ _ none)
  · obtain ⟨hrun, hstopping, hwait, hstopped⟩ := stopAtBoundary_cases x (afterLastByte s)
    refine ⟨fun h => ?_, fun h => ?_, fun h => ?_, fun h => ?_⟩
    · rw [exec_stopTimebaseAtBoundary hl hu (hrun h)]
      exact congrArg _ (answered_setTimebase s x _ tag _ _ _)
    · rw [exec_stopTimebaseAtBoundary hl hu (hstopping h)]
      exact congrArg _ (answered_afterLastByte s s tag _ _ _ none)
    · rw [exec_stopTimebaseAtBoundary hl hu (hwait h)]
      exact congrArg _ (answered_setTimebase s x _ tag _ _ _)
    · rw [exec_stopTimebaseAtBoundary hl hu (hstopped h)]
      exact congrArg _ (answered_afterLastByte s s tag _ _ _ none)

/-! ## CONFIGURE SYNC and the SYNC OUT pulse (R15, R16) -/

/-- Settles O15: the owner replaces the two fields; the row of the pulse's end clears the pulse. -/
theorem syncConfigurationAndPulse : Obligations.SyncConfigurationAndPulse := by
  refine ⟨fun s tag source edge hl hu => ?_, fun s => ⟨_, rfl, rfl, rfl⟩⟩
  have hr : readRequest 0x14 [syncSourceByte source, syncEdgeByte edge] = some (.configureSync source edge) := by
    rw [readRequest_configureSync, readSyncSource_syncSourceByte, readSyncEdge_syncEdgeByte]
    rfl
  exact exec_performs rfl hl hu rfl hr rfl rfl

end Sys2Proof.Machine
end

section
/-!
PROOFS (01_timebases_and_boundaries.md): START TIMEBASE NOW and STOP TIMEBASE IMMEDIATE (R8, R9).
-/

namespace Sys2Proof.Machine

/-! ## Notices that are sure to stand after an event (R53, R131) -/

/-- The Trip Unit raises REARM notices alone, the Output Stage OUTPUTS notices, and the Timebase Unit none. -/
def RaisedByOwners (r : Raised) : Prop :=
  (∀ p ∈ r.trip, ∃ n, p.key = .rearm n) ∧ (∀ p ∈ r.output, p.key = .outputs) ∧ r.timebase = []

theorem takeStart_raised (x : Tb) (ticked : Bool) (s : State) : RaisedByOwners (takeStart x ticked s).2 :=
  ⟨fun _ hp => releaseSet_key hp, fun _ hp => drainSet_key hp, rfl⟩

theorem stopEvent_raised (x : Tb) (k : StopKind) (s : State) : RaisedByOwners (stopEvent x k s).2 :=
  ⟨fun _ hp => releaseSet_key hp, fun _ hp => drainSet_key hp, rfl⟩

theorem RaisedByOwners.both {a b : Raised} (ha : RaisedByOwners a) (hb : RaisedByOwners b) :
    RaisedByOwners (bothRaised a b) := by
  obtain ⟨ha1, ha2, ha3⟩ := ha
  obtain ⟨hb1, hb2, hb3⟩ := hb
  refine ⟨fun p hp => ?_, fun p hp => ?_, ?_⟩
  · exact (List.mem_append.mp hp).elim (ha1 p) (hb1 p)
  · exact (List.mem_append.mp hp).elim (ha2 p) (hb2 p)
  · show a.timebase ++ b.timebase = []
    rw [ha3, hb3]
    rfl

/-- A notice of the Commit Unit's list, alone of its class and source there, is reported. -/
theorem postRaised_reports {r : Raised} {p : Posting} (s : State) (hr : RaisedByOwners r) (hp : p ∈ r.commit)
    (hrearm : ∀ n, p.key ≠ .rearm n) (hout : p.key ≠ .outputs) (honly : ∀ q ∈ r.commit, q.key = p.key → q = p) :
    Reported (s.postRaised r) p.key p.detail := by
  obtain ⟨htrip, houtput, htb⟩ := hr
  have hmem : ∀ q, q ∈ [r.commit, r.trip, r.output, r.timebase].flatten ↔ q ∈ r.commit ∨ q ∈ r.trip ∨ q ∈ r.output := by
    simp [htb]
  refine postMerged_reports s ((hmem p).mpr (.inl hp)) fun q hq hk => ?_
  rcases (hmem q).mp hq with hq | hq | hq
  · exact honly q hq hk
  · obtain ⟨n, hn⟩ := htrip q hq
    exact absurd (hk.symm.trans hn) (hrearm n)
  · exact absurd (hk.symm.trans (houtput q hq)) hout

/-! ## START TIMEBASE NOW (R8) -/

/-- A start from rest counts its first cycle with its START boundary (R6, R8). -/
theorem startNow_timebases (x : Tb) (s : State) :
    (startNow x s).timebases = s.timebases.set x { s.timebases.get x with
      state := .running, counter := 0, direction := .up, cycles := 1, tickTimer := 0
      active := lastRecord (s.timebases.get x).active (takenAt x .start s.commit.queue) } := by
  simp only [startNow, State.postRaised_keeps]
  rw [startBoundary_timebases_running false (by simp)]
  simp [cycled, atZero]

/-- A START boundary changes of the Commit Unit its queue alone (R48). -/
theorem StartTaken.commit_kept {x : Tb} {b : Bool} {s t : State} {r : Raised} (h : StartTaken x b s t r) :
    t.commit.channels = s.commit.channels ∧ t.commit.pairs = s.commit.pairs
      ∧ t.commit.timebases = s.commit.timebases ∧ t.commit.nextId = s.commit.nextId := by
  obtain ⟨_, _, hc, _⟩ := h
  rw [hc]
  exact ⟨rfl, rfl, rfl, rfl⟩

/-- Settles O13: the boundary is the one that `startNow_taken` describes, and the Dispatcher adds the reply. -/
theorem startNowProducesTheFirstBoundary : Obligations.StartNowProducesTheFirstBoundary := by
  intro s tag x hl hu hs
  have hexec := exec_startTimebase (m := .now) hl rfl hu (doStartTimebase_now (s := afterLastByte s) hs)
  have htb := startNow_timebases x (afterLastByte s)
  obtain ⟨r, htaken, hposted⟩ := startNow_taken x (afterLastByte s)
  obtain ⟨_, _, _, hinReset, hpending⟩ := startNow_keeps x (afterLastByte s)
  generalize startNow x (afterLastByte s) = u at hexec htb htaken hposted hinReset hpending
  have hx : u.timebases.get x = { s.timebases.get x with
      state := .running, counter := 0, direction := .up, cycles := 1, tickTimer := 0
      active := lastRecord (s.timebases.get x).active (takenAt x .start s.commit.queue) } := by simp [htb]
  have hother : u.timebases.get (otherTb x) = s.timebases.get (otherTb x) := by simp [htb, otherTb_ne]
  have hcontent : timebaseStateByte (u.timebases.get x).state = 0x02 := by simp [hx, timebaseStateByte]
  have htaken' := htaken.of_blocks (u := s.setTimebase x { s.timebases.get x with
    state := .running, counter := 0, direction := .up, cycles := 0, tickTimer := 0 }) ⟨rfl, rfl, rfl, rfl, rfl, rfl⟩
  obtain ⟨hchannels, hpairs, htimebases, hnextId⟩ := htaken.commit_kept
  obtain ⟨_, hsync, _, _, ⟨hinputs, hfrozen, hroutes, _⟩, _⟩ := htaken
  rw [hcontent] at hexec
  exact ⟨_, hexec, congrArg Timebase.state hx, congrArg Timebase.counter hx, congrArg Timebase.direction hx,
    congrArg Timebase.cycles hx, congrArg Timebase.tickTimer hx, hother, hsync, hinputs, hfrozen, hroutes, rfl, rfl,
    hchannels, hpairs, htimebases, hnextId, hinReset, rfl, hpending, r, htaken', hposted⟩

/-! ## STOP TIMEBASE IMMEDIATE (R9) -/

/-- The tickets that a stop removes are reported with their number (R53, R62). -/
theorem stopNow_reports {x : Tb} {s : State} (h : ∃ k ∈ s.commit.queue, k.timebase = x) :
    Reported (stopNow x s) (.cancelled x)
      (.cancelled (s.commit.queue.filter fun k => k.timebase = x).length .immediate) := by
  have hc : ∀ u : State, u.commit = s.commit → (stopEvent x .immediate u).2.commit
      = [{ key := .cancelled x
           detail := .cancelled (s.commit.queue.filter fun k => k.timebase = x).length .immediate }] := by
    intro u hu
    obtain ⟨k, hk, hx⟩ := h
    have hn : ticketCount x u.commit.queue ≠ 0 := by
      rw [hu, ticketCount, Ne, List.length_eq_zero_iff, List.filter_eq_nil_iff]
      exact fun hh => hh k hk (by simpa using hx)
    exact (if_neg hn).trans (by rw [ticketCount, hu])
  have hp : ∀ u : State, u.commit = s.commit → Reported
      ((stopEvent x .immediate u).1.postRaised (stopEvent x .immediate u).2) (.cancelled x)
      (.cancelled (s.commit.queue.filter fun k => k.timebase = x).length .immediate) := by
    intro u hu
    refine postRaised_reports (p := ⟨.cancelled x, _⟩) _ (stopEvent_raised x .immediate u) ?_ (by simp) (by simp) ?_
    · rw [hc u hu]
      exact List.mem_singleton.mpr rfl
    · rw [hc u hu]
      exact fun q hq _ => List.mem_singleton.mp hq
  exact hp _ (by split <;> simp)

/-- Settles O14: the stop is the one that `stopNow_taken` describes, and the Dispatcher adds the reply. -/
theorem stopImmediateStopsAtOnce : Obligations.StopImmediateStopsAtOnce := by
  intro s tag x hl hu
  refine ⟨fun h => ?_, fun h => ?_⟩
  · have ha : stopImmediate x (afterLastByte s) = accepted (afterLastByte s) [0x00] := if_pos h
    rw [exec_stopTimebaseImmediate hl hu ha]
    exact congrArg _ (answered_afterLastByte s s tag _ _ _ none)
  · have ha : stopImmediate x (afterLastByte s) = accepted (stopNow x (afterLastByte s)) [0x00] := if_neg h
    have hexec := exec_stopTimebaseImmediate hl hu ha
    obtain ⟨r, htaken, hposted⟩ := stopNow_taken x (afterLastByte s)
    obtain ⟨_, _, _, hinReset, hpending⟩ := stopNow_keeps x (afterLastByte s)
    have hreport := stopNow_reports (x := x) (s := afterLastByte s)
    generalize stopNow x (afterLastByte s) = u at hexec htaken hposted hinReset hpending hreport
    have htaken' := htaken
    obtain ⟨htb, hsync, hcommit, _, _, ⟨hinputs, hfrozen, hroutes, _⟩, _, _, hchannels, hpairs, _, hrefresh, hsource, _⟩ :=
      htaken
    have hbound : ∀ c, boundTo u.pattern c = boundTo s.pattern c := fun c => by simp only [boundTo, hpairs]; rfl
    exact ⟨_, hexec, htb, hcommit, hinputs, hfrozen, hroutes, hsource,
      fun c hc => (hrefresh c).2 (by rw [hbound]; exact hc), hchannels, hpairs, hreport, ⟨r, htaken', hposted⟩,
      rfl, hsync, rfl, hinReset, rfl, hpending⟩

end Sys2Proof.Machine
end

section
/-!
PROOFS (01_timebases_and_boundaries.md): ticks, with and without a boundary (R2 to R5, R10).
-/

namespace Sys2Proof.Machine

/-! ## The step of the counter (R3, R4) -/

/-- Short of a boundary: EDGE counts up; CENTER counts up, turns at the period, and counts down. -/
theorem advance_short {t : Timebase} {counter : Word16} {direction : Direction}
    (h : (t.active.alignment = .edge ∧ t.counter.toNat + 1 < t.active.period.toNat
          ∧ counter = t.counter + 1 ∧ direction = .up)
        ∨ (t.active.alignment = .center ∧ t.direction = .up ∧ t.counter.toNat + 1 < t.active.period.toNat
          ∧ counter = t.counter + 1 ∧ direction = .up)
        ∨ (t.active.alignment = .center ∧ t.direction = .up ∧ t.counter = t.active.period
          ∧ counter = t.active.period - 1 ∧ direction = .down)
        ∨ (t.active.alignment = .center ∧ t.direction = .down ∧ 1 < t.counter.toNat
          ∧ counter = t.counter - 1 ∧ direction = .down)) :
    advance t = ({ t with counter := counter, direction := direction }, none) := by
  rcases h with ⟨ha, hc, rfl, rfl⟩ | ⟨ha, hd, hc, rfl, rfl⟩ | ⟨ha, hd, hc, rfl, rfl⟩ | ⟨ha, hd, hc, rfl, rfl⟩
  · simp [advance, ha, hc]
  · have hlt : t.counter.toNat < t.active.period.toNat := by omega
    have hne : t.counter + 1 ≠ t.active.period := by
      intro he
      have hn := toNat_add_one_of_lt hlt
      rw [he] at hn
      omega
    simp only [advance, ha, hd, if_pos hlt, if_neg hne]
  · simp [advance, ha, hd, hc]
  · simp only [advance, ha, hd, if_neg (show ¬ t.counter.toNat ≤ 1 by omega)]

/-- The last count of a cycle goes back to 0 with a START boundary. -/
theorem advance_end {t : Timebase}
    (h : (t.active.alignment = .edge ∧ t.active.period.toNat ≤ t.counter.toNat + 1)
        ∨ (t.active.alignment = .center ∧ t.direction = .down ∧ t.counter = 1)) :
    advance t = ({ t with counter := 0, direction := .up }, some .start) := by
  rcases h with ⟨ha, hc⟩ | ⟨ha, hd, hc⟩
  · simp [advance, ha, hc]
  · simp [advance, ha, hd, hc]

/-- The count before the period, going up, reaches the turning point with a MID boundary. -/
theorem advance_turn {t : Timebase} (ha : t.active.alignment = .center) (hd : t.direction = .up)
    (hc : t.counter.toNat + 1 = t.active.period.toNat) :
    advance t = ({ t with counter := t.active.period, direction := .up }, some .mid) := by
  have hlt : t.counter.toNat < t.active.period.toNat := by omega
  have he : t.counter + 1 = t.active.period := BitVec.eq_of_toNat_eq (by rw [toNat_add_one_of_lt hlt, hc])
  simp only [advance, ha, hd, if_pos hlt, he, if_true]

/-! ## The row TICK -/

theorem exec_tick {s : State} {x : Tb} (hr : s.inReset = false) (hs : isStopped (s.timebases.get x) = false) :
    exec (.tick x) s = .next (tickEvent x s) :=
  congrArg _ (if_neg (by simp [hr, hs]))

theorem exec_tick_stopped {s : State} {x : Tb} (hs : isStopped (s.timebases.get x) = true) :
    exec (.tick x) s = .next s :=
  congrArg _ (if_pos (.inr hs))

theorem tickEvent_outsideKept (x : Tb) (s : State) : OutsideKept s (tickEvent x s) := tickEvent_keeps x s

/-- A tick that ends a cycle is its START boundary, on the timebase taken to count 0 (R3 to R5). -/
theorem tickEvent_start {x : Tb} {s : State} {v : Timebase} (h : advance (s.timebases.get x) = (v, some .start)) :
    let b := startBoundary x true (s.setTimebase x { v with tickTimer := 0 })
    tickEvent x s = b.1.postRaised b.2 := by
  simp only [tickEvent, h]

/-- A tick to the turning point is its MID boundary (R4, R5). -/
theorem tickEvent_mid {x : Tb} {s : State} {v : Timebase} (h : advance (s.timebases.get x) = (v, some .mid)) :
    let b := midBoundary x (s.setTimebase x { v with tickTimer := 0 })
    tickEvent x s = b.1.postRaised b.2 := by
  simp only [tickEvent, h]

/-- A driven output has the level selected for it, and its hold level stays (R117, R118). -/
theorem OutputsFollow.selected {before : Chan → OutChannel} {clocks : Pair → Nat} {t : State}
    (h : OutputsFollow before clocks t) (c : Chan) :
    (t.output.channels.get c).selected = selectLevel t c ∧ (t.output.channels.get c).hold = (before c).hold := by
  obtain ⟨hhold, hselected, _⟩ := h.1 c
  exact ⟨hselected, hhold⟩

theorem tickCounted_hold (x : Tb) (p : PatternUnit) (outs : ChanFile OutChannel) (c : Chan) :
    (tickCounted x p outs c).hold = (outs.get c).hold := by
  unfold tickCounted
  split <;> rfl

/-- Settles O16: such a tick sets the timebase, counts on the delays and drives the new levels. -/
theorem tickAdvancesTheCounter : Obligations.TickAdvancesTheCounter := by
  intro s x hr
  refine ⟨exec_tick_stopped, fun hs counter direction h => ?_⟩
  have hexec := exec_tick hr hs
  have hnext := (tickEvent_taken x s).1
  rw [advance_short h] at hnext
  rw [hnext rfl] at hexec
  have hfollow := countTick_redrive_follows x (s.setTimebase x
    { s.timebases.get x with counter := counter, direction := direction, tickTimer := 0 })
  exact ⟨_, hexec, rfl, rfl, rfl, rfl, rfl, rfl, rfl, rfl, rfl, rfl, rfl,
    fun c => ((hfollow.selected c).2).trans (tickCounted_hold x _ _ c), redrive_refreshed x _,
    fun c => (hfollow.selected c).1, hfollow, rfl, rfl, rfl, rfl, rfl⟩

/-- Settles O17: the boundary is the one that `startBoundary_taken` describes, on the timebase taken to count 0. -/
theorem tickAtTheEndOfACycle : Obligations.TickAtTheEndOfACycle := by
  intro s x hr hrun h
  have hexec := exec_tick (x := x) hr (by simp [isStopped, hrun])
  have hend := advance_end h
  have hevent := tickEvent_start hend
  have hkept := tickEvent_outsideKept x s
  have hboundary := (tickEvent_taken x s).2.2
  rw [hend] at hboundary
  obtain ⟨r, htaken, hposted⟩ := hboundary rfl
  replace htaken := htaken.1 (by simp [hrun])
  have htb : (tickEvent x s).timebases = s.timebases.set x { s.timebases.get x with
      counter := 0, direction := .up, tickTimer := 0, cycles := (s.timebases.get x).cycles + 1
      active := lastRecord (s.timebases.get x).active (takenAt x .start s.commit.queue) } := by
    rw [hevent, (State.postRaised_keeps _ _).2.2.1, startBoundary_timebases_running true (by simp [hrun])]
    simp [cycled]
  generalize tickEvent x s = t at hexec hkept htaken hposted htb
  have hx : t.timebases.get x = { s.timebases.get x with
      counter := 0, direction := .up, tickTimer := 0, cycles := (s.timebases.get x).cycles + 1
      active := lastRecord (s.timebases.get x).active (takenAt x .start s.commit.queue) } := by simp [htb]
  have hother : t.timebases.get (otherTb x) = s.timebases.get (otherTb x) := by simp [htb, otherTb_ne]
  obtain ⟨hchannels, hpairs, htimebases, hnextId⟩ := htaken.commit_kept
  have htaken' := htaken
  obtain ⟨_, hsync, hcommit, _, ⟨hinputs, hfrozen, hroutes, _⟩, _⟩ := htaken
  exact ⟨t, hexec, (congrArg Timebase.state hx).trans hrun, congrArg Timebase.counter hx,
    congrArg Timebase.direction hx, congrArg Timebase.tickTimer hx, congrArg Timebase.cycles hx, hother, hsync, hinputs,
    hfrozen, hroutes, congrArg CommitUnit.queue hcommit, hchannels, hpairs, htimebases, hnextId, hkept, r, htaken',
    hposted⟩

/-- Settles O19: the boundary is the one that `midBoundary_taken` describes, on the timebase taken to its turning point. -/
theorem tickAtTheTurningPoint : Obligations.TickAtTheTurningPoint := by
  intro s x hr hs ha hd hc
  have hexec := exec_tick (x := x) hr hs
  have hturn := advance_turn ha hd hc
  have hevent := tickEvent_mid hturn
  have hkept := tickEvent_outsideKept x s
  have hboundary := (tickEvent_taken x s).2.1
  rw [hturn] at hboundary
  obtain ⟨r, htaken, hposted⟩ := hboundary rfl
  have htb : (tickEvent x s).timebases = s.timebases.set x { s.timebases.get x with
      counter := (s.timebases.get x).active.period, direction := .up, tickTimer := 0
      active := lastRecord (s.timebases.get x).active (takenAt x .mid s.commit.queue) } := by
    rw [hevent, (State.postRaised_keeps _ _).2.2.1, midBoundary_timebases]
    simp
  generalize tickEvent x s = t at hexec hkept htaken hposted htb
  have hx : t.timebases.get x = { s.timebases.get x with
      counter := (s.timebases.get x).active.period, direction := .up, tickTimer := 0
      active := lastRecord (s.timebases.get x).active (takenAt x .mid s.commit.queue) } := by simp [htb]
  have hother : t.timebases.get (otherTb x) = s.timebases.get (otherTb x) := by simp [htb, otherTb_ne]
  have htaken' := htaken
  obtain ⟨_, hsync, hcommit, htrip, henable, hdrained, _⟩ := htaken
  exact ⟨t, hexec, congrArg Timebase.counter hx, congrArg Timebase.direction hx, (congrArg Timebase.cycles hx :),
    (congrArg Timebase.state hx :), congrArg Timebase.tickTimer hx, hother, congrArg CommitUnit.queue hcommit, hsync, htrip,
    henable, hdrained, hkept, r, htaken', hposted⟩

/-! ## A STOPPING timebase at its START boundary (R10, R53) -/

/-- The Commit Unit's notices at a stop are CANCELLED (R53). -/
theorem stopEvent_commit_key {x : Tb} {k : StopKind} {s : State} {p : Posting} (hp : p ∈ (stopEvent x k s).2.commit) :
    p.key = .cancelled x := by
  have he : (stopEvent x k s).2.commit = if ticketCount x s.commit.queue = 0 then []
      else [{ key := .cancelled x, detail := .cancelled (ticketCount x s.commit.queue) k }] := rfl
  rw [he] at hp
  split at hp
  · cases hp
  · rw [List.mem_singleton.mp hp]

/-- Beside the notices of its stop event, the completion of a stop hands over the TIMEBASE notice (R10, R53). -/
theorem mem_completeStop_commit {x : Tb} {s : State} {p : Posting} :
    p ∈ (completeStop x s).2.commit
      ↔ p ∈ (stopEvent x .atBoundary ((s.setTimebase x (stopAtZero (s.timebases.get x))).restartClocks x)).2.commit
        ∨ p = stoppedNotice x := by
  have hperm := eitherOrder_blocks
    (stopEvent x .atBoundary ((s.setTimebase x (stopAtZero (s.timebases.get x))).restartClocks x)).1
    (stopEvent x .atBoundary ((s.setTimebase x (stopAtZero (s.timebases.get x))).restartClocks x)).2.commit
    [stoppedNotice x]
  exact hperm.mem_iff.trans (by rw [List.mem_append, List.mem_singleton])

theorem completeStop_raised (x : Tb) (s : State) : RaisedByOwners (completeStop x s).2 :=
  stopEvent_raised x .atBoundary _

/-- The START boundary of a STOPPING timebase reports that it has stopped (R10). -/
theorem startBoundary_reports {x : Tb} {s : State} (ticked : Bool) (h : (s.timebases.get x).state = .stopping) :
    let b := startBoundary x ticked s
    Reported (b.1.postRaised b.2) (.timebase x) (.timebase .stopped .stoppedAtBoundary) := by
  rw [startBoundary_stopping ticked h]
  generalize hm : takeStart x ticked s = m
  have hkey : ∀ p ∈ m.2.commit, (∃ y, p.key = .applied y) ∨ ∃ y, p.key = .expired y := by
    intro p hp
    rw [← hm] at hp
    exact commitBoundary_key hp
  have hraised : RaisedByOwners m.2 := hm ▸ takeStart_raised x ticked s
  refine postRaised_reports (p := stoppedNotice x) _ (hraised.both (completeStop_raised x m.1)) ?_
    (by simp [stoppedNotice]) (by simp [stoppedNotice]) fun q hq hk => ?_
  · exact List.mem_append_right _ (mem_completeStop_commit.mpr (.inr rfl))
  · rcases List.mem_append.mp hq with hq | hq
    · rcases hkey q hq with ⟨y, hy⟩ | ⟨y, hy⟩ <;> rw [hy] at hk <;> cases hk
    · rcases mem_completeStop_commit.mp hq with hq | hq
      · rw [stopEvent_commit_key hq] at hk
        cases hk
      · exact hq

/-- The releases of the boundary and of the stop event, in turn (R91, R92). -/
theorem startBoundary_routes_stopping {x : Tb} {s : State} (ticked : Bool) (h : (s.timebases.get x).state = .stopping)
    (n : Slot) :
    (startBoundary x ticked s).1.trip.routes.get n
      = ((s.trip.routes.get n).map (releaseRoute (boundSet s.pattern x))).map
          (releaseRoute (boundSet (startBoundary x ticked s).1.pattern x)) := by
  rw [startBoundary_stopping ticked h]
  simp [releasedRoutes]

/-- The stop at a START boundary leaves SYNC OUT in the pulse of the boundary (R15). -/
theorem startBoundary_sync (x : Tb) (ticked : Bool) (s : State) :
    (startBoundary x ticked s).1.sync = pulseAt x s.sync := by
  by_cases h : (s.timebases.get x).state = .stopping
  · rw [startBoundary_stopping ticked h]
    simp
  · rw [startBoundary_running ticked h]
    simp

/-- Settles O18: the boundary and the stop are those that `startBoundary_taken` describes. -/
theorem stoppingCompletesAtTheBoundary : Obligations.StoppingCompletesAtTheBoundary := by
  intro s x hr hstopping h
  have hexec := exec_tick (x := x) hr (by simp [isStopped, hstopping])
  have hend := advance_end h
  have hevent := tickEvent_start hend
  have hkept := tickEvent_outsideKept x s
  have hboundary := (tickEvent_taken x s).2.2
  rw [hend] at hboundary
  obtain ⟨r, htaken, hposted⟩ := hboundary rfl
  obtain ⟨m, start, stop, hstart, hstop, hnotices⟩ := htaken.2 (by simp [hstopping])
  generalize hu : s.setTimebase x { s.timebases.get x with counter := 0, direction := .up, tickTimer := 0 } = u
    at hevent hstart
  have hus : (u.timebases.get x).state = .stopping := by simp [← hu, hstopping]
  have htb : (tickEvent x s).timebases = s.timebases.set x (stopAtZero { s.timebases.get x with
      counter := 0, direction := .up, tickTimer := 0, cycles := (s.timebases.get x).cycles + 1
      active := lastRecord (s.timebases.get x).active (takenAt x .start s.commit.queue) }) := by
    rw [hevent, (State.postRaised_keeps _ _).2.2.1, startBoundary_timebases_stopping true hus]
    simp [← hu, cycled]
  have hqueue : (tickEvent x s).commit.queue = withoutTickets x s.commit.queue := by
    rw [hevent, (State.postRaised_keeps _ _).2.2.2.2.2.1, startBoundary_commit_stopping true hus, ← hu]
    rfl
  have hroutes : ∀ n, (tickEvent x s).trip.routes.get n
      = ((s.trip.routes.get n).map (releaseRoute (boundSet s.pattern x))).map
          (releaseRoute (boundSet (tickEvent x s).pattern x)) := by
    intro n
    rw [hevent]
    refine (startBoundary_routes_stopping true hus n).trans ?_
    rw [← hu]
    rfl
  have hreport : Reported (tickEvent x s) (.timebase x) (.timebase .stopped .stoppedAtBoundary) := by
    rw [hevent]
    exact startBoundary_reports true hus
  have hsync : (tickEvent x s).sync = pulseAt x s.sync := by
    rw [hevent, (State.postRaised_keeps _ _).2.2.2.1, startBoundary_sync, ← hu]
    rfl
  generalize tickEvent x s = t at hexec hkept hstop hposted htb hqueue hroutes hreport hsync
  have hx : t.timebases.get x = stopAtZero { s.timebases.get x with
      counter := 0, direction := .up, tickTimer := 0, cycles := (s.timebases.get x).cycles + 1
      active := lastRecord (s.timebases.get x).active (takenAt x .start s.commit.queue) } := by simp [htb]
  have hother : t.timebases.get (otherTb x) = s.timebases.get (otherTb x) := by simp [htb, otherTb_ne]
  have hstop' := hstop
  obtain ⟨_, _, _, _, _, _, _, _, _, hpairs, _, _, hsource, _⟩ := hstop
  have hinactive : ∀ c, boundTo t.pattern c = x → t.pattern.source.get c = .inactive := by
    intro c hc
    refine hsource c ?_
    rw [boundTo, ← hpairs]
    exact hc
  exact ⟨t, hexec, congrArg Timebase.state hx, congrArg Timebase.counter hx, congrArg Timebase.direction hx,
    congrArg Timebase.tickTimer hx, congrArg Timebase.cycles hx, hother, hqueue, hroutes, hreport, hsync, hinactive, hkept,
    m, start, stop, r, hstart, hstop', hnotices, hposted⟩

end Sys2Proof.Machine
end

section
/-!
PROOFS (01_timebases_and_boundaries.md): SYNC IN (R13, R14, R54).
-/

namespace Sys2Proof.Machine

/-! ## The SYNC IN filter (R13) -/

theorem exec_syncInSample {s : State} (l : Level) (hr : s.inReset = false) :
    exec (.syncInSample l) s = .next (sampleSyncIn l (s.setSyncPin l)) :=
  congrArg _ (if_neg (by simp [hr]))

theorem exec_qualifiedSyncInEdge {s : State} (hr : s.inReset = false) :
    exec .qualifiedSyncInEdge s
      = .next (changeSyncLevel (edgeLevel s.sync.edge) (s.setSyncPin (edgeLevel s.sync.edge))) :=
  congrArg _ (if_neg (by simp [hr]))

/-- A sample that does not change the filtered level clears the count or counts one (R13). -/
theorem sampleSyncIn_counts {l : Level} {s : State} (h : changesSyncLevel s.sync l = false) :
    sampleSyncIn l s
      = s.withSync { s.sync with agreement := if l = s.sync.filtered then 0 else s.sync.agreement + 1 } := by
  simp [sampleSyncIn, h]

theorem sampleSyncIn_changes {l : Level} {s : State} (h : changesSyncLevel s.sync l = true) :
    sampleSyncIn l s = changeSyncLevel l s := by
  simp [sampleSyncIn, h]

theorem changesSyncLevel_iff {u : SyncUnit} {l : Level} :
    changesSyncLevel u l = true ↔ l ≠ u.filtered ∧ 3 ≤ u.agreement := by
  simp [changesSyncLevel]

/-! ## A qualified edge at one timebase (R14) -/

theorem edgeOn_idle {x : Tb} {s : State} (h : edgeActs (s.timebases.get x) = false) : edgeOn x s = (s, noneRaised) := by
  simp [edgeOn, h]

/-- What the edge does to a timebase that takes a boundary is that boundary, from count 0 (R14). -/
theorem edgeOn_acts {x : Tb} {s : State} (h : edgeActs (s.timebases.get x) = true) :
    ∃ v, (edgeOn x s).1 = (startBoundary x false (s.setTimebase x v)).1
      ∧ v = if (s.timebases.get x).state = .waitSync
          then { atZero (s.timebases.get x) with state := .running, cycles := 0 } else atZero (s.timebases.get x) := by
  refine ⟨_, ?_, rfl⟩
  unfold edgeOn
  cases hs : (s.timebases.get x).state <;> simp [h, hs]

theorem edgeOn_timebases_other {x y : Tb} (s : State) (h : y ≠ x) :
    (edgeOn x s).1.timebases.get y = s.timebases.get y := by
  cases ha : edgeActs (s.timebases.get x) with
  | false => rw [edgeOn_idle ha]
  | true =>
    obtain ⟨v, hv, _⟩ := edgeOn_acts ha
    simp [hv, startBoundary_timebases_other false _ h, h]

theorem edgeOn_queue_other {x y : Tb} (s : State) (h : y ≠ x) :
    ((edgeOn x s).1.commit.queue.filter fun k => k.timebase = y) = s.commit.queue.filter fun k => k.timebase = y := by
  cases ha : edgeActs (s.timebases.get x) with
  | false => rw [edgeOn_idle ha]
  | true =>
    obtain ⟨v, hv, _⟩ := edgeOn_acts ha
    rw [hv, startBoundary_queue_other false _ h]
    rfl

/-- A boundary drives SYNC OUT and touches nothing of the SYNC IN filter (R13, R15). -/
theorem pulseAt_keeps (x : Tb) (u : SyncUnit) :
    (pulseAt x u).filtered = u.filtered ∧ (pulseAt x u).agreement = u.agreement ∧ (pulseAt x u).source = u.source
      ∧ (pulseAt x u).edge = u.edge := by
  unfold pulseAt
  split <;> exact ⟨rfl, rfl, rfl, rfl⟩

theorem edgeOn_sync (x : Tb) (s : State) :
    (edgeOn x s).1.sync.filtered = s.sync.filtered ∧ (edgeOn x s).1.sync.agreement = s.sync.agreement
      ∧ (edgeOn x s).1.sync.source = s.sync.source ∧ (edgeOn x s).1.sync.edge = s.sync.edge := by
  cases ha : edgeActs (s.timebases.get x) with
  | false => rw [edgeOn_idle ha]; exact ⟨rfl, rfl, rfl, rfl⟩
  | true =>
    obtain ⟨v, hv, _⟩ := edgeOn_acts ha
    rw [hv, startBoundary_sync]
    exact pulseAt_keeps x s.sync

/-- The edge starts a timebase in WAIT_SYNC with cycle count 1. -/
theorem edgeOn_waitSync {x : Tb} {s : State} (h : (s.timebases.get x).state = .waitSync) :
    let t := (edgeOn x s).1.timebases.get x
    t.state = .running ∧ t.counter = 0 ∧ t.direction = .up ∧ t.cycles = 1 ∧ t.tickTimer = 0 := by
  obtain ⟨v, hv, he⟩ := edgeOn_acts (x := x) (s := s) (by simp [edgeActs, h])
  rw [if_pos h] at he
  subst he
  rw [hv, startBoundary_timebases_running false (by simp)]
  simp [cycled, atZero]

/-- The edge restarts a RUNNING timebase with sync_restart; the START boundary counts a cycle. -/
theorem edgeOn_running {x : Tb} {s : State} (h : (s.timebases.get x).state = .running)
    (hr : (s.timebases.get x).active.syncRestart = true) :
    let t := (edgeOn x s).1.timebases.get x
    t.state = .running ∧ t.counter = 0 ∧ t.direction = .up ∧ t.tickTimer = 0
      ∧ t.cycles = (s.timebases.get x).cycles + 1 := by
  obtain ⟨v, hv, he⟩ := edgeOn_acts (x := x) (s := s) (by simp [edgeActs, h, hr])
  rw [if_neg (by simp [h])] at he
  subst he
  rw [hv, startBoundary_timebases_running false (by simp [atZero, h])]
  simp [cycled, atZero, h]

/-- The edge completes the stop of a STOPPING timebase with sync_restart, and no ticket of it is left. -/
theorem edgeOn_stopping {x : Tb} {s : State} (h : (s.timebases.get x).state = .stopping)
    (hr : (s.timebases.get x).active.syncRestart = true) :
    let t := (edgeOn x s).1.timebases.get x
    t.state = .stopped ∧ t.counter = 0 ∧ t.cycles = (s.timebases.get x).cycles + 1
      ∧ ((edgeOn x s).1.commit.queue.filter fun k => k.timebase = x) = [] := by
  obtain ⟨v, hv, he⟩ := edgeOn_acts (x := x) (s := s) (by simp [edgeActs, h, hr])
  rw [if_neg (by simp [h])] at he
  subst he
  have hs : ((s.setTimebase x (atZero (s.timebases.get x))).timebases.get x).state = .stopping := by simp [atZero, h]
  rw [hv, startBoundary_timebases_stopping false hs, startBoundary_commit_stopping false hs]
  simp [cycled, atZero, stopAtZero, withoutTickets]

theorem edgeActs_false_of_rest {t : Timebase}
    (h : t.state = .stopped ∨ (t.state ≠ .waitSync ∧ t.active.syncRestart = false)) : edgeActs t = false := by
  unfold edgeActs
  rcases h with h | ⟨h, hr⟩
  · rw [h]
  · cases hs : t.state
    case waitSync => exact absurd hs h
    case stopped => rfl
    all_goals exact hr

/-! ## A qualified edge at both timebases (R14, R54, log 8) -/

/-- Whichever timebase the edge reaches first: at X it does what it does to X alone, on a state where X stands as it stood and its
tickets are marked. -/
theorem syncEdge_at (x : Tb) (s : State) :
    ∃ u : State, u.timebases.get x = s.timebases.get x
      ∧ (u.commit.queue.filter fun k => k.timebase = x) = (markTickets s.commit.queue).filter (fun k => k.timebase = x)
      ∧ (syncEdge s).timebases.get x = (edgeOn x u).1.timebases.get x
      ∧ ((syncEdge s).commit.queue.filter fun k => k.timebase = x)
        = (edgeOn x u).1.commit.queue.filter fun k => k.timebase = x := by
  simp only [syncEdge, State.postRaised_keeps]
  have hchosen := firstAtEdge_keeps (s.setQueue (markTickets s.commit.queue))
  generalize firstAtEdge (s.setQueue (markTickets s.commit.queue)) = chosen at hchosen
  obtain ⟨_, _, htb, _, _, hcommit, _⟩ := hchosen
  by_cases hx : x = chosen.2
  · subst hx
    exact ⟨chosen.1, by rw [htb]; rfl, by rw [hcommit]; rfl, edgeOn_timebases_other _ (otherTb_ne _).symm,
      edgeOn_queue_other _ (otherTb_ne _).symm⟩
  · refine ⟨(edgeOn chosen.2 chosen.1).1, ?_, ?_, ?_, ?_⟩
    · rw [edgeOn_timebases_other _ hx, htb]
      rfl
    · rw [edgeOn_queue_other _ hx, hcommit]
      rfl
    · rw [eq_otherTb_of_ne hx]
    · rw [eq_otherTb_of_ne hx]

theorem syncEdge_sync (s : State) :
    (syncEdge s).sync.filtered = s.sync.filtered ∧ (syncEdge s).sync.agreement = s.sync.agreement
      ∧ (syncEdge s).sync.source = s.sync.source ∧ (syncEdge s).sync.edge = s.sync.edge := by
  simp only [syncEdge, State.postRaised_keeps, edgeOn_sync, firstAtEdge_keeps, State.setQueue_keeps]
  exact ⟨trivial, trivial, trivial, trivial⟩

/-- The state at which a qualified edge acts: the pin and the filtered level are at the edge's level (R13, log 4). -/
def qualifiedAt (s : State) : State :=
  (s.setSyncPin (edgeLevel s.sync.edge)).withSync { s.sync with filtered := edgeLevel s.sync.edge, agreement := 0 }

theorem exec_qualifiedSyncInEdge_eq {s : State} (hr : s.inReset = false) :
    exec .qualifiedSyncInEdge s = .next (syncEdge (qualifiedAt s)) := by
  rw [exec_qualifiedSyncInEdge hr]
  exact congrArg _ (if_pos rfl)

theorem syncInSample_cases {s : State} {l : Level} (hr : s.inReset = false) :
    (l = s.sync.filtered →
        exec (.syncInSample l) s
          = .next ((s.withPins { s.pins with syncIn := l }).withSync { s.sync with agreement := 0 }))
      ∧ (l ≠ s.sync.filtered → s.sync.agreement < 3 →
        exec (.syncInSample l) s
          = .next ((s.withPins { s.pins with syncIn := l }).withSync
              { s.sync with agreement := s.sync.agreement + 1 }))
      ∧ (l ≠ s.sync.filtered → s.sync.agreement = 3 → l ≠ edgeLevel s.sync.edge →
        exec (.syncInSample l) s
          = .next ((s.withPins { s.pins with syncIn := l }).withSync { s.sync with filtered := l, agreement := 0 }))
      ∧ (l ≠ s.sync.filtered → s.sync.agreement = 3 → l = edgeLevel s.sync.edge →
        exec (.syncInSample l) s = exec .qualifiedSyncInEdge s) := by
  have hcounts := fun h => sampleSyncIn_counts (l := l) (s := s.setSyncPin l) h
  have hchanges := fun h => sampleSyncIn_changes (l := l) (s := s.setSyncPin l) h
  simp only [State.setSyncPin_keeps] at hcounts hchanges
  rw [exec_syncInSample l hr]
  refine ⟨fun h => ?_, fun h hn => ?_, fun h hn he => ?_, fun h hn he => ?_⟩
  · rw [hcounts (by simp [changesSyncLevel, h]), if_pos h]
    rfl
  · rw [hcounts (by rw [← Bool.not_eq_true, changesSyncLevel_iff]; omega), if_neg h]
    rfl
  · rw [hchanges (changesSyncLevel_iff.mpr ⟨h, by omega⟩)]
    exact congrArg _ (if_neg he)
  · rw [hchanges (changesSyncLevel_iff.mpr ⟨h, by omega⟩), exec_qualifiedSyncInEdge hr, ← he]

/-- Settles O20: the filter by its four samples; the edge at each timebase by `syncEdge_at`, and whole by `syncEdge_taken`. -/
theorem syncInSamplesAndEdges : Obligations.SyncInSamplesAndEdges := by
  refine ⟨fun s l hr => syncInSample_cases hr, fun s hr => ?_⟩
  have hat := fun x => syncEdge_at x (qualifiedAt s)
  obtain ⟨hfiltered, hagreement, hsource, hedge⟩ := syncEdge_sync (qualifiedAt s)
  obtain ⟨hlink, hcache, hpins, hinReset, hpending⟩ := syncEdge_keeps (qualifiedAt s)
  have htaken := syncEdge_taken (qualifiedAt s)
  refine ⟨_, exec_qualifiedSyncInEdge_eq hr, hfiltered, hagreement, hsource, hedge, hpins, fun x hs => ?_,
    fun x hs hre => ?_, fun x hs hre => ?_, fun x hs => ?_, hlink, hcache, hinReset, hpending, htaken⟩
  all_goals
    obtain ⟨u, hu, hqueue, htb, hleft⟩ := hat x
    have hus : u.timebases.get x = s.timebases.get x := hu
    rw [htb]
  · exact edgeOn_waitSync (hus ▸ hs)
  · rw [← hus] at hs hre ⊢
    exact edgeOn_running hs hre
  · rw [hleft]
    rw [← hus] at hs hre ⊢
    exact edgeOn_stopping hs hre
  · rw [hleft, edgeOn_idle (edgeActs_false_of_rest (hus ▸ hs))]
    exact ⟨hus, hqueue⟩

end Sys2Proof.Machine
end

section
/-!
PROOFS (01_timebases_and_boundaries.md): power-on reset (R145, R146, R179 to R181) and the core period (R2, R13, R15, R67, R120, R144,
R151, R154 to R157).
-/

namespace Sys2Proof.Machine

/-! ## Power-on reset (R145, R146, R179 to R181) -/

/-- Straps 1 to 30 are the node address; straps 0 and 31 are a fault, and the address is 30 (R146). -/
theorem strapAddress_cases (straps : BitVec 5) :
    (straps = 0 ∨ straps = 31 → strapAddress straps = (30, true))
      ∧ (straps ≠ 0 → straps ≠ 31 →
        (strapAddress straps).1.toNat = straps.toNat ∧ (strapAddress straps).2 = false) := by
  refine ⟨fun h => if_pos h, fun h0 h31 => ?_⟩
  rw [strapAddress, if_neg (not_or.mpr ⟨h0, h31⟩)]
  have hlt : straps.toNat < 32 := straps.isLt
  refine ⟨?_, rfl⟩
  simp only [BitVec.truncate_eq_setWidth, BitVec.toNat_setWidth]
  omega

/-- The rate straps are the code of the strap rate (R145, R184). -/
theorem rateByte_strapRateOf (straps : BitVec 2) : rateByte (strapRateOf straps) = straps.zeroExtend 8 := by
  revert straps
  decide

/-- While RST is low a tick and a byte do nothing (R179). -/
theorem exec_in_reset {s : State} (h : s.inReset = true) :
    (∀ x, exec (.tick x) s = .next s) ∧ ∀ b, exec (.byteArrival b) s = .next s :=
  ⟨fun _ => congrArg _ (if_pos (.inl h)), fun _ => congrArg _ (if_pos (by simp [takesNoByte, deaf, h]))⟩

theorem padOf_in_reset {s : State} (h : s.inReset = true) (c : Chan) : padOf s c = .float := if_pos h

/-- DISABLED outputs at their defaults float every pad (R121, R123). -/
theorem padOf_default {s : State} (h : s.output = .default) (c : Chan) : padOf s c = .float := by
  unfold padOf
  split
  · rfl
  · rw [h]
    cases c <;> rfl

theorem inMask_allClasses (k : NoticeKey) : inMask allClasses k = true := by cases k <;> rfl

/-- The RESET notice is unfetched, and every class is in the mask (R138, R140). -/
theorem attention_poweredOn (pins : Contacts) (s : State) : attention (poweredOn pins s) = true := by
  simp [attention, poweredOn, noticesAtPowerOn, resetNotice, inMask_allClasses]

/-- Settles O50: the fields of the two states are those of `poweredOn`. -/
theorem powerOnReset : Obligations.PowerOnReset := by
  refine ⟨fun s => ?_, fun s pins => ?_⟩
  · exact ⟨_, rfl, rfl, rfl, rfl, rfl, padOf_in_reset rfl, rfl, rfl, rfl, rfl, rfl, rfl, (exec_in_reset rfl).1,
      (exec_in_reset rfl).2⟩
  · obtain ⟨hfault, haddress⟩ := strapAddress_cases pins.address
    refine ⟨_, rfl, rfl, rfl, rfl, rfl, fun h => ?_, haddress, rateByte_strapRateOf _, rfl, rfl, rfl, rfl, ?_,
      fun x => ?_, rfl, fun c => ?_, fun p => ?_, fun x => ?_, rfl, rfl, fun i => ?_, fun n => ?_, rfl, rfl, rfl,
      fun c => ⟨padOf_default rfl c, ?_⟩, rfl, attention_poweredOn pins s⟩
    · exact ⟨congrArg Prod.fst (hfault h), congrArg Prod.snd (hfault h)⟩
    · show (if pins.line = .low then some 0 else none) = some 0 ↔ pins.line = .low
      cases pins.line <;> decide
    · cases x <;> rfl
    · cases c <;> exact ⟨rfl, rfl, rfl⟩
    · cases p <;> exact ⟨rfl, rfl, rfl⟩
    · cases x <;> rfl
    · cases i <;> rfl
    · cases n <;> rfl
    · cases c <;> exact ⟨rfl, rfl⟩

/-! ## A core period: the state on which an event is taken -/

/-- The state after a core period's count and its sample of SYNC IN. -/
def countedState (s : State) : State := syncSampled (countTimers s)

theorem countedState_keeps (s : State) :
    (countedState s).inReset = s.inReset ∧ (countedState s).pins = s.pins
      ∧ (countedState s).link = countLink s.pins.line s.link := ⟨rfl, rfl, rfl⟩

/-- A receiver that is between bytes of a frame, or within a byte, hears (R150, R157). -/
theorem countedState_hears {s : State} (hr : s.inReset = false) (hl : LinkSound s)
    (h : (countedState s).link.receiver ≠ .hunt ∨ (countedState s).link.bits ≠ .waiting) :
    takesNoByte (countedState s) = false := by
  obtain ⟨_, _, _, _, hlisten, _⟩ := hl
  have hbits : (countedState s).link.bits = countBits s.link.bits := rfl
  have hrest : s.link.transmitter = .idle ∧ s.link.highWait = none := by
    refine Decidable.byContradiction fun hn => ?_
    obtain ⟨hhunt, hwait⟩ := hlisten (Classical.not_and_iff_not_or_not.mp hn)
    rcases h with h | h
    · exact h hhunt
    · exact h (by rw [hbits, hwait]; rfl)
  obtain ⟨_, _, hlink⟩ := countedState_keeps s
  simp [takesNoByte, deaf, transmitterIdle, (countedState_keeps s).1, hr, hlink, countLink, countTransmitter, hrest]

theorem deaf_of_takesNoByte {s : State} (h : takesNoByte s = false) : deaf s = false := by
  simp only [takesNoByte, Bool.or_eq_false_iff] at h
  exact h.1

/-- On a line that is low and measured already, the line's being low changes nothing (R156, R157). -/
theorem lineLow_countedState {s : State} (hline : s.pins.line = .low) (hsend : isSending (countedState s).link = false)
    (hlow : (countedState s).link.lowTime ≠ none) : lineLow 0 (countedState s) = countedState s := by
  obtain ⟨n, hn⟩ := Option.ne_none_iff_exists'.mp hlow
  have hwait : ((countedState s).link.highWait.map fun _ => 0) = (countedState s).link.highWait := by
    have he : (countedState s).link.highWait = s.link.highWait.map fun n => if s.pins.line = .high then n + 1 else 0 := rfl
    rw [he, hline]
    cases s.link.highWait <;> rfl
  have hpins : ({ (countedState s).pins with line := .low } : Contacts) = (countedState s).pins := by
    rw [(countedState_keeps s).2.1, ← hline]
  have hmeasured : some ((countedState s).link.lowTime.getD 0) = (countedState s).link.lowTime := by rw [hn]; rfl
  simp only [lineLow, State.setLinePin, hsend, Bool.false_eq_true, if_false, hmeasured, hwait, hpins]
  rfl

/-! ## A core period: each event as its row -/

theorem isDue_countedState {s : State} {d : Due} (hd : d ≠ .syncLevel) (h : FallsDue (countTimers s) d) :
    isDue (countedState s) d = true :=
  (isDue_syncSampled _ hd).trans ((fallsDue_iff _ _).mp h)

/-- The fourth sample of SYNC IN is its row on the state before the sample (R13). -/
theorem exec_syncInSample_due {u : State} (hr : u.inReset = false) (h : FallsDue u .syncLevel) :
    exec (.syncInSample u.pins.syncIn) u = .next (changeSyncLevel u.pins.syncIn u) := by
  rw [exec_syncInSample _ hr]
  exact congrArg _ (sampleSyncIn_changes (s := u) (changesSyncLevel_iff.mpr h))

theorem exec_tripInputSample_pin {v : State} (i : TripName) (hr : v.inReset = false) :
    exec (.tripInputSample i (v.pins.trip.get i)) v = .next (sampleInput i (v.pins.trip.get i) v) := by
  have hpin : v.setTripPin i (v.pins.trip.get i) = v := by
    have ht : v.pins.trip.set i (v.pins.trip.get i) = v.pins.trip := by
      refine TripFile.ext fun j => ?_
      rw [TripFile.get_set]
      split
      · next hj => rw [hj]
      · rfl
    apply State.eq_of_fields
    simp [State.setTripPin, ht]
  have he : exec (.tripInputSample i (v.pins.trip.get i)) v
      = .next (sampleInput i (v.pins.trip.get i) (v.setTripPin i (v.pins.trip.get i))) :=
    congrArg _ (if_neg (by simp [hr]))
  rw [he, hpin]

/-- The events that a row of the table takes as they are: each does on the counted state what its row does. -/
theorem takeDue_eq_exec {s : State} (hr : s.inReset = false) (hl : LinkSound s) :
    let v := countedState s
    (∀ i, .next (takeDue v (.tripSample i)) = exec (.tripInputSample i (v.pins.trip.get i)) v)
      ∧ (∀ x, isDue v (.tick x) = true → .next (takeDue v (.tick x)) = exec (.tick x) v)
      ∧ .next (takeDue v .pulseEnd) = exec .syncOutPulseEnd v
      ∧ (∀ p, isDue v (.deadtimeTick p) = true → .next (takeDue v (.deadtimeTick p)) = exec (.deadtimeClockTick p) v)
      ∧ .next (takeDue v .turnaround) = exec .turnaround v
      ∧ .next (takeDue v .completion) = exec .completion v
      ∧ (isDue v .lineBreak = true → v.pins.line = .low → .next (takeDue v .lineBreak) = exec .lineBreak v)
      ∧ (isDue v .gap = true → .next (takeDue v .gap) = exec .gap v)
      ∧ (isDue v .highForOneBit = true → .next (takeDue v .highForOneBit) = exec .lineHighForOneBitTime v) := by
  intro v
  have hvr : v.inReset = false := hr
  refine ⟨fun i => (exec_tripInputSample_pin i hvr).symm, fun x h => ?_, rfl, fun p h => ?_, ?_, ?_, fun h hline => ?_,
    fun h => ?_, fun h => ?_⟩
  · simp only [isDue, Bool.and_eq_true, Bool.not_eq_true'] at h
    exact (exec_tick hvr h.1).symm
  · simp only [isDue, Bool.and_eq_true] at h
    exact congrArg _ (if_neg (by simp [hvr, h.1])).symm
  · cases ht : v.link.transmitter <;> simp only [takeDue, exec, execTurnaround, ht]
  · cases ht : v.link.transmitter <;> simp only [takeDue, exec, execCompletion, ht]
  · simp only [isDue, Bool.and_eq_true, Bool.not_eq_true'] at h
    obtain ⟨⟨hsend, hseen⟩, hlow⟩ := h
    have he : exec .lineBreak v = .next (linkReset (lineLow 0 v)) := congrArg _ (if_neg (by simp [hvr, hsend, hseen]))
    rw [he, lineLow_countedState (s := s) hline hsend]
    · rfl
    · intro hn
      rw [hn] at hlow
      cases hlow
  · simp only [isDue, Bool.and_eq_true, decide_eq_true_eq] at h
    obtain ⟨hrec, hgap⟩ := h
    have hdeaf := deaf_of_takesNoByte (countedState_hears hr hl (.inl hrec))
    refine congrArg _ (if_neg ?_).symm
    rintro (hd | hh | hn)
    · exact absurd hd (by rw [hdeaf]; decide)
    · exact hrec hh
    · rw [hn] at hgap
      cases hgap
  · refine congrArg _ (if_neg ?_).symm
    rintro (hd | hn)
    · exact absurd hd (by simp [hvr])
    · simp [isDue, hn] at h

/-- A sample of the line in a byte: a data bit, the arrival, or the framing error (R144, R152). -/
theorem sampleBit_countedState {s : State} (hr : s.inReset = false) (hl : LinkSound s) {n : Nat} {b : Byte} {e : Nat}
    (hb : (countedState s).link.bits = .sampling n b e) :
    let v := countedState s
    (n < 8 → v.pins.line = .low → sampleBit v = v.withLink { v.link with bits := .sampling (n + 1) b 0 })
      ∧ (n < 8 → v.pins.line = .high →
        sampleBit v = v.withLink { v.link with bits := .sampling (n + 1) (b ||| ((1 : Byte) <<< n)) 0 })
      ∧ (8 ≤ n → v.pins.line = .high → .next (sampleBit v) = exec (.byteArrival b) v)
      ∧ (8 ≤ n → v.pins.line = .low → .next (sampleBit v) = exec .framing v) := by
  intro v
  have hhears : takesNoByte v = false := countedState_hears hr hl (.inr (by rw [hb]; simp))
  refine ⟨fun hn hline => ?_, fun hn hline => ?_, fun hn hline => ?_, fun hn hline => ?_⟩
  · simp only [sampleBit, v, hb, if_pos hn]
    rw [show (countedState s).pins.line = .low from hline]
    rfl
  · simp only [sampleBit, v, hb, if_pos hn]
    rw [show (countedState s).pins.line = .high from hline]
    rfl
  · have he : exec (.byteArrival b) v = .next (byteArrives b v) := congrArg _ (if_neg (by simp [hhears]))
    rw [he]
    simp only [sampleBit, v, hb, if_neg (Nat.not_lt.mpr hn)]
    rw [show (countedState s).pins.line = .high from hline]
  · have he : exec .framing v = .next (framingError v) := congrArg _ (if_neg (by simp [hhears]))
    rw [he]
    simp only [sampleBit, v, hb, if_neg (Nat.not_lt.mpr hn)]
    rw [show (countedState s).pins.line = .low from hline]

/-- Settles O60: the counted state is `countTimers s`; `step_one_due` takes the one event on it, and each event is its row. -/
theorem corePeriodCountsAndTakesWhatFallsDue : Obligations.CorePeriodCountsAndTakesWhatFallsDue := by
  refine ⟨⟨rfl, rfl, rfl, rfl, rfl⟩, fun s hp => ⟨step_in_reset hp, fun hr hl => ⟨countTimers s, countTimers_counted s, ?_⟩⟩⟩
  intro v only
  have hone : ∀ {d : Due}, only d → d ≠ .syncLevel → step s = .next (takeDue v d) := fun h hd => step_one_due hp hr h hd
  have hdue : ∀ {d : Due}, only d → d ≠ .syncLevel → isDue v d = true := fun h hd => isDue_countedState hd h.1
  obtain ⟨htrip, htick, hpulse, hdead, hturn, hcompl, hbreak, hgap, hhigh⟩ := takeDue_eq_exec hr hl
  refine ⟨step_nothing_due hp hr, fun h => ?_, fun i h => ?_, fun x h => ?_, fun h => ?_, fun p h => ?_, fun h => ?_,
    fun h => ?_, fun h hline => ?_, fun h => ?_, fun h => ?_, fun n b e h hb => ?_, fun h => ?_⟩
  · rw [step_sync_due hp hr h]
    exact (exec_syncInSample_due (u := countTimers s) hr h.1).symm
  · rw [hone h (by simp)]
    exact htrip i
  · rw [hone h (by simp)]
    exact htick x (hdue h (by simp))
  · rw [hone h (by simp)]
    exact hpulse
  · rw [hone h (by simp)]
    exact hdead p (hdue h (by simp))
  · rw [hone h (by simp)]
    exact hturn
  · rw [hone h (by simp)]
    exact hcompl
  · rw [hone h (by simp)]
    exact hbreak (hdue h (by simp)) hline
  · rw [hone h (by simp)]
    exact hgap (hdue h (by simp))
  · rw [hone h (by simp)]
    exact ⟨fun hline => congrArg _ (if_pos hline), fun hline => congrArg _ (if_neg (by simp [hline]))⟩
  · obtain ⟨hlow, hhigh, harrives, hframing⟩ := sampleBit_countedState hr hl hb
    rw [hone h (by simp)]
    exact ⟨fun hn hline => congrArg _ (hlow hn hline), fun hn hline => congrArg _ (hhigh hn hline), harrives, hframing⟩
  · rw [hone h (by simp)]
    exact hhigh (hdue h (by simp))

end Sys2Proof.Machine
end

section
/-!
PROOFS (02_channels_pairs_and_pattern_levels.md): the pattern level of a channel, and what an event of one timebase
leaves of the records, the tickets and the routes that the levels read.
-/

namespace Sys2Proof.Machine

/-! ## The source level and the pattern level (R21 to R29) -/

theorem logicOf_active {b : Bool} : logicOf b = .active ↔ b = true := by cases b <;> decide

theorem complement_active {l : Logic} : complement l = .active ↔ l = .inactive := by cases l <;> decide

/-- The pulse of an EDGE channel goes around the end of the cycle when on_point is the larger (R23). -/
theorem edgePulse_iff {on off c : Word16} :
    edgePulse on off c = true ↔ (on < off ∧ on ≤ c ∧ c < off) ∨ (off < on ∧ (on ≤ c ∨ c < off)) := by
  unfold edgePulse
  split
  · next h => simp [h, BitVec.not_lt.mpr (BitVec.le_of_lt h)]
  · next h =>
    split
    · next h' => simp [h, h']
    · next h' => simp [h, h']

theorem centerPulse_iff {on off c : Word16} {d : Direction} :
    centerPulse on off c d = true ↔ (d = .up ∧ on ≤ c) ∨ (d = .down ∧ off ≤ c) := by
  cases d <;> simp [centerPulse]

theorem sourceOf_edge {r : ChannelRecord} {t : Timebase} (hs : isStopped t = false) (ha : t.active.alignment = .edge) :
    sourceOf r t = logicOf (edgePulse r.onPoint r.offPoint t.counter) := by
  simp [sourceOf, hs, ha]

theorem sourceOf_center {r : ChannelRecord} {t : Timebase} (hs : isStopped t = false)
    (ha : t.active.alignment = .center) :
    sourceOf r t = logicOf (centerPulse r.onPoint r.offPoint t.counter t.direction) := by
  simp [sourceOf, hs, ha]

theorem patternLevel_masked {p : PatternUnit} {c : Chan} (tbs : TbFile Timebase) (h : (p.channels.get c).mask = true) :
    patternLevel p tbs c = .inactive := if_pos h

/-- A channel that is not masked, in an INDEPENDENT pair or the primary of its pair (R27). -/
theorem patternLevel_own {p : PatternUnit} {c : Chan} (tbs : TbFile Timebase) (hm : (p.channels.get c).mask = false)
    (h : modeOf p c = .independent ∨ isPrimary c = true) : patternLevel p tbs c = sourceLevel p tbs c := by
  rcases h with h | h
  · simp [patternLevel, hm, h]
  · cases hmode : modeOf p c <;> simp [patternLevel, hm, h, hmode]

/-- The secondary of a COMPLEMENTARY pair (R28). -/
theorem patternLevel_secondary {p : PatternUnit} {c : Chan} (tbs : TbFile Timebase)
    (hm : (p.channels.get c).mask = false) (h : modeOf p c = .complementary) (hp : isPrimary c = false) :
    patternLevel p tbs c = complement (sourceLevel p tbs (partner c)) := by
  simp [patternLevel, hm, h, hp]

/-- Settles O21: each clause is the equation of its case. -/
theorem patternLevelFromCount : Obligations.PatternLevelFromCount := by
  intro p tbs c
  refine ⟨patternLevel_masked tbs, patternLevel_own tbs, fun hm h hp => ?_, sourceLevel_stopped, fun hs ha => ?_,
    fun hs ha => ?_⟩
  · rw [patternLevel_secondary tbs hm h hp, complement_active]
  · rw [sourceLevel, sourceOf_edge hs ha, logicOf_active, edgePulse_iff]
  · rw [sourceLevel, sourceOf_center hs ha, logicOf_active, centerPulse_iff]

/-! ## Records beside one timebase -/

/-- Timebases other than X, and the records of channels that end up bound to another timebase than X, are kept. -/
def KeptBeside (x : Tb) (s t : State) : Prop :=
  (∀ y, y ≠ x → t.timebases.get y = s.timebases.get y)
    ∧ ∀ c, boundTo t.pattern c ≠ x →
      t.pattern.pairs.get (pairOf c) = s.pattern.pairs.get (pairOf c) ∧ t.pattern.channels.get c = s.pattern.channels.get c

theorem KeptBeside.of_eq {x : Tb} {s t : State} (ht : t.timebases = s.timebases)
    (hc : t.pattern.channels = s.pattern.channels) (hp : t.pattern.pairs = s.pattern.pairs) : KeptBeside x s t :=
  ⟨fun _ _ => by rw [ht], fun _ _ => ⟨by rw [hp], by rw [hc]⟩⟩

theorem KeptBeside.boundTo_eq {x : Tb} {s t : State} (h : KeptBeside x s t) {c : Chan} (hc : boundTo t.pattern c ≠ x) :
    boundTo s.pattern c = boundTo t.pattern c := congrArg PairRecord.timebase (h.2 c hc).1.symm

theorem KeptBeside.trans {x : Tb} {s t u : State} (h : KeptBeside x s t) (h' : KeptBeside x t u) : KeptBeside x s u := by
  refine ⟨fun y hy => (h'.1 y hy).trans (h.1 y hy), fun c hc => ?_⟩
  obtain ⟨hpair, hrec⟩ := h'.2 c hc
  obtain ⟨hpair', hrec'⟩ := h.2 c (by rwa [h'.boundTo_eq hc])
  exact ⟨hpair.trans hpair', hrec.trans hrec'⟩

theorem KeptBeside.setTimebase (x : Tb) (s : State) (v : Timebase) : KeptBeside x s (s.setTimebase x v) :=
  ⟨fun y hy => by simp [hy], fun _ _ => ⟨rfl, rfl⟩⟩

theorem KeptBeside.foldl {α : Type} {x : Tb} {f : State → α → State} {l : List α}
    (h : ∀ e ∈ l, ∀ s, KeptBeside x s (f s e)) (s : State) : KeptBeside x s (l.foldl f s) := by
  induction l generalizing s with
  | nil => exact .of_eq rfl rfl rfl
  | cons e l ih => exact (h e List.mem_cons_self s).trans (ih (fun k hk => h k (List.mem_cons_of_mem _ hk)) _)

/-- A pair record that names X touches no channel bound elsewhere after it (R56). -/
theorem applyPair_keptBeside {x : Tb} {e : Pair × PairRecord} (h : e.2.timebase = x) (s : State) :
    KeptBeside x s (applyPair s e) := by
  refine ⟨fun _ _ => rfl, fun c hc => ⟨?_, rfl⟩⟩
  have hpairs : (applyPair s e).pattern.pairs = s.pattern.pairs.set e.1 e.2 := rfl
  rw [boundTo, hpairs, PairFile.get_set] at hc
  rw [hpairs, PairFile.get_set, if_neg]
  intro he
  rw [if_pos he] at hc
  exact hc h

theorem applyRecord_keptBeside (x : Tb) (r : Option TimebaseRecord) (s : State) :
    KeptBeside x s (applyRecord x r s) := by
  cases r with
  | none => exact .of_eq rfl rfl rfl
  | some v => exact .setTimebase x s _

/-- A channel record is taken by a channel bound to X alone (R57). -/
theorem applyChannel_keptBeside (x : Tb) (s : State) (e : Chan × ChannelRecord) :
    KeptBeside x s (applyChannel x s e) := by
  unfold applyChannel
  split
  · next hb =>
    refine ⟨fun _ _ => rfl, fun c hc => ⟨rfl, ?_⟩⟩
    have hne : c ≠ e.1 := by rintro rfl; exact hc hb
    simp [hne]
  · exact .of_eq rfl rfl rfl

theorem applyTicket_keptBeside {x : Tb} {t : Ticket} (h : ∀ e ∈ t.pairs, e.2.timebase = x) (s : State) :
    KeptBeside x s (applyTicket x t s) :=
  ((KeptBeside.foldl (fun e he => applyPair_keptBeside (h e he)) s).trans (applyRecord_keptBeside x t.record _)).trans
    (.foldl (fun e _ s => applyChannel_keptBeside x s e) _)

theorem applyTickets_keptBeside {x : Tb} {l : List Ticket} (h : ∀ t ∈ l, ∀ e ∈ t.pairs, e.2.timebase = x) (s : State) :
    KeptBeside x s (applyTickets x l s).1 := by
  induction l generalizing s with
  | nil => exact .of_eq rfl rfl rfl
  | cons t l ih =>
    exact (applyTicket_keptBeside (h t List.mem_cons_self) s).trans (ih (fun k hk => h k (List.mem_cons_of_mem _ hk)) _)

/-! ## Pending pair records -/

/-- The pair records of pending tickets name their ticket's timebase (R44). -/
def PairsNamed (q : List Ticket) : Prop := ∀ t ∈ q, ∀ e ∈ t.pairs, e.2.timebase = t.timebase

/-- A queue whose tickets are some of those of another, but for countdown, deadline and SYNC mark. -/
theorem PairsNamed.of_fixed {q q' : List Ticket} (h : PairsNamed q)
    (hs : (q'.map Ticket.fixed) ⊆ (q.map Ticket.fixed)) : PairsNamed q' := by
  intro t ht
  obtain ⟨k, hk, e⟩ := List.mem_map.mp (hs (List.mem_map_of_mem ht))
  have hn : ∀ e ∈ k.fixed.pairs, e.2.timebase = k.fixed.timebase := h k hk
  rw [e] at hn
  exact hn

theorem PairsNamed.filter {q : List Ticket} (p : Ticket → Bool) (h : PairsNamed q) : PairsNamed (q.filter p) :=
  fun t ht => h t (List.mem_filter.mp ht).1

theorem PairsNamed.leftAt {q : List Ticket} (x : Tb) (b : Boundary) (h : PairsNamed q) : PairsNamed (leftAt x b q) :=
  h.of_fixed (leftAt_fixed x b q).subset

/-- The tickets that a boundary of X applies bind their pairs to X (R44, R51). -/
theorem PairsNamed.takenAt {q : List Ticket} (x : Tb) (b : Boundary) (h : PairsNamed q) :
    ∀ t ∈ takenAt x b q, ∀ e ∈ t.pairs, e.2.timebase = x := by
  intro t ht e he
  obtain ⟨k, hk, rfl⟩ := List.mem_map.mp (takenAt_subset x b q ht)
  have hn : PairsNamed (q.map (countDown x b)) := h.of_fixed (by
    rw [List.map_map]
    exact fun f hf => by simpa [Function.comp_def] using hf)
  rw [hn _ (List.mem_map_of_mem hk) e he]
  exact (takeReady_taken x b _ _ ht).1

/-- A ticket that passes the checks has pair records that name its timebase (R44, check 4). -/
theorem makeTicket_pairsNamed {s : State} {t : TicketRequest} (id : Byte) (hr : ticketRefusal s t = none) :
    ∀ e ∈ (makeTicket s.commit t id).pairs, e.2.timebase = t.timebase := by
  have hs : stagedElsewhere s.commit t = false := by
    rw [← Bool.not_eq_true]
    intro hs
    simp only [ticketRefusal, hs, if_true] at hr
    (repeat' split at hr) <;> cases hr
  intro e he
  simp only [makeTicket, List.mem_map, List.mem_filter] at he
  obtain ⟨p, ⟨-, hp⟩, rfl⟩ := he
  rw [stagedElsewhere, List.any_eq_false] at hs
  simpa only [hp, Bool.true_and, decide_eq_true_eq, ne_eq, Decidable.not_not] using hs p (mem_pair_all p)

/-! ## Routes that hold nothing -/

/-- An ARMED route holds no channel: what the levels need of `TripSound` (R77). -/
def ArmedHoldsNothing (routes : SlotFile (Option Route)) : Prop :=
  ∀ n r, routes.get n = some r → r.state = .armed → r.held = 0

theorem TripSound.armedHoldsNothing {s : State} (h : TripSound s) : ArmedHoldsNothing s.trip.routes := by
  intro n r hr
  obtain ⟨_, harmed, _⟩ := h.2 n r hr
  exact harmed

theorem ArmedHoldsNothing.map {routes : SlotFile (Option Route)} (h : ArmedHoldsNothing routes) {f : Slot → Route → Route}
    (hf : ∀ n r, (r.state = .armed → r.held = 0) → (f n r).state = .armed → (f n r).held = 0) :
    ArmedHoldsNothing (.ofFn fun n => (routes.get n).map (f n)) := by
  intro n r hr
  rw [SlotFile.get_ofFn, Option.map_eq_some_iff] at hr
  obtain ⟨q, hq, rfl⟩ := hr
  exact hf n q (h n q hq)

theorem ArmedHoldsNothing.set {routes : SlotFile (Option Route)} (h : ArmedHoldsNothing routes) (n : Slot)
    {o : Option Route} (ho : ∀ r, o = some r → r.state = .armed → r.held = 0) : ArmedHoldsNothing (routes.set n o) := by
  intro m r hr
  rw [SlotFile.get_set] at hr
  split at hr
  · exact ho r hr
  · exact h m r hr

theorem releaseRoute_armed {set : ChannelSet} {r : Route} (h : r.state = .armed → r.held = 0) :
    (releaseRoute set r).state = .armed → (releaseRoute set r).held = 0 := by
  unfold releaseRoute
  split
  · next hs =>
    split
    · exact fun _ => rfl
    · exact fun ha => by simp [hs] at ha
  · exact h

theorem beginRelease_armed (set : ChannelSet) (r : Route) :
    (beginRelease set r).state = .armed → (beginRelease set r).held = 0 :=
  releaseRoute_armed fun h => by cases h

theorem quietRoute_armed {i : TripName} {set : ChannelSet} {r : Route} (h : r.state = .armed → r.held = 0) :
    (quietRoute i set r).state = .armed → (quietRoute i set r).held = 0 := by
  unfold quietRoute
  split
  · exact beginRelease_armed set r
  · exact h

theorem assertRoute_armed {i : TripName} {r : Route} (h : r.state = .armed → r.held = 0) :
    (assertRoute i r).state = .armed → (assertRoute i r).held = 0 := by
  unfold assertRoute
  split
  · exact fun ha => by cases ha
  · exact h

/-- A slot whose route holds nothing before and after forces no channel, so the forcing stays (R114). -/
theorem forcedWith_set {routes : SlotFile (Option Route)} {n : Slot} {o : Option Route} (p : PatternUnit) (a : Action)
    (c : Chan) (hb : ∀ r, routes.get n = some r → r.held = 0) (ho : ∀ r, o = some r → r.held = 0) :
    forcedWith p (routes.set n o) a c = forcedWith p routes a c := by
  rw [Bool.eq_iff_iff, forcedWith_iff, forcedWith_iff]
  refine exists_congr fun m => exists_congr fun r => ?_
  rw [SlotFile.get_set]
  split
  · next hm =>
    subst hm
    constructor
    · rintro ⟨hr, _, hh⟩
      simp [ho r hr] at hh
    · rintro ⟨hr, _, hh⟩
      simp [hb r hr] at hh
  · exact Iff.rfl

end Sys2Proof.Machine
end

section
/-!
PROOFS (02_channels_pairs_and_pattern_levels.md): the invariant of the stored and the selected levels, through the shared
operations, the requests and the steps (R21, R30, R44, R117).
-/

namespace Sys2Proof.Machine

/-! ## Levels that are current -/

/-- The stored source and pattern level of a channel are those of the records and the count (R21). -/
def LevelsCurrent (s : State) (c : Chan) : Prop :=
  s.pattern.source.get c = sourceLevel s.pattern s.timebases c ∧ s.pattern.level.get c = patternLevel s.pattern s.timebases c

/-- What every step keeps: `LevelsSound`, and of `TripSound` the part on ARMED routes. -/
def LevelsHold (s : State) : Prop := ArmedHoldsNothing s.trip.routes ∧ LevelsSound s

/-- The levels of the channels that are not bound to X are current: what an event of X needs of the state it finds. -/
def CurrentBeside (x : Tb) (s : State) : Prop :=
  ArmedHoldsNothing s.trip.routes ∧ (∀ c, boundTo s.pattern c ≠ x → LevelsCurrent s c) ∧ PairsNamed s.commit.queue

theorem LevelsHold.intro {s : State} (ha : ArmedHoldsNothing s.trip.routes) (hl : ∀ c, LevelsCurrent s c)
    (hs : ∀ c, (s.output.channels.get c).selected = selectLevel s c) (hq : PairsNamed s.commit.queue) : LevelsHold s :=
  ⟨ha, fun c => ⟨(hl c).1, (hl c).2, hs c⟩, hq⟩

theorem LevelsHold.levels {s : State} (h : LevelsHold s) (c : Chan) : LevelsCurrent s c := by
  obtain ⟨_, hlevels, _⟩ := h
  exact ⟨(hlevels c).1, (hlevels c).2.1⟩

theorem LevelsHold.selected {s : State} (h : LevelsHold s) (c : Chan) :
    (s.output.channels.get c).selected = selectLevel s c := by
  obtain ⟨_, hlevels, _⟩ := h
  exact (hlevels c).2.2

theorem LevelsHold.pairs {s : State} (h : LevelsHold s) : PairsNamed s.commit.queue := h.2.2

theorem CurrentBeside.armed {x : Tb} {s : State} (h : CurrentBeside x s) : ArmedHoldsNothing s.trip.routes := h.1

theorem CurrentBeside.pairs {x : Tb} {s : State} (h : CurrentBeside x s) : PairsNamed s.commit.queue := h.2.2

/-- What the levels of a channel read: its pair's record, its own and its partner's record, and the source level that its timebase
gives a record (R21, R27, R28). -/
theorem levels_congr {p q : PatternUnit} {tbs tbs' : TbFile Timebase} {c : Chan}
    (hp : q.pairs.get (pairOf c) = p.pairs.get (pairOf c)) (hc : q.channels.get c = p.channels.get c)
    (hc' : q.channels.get (partner c) = p.channels.get (partner c))
    (ht : ∀ r, sourceOf r (tbs'.get (boundTo p c)) = sourceOf r (tbs.get (boundTo p c))) :
    sourceLevel q tbs' c = sourceLevel p tbs c ∧ patternLevel q tbs' c = patternLevel p tbs c := by
  have hb : boundTo q c = boundTo p c := congrArg PairRecord.timebase hp
  have hm : modeOf q c = modeOf p c := congrArg PairRecord.mode hp
  have hown : sourceLevel q tbs' c = sourceLevel p tbs c := by
    rw [sourceLevel, sourceLevel, hc, hb, ht]
  have hpartner : sourceLevel q tbs' (partner c) = sourceLevel p tbs (partner c) := by
    rw [sourceLevel, sourceLevel, hc', boundTo_partner, boundTo_partner, hb, ht]
  refine ⟨hown, ?_⟩
  simp only [patternLevel, hc, hm, hown, hpartner]

/-- A count that gives every record the source level it had leaves the levels current. -/
theorem LevelsHold.withTimebases {s : State} {tbs : TbFile Timebase} (h : LevelsHold s)
    (ht : ∀ x r, sourceOf r (tbs.get x) = sourceOf r (s.timebases.get x)) : LevelsHold (s.withTimebases tbs) := by
  refine .intro h.1 (fun c => ?_) h.selected h.pairs
  obtain ⟨hsource, hpattern⟩ := levels_congr (p := s.pattern) (q := s.pattern) (c := c) rfl rfl rfl fun r => ht _ r
  exact ⟨(h.levels c).1.trans hsource.symm, (h.levels c).2.trans hpattern.symm⟩

theorem LevelsHold.setTimebase {s : State} {x : Tb} {v : Timebase} (h : LevelsHold s)
    (hv : ∀ r, sourceOf r v = sourceOf r (s.timebases.get x)) : LevelsHold (s.setTimebase x v) := by
  refine h.withTimebases fun y r => ?_
  rw [TbFile.get_set]
  split
  · next hy => rw [hv, hy]
  · rfl

theorem LevelsHold.setQueue {s : State} {q : List Ticket} (h : LevelsHold s) (hq : PairsNamed q) :
    LevelsHold (s.setQueue q) :=
  .intro h.1 h.levels h.selected hq

/-- The levels read neither the notices nor the counter of free choices. -/
theorem LevelsHold.withFree_withNotices {s : State} (h : LevelsHold s) (n : Nat) (v : NoticeUnit) :
    LevelsHold ((s.withFree n).withNotices v) := h

theorem LevelsHold.post {s : State} (h : LevelsHold s) (ps : List Posting) : LevelsHold (s.post ps) := h

theorem LevelsHold.setInput {s : State} (h : LevelsHold s) (i : TripName) (v : TripInput) : LevelsHold (s.setInput i v) := h

/-- Of the output channels the levels read what is selected and held. -/
theorem LevelsHold.withChannels {s : State} {chs : ChanFile OutChannel} (h : LevelsHold s)
    (hk : ∀ c, (chs.get c).selected = (s.output.channels.get c).selected
      ∧ (chs.get c).hold = (s.output.channels.get c).hold) :
    LevelsHold (s.withOutput { s.output with channels := chs }) := by
  refine .intro h.1 h.levels (fun c => ?_) h.pairs
  obtain ⟨hselected, hhold⟩ := hk c
  exact (hselected.trans (h.selected c)).trans (selectLevel_congr c rfl rfl rfl hhold.symm rfl rfl)

/-- Selecting again makes the selected levels current (R117). -/
theorem settle_levelsHold {s : State} (ha : ArmedHoldsNothing s.trip.routes) (hl : ∀ c, LevelsCurrent s c)
    (hq : PairsNamed s.commit.queue) : LevelsHold s.settle :=
  .intro ha hl (fun c => ((settle_follows s).selected c).1) hq

/-! ## Events of a timebase (R5, R9 to R11, R14) -/

theorem LevelsHold.beside {s : State} (h : LevelsHold s) (x : Tb) : CurrentBeside x s :=
  ⟨h.1, fun c _ => h.levels c, h.pairs⟩

theorem CurrentBeside.setTimebase {x : Tb} {s : State} (h : CurrentBeside x s) (v : Timebase) :
    CurrentBeside x (s.setTimebase x v) := by
  obtain ⟨ha, hl, hq⟩ := h
  refine ⟨ha, fun c hc => ?_, hq⟩
  have hc : boundTo s.pattern c ≠ x := hc
  obtain ⟨hsource, hpattern⟩ := levels_congr (p := s.pattern) (q := s.pattern) (tbs := s.timebases)
    (tbs' := s.timebases.set x v) (c := c) rfl rfl rfl fun r => by rw [TbFile.get_set, if_neg hc]
  exact ⟨(hl c hc).1.trans hsource.symm, (hl c hc).2.trans hpattern.symm⟩

/-- An event of X that keeps the records beside X, recomputes the levels of its channels and drives the outputs. -/
theorem CurrentBeside.driven {x : Tb} {s t : State} {before : Chan → OutChannel} {clocks : Pair → Nat}
    (h : CurrentBeside x s) (hk : KeptBeside x s t) (hr : Refreshed x s t) (hf : OutputsFollow before clocks t)
    (ha : ArmedHoldsNothing t.trip.routes) (hq : PairsNamed t.commit.queue) : LevelsHold t := by
  refine .intro ha (fun c => ?_) (fun c => (hf.selected c).1) hq
  obtain ⟨hown, hother⟩ := hr c
  by_cases hc : boundTo t.pattern c = x
  · exact hown hc
  · obtain ⟨_, hl, _⟩ := h
    have hb := hk.boundTo_eq hc
    obtain ⟨hpair, hrec⟩ := hk.2 c hc
    obtain ⟨_, hrec'⟩ := hk.2 (partner c) (by rwa [boundTo_partner])
    obtain ⟨hsource, hpattern⟩ := levels_congr (tbs := s.timebases) (tbs' := t.timebases) hpair hrec hrec'
      fun r => by rw [hk.1 _ (by rwa [hb])]
    obtain ⟨hs, hp⟩ := hl c (by rwa [hb])
    obtain ⟨hs', hp'⟩ := hother hc
    exact ⟨hs'.trans (hs.trans hsource.symm), hp'.trans (hp.trans hpattern.symm)⟩

/-- A tick that brings no boundary (R2, R5). -/
theorem CurrentBeside.countTick_redrive {x : Tb} {s : State} (h : CurrentBeside x s) :
    LevelsHold ((s.countTick x).redrive x) :=
  h.driven (.of_eq rfl rfl rfl) ((redrive_refreshed x _).of_levels ⟨rfl, rfl⟩) (countTick_redrive_follows x s) h.armed
    h.pairs

theorem Released.armedHoldsNothing {x : Tb} {s t : State} {l : List Posting} (h : Released x s t l)
    (ha : ArmedHoldsNothing s.trip.routes) : ArmedHoldsNothing t.trip.routes := by
  obtain ⟨_, _, hroutes, _⟩ := h
  have e : t.trip.routes = .ofFn fun n => (s.trip.routes.get n).map (releaseRoute (boundSet s.pattern x)) :=
    SlotFile.ext fun n => by rw [SlotFile.get_ofFn, hroutes]
  rw [e]
  exact ha.map fun _ _ => releaseRoute_armed

theorem StartTaken.levelsHold {x : Tb} {b : Bool} {s t : State} {r : Raised} (ht : StartTaken x b s t r)
    (h : CurrentBeside x s) : LevelsHold t := by
  obtain ⟨⟨htbs, hchannels, hpairs, _⟩, _, hcommit, _, hreleased, _, _, hrefreshed, hfollow⟩ := ht
  have hk : KeptBeside x s t := ((KeptBeside.setTimebase x s _).trans
    (applyTickets_keptBeside (h.pairs.takenAt x .start) (withCycle x s))).trans (.of_eq htbs hchannels hpairs)
  exact h.driven hk hrefreshed hfollow (hreleased.armedHoldsNothing h.armed) (by rw [hcommit]; exact h.pairs.leftAt x .start)

theorem MidTaken.levelsHold {x : Tb} {s t : State} {r : Raised} (ht : MidTaken x s t r) (h : CurrentBeside x s) :
    LevelsHold t := by
  obtain ⟨⟨htbs, hchannels, hpairs, _⟩, _, hcommit, htrip, _, _, _, hrefreshed, hfollow⟩ := ht
  have hk : KeptBeside x s t := (applyTickets_keptBeside (h.pairs.takenAt x .mid) s).trans (.of_eq htbs hchannels hpairs)
  exact h.driven hk hrefreshed hfollow (by rw [htrip]; exact h.armed) (by rw [hcommit]; exact h.pairs.leftAt x .mid)

theorem StopTaken.levelsHold {x : Tb} {k : StopKind} {s t : State} {r : Raised} (ht : StopTaken x k s t r)
    (h : CurrentBeside x s) : LevelsHold t := by
  obtain ⟨htbs, _, hcommit, _, _, hreleased, _, _, hchannels, hpairs, _, hrefreshed, _, hfollow⟩ := ht
  have hk : KeptBeside x s t := (KeptBeside.setTimebase x s _).trans (.of_eq htbs hchannels hpairs)
  exact h.driven hk hrefreshed hfollow (hreleased.armedHoldsNothing h.armed) (by rw [hcommit]; exact h.pairs.filter _)

theorem BoundaryTaken.levelsHold {x : Tb} {b : Bool} {s t : State} {r : Raised} (ht : BoundaryTaken x b s t r)
    (h : CurrentBeside x s) : LevelsHold t := by
  obtain ⟨hrunning, hstopping⟩ := ht
  by_cases hs : (s.timebases.get x).state = .stopping
  · obtain ⟨m, start, stop, hstart, hstop, _⟩ := hstopping hs
    exact hstop.levelsHold ((hstart.levelsHold h).beside x)
  · exact (hrunning hs).levelsHold h

theorem EdgeTaken.levelsHold {x : Tb} {s t : State} {r : Raised} (ht : EdgeTaken x s t r) (h : LevelsHold s) :
    LevelsHold t := by
  obtain ⟨hwaiting, hrestart, hidle⟩ := ht
  have hidle : _ → LevelsHold t := fun hi => (hidle hi).1 ▸ h
  have hcounting : (s.timebases.get x).state = .running ∨ (s.timebases.get x).state = .stopping → LevelsHold t := by
    intro hs
    cases hr : (s.timebases.get x).active.syncRestart with
    | true => exact (hrestart hs hr).levelsHold ((h.beside x).setTimebase _)
    | false => exact hidle (.inr ⟨fun hw => by simp [hw] at hs, hr⟩)
  cases hs : (s.timebases.get x).state with
  | stopped => exact hidle (.inl hs)
  | waitSync =>
    obtain ⟨start, hstart, _⟩ := hwaiting hs
    exact hstart.levelsHold ((h.beside x).setTimebase _)
  | running => exact hcounting (.inl hs)
  | stopping => exact hcounting (.inr hs)

theorem tickEvent_levelsHold (x : Tb) {s : State} (h : LevelsHold s) : LevelsHold (tickEvent x s) := by
  obtain ⟨hcount, hmid, hstart⟩ := tickEvent_taken x s
  have hu : CurrentBeside x (s.setTimebase x { (advance (s.timebases.get x)).1 with tickTimer := 0 }) :=
    (h.beside x).setTimebase _
  cases hb : (advance (s.timebases.get x)).2 with
  | none =>
    rw [hcount hb]
    exact hu.countTick_redrive
  | some b =>
    cases b with
    | mid =>
      obtain ⟨r, hr, _⟩ := hmid hb
      exact hr.levelsHold hu
    | start =>
      obtain ⟨r, hr, _⟩ := hstart hb
      exact hr.levelsHold hu

theorem startNow_levelsHold (x : Tb) {s : State} (h : LevelsHold s) : LevelsHold (startNow x s) := by
  obtain ⟨r, hr, _⟩ := startNow_taken x s
  exact hr.levelsHold ((h.beside x).setTimebase _)

theorem stopNow_levelsHold (x : Tb) {s : State} (h : LevelsHold s) : LevelsHold (stopNow x s) := by
  obtain ⟨r, hr, _⟩ := stopNow_taken x s
  exact hr.levelsHold (h.beside x)

theorem syncEdge_levelsHold {s : State} (h : LevelsHold s) : LevelsHold (syncEdge s) := by
  have hm : LevelsHold (s.setQueue (markTickets s.commit.queue)) :=
    h.setQueue (h.pairs.of_fixed (by rw [markTickets_fixed]; exact List.Subset.refl _))
  obtain ⟨n, x, m, v, one, two, hone, htwo, he, _⟩ := syncEdge_taken s
  have hv : LevelsHold v :=
    htwo.levelsHold (hone.levelsHold (s := (s.setQueue (markTickets s.commit.queue)).withFree n) hm)
  rw [he]
  exact hv.withFree_withNotices _ _

theorem changeSyncLevel_levelsHold (l : Level) {s : State} (h : LevelsHold s) : LevelsHold (changeSyncLevel l s) := by
  unfold changeSyncLevel
  dsimp only
  split
  · exact syncEdge_levelsHold (s := s.withSync _) h
  · exact h

/-! ## Trip inputs and routes (R80, R84, R85, R87) -/

/-- A changed route table handed on, and the levels selected again (R80, R117). -/
theorem handRoutes_settle_levelsHold {s : State} {routes : SlotFile (Option Route)} (h : LevelsHold s)
    (hr : ArmedHoldsNothing routes) : LevelsHold (s.handRoutes routes).settle :=
  settle_levelsHold hr h.levels h.pairs

theorem mapRoutes_settle_levelsHold {s : State} {f : Slot → Route → Route} (h : LevelsHold s)
    (hf : ∀ n r, (r.state = .armed → r.held = 0) → (f n r).state = .armed → (f n r).held = 0) :
    LevelsHold (s.mapRoutes f).settle :=
  handRoutes_settle_levelsHold h (h.1.map hf)

/-- A slot whose route holds nothing before and after is handed on without selecting again (R82, R84). -/
theorem handRoutes_set_levelsHold {s : State} {n : Slot} {o : Option Route} (h : LevelsHold s)
    (hb : ∀ r, s.trip.routes.get n = some r → r.held = 0) (ho : ∀ r, o = some r → r.held = 0) :
    LevelsHold (s.handRoutes (s.trip.routes.set n o)) := by
  have hf := fun a c => forcedWith_set s.pattern a c hb ho
  rw [handRoutes_of_no_new_hold fun c hc => by rwa [hf] at hc]
  refine .intro (h.1.set n fun r hr _ => ho r hr) h.levels (fun c => ?_) h.pairs
  refine (h.selected c).trans ?_
  simp only [selectLevel, governing, State.withTrip_output, State.withTrip_pattern, State.withTrip_trip, hf]

/-- The route of a slot that is not busy holds nothing (R77). -/
theorem ArmedHoldsNothing.of_not_busy {routes : SlotFile (Option Route)} {n : Slot} (h : ArmedHoldsNothing routes)
    (hn : ¬ slotBusy (routes.get n) = true) : ∀ r, routes.get n = some r → r.held = 0 := by
  intro r hr
  exact h n r hr (by simpa [slotBusy, hr] using hn)

theorem assertInput_levelsHold (i : TripName) {s : State} (h : LevelsHold s) : LevelsHold (assertInput i s) :=
  (mapRoutes_settle_levelsHold (h.setInput i _) fun _ _ => assertRoute_armed).post _

theorem quietInput_levelsHold (i : TripName) {s : State} (h : LevelsHold s) : LevelsHold (quietInput i s) :=
  (mapRoutes_settle_levelsHold (h.setInput i _) fun _ _ => quietRoute_armed).post _

theorem sampleInput_levelsHold (i : TripName) (l : Level) {s : State} (h : LevelsHold s) :
    LevelsHold (sampleInput i l s) := by
  unfold sampleInput
  dsimp only
  split
  · split
    · exact assertInput_levelsHold i h
    · exact quietInput_levelsHold i h
  · exact h

theorem doDefineRoute_levelsHold (n : Slot) (v : RouteRequest) {s : State} (h : LevelsHold s) :
    LevelsHold (doDefineRoute n v s).state := by
  unfold doDefineRoute
  split
  · exact h
  split
  · exact h
  split
  · exact h
  next hn =>
  split
  · refine handRoutes_set_levelsHold h (h.1.of_not_busy hn) fun r hr => ?_
    cases hr
    rfl
  · refine (handRoutes_settle_levelsHold h (h.1.set n fun r hr ha => ?_)).post _
    cases hr
    cases ha

theorem doRemoveRoute_levelsHold (n : Slot) {s : State} (h : LevelsHold s) : LevelsHold (doRemoveRoute n s).state := by
  unfold doRemoveRoute
  split
  · exact h
  split
  · exact h
  next hn => exact handRoutes_set_levelsHold h (h.1.of_not_busy hn) fun r hr => nomatch hr

theorem doClearTrip_levelsHold (n : Slot) {s : State} (h : LevelsHold s) : LevelsHold (doClearTrip n s).state := by
  unfold doClearTrip
  split
  · exact h
  split
  · exact h
  · exact h
  split
  · exact h
  · refine (handRoutes_settle_levelsHold h (h.1.set n fun r hr => ?_)).post _
    cases hr
    exact beginRelease_armed _ _

/-! ## Requests -/

theorem LevelsHold.settle_output {s : State} (h : LevelsHold s) (v : OutputStage) : LevelsHold (s.withOutput v).settle :=
  settle_levelsHold (s := s.withOutput v) h.1 h.levels h.pairs

theorem sourceOf_stopped {r : ChannelRecord} {t : Timebase} (h : isStopped t = true) : sourceOf r t = .inactive := if_pos h

/-- A start or a stop that no boundary comes with leaves the source levels as they are (R8, R10, R22). -/
theorem sourceOf_withState {t : Timebase} {st : TimebaseState} {n : Word32}
    (h : isStopped { t with state := st, cycles := n } = isStopped t) (r : ChannelRecord) :
    sourceOf r { t with state := st, cycles := n } = sourceOf r t := by
  simp only [sourceOf, h]

theorem doStartTimebase_levelsHold (x : Tb) (m : StartMode) {s : State} (h : LevelsHold s) :
    LevelsHold (doStartTimebase x m s).state := by
  unfold doStartTimebase
  dsimp only
  split
  · exact startNow_levelsHold x h
  · next hs => exact h.setTimebase (sourceOf_withState (by simp [isStopped, hs]))
  · exact startNow_levelsHold x h
  · exact h
  · next hs => exact h.setTimebase (sourceOf_withState (n := (s.timebases.get x).cycles) (by simp [isStopped, hs]))
  · exact h

theorem doStopTimebase_levelsHold (x : Tb) (k : StopKind) {s : State} (h : LevelsHold s) :
    LevelsHold (doStopTimebase x k s).state := by
  cases k with
  | immediate =>
    simp only [doStopTimebase, stopImmediate]
    split
    · exact h
    · exact stopNow_levelsHold x h
  | atBoundary =>
    simp only [doStopTimebase, stopAtBoundary]
    split
    · next hs => exact h.setTimebase (sourceOf_withState (n := (s.timebases.get x).cycles) (by simp [isStopped, hs]))
    · exact h
    · next hs =>
      refine h.setTimebase fun r => ?_
      rw [sourceOf_stopped (t := stopAtZero _) rfl, sourceOf_stopped (by simp [isStopped, hs])]
    · exact h

theorem doIssueTicket_levelsHold (t : TicketRequest) {s : State} (h : LevelsHold s) :
    LevelsHold (doIssueTicket t s).state := by
  unfold doIssueTicket
  split
  · exact h
  · next hn =>
    refine .intro h.1 h.levels h.selected fun k hk => ?_
    rcases List.mem_append.mp hk with hk | hk
    · exact h.pairs k hk
    · rw [List.mem_singleton.mp hk]
      exact makeTicket_pairsNamed _ hn

theorem disableGraceful_levelsHold {s : State} (h : LevelsHold s) : LevelsHold (disableGraceful s).state := by
  unfold disableGraceful
  split
  · exact h
  · exact h
  · simp only [drainInto]
    (repeat' split) <;> exact h.settle_output _

theorem perform_levelsHold (r : Request) {s : State} (h : LevelsHold s) : LevelsHold (perform r s).state := by
  cases r <;> simp only [perform]
  case startTimebase x m => exact doStartTimebase_levelsHold x m h
  case stopTimebase x k => exact doStopTimebase_levelsHold x k h
  case issueTicket t => exact doIssueTicket_levelsHold t h
  case cancelById id =>
    unfold doCancelById
    split
    · exact h.setQueue (h.pairs.filter _)
    · exact h
  case cancelAll x => exact h.setQueue (h.pairs.filter _)
  case setOverride t =>
    cases t <;> simp only [doSetOverride] <;> split
    · exact h
    · exact h.settle_output _
    · exact h
    · exact h.settle_output _
  case enableOutputs =>
    unfold doEnableOutputs
    split
    · exact h
    · exact h.settle_output _
    · exact h.settle_output _
  case disableOutputs m =>
    cases m with
    | immediate => exact h.settle_output _
    | graceful => exact disableGraceful_levelsHold h
  case configureTripInput i v => unfold doConfigureTripInput; split <;> exact h
  case defineRoute n v => exact doDefineRoute_levelsHold n v h
  case removeRoute n => exact doRemoveRoute_levelsHold n h
  case clearTrip n => exact doClearTrip_levelsHold n h
  case fetchNotices n => unfold doFetchNotices; split <;> exact h
  all_goals exact h

/-! ## Resets and steps -/

/-- With timebases, pattern, tickets and outputs at their defaults, every level is INACTIVE and every output floats (R177, R180). -/
theorem levelsHold_default {s : State} (ha : ArmedHoldsNothing s.trip.routes) (ht : s.timebases = .ofFn fun _ => .default)
    (hp : s.pattern = .default) (hc : s.commit = .default) (ho : s.output = .default) : LevelsHold s := by
  refine .intro ha (fun c => ?_) (fun c => ?_) ?_
  · rw [LevelsCurrent, hp, ht]
    cases c <;> decide
  · rw [selectLevel_disabled (by rw [ho]; rfl), ho]
    cases c <;> rfl
  · rw [hc]
    exact fun t ht => nomatch ht

theorem LevelsHold.frame {s t : State} (h : LevelsHold s) (hb : SameBlocks s t) : LevelsHold t := by
  obtain ⟨ht, _, hp, hc, hr, ho, _⟩ := hb
  simp only [LevelsHold, LevelsSound, selectLevel, ht, hp, hc, hr, ho] at h ⊢
  exact h

/-- The end of a deadtime delay changes neither a selected level nor a hold level (R119). -/
theorem delayEnd_levelsHold {c : Chan} {s t : State} (he : execDeadtimeDelayEnd c s = .next t) (h : LevelsHold s) :
    LevelsHold t := by
  injection he with he
  subst he
  dsimp only
  split
  · refine h.withChannels fun d => ?_
    rw [ChanFile.get_set]
    split
    · next hd => subst hd; exact ⟨rfl, rfl⟩
    · exact ⟨rfl, rfl⟩
  · exact h

/-- The tick timer is no part of a level (R21). -/
theorem sourceOf_countTimebase (t : Timebase) (r : ChannelRecord) : sourceOf r (countTimebase t) = sourceOf r t := by
  unfold countTimebase
  split <;> rfl

theorem levelsHold_kept : BlocksKeep LevelsHold where
  frame := LevelsHold.frame
  perform _ _ h := perform_levelsHold _ h
  post _ _ h := h
  controllerReset h := levelsHold_default h.1 rfl rfl rfl rfl
  poweredOn _ _ := levelsHold_default (fun n r hr => by cases n <;> cases hr) rfl rfl rfl rfl
  silenced h := h
  tick x _ _ h := tickEvent_levelsHold x h
  expired id _ _ he h := by
    injection he with he
    subst he
    exact h.setQueue (h.pairs.filter _)
  pulse h := h
  syncCount _ _ h := h
  syncLevel l _ h := changeSyncLevel_levelsHold l h
  input i l _ h := sampleInput_levelsHold i l h
  assert i _ _ h := assertInput_levelsHold i h
  quiet i _ _ h := quietInput_levelsHold i h
  clock _ _ _ h := settle_levelsHold h.1 h.levels h.pairs
  delayEnd _ _ _ he h := delayEnd_levelsHold he h
  timers {s} h := h.withTimebases (tbs := .ofFn fun x => countTimebase (s.timebases.get x)) fun x r => by
    rw [TbFile.get_ofFn, sourceOf_countTimebase]

/-- Settles O59: `LevelsHold` is an invariant that each operation of the blocks keeps (`BlocksKeep`). -/
theorem levelsAndSelectionsStayCurrent : Obligations.LevelsAndSelectionsStayCurrent :=
  fun _ _ htrip hlevels hstep => (levelsHold_kept.step ⟨htrip.armedHoldsNothing, hlevels⟩ hstep).2

end Sys2Proof.Machine
end

section
/-!
PROOFS (03_staging_and_the_commit_queue.md): what the events of the part and the requests leave pending, and the invariant of the
commit queue (R40, R42, R43).
-/

namespace Sys2Proof.Machine

/-! ## Tickets left pending -/

/-- The tickets pending in t are some of those pending in s, in their order and but for countdown, deadline and SYNC mark, and the
next-id value is the same. -/
def TicketsLeft (s t : State) : Prop :=
  t.commit.nextId = s.commit.nextId ∧ (t.commit.queue.map Ticket.fixed).Sublist (s.commit.queue.map Ticket.fixed)

theorem TicketsLeft.of_commit {s t : State} (h : t.commit = s.commit) : TicketsLeft s t :=
  ⟨by rw [h], by simp only [h, List.Sublist.refl]⟩

theorem TicketsLeft.refl (s : State) : TicketsLeft s s := .of_commit rfl

theorem TicketsLeft.trans {s t u : State} (h : TicketsLeft s t) (h' : TicketsLeft t u) : TicketsLeft s u :=
  ⟨h'.1.trans h.1, h'.2.trans h.2⟩

theorem TicketsLeft.of_queue {s t : State} {q : List Ticket} (h : t.commit = { s.commit with queue := q })
    (hq : (q.map Ticket.fixed).Sublist (s.commit.queue.map Ticket.fixed)) : TicketsLeft s t :=
  ⟨by rw [h], by rw [h]; exact hq⟩

theorem TicketsLeft.filter {s t : State} {p : Ticket → Bool}
    (h : t.commit = { s.commit with queue := s.commit.queue.filter p }) : TicketsLeft s t :=
  .of_queue h (List.filter_sublist.map _)

/-- Posting notices takes no ticket out of the queue. -/
theorem TicketsLeft.posted {s t : State} (h : TicketsLeft s t) (r : Raised) : TicketsLeft s (t.postRaised r) := h

theorem TicketsLeft.of_setTimebase {s t : State} {x : Tb} {v : Timebase} (h : TicketsLeft (s.setTimebase x v) t) :
    TicketsLeft s t := h

/-! ## Events of a timebase (R9, R10, R14, R48 to R54) -/

theorem startBoundary_ticketsLeft (x : Tb) (ticked : Bool) (s : State) :
    TicketsLeft s (startBoundary x ticked s).1 := by
  by_cases hs : (s.timebases.get x).state = .stopping
  · exact .filter (startBoundary_commit_stopping ticked hs)
  · exact .of_queue (startBoundary_commit_running ticked hs) (leftAt_fixed x .start _)

theorem midBoundary_ticketsLeft (x : Tb) (s : State) : TicketsLeft s (midBoundary x s).1 :=
  .of_queue (midBoundary_commit x s) (leftAt_fixed x .mid _)

theorem tickEvent_ticketsLeft (x : Tb) (s : State) : TicketsLeft s (tickEvent x s) := by
  unfold tickEvent
  dsimp only
  split
  · exact .refl s
  · exact ((midBoundary_ticketsLeft x _).posted _).of_setTimebase
  · exact ((startBoundary_ticketsLeft x true _).posted _).of_setTimebase

theorem startNow_ticketsLeft (x : Tb) (s : State) : TicketsLeft s (startNow x s) :=
  ((startBoundary_ticketsLeft x false _).posted _).of_setTimebase

theorem stopNow_ticketsLeft (x : Tb) (s : State) : TicketsLeft s (stopNow x s) := by
  obtain ⟨_, ⟨_, _, hcommit, _⟩, _⟩ := stopNow_taken x s
  exact .filter hcommit

theorem edgeOn_ticketsLeft (x : Tb) (s : State) : TicketsLeft s (edgeOn x s).1 := by
  unfold edgeOn
  dsimp only
  split
  · split <;> exact (startBoundary_ticketsLeft x false _).of_setTimebase
  · exact .refl s

/-- A SYNC IN edge marks tickets, which leaves them pending, and then acts on both timebases (R14, R54). -/
theorem syncEdge_ticketsLeft (s : State) : TicketsLeft s (syncEdge s) := by
  have hmarked : TicketsLeft s (firstAtEdge (s.setQueue (markTickets s.commit.queue))).1 := by
    refine .of_queue (q := markTickets s.commit.queue) (by simp) ?_
    simp only [markTickets_fixed, List.Sublist.refl]
  exact (hmarked.trans ((edgeOn_ticketsLeft _ _).trans (edgeOn_ticketsLeft _ _))).posted _

theorem changeSyncLevel_ticketsLeft (l : Level) (s : State) : TicketsLeft s (changeSyncLevel l s) := by
  unfold changeSyncLevel
  dsimp only
  split
  · exact syncEdge_ticketsLeft (s.withSync _)
  · exact .refl s

theorem execExpired_ticketsLeft {id : Byte} {s t : State} (h : execExpired id s = .next t) : TicketsLeft s t := by
  injection h with h
  subst h
  exact .filter rfl

/-! ## Requests that issue no ticket -/

theorem doStartTimebase_ticketsLeft (x : Tb) (m : StartMode) (s : State) : TicketsLeft s (doStartTimebase x m s).state := by
  unfold doStartTimebase
  dsimp only
  split
  · exact startNow_ticketsLeft x s
  · exact .refl s
  · exact startNow_ticketsLeft x s
  · exact .refl s
  · exact .refl s
  · exact .refl s

theorem doStopTimebase_ticketsLeft (x : Tb) (k : StopKind) (s : State) : TicketsLeft s (doStopTimebase x k s).state := by
  cases k with
  | immediate =>
    simp only [doStopTimebase, stopImmediate]
    split
    · exact .refl s
    · exact stopNow_ticketsLeft x s
  | atBoundary =>
    simp only [doStopTimebase, stopAtBoundary]
    split <;> exact .refl s

theorem doCancelById_ticketsLeft (id : Byte) (s : State) : TicketsLeft s (doCancelById id s).state := by
  unfold doCancelById
  split
  · exact .filter rfl
  · exact .refl s

theorem doDisableOutputs_commit (m : DisableMode) (s : State) : (doDisableOutputs m s).state.commit = s.commit := by
  cases m with
  | immediate => rfl
  | graceful =>
    simp only [doDisableOutputs, disableGraceful]
    split
    · rfl
    · rfl
    · simp [accepted]

/-- Every request but ISSUE TICKET leaves tickets pending that were pending before it. -/
theorem perform_ticketsLeft {r : Request} (hr : ∀ t, r ≠ .issueTicket t) (s : State) :
    TicketsLeft s (perform r s).state := by
  cases r <;> simp only [perform]
  case issueTicket t => exact absurd rfl (hr t)
  case startTimebase x m => exact doStartTimebase_ticketsLeft x m s
  case stopTimebase x k => exact doStopTimebase_ticketsLeft x k s
  case cancelById id => exact doCancelById_ticketsLeft id s
  case cancelAll x => exact .filter rfl
  case setOverride t => cases t <;> simp only [doSetOverride] <;> split <;> exact .refl s
  case enableOutputs => unfold doEnableOutputs; split <;> exact .refl s
  case disableOutputs m => exact .of_commit (doDisableOutputs_commit m s)
  case configureTripInput i v => unfold doConfigureTripInput; split <;> exact .refl s
  case defineRoute n v => unfold doDefineRoute; (repeat' split) <;> exact .refl s
  case removeRoute n => unfold doRemoveRoute; (repeat' split) <;> exact .refl s
  case clearTrip n => unfold doClearTrip; (repeat' split) <;> exact .refl s
  case fetchNotices n => unfold doFetchNotices; split <;> exact .refl s
  all_goals exact .refl s

/-! ## The invariant (R40, R42, R43) -/

theorem slotsUsed_fixed (q : List Ticket) : slotsUsed (q.map Ticket.fixed) = slotsUsed q := by
  rw [slotsUsed, List.map_map]
  rfl

theorem ids_fixed (q : List Ticket) : (q.map Ticket.fixed).map Ticket.id = q.map Ticket.id := by
  rw [List.map_map]
  rfl

/-- Fewer tickets hold no more slots. -/
theorem slotsUsed_le_of_sublist {q q' : List Ticket} (h : q'.Sublist q) : slotsUsed q' ≤ slotsUsed q := by
  induction h with
  | slnil => exact Nat.le_refl _
  | cons t _ ih => exact Nat.le_trans ih (by simp only [slotsUsed, List.map_cons, List.sum_cons]; omega)
  | cons_cons t _ ih => simp only [slotsUsed, List.map_cons, List.sum_cons] at ih ⊢; omega

theorem slotsUsed_append (q : List Ticket) (t : Ticket) : slotsUsed (q ++ [t]) = slotsUsed q + slotsOf t := by
  simp [slotsUsed]

/-- Fewer pending tickets take no more room, and their ids stay distinct. -/
theorem CommitSound.left {s t : State} (h : CommitSound s) (ht : TicketsLeft s t) : CommitSound t := by
  obtain ⟨hlength, hslots, hids, hnext, hzero⟩ := h
  obtain ⟨htnext, htqueue⟩ := ht
  have hidsLeft : (t.commit.queue.map Ticket.id).Sublist (s.commit.queue.map Ticket.id) := by
    rw [← ids_fixed, ← ids_fixed s.commit.queue]
    exact htqueue.map Ticket.id
  refine ⟨?_, ?_, hidsLeft.nodup hids, by rwa [htnext], fun k hk e => ?_⟩
  · have := htqueue.length_le
    simp only [List.length_map] at this
    omega
  · have := slotsUsed_le_of_sublist htqueue
    rw [slotsUsed_fixed, slotsUsed_fixed] at this
    exact Nat.le_trans this hslots
  · obtain ⟨k', hk', e'⟩ := List.mem_map.mp (hidsLeft.subset (List.mem_map_of_mem hk))
    exact hzero k' hk' (e'.trans e)

/-- A check that refuses when p holds is passed when p fails and what follows passes. -/
theorem ite_some_eq_none {α : Type} {p : Prop} [Decidable p] {a : α} {o : Option α} :
    (if p then some a else o) = none ↔ ¬ p ∧ o = none := by
  by_cases h : p <;> simp [h]

/-- A request passes the checks of R44 exactly when each of the five holds. -/
theorem ticketRefusal_eq_none {s : State} {t : TicketRequest} :
    ticketRefusal s t = none ↔ ticketMisfit t = false ∧ s.commit.queue.length < Config.queueCapacity
      ∧ requestSlots t ≤ freeSlots s.commit.queue ∧ stagedElsewhere s.commit t = false
      ∧ boundElsewhere s.pattern t = false := by
  simp only [ticketRefusal, ite_some_eq_none, and_true, Bool.not_eq_true, Nat.not_le, Nat.not_lt]

/-- A ticket holds one slot for each record that its request names (R40, R44). -/
theorem slotsOf_makeTicket (c : CommitUnit) (t : TicketRequest) (id : Byte) :
    slotsOf (makeTicket c t id) = requestSlots t := by
  cases h : t.record <;> simp [slotsOf, makeTicket, requestSlots, h]

/-- A ticket that passes the checks finds a slot in the queue, room in the pool, and an id that no other has (R42 to R44). -/
theorem doIssueTicket_sound (t : TicketRequest) {s : State} (h : CommitSound s) :
    CommitSound (doIssueTicket t s).state := by
  unfold doIssueTicket
  split
  · exact h
  next hr =>
  obtain ⟨hlength, hslots, hids, hnext, hzero⟩ := h
  obtain ⟨-, hroom, hfree, -⟩ := ticketRefusal_eq_none.mp hr
  have hfresh := freeId_fresh hnext hlength
  refine ⟨?_, ?_, ?_, nextIdAfter_ne_zero _, fun k hk => ?_⟩
  · show (s.commit.queue ++ [makeTicket s.commit t _]).length ≤ _
    rw [List.length_append]
    exact hroom
  · show slotsUsed (s.commit.queue ++ [makeTicket s.commit t _]) ≤ _
    rw [slotsUsed_append, slotsOf_makeTicket]
    unfold freeSlots at hfree
    omega
  · show ((s.commit.queue ++ [makeTicket s.commit t _]).map Ticket.id).Nodup
    rw [List.map_append, List.map_singleton, List.nodup_append]
    refine ⟨hids, List.nodup_cons.mpr ⟨List.not_mem_nil, List.nodup_nil⟩, fun a ha b hb => ?_⟩
    obtain ⟨k, hk, rfl⟩ := List.mem_map.mp ha
    rw [List.mem_singleton.mp hb]
    exact hfresh k hk
  · rcases List.mem_append.mp hk with hk | hk
    · exact hzero k hk
    · rw [List.mem_singleton.mp hk]
      exact freeId_ne_zero _ _ hnext

theorem perform_commitSound (r : Request) {s : State} (h : CommitSound s) : CommitSound (perform r s).state := by
  by_cases hr : ∃ t, r = .issueTicket t
  · obtain ⟨t, rfl⟩ := hr
    exact doIssueTicket_sound t h
  · exact h.left (perform_ticketsLeft (fun t ht => hr ⟨t, ht⟩) s)

theorem commitSound_default {s : State} (h : s.commit = .default) : CommitSound s := by
  unfold CommitSound
  rw [h]
  exact ⟨by decide, by decide, List.nodup_nil, by decide, fun t ht => nomatch ht⟩

theorem commitSound_kept : BlocksKeep CommitSound where
  frame h hb := by
    obtain ⟨_, _, _, hc, _⟩ := hb
    exact h.left (.of_commit hc)
  perform _ _ h := perform_commitSound _ h
  post _ _ h := h
  controllerReset _ := commitSound_default (by simp [controllerReset])
  poweredOn _ _ := commitSound_default rfl
  silenced h := h
  tick x s _ h := h.left (tickEvent_ticketsLeft x s)
  expired _ _ _ he h := h.left (execExpired_ticketsLeft he)
  pulse h := h
  syncCount _ _ h := h
  syncLevel l s h := h.left (changeSyncLevel_ticketsLeft l s)
  input i l s h := h.left (.of_commit (by simp))
  assert _ _ _ h := h.left (.of_commit (by simp))
  quiet _ _ _ h := h.left (.of_commit (by simp))
  clock _ _ _ h := h.left (.of_commit (by simp))
  delayEnd c s t he h := by
    injection he with he
    subst he
    dsimp only
    split <;> exact h
  timers h := h

/-- Settles O54: every operation of the blocks leaves pending tickets that were pending before it (`TicketsLeft`), but for ISSUE
TICKET, whose ticket finds room and a fresh id; and `BlocksKeep` carries that to steps. -/
theorem commitQueueStaysSound : Obligations.CommitQueueStaysSound :=
  fun _ _ hs he => commitSound_kept.step hs he

end Sys2Proof.Machine
end

section
/-!
PROOFS (03_staging_and_the_commit_queue.md): the requests that stage a record, and those that cancel tickets (R36 to R38, R60, R61,
R169).
-/

namespace Sys2Proof.Machine

/-! ## Broadcasts of another kind (R169) -/

/-- A broadcast of a kind outside the list is discarded with its LINK event, whatever its payload (R169). -/
theorem exec_broadcastKind {i : Instr} {tag kind : Byte} {args : List Byte} {s : State}
    (e : requestFrame i = some (broadcastWith tag, kind, args)) (hl : Listening s)
    (hk : broadcastAllowed kind = false) (hw : withRowPins i s = s) :
    exec i s = .next (heard s (s.post [{ key := .link, detail := .link .broadcastKind }])) := by
  rw [exec_requestFrame e, hw, broadcastWith, acceptFrame_broadcast hl, hk]
  rfl

/-! ## Records with a field out of range (R36 to R38, R184) -/

theorem readDeadtime_none {high low : Byte} (h : 1023 < high.toNat * 256 + low.toNat) : readDeadtime high low = none := by
  rw [← toNat_word16] at h
  exact if_neg (by omega)

theorem readPeriod_none {high low : Byte} (h : high.toNat * 256 + low.toNat < 2) : readPeriod high low = none := by
  rw [← toNat_word16] at h
  exact if_neg (by omega)

theorem readPrescale_none {b : Byte} (h : b.toNat ∉ [1, 2, 4, 8, 16, 32, 64, 128]) : readPrescale b = none := by
  unfold readPrescale
  split <;> simp_all

theorem readChannelRecord_none {w1 w2 w3 w4 invert mask : Byte} (h : 1 < invert.toNat ∨ 1 < mask.toNat) :
    readChannelRecord [w1, w2, w3, w4, invert, mask] = none := by
  rcases h with h | h <;> simp [readChannelRecord, readBool_none h]

theorem readPairRecord_none {mode x e1 e2 o1 o2 : Byte}
    (h : 1 < mode.toNat ∨ 1 < x.toNat ∨ 1023 < e1.toNat * 256 + e2.toNat ∨ 1023 < o1.toNat * 256 + o2.toNat) :
    readPairRecord [mode, x, e1, e2, o1, o2] = none := by
  rcases h with h | h | h | h
  · simp [readPairRecord, readPairMode_none h]
  · simp [readPairRecord, readTb_none h]
  · simp [readPairRecord, readDeadtime_none h]
  · simp [readPairRecord, readDeadtime_none h]

theorem readTimebaseRecord_none {p1 p2 alignment prescale restart : Byte}
    (h : p1.toNat * 256 + p2.toNat < 2 ∨ 1 < alignment.toNat ∨ prescale.toNat ∉ [1, 2, 4, 8, 16, 32, 64, 128]
      ∨ 1 < restart.toNat) :
    readTimebaseRecord [p1, p2, alignment, prescale, restart] = none := by
  rcases h with h | h | h | h
  · simp [readTimebaseRecord, readPeriod_none h]
  · simp [readTimebaseRecord, readAlignment_none h]
  · simp [readTimebaseRecord, readPrescale_none h]
  · simp [readTimebaseRecord, readBool_none h]

theorem readRequest_stageChannel_none {b w1 w2 w3 w4 invert mask : Byte}
    (h : 7 < b.toNat ∨ 1 < invert.toNat ∨ 1 < mask.toNat) :
    readRequest 0x20 [b, w1, w2, w3, w4, invert, mask] = none := by
  rw [readRequest_stageChannel]
  rcases h with h | h
  · simp [readChan_none h]
  · simp [readChannelRecord_none h]

theorem readRequest_stagePair_none {b mode x e1 e2 o1 o2 : Byte}
    (h : 3 < b.toNat ∨ 1 < mode.toNat ∨ 1 < x.toNat ∨ 1023 < e1.toNat * 256 + e2.toNat
      ∨ 1023 < o1.toNat * 256 + o2.toNat) :
    readRequest 0x21 [b, mode, x, e1, e2, o1, o2] = none := by
  rw [readRequest_stagePair]
  rcases h with h | h
  · simp [readPairName_none h]
  · simp [readPairRecord_none h]

theorem readRequest_stageTimebase_none {b p1 p2 alignment prescale restart : Byte}
    (h : 1 < b.toNat ∨ p1.toNat * 256 + p2.toNat < 2 ∨ 1 < alignment.toNat
      ∨ prescale.toNat ∉ [1, 2, 4, 8, 16, 32, 64, 128] ∨ 1 < restart.toNat) :
    readRequest 0x22 [b, p1, p2, alignment, prescale, restart] = none := by
  rw [readRequest_stageTimebase]
  rcases h with h | h
  · simp [readTb_none h]
  · simp [readTimebaseRecord_none h]

/-! ## Records staged (R36 to R38) -/

/-- An answer that changes the Commit Unit alone. -/
theorem answered_withCommit (s : State) (c : CommitUnit) (tag kind : Byte) (args payload : List Byte) :
    answered s ((afterLastByte s).withCommit c) tag kind args payload none
      = answered s (s.withCommit c) tag kind args payload none :=
  answered_congr (by simp)

theorem exec_stageChannel {s : State} {tag : Byte} (hl : Listening s) (c : Chan) (r : ChannelRecord)
    (hu : Unanswered s tag 0x20 (chanByte c :: channelRecordBytes r)) :
    exec (.stageChannel (addressedTo tag) (chanByte c :: channelRecordBytes r)) s
      = .next (answered s (s.withCommit { s.commit with channels := s.commit.channels.set c r })
          tag 0x20 (chanByte c :: channelRecordBytes r) [0x00] none) := by
  rw [exec_performs (r := .stageChannel c r) rfl hl hu rfl
    (by rw [readRequest_stageChannel, readChan_chanByte, readChannelRecord_bytes]; rfl) rfl rfl]
  exact congrArg _ (answered_withCommit s _ tag _ _ _)

theorem exec_stagePair {s : State} {tag : Byte} (hl : Listening s) (p : Pair) (r : PairRecord)
    (hu : Unanswered s tag 0x21 (pairByte p :: pairRecordBytes r)) :
    exec (.stagePair (addressedTo tag) (pairByte p :: pairRecordBytes r)) s
      = .next (answered s (s.withCommit { s.commit with pairs := s.commit.pairs.set p r })
          tag 0x21 (pairByte p :: pairRecordBytes r) [0x00] none) := by
  rw [exec_performs (r := .stagePair p r) rfl hl hu rfl
    (by rw [readRequest_stagePair, readPairName_pairByte, readPairRecord_bytes]; rfl) rfl rfl]
  exact congrArg _ (answered_withCommit s _ tag _ _ _)

theorem exec_stageTimebase {s : State} {tag : Byte} (hl : Listening s) (x : Tb) (r : TimebaseRecord)
    (hr : 2 ≤ r.period.toNat) (hu : Unanswered s tag 0x22 (tbByte x :: timebaseRecordBytes r)) :
    exec (.stageTimebase (addressedTo tag) (tbByte x :: timebaseRecordBytes r)) s
      = .next (answered s (s.withCommit { s.commit with timebases := s.commit.timebases.set x r })
          tag 0x22 (tbByte x :: timebaseRecordBytes r) [0x00] none) := by
  rw [exec_performs (r := .stageTimebase x r) rfl hl hu rfl
    (by rw [readRequest_stageTimebase, readTb_tbByte, readTimebaseRecord_bytes r hr]; rfl) rfl rfl]
  exact congrArg _ (answered_withCommit s _ tag _ _ _)

/-- Settles O22: a request that reads back is carried out by its owner, one that does not is refused, and a broadcast is of no kind
on the list. -/
theorem stageRequestsReplaceTheRecord : Obligations.StageRequestsReplaceTheRecord := by
  refine ⟨fun s tag hl => ⟨exec_stageChannel hl, ?_, ?_⟩, fun s tag hl => ⟨exec_stagePair hl, ?_, ?_⟩,
    fun s tag hl => ⟨exec_stageTimebase hl, ?_, ?_⟩⟩
  · exact fun _ _ _ _ _ _ _ hu h => exec_badArgument rfl hl hu rfl (readRequest_stageChannel_none h)
  · exact fun _ => exec_broadcastKind rfl hl rfl rfl
  · exact fun _ _ _ _ _ _ _ hu h => exec_badArgument rfl hl hu rfl (readRequest_stagePair_none h)
  · exact fun _ => exec_broadcastKind rfl hl rfl rfl
  · exact fun _ _ _ _ _ _ hu h => exec_badArgument rfl hl hu rfl (readRequest_stageTimebase_none h)
  · exact fun _ => exec_broadcastKind rfl hl rfl rfl

/-! ## Tickets cancelled (R60, R61) -/

theorem doCancelById_pending {id : Byte} {s : State} (h : ∃ t ∈ s.commit.queue, t.id = id) :
    doCancelById id s = accepted (s.withCommit { s.commit with queue := s.commit.queue.filter fun t => t.id ≠ id }) [] := by
  unfold doCancelById
  rw [if_pos (by simpa using h)]

theorem doCancelById_missing {id : Byte} {s : State} (h : ∀ t ∈ s.commit.queue, t.id ≠ id) :
    doCancelById id s = refusedWith s .notFound := by
  unfold doCancelById
  rw [if_neg (by simpa using h)]

theorem exec_cancelTicketById {s : State} {tag id : Byte} {a : Answer} (hl : Listening s)
    (hu : Unanswered s tag 0x31 [0, id]) (hid : id ≠ 0) (ha : doCancelById id (afterLastByte s) = a) :
    exec (.cancelTicketById (addressedTo tag) id) s
      = .next (answered s a.state tag 0x31 [0, id] (statusCode a.status :: a.content) a.action) :=
  exec_performs (r := .cancelById id) rfl hl hu rfl (by rw [readRequest_cancelById, if_neg hid]) rfl ha

/-- Settles O24: id 0 and a byte that names no timebase do not read; the rest is the owner's, by whether the id is pending. -/
theorem cancelTicketBothForms : Obligations.CancelTicketBothForms := by
  refine ⟨fun s tag id hl hu => ⟨fun h => ?_, fun hid h => ?_, fun hid h => ?_, ?_⟩,
    fun s tag b hl hu => ⟨fun x hx => ?_, fun h => ?_⟩⟩
  · exact exec_badArgument rfl hl hu rfl (by rw [readRequest_cancelById, if_pos h])
  · rw [exec_cancelTicketById hl hu hid (doCancelById_pending (s := afterLastByte s) h)]
    exact congrArg _ (answered_withCommit s _ tag _ _ _)
  · rw [exec_cancelTicketById hl hu hid (doCancelById_missing (s := afterLastByte s) h)]
    exact congrArg _ (answered_afterLastByte s s tag _ _ _ none)
  · exact exec_broadcastKind rfl hl rfl rfl
  · subst hx
    rw [exec_performs (r := .cancelAll x) rfl hl hu rfl (by rw [readRequest_cancelAll, readTb_tbByte]; rfl) rfl rfl]
    exact congrArg _ (answered_withCommit s _ tag _ _ _)
  · exact exec_badArgument rfl hl hu rfl (by rw [readRequest_cancelAll, readTb_none h]; rfl)

end Sys2Proof.Machine
end

section
/-!
PROOFS (03_staging_and_the_commit_queue.md): ISSUE TICKET, its checks and the ticket it appends (R43 to R45).
-/

namespace Sys2Proof.Machine

/-! ## The checks (R44) -/

/-- Check 1: an empty ticket, a deadline without SYNC, or a timebase record with ANY. -/
theorem ticketMisfit_iff {t : TicketRequest} :
    ticketMisfit t = true ↔ (t.channels = 0 ∧ t.pairs = 0 ∧ t.record = false)
      ∨ (t.deadline ≠ none ∧ t.condition ≠ .sync) ∨ (t.record = true ∧ t.boundaryKind = .any) := by
  simp [ticketMisfit, Option.isSome_iff_ne_none, and_assoc, or_assoc]

/-- Check 4: an included pair is staged for the other timebase. -/
theorem stagedElsewhere_iff {c : CommitUnit} {t : TicketRequest} :
    stagedElsewhere c t = true ↔ ∃ p, inPairSet t.pairs p = true ∧ (c.pairs.get p).timebase ≠ t.timebase := by
  simp [stagedElsewhere]

/-- Check 5: an included channel, whose pair is not included, is bound to the other timebase. -/
theorem boundElsewhere_iff {p : PatternUnit} {t : TicketRequest} :
    boundElsewhere p t = true ↔ ∃ c, inSet t.channels c = true ∧ inPairSet t.pairs (pairOf c) = false
      ∧ boundTo p c ≠ t.timebase := by
  simp [boundElsewhere, and_assoc]

theorem ticketRefusal_misfit {s : State} {t : TicketRequest} (h : ticketMisfit t = true) :
    ticketRefusal s t = some .badArgument := if_pos h

/-- Checks 2 and 3: a full queue, or too few free slots. -/
theorem ticketRefusal_noRoom {s : State} {t : TicketRequest} (hm : ¬ ticketMisfit t = true)
    (h : Config.queueCapacity ≤ s.commit.queue.length ∨ freeSlots s.commit.queue < requestSlots t) :
    ticketRefusal s t = some .noRoom := by
  rw [ticketRefusal, if_neg hm]
  split
  · rfl
  · next hf => rw [if_pos (h.resolve_left hf)]

theorem ticketRefusal_elsewhere {s : State} {t : TicketRequest} (hm : ¬ ticketMisfit t = true)
    (hf : ¬ Config.queueCapacity ≤ s.commit.queue.length) (hs : ¬ freeSlots s.commit.queue < requestSlots t)
    (h : stagedElsewhere s.commit t = true ∨ boundElsewhere s.pattern t = true) :
    ticketRefusal s t = some .badArgument := by
  rw [ticketRefusal, if_neg hm, if_neg hf, if_neg hs]
  split
  · rfl
  · next he => rw [if_pos (h.resolve_left he)]

/-! ## The id (R43) -/

theorem idAfter_eq_repeat (n : Nat) (id : Byte) : idAfter n id = Nat.repeat nextIdAfter n id := by
  have hshift : ∀ n id, Nat.repeat nextIdAfter n (nextIdAfter id) = nextIdAfter (Nat.repeat nextIdAfter n id) := by
    intro n id
    induction n with
    | zero => rfl
    | succ n ih => exact congrArg nextIdAfter ih
  induction n generalizing id with
  | zero => rfl
  | succ n ih => exact (ih (nextIdAfter id)).trans (hshift n id)

/-- The id found is reached from the next-id value over ids that are all pending. -/
theorem freeId_reached (fuel : Nat) (id : Byte) (q : List Ticket) :
    ∃ n, freeId fuel id q = idAfter n id ∧ ∀ m, m < n → ∃ k ∈ q, k.id = idAfter m id := by
  induction fuel generalizing id with
  | zero => exact ⟨0, rfl, fun m hm => absurd hm (Nat.not_lt_zero m)⟩
  | succ fuel ih =>
    unfold freeId
    split
    · next hpending =>
      obtain ⟨n, hn, hpassed⟩ := ih (nextIdAfter id)
      refine ⟨n + 1, hn, fun m hm => ?_⟩
      cases m with
      | zero => simpa [idAfter] using hpending
      | succ m => exact hpassed m (by omega)
    · exact ⟨0, rfl, fun m hm => absurd hm (Nat.not_lt_zero m)⟩

/-! ## The request (R44, R45) -/

theorem doIssueTicket_refused {s : State} {t : TicketRequest} {st : Status} (h : ticketRefusal s t = some st) :
    doIssueTicket t s = refusedWith s st := by
  rw [doIssueTicket, h]

theorem doIssueTicket_accepted {s : State} {t : TicketRequest} (h : ticketRefusal s t = none) :
    doIssueTicket t s = accepted (s.withCommit (issueTo s.commit t))
      [freeId s.commit.queue.length s.commit.nextId s.commit.queue, natByte (freeSlots (issueTo s.commit t).queue)] := by
  rw [doIssueTicket, h]

theorem exec_issueTicket {s : State} {tag : Byte} {t : TicketRequest} {args : List Byte} {a : Answer} (hl : Listening s)
    (ht : SpellsTicket t args) (hf : TicketFieldsSound t) (hu : Unanswered s tag 0x30 args)
    (ha : doIssueTicket t (afterLastByte s) = a) :
    exec (.issueTicket (addressedTo tag) args) s
      = .next (answered s a.state tag 0x30 args (statusCode a.status :: a.content) a.action) :=
  exec_performs (r := .issueTicket t) rfl hl hu (by rw [length_spelling ht]; rfl)
    (by rw [readRequest_issueTicket, readTicket_spelling ht hf]; rfl) rfl ha

/-- Settles O23: the checks are those of `ticketRefusal`, the id is the one `freeId` reaches, and the ticket is `makeTicket`. -/
theorem issueTicket : Obligations.IssueTicket := by
  refine ⟨fun s t => ?_, fun s tag t args hl ht hf hu => ⟨fun st hr => ?_, fun hs hr => ?_⟩⟩
  · dsimp only
    rw [← ticketMisfit_iff, ← stagedElsewhere_iff, ← boundElsewhere_iff]
    refine ⟨ticketRefusal_misfit, ticketRefusal_noRoom, ticketRefusal_elsewhere, fun hm hfull hshort he hb => ?_⟩
    exact ticketRefusal_eq_none.mpr
      ⟨by simpa using hm, Nat.lt_of_not_le hfull, Nat.le_of_not_lt hshort, by simpa using he, by simpa using hb⟩
  · rw [exec_issueTicket hl ht hf hu (doIssueTicket_refused (s := afterLastByte s) hr)]
    exact congrArg _ (answered_afterLastByte s s tag _ _ _ none)
  · obtain ⟨hlength, _, _, hnext, _⟩ := hs
    obtain ⟨n, hn, hpassed⟩ := freeId_reached s.commit.queue.length s.commit.nextId s.commit.queue
    simp only [idAfter_eq_repeat] at hn hpassed
    refine ⟨_, n, freeId_ne_zero _ _ hnext, freeId_fresh hnext hlength, hn, hpassed, ?_⟩
    rw [exec_issueTicket hl ht hf hu (doIssueTicket_accepted (s := afterLastByte s) hr)]
    exact congrArg _ (answered_withCommit s _ tag _ _ _)

end Sys2Proof.Machine
end

section
/-!
PROOFS (03_staging_and_the_commit_queue.md): the decrement step, readiness, the application walk and the deadline step (R48 to R52).
-/

namespace Sys2Proof.Machine

/-! ## Counting down and readiness (R48 to R50) -/

theorem qualifies_iff {b : Boundary} {k : BoundaryKind} : qualifies b k = true ↔ (b = .start ∨ k = .any) := by
  cases b <;> cases k <;> decide

/-- The decrement step on a ticket that it concerns (R49). -/
theorem countDown_own {x : Tb} {b : Boundary} {t : Ticket} {k : Byte} (hc : t.condition = .after k) (hx : t.timebase = x)
    (hq : qualifies b t.boundaryKind = true) (hr : t.remaining ≠ 0) :
    countDown x b t = { t with remaining := t.remaining - 1 } := by
  simp only [countDown, hc]
  exact if_pos ⟨hx, hq, hr⟩

theorem countDown_other {x : Tb} {b : Boundary} {t : Ticket}
    (h : t.condition = .sync ∨ t.timebase ≠ x ∨ qualifies b t.boundaryKind = false ∨ t.remaining = 0) :
    countDown x b t = t := by
  cases hc : t.condition with
  | sync => simp only [countDown, hc]
  | after k =>
    simp only [countDown, hc]
    rw [if_neg]
    rintro ⟨hx, hq, hr⟩
    rcases h with h | h | h | h
    · simp [hc] at h
    · exact h hx
    · simp [hq] at h
    · exact hr h

theorem isReady_iff {b : Boundary} {t : Ticket} :
    isReady b t = true ↔ qualifies b t.boundaryKind = true
      ∧ ((∃ k, t.condition = .after k ∧ t.remaining = 0) ∨ (t.condition = .sync ∧ t.syncSeen = true)) := by
  cases hc : t.condition <;> simp [isReady, hc]

/-- Settles O25: the equations of the decrement step, and what the walk takes and leaves (`takeReady_own` and its neighbours). -/
theorem decrementReadinessAndWalk : Obligations.DecrementReadinessAndWalk := by
  refine ⟨fun x b t => ⟨fun k => countDown_own, countDown_other, qualifies_iff, isReady_iff⟩, fun x b q => ?_⟩
  exact ⟨takeReady_taken x b q, takeReady_own x b q, (takeReady_others x b q).symm, takeReady_stops x b q⟩

/-! ## Deadlines (R52) -/

theorem hasDeadline_iff {x : Tb} {t : Ticket} :
    hasDeadline x t = true ↔ t.timebase = x ∧ t.condition = .sync ∧ t.syncSeen = false ∧ t.deadline ≠ none := by
  simp [hasDeadline, Option.isSome_iff_ne_none, and_assoc]

/-- A deadline above 0 runs out at 1. -/
theorem runsOut_eq {x : Tb} {t : Ticket} (h : t.deadline ≠ some 0) :
    runsOut x t = decide (t.timebase = x ∧ t.condition = .sync ∧ t.syncSeen = false ∧ t.deadline = some 1) := by
  have hone : (t.deadline ≠ none ∧ (t.deadline.getD 0).toNat ≤ 1) ↔ t.deadline = some 1 := by
    cases hd : t.deadline with
    | none => simp
    | some d =>
      have hzero : d ≠ 0 := by rintro rfl; exact h hd
      simp only [Option.getD_some, ne_eq, reduceCtorEq, not_false_eq_true, true_and, Option.some.injEq]
      bv_omega
  rw [Bool.eq_iff_iff, runsOut, Bool.and_eq_true, hasDeadline_iff, decide_eq_true_eq, decide_eq_true_eq]
  simp only [and_assoc, hone]

/-- Without a deadline there is nothing to count, so the step may be written without the question whether there is one. -/
theorem countDeadline_eq (x : Tb) (t : Ticket) :
    countDeadline x t = if t.timebase = x ∧ t.condition = .sync ∧ t.syncSeen = false
      then { t with deadline := t.deadline.map (· - 1) } else t := by
  by_cases hd : t.deadline = none
  · have hkept : { t with deadline := t.deadline.map (· - 1) } = t := by
      cases t
      simp_all
    simp only [countDeadline, hkept, ite_self]
  · simp only [countDeadline, hasDeadline_iff, ne_eq, hd, not_false_eq_true, and_true]

theorem deadlineStep_queue {x : Tb} {q : List Ticket} (hq : ∀ t ∈ q, t.deadline ≠ some 0) :
    (deadlineStep x q).1
      = (q.filter fun t => decide ¬ (t.timebase = x ∧ t.condition = .sync ∧ t.syncSeen = false ∧ t.deadline = some 1)).map
          fun t => if t.timebase = x ∧ t.condition = .sync ∧ t.syncSeen = false
            then { t with deadline := t.deadline.map (· - 1) } else t := by
  have hf : (q.filter fun t => !runsOut x t) = q.filter fun t => decide ¬ (t.timebase = x ∧ t.condition = .sync
      ∧ t.syncSeen = false ∧ t.deadline = some 1) :=
    List.filter_congr fun t ht => by rw [runsOut_eq (hq t ht), decide_not]
  rw [deadlineStep, hf]
  exact List.map_congr_left fun t _ => countDeadline_eq x t

theorem deadlineStep_notices {x : Tb} {q : List Ticket} (hq : ∀ t ∈ q, t.deadline ≠ some 0) :
    (deadlineStep x q).2
      = (q.filter fun t => decide (t.timebase = x ∧ t.condition = .sync ∧ t.syncSeen = false ∧ t.deadline = some 1)).map
          fun t => { key := .expired x, detail := .expired t.id } := by
  have hf : q.filter (runsOut x) = q.filter fun t => decide (t.timebase = x ∧ t.condition = .sync
      ∧ t.syncSeen = false ∧ t.deadline = some 1) :=
    List.filter_congr fun t ht => runsOut_eq (hq t ht)
  rw [deadlineStep, hf]
  refine List.map_congr_left fun t ht => ?_
  obtain ⟨hx, _⟩ := of_decide_eq_true (List.mem_filter.mp ht).2
  rw [expiredNotice, hx]

/-- An element of a list without duplicates stands neither before nor after itself. -/
theorem not_mem_of_nodup_middle {α : Type} {a : α} {l m : List α} (h : (l ++ a :: m).Nodup) : a ∉ l ∧ a ∉ m := by
  obtain ⟨hnot, _⟩ := List.nodup_cons.mp ((List.Perm.nodup_iff List.perm_middle).mp h)
  exact ⟨fun hl => hnot (List.mem_append_left _ hl), fun hm => hnot (List.mem_append_right _ hm)⟩

/-- In a queue of distinct ids the conditions of the row EXPIRED single out one ticket. -/
theorem filter_id_of_nodup {before after : List Ticket} {t : Ticket} {p : Ticket → Bool}
    (hn : ((before ++ t :: after).map Ticket.id).Nodup) (hp : p t = true) :
    (before ++ t :: after).filter (fun k => decide (k.id = t.id) && p k) = [t]
      ∧ (before ++ t :: after).filter (fun k => !(decide (k.id = t.id) && p k)) = before ++ after := by
  rw [List.map_append, List.map_cons] at hn
  have hother : ∀ l : List Ticket, t.id ∉ l.map Ticket.id → ∀ k ∈ l, (decide (k.id = t.id) && p k) = false := by
    intro l hl k hk
    have hne : k.id ≠ t.id := fun e => hl (e ▸ List.mem_map_of_mem hk)
    rw [decide_eq_false hne, Bool.false_and]
  have hb := hother before (not_mem_of_nodup_middle hn).1
  have ha := hother after (not_mem_of_nodup_middle hn).2
  constructor
  · rw [List.filter_append, List.filter_cons_of_pos (by simpa using hp),
      List.filter_eq_nil_iff.mpr fun k hk => by simp only [hb k hk]; decide,
      List.filter_eq_nil_iff.mpr fun k hk => by simp only [ha k hk]; decide]
    rfl
  · rw [List.filter_append, List.filter_cons_of_neg (by simp [hp]),
      List.filter_eq_self.mpr fun k hk => by simp only [hb k hk]; decide,
      List.filter_eq_self.mpr fun k hk => by simp only [ha k hk]; decide]

/-- Settles O26: a deadline above 0 runs out at 1, and ids are distinct. -/
theorem deadlinesExpire : Obligations.DeadlinesExpire := by
  refine ⟨fun x q hq => ⟨deadlineStep_queue hq, deadlineStep_notices hq⟩, fun s before after t hs hq hc hu hd => ?_⟩
  obtain ⟨_, _, hids, _⟩ := hs
  rw [hq] at hids
  obtain ⟨hgone, hleft⟩ := filter_id_of_nodup (p := fun k => hasDeadline k.timebase k) hids
    (hasDeadline_iff.mpr ⟨rfl, hc, hu, hd⟩)
  show execExpired t.id s = _
  simp only [execExpired, hq, hgone, hleft]
  rfl

end Sys2Proof.Machine
end

section
/-!
PROOFS (03_staging_and_the_commit_queue.md): what the application of a ticket does to its pairs, its timebase and its channels
(R56 to R59, R116, R119, R120).
-/

namespace Sys2Proof.Machine

/-! ## One pair (R56, R58, R116, R119, R120) -/

/-- Two states that agree on a pair: on its record, its override entry and its outputs. -/
def SamePair (p : Pair) (s t : State) : Prop :=
  t.pattern.pairs.get p = s.pattern.pairs.get p ∧ t.output.overrides.get p = s.output.overrides.get p
    ∧ ∀ c, pairOf c = p → t.output.channels.get c = s.output.channels.get c

theorem SamePair.of_eq {p : Pair} {s t : State} (hp : t.pattern.pairs = s.pattern.pairs) (ho : t.output = s.output) :
    SamePair p s t :=
  ⟨by rw [hp], by rw [ho], fun _ _ => by rw [ho]⟩

theorem SamePair.trans {p : Pair} {s t u : State} (h : SamePair p s t) (h' : SamePair p t u) : SamePair p s u :=
  ⟨h'.1.trans h.1, h'.2.1.trans h.2.1, fun c hc => (h'.2.2 c hc).trans (h.2.2 c hc)⟩

/-- A change to mode M takes the hold level of a member to INACTIVE, and to INDEPENDENT its waiting rise takes effect (R116). -/
def ChangedTo (m : PairMode) (before after : OutChannel) : Prop :=
  (m = .independent → before.delay ≠ none → after = { before with hold := .inactive, output := .active, delay := none })
    ∧ (m = .complementary ∨ before.delay = none → after = { before with hold := .inactive })

/-- In a pair that stays COMPLEMENTARY the waiting rise of a member takes effect when its count is at least the deadtime; all else
stays (R119, R120). -/
def ComparedWith (m : PairMode) (deadtime : Nat) (before after : OutChannel) : Prop :=
  (∀ n, m = .complementary → before.delay = some n → deadtime ≤ n →
      after = { before with output := .active, delay := none })
    ∧ (m = .independent ∨ before.delay = none → after = before)
    ∧ (∀ n, before.delay = some n → n < deadtime → after = before)

/-- What a record makes of its pair, from s to t, by whether it changes the mode. -/
def PairApplied (p : Pair) (r : PairRecord) (s t : State) : Prop :=
  t.pattern.pairs.get p = r
    ∧ ((s.pattern.pairs.get p).mode ≠ r.mode →
      (r.mode = .independent → t.output.overrides.get p = .independent .none .none)
        ∧ (r.mode = .complementary → t.output.overrides.get p = .complementary .none)
        ∧ ∀ c, pairOf c = p → ChangedTo r.mode (s.output.channels.get c) (t.output.channels.get c))
    ∧ ((s.pattern.pairs.get p).mode = r.mode →
      t.output.overrides.get p = s.output.overrides.get p
        ∧ ∀ c, pairOf c = p → ComparedWith r.mode (if isPrimary c then r.deadtimeEven.toNat else r.deadtimeOdd.toNat)
            (s.output.channels.get c) (t.output.channels.get c))

/-- What a record makes of its pair reads and writes that pair alone. -/
theorem PairApplied.congr {p : Pair} {r : PairRecord} {s s' t t' : State} (h : PairApplied p r s t)
    (hs : SamePair p s' s) (ht : SamePair p t t') : PairApplied p r s' t' := by
  obtain ⟨hrecord, hchanged, hkept⟩ := h
  obtain ⟨hs1, hs2, hs3⟩ := hs
  obtain ⟨ht1, ht2, ht3⟩ := ht
  rw [hs1] at hchanged hkept
  refine ⟨ht1.trans hrecord, fun hm => ?_, fun hm => ?_⟩
  · obtain ⟨hind, hcomp, hchannels⟩ := hchanged hm
    refine ⟨fun h => ht2.trans (hind h), fun h => ht2.trans (hcomp h), fun c hc => ?_⟩
    rw [ht3 c hc, ← hs3 c hc]
    exact hchannels c hc
  · obtain ⟨hentry, hchannels⟩ := hkept hm
    refine ⟨ht2.trans (hentry.trans hs2), fun c hc => ?_⟩
    rw [ht3 c hc, ← hs3 c hc]
    exact hchannels c hc

/-- A pair record that changes the mode (R116). -/
theorem applyPair_newMode {s : State} {e : Pair × PairRecord} (h : (s.pattern.pairs.get e.1).mode ≠ e.2.mode) :
    (applyPair s e).output = changeMode s.output e.1 e.2.mode := if_pos h

theorem changeMode_channel (o : OutputStage) {p : Pair} (m : PairMode) {c : Chan} (hc : pairOf c = p) :
    ChangedTo m (o.channels.get c) ((changeMode o p m).channels.get c) := by
  simp only [changeMode, ChanFile.get_ofFn, hc, if_true]
  refine ⟨fun hm hd => if_pos ⟨hm, Option.isSome_iff_ne_none.mpr hd⟩, fun h => if_neg ?_⟩
  rintro ⟨hm, hd⟩
  rcases h with h | h
  · simp [hm] at h
  · simp [h] at hd

theorem applyPair_applied (s : State) (p : Pair) (r : PairRecord) : PairApplied p r s (applyPair s (p, r)) := by
  refine ⟨by simp [applyPair], fun hm => ?_, fun hm => ?_⟩
  · rw [applyPair_newMode (e := (p, r)) hm]
    refine ⟨fun hr => by simp [changeMode, hr], fun hr => by simp [changeMode, hr], fun c => changeMode_channel _ _⟩
  · obtain ⟨hentry, hchannels⟩ := applyPair_sameMode (e := (p, r)) hm
    refine ⟨by rw [hentry], fun c hc => ?_⟩
    rw [hchannels c]
    refine ⟨fun n hcomp hn hle => if_pos ⟨hc, hcomp, n, hn, hle⟩, fun h => if_neg ?_, fun n hn hlt => if_neg ?_⟩
    · rintro ⟨_, hcomp, n, hn, _⟩
      rcases h with h | h
      · exact nomatch h.symm.trans hcomp
      · exact nomatch h.symm.trans hn
    · rintro ⟨_, _, n', hn', hle⟩
      obtain rfl : n = n' := Option.some.inj (hn.symm.trans hn')
      exact Nat.not_le.mpr hlt hle

/-- A pair record touches no other pair. -/
theorem applyPair_other {p : Pair} {e : Pair × PairRecord} (s : State) (h : p ≠ e.1) : SamePair p s (applyPair s e) := by
  refine ⟨by simp [applyPair, h], ?_, fun c hc => ?_⟩
  all_goals by_cases hm : (s.pattern.pairs.get e.1).mode = e.2.mode
  · rw [(applyPair_sameMode hm).1]
  · rw [applyPair_newMode hm]
    simp [changeMode, h]
  · rw [(applyPair_sameMode hm).2 c, if_neg fun hown => h (hc.symm.trans hown.1)]
  · rw [applyPair_newMode hm]
    simp [changeMode, hc, h]

/-! ## The pair records of a ticket (R56) -/

theorem applyPairs_other {p : Pair} {l : List (Pair × PairRecord)} (s : State) (h : p ∉ l.map Prod.fst) :
    SamePair p s (l.foldl applyPair s) := by
  induction l generalizing s with
  | nil => exact .of_eq rfl rfl
  | cons e l ih =>
    rw [List.map_cons, List.mem_cons, not_or] at h
    exact (applyPair_other s h.1).trans (ih _ h.2)

/-- Of the records before and after it none names the same pair, so a pair's record meets the pair as the ticket found it, and
leaves it as the ticket does. -/
theorem applyPairs_applied {p : Pair} {r : PairRecord} {l : List (Pair × PairRecord)} (s : State)
    (hn : (l.map Prod.fst).Nodup) (h : (p, r) ∈ l) : PairApplied p r s (l.foldl applyPair s) := by
  obtain ⟨before, after, rfl⟩ := List.append_of_mem h
  rw [List.map_append, List.map_cons] at hn
  obtain ⟨hbefore, hafter⟩ := not_mem_of_nodup_middle hn
  rw [List.foldl_append, List.foldl_cons]
  exact (applyPair_applied _ p r).congr (applyPairs_other s hbefore) (applyPairs_other _ hafter)

theorem applyPairs_channels (l : List (Pair × PairRecord)) (s : State) :
    (l.foldl applyPair s).pattern.channels = s.pattern.channels := by
  induction l generalizing s with
  | nil => rfl
  | cons e l ih => exact ih (applyPair s e)

/-! ## The channel records of a ticket (R57) -/

theorem applyChannel_pairs (x : Tb) (s : State) (e : Chan × ChannelRecord) :
    (applyChannel x s e).pattern.pairs = s.pattern.pairs := by
  unfold applyChannel
  split <;> rfl

theorem applyChannels_pairs (x : Tb) (l : List (Chan × ChannelRecord)) (s : State) :
    (l.foldl (applyChannel x) s).pattern.pairs = s.pattern.pairs := by
  induction l generalizing s with
  | nil => rfl
  | cons e l ih => exact (ih _).trans (applyChannel_pairs x s e)

theorem boundTo_congr {p q : PatternUnit} (h : p.pairs = q.pairs) (c : Chan) : boundTo p c = boundTo q c := by
  rw [boundTo, boundTo, h]

theorem applyChannel_own {x : Tb} {s : State} {c : Chan} (r : ChannelRecord) (h : boundTo s.pattern c = x) :
    (applyChannel x s (c, r)).pattern.channels.get c = r := by
  rw [applyChannel, if_pos h]
  simp

theorem applyChannel_other {x : Tb} {s : State} {c : Chan} {e : Chan × ChannelRecord}
    (h : c ≠ e.1 ∨ boundTo s.pattern c ≠ x) :
    (applyChannel x s e).pattern.channels.get c = s.pattern.channels.get c := by
  unfold applyChannel
  split
  · next hb =>
    have hne : c ≠ e.1 := by
      rintro rfl
      exact h.elim (· rfl) (· hb)
    simp [hne]
  · rfl

theorem applyChannels_other {x : Tb} {l : List (Chan × ChannelRecord)} {s : State} {c : Chan}
    (h : c ∉ l.map Prod.fst ∨ boundTo s.pattern c ≠ x) :
    (l.foldl (applyChannel x) s).pattern.channels.get c = s.pattern.channels.get c := by
  induction l generalizing s with
  | nil => rfl
  | cons e l ih =>
    rw [List.map_cons, List.mem_cons, not_or] at h
    rw [List.foldl_cons, ih, applyChannel_other (h.imp_left And.left)]
    rw [boundTo_congr (applyChannel_pairs x s e)]
    exact h.imp_left And.right

theorem applyChannels_own {x : Tb} {l : List (Chan × ChannelRecord)} {s : State} {c : Chan} {r : ChannelRecord}
    (hn : (l.map Prod.fst).Nodup) (h : (c, r) ∈ l) (hb : boundTo s.pattern c = x) :
    (l.foldl (applyChannel x) s).pattern.channels.get c = r := by
  obtain ⟨before, after, rfl⟩ := List.append_of_mem h
  rw [List.map_append, List.map_cons] at hn
  obtain ⟨_, hafter⟩ := not_mem_of_nodup_middle hn
  rw [List.foldl_append, List.foldl_cons, applyChannels_other (.inl hafter), applyChannel_own]
  rwa [boundTo_congr (applyChannels_pairs x before s)]

/-! ## A ticket (R56 to R59) -/

@[simp] theorem TbFile.set_get {α : Type} (f : TbFile α) (x : Tb) : f.set x (f.get x) = f := by
  refine TbFile.ext fun y => ?_
  rw [TbFile.get_set]
  split
  · next hy => rw [hy]
  · rfl

theorem applyTicket_pairs (x : Tb) (t : Ticket) (s : State) :
    (applyTicket x t s).pattern.pairs = (t.pairs.foldl applyPair s).pattern.pairs := by
  rw [applyTicket, applyChannels_pairs]
  simp

theorem applyTicket_output (x : Tb) (t : Ticket) (s : State) :
    (applyTicket x t s).output = (t.pairs.foldl applyPair s).output := by
  simp [applyTicket]

theorem applyTicket_samePair (x : Tb) (t : Ticket) (s : State) (p : Pair) :
    SamePair p (t.pairs.foldl applyPair s) (applyTicket x t s) :=
  .of_eq (applyTicket_pairs x t s) (applyTicket_output x t s)

theorem applyTicket_otherPair {p : Pair} (x : Tb) {t : Ticket} (s : State) (h : p ∉ t.pairs.map Prod.fst) :
    SamePair p s (applyTicket x t s) :=
  (applyPairs_other s h).trans (applyTicket_samePair x t s p)

theorem applyTicket_pairApplied {p : Pair} {r : PairRecord} (x : Tb) {t : Ticket} (s : State)
    (hn : (t.pairs.map Prod.fst).Nodup) (h : (p, r) ∈ t.pairs) : PairApplied p r s (applyTicket x t s) :=
  (applyPairs_applied s hn h).congr (.of_eq rfl rfl) (applyTicket_samePair x t s p)

/-- The channel records are applied under the bindings that the pair records leave. -/
theorem boundTo_applyTicket (x : Tb) (t : Ticket) (s : State) (c : Chan) :
    boundTo (applyRecord x t.record (t.pairs.foldl applyPair s)).pattern c = boundTo (applyTicket x t s).pattern c := by
  refine boundTo_congr ?_ c
  rw [applyTicket_pairs]
  simp

theorem applyTicket_channel {x : Tb} {t : Ticket} {s : State} {c : Chan} {r : ChannelRecord}
    (hn : (t.channels.map Prod.fst).Nodup) (h : (c, r) ∈ t.channels) (hb : boundTo (applyTicket x t s).pattern c = x) :
    (applyTicket x t s).pattern.channels.get c = r :=
  applyChannels_own hn h ((boundTo_applyTicket x t s c).trans hb)

theorem applyTicket_otherChannel {x : Tb} {t : Ticket} {s : State} {c : Chan}
    (h : c ∉ t.channels.map Prod.fst ∨ boundTo (applyTicket x t s).pattern c ≠ x) :
    (applyTicket x t s).pattern.channels.get c = s.pattern.channels.get c := by
  rw [← boundTo_applyTicket] at h
  rw [applyTicket, applyChannels_other h]
  simp [applyPairs_channels]

theorem applyTicket_record {x : Tb} {t : Ticket} {r : TimebaseRecord} (s : State) (h : t.record = some r) :
    (applyTicket x t s).timebases = s.timebases.set x { s.timebases.get x with active := r } := by
  simp [withRecord, h]

theorem applyTicket_noRecord {x : Tb} {t : Ticket} (s : State) (h : t.record = none) :
    (applyTicket x t s).timebases = s.timebases := by
  rw [applyTicket_timebases, h]
  exact TbFile.set_get _ x

/-- The notice carries the cycle count, which the application leaves (R59). -/
theorem appliedNotice_eq (x : Tb) (t : Ticket) (s : State) :
    appliedNotice x t (applyTicket x t s)
      = { key := .applied x
          detail := .applied t.id (s.timebases.get x).cycles
            (t.channels.filter fun e => boundTo (applyTicket x t s).pattern e.1 ≠ x).length } := by
  simp [appliedNotice, discardedCount, withRecord]

/-- Settles O27: a pair is what its one record makes of it (`PairApplied`), a channel what its one record is if it is then bound to
the timebase, and the rest of the part stays. -/
theorem applicationOfATicket : Obligations.ApplicationOfATicket := by
  refine ⟨fun s x t hp hc => ?_, fun s x => rfl, fun s x t ts => ⟨rfl, congrArg (· :: _) (appliedNotice_eq x t s)⟩⟩
  have happlied : ∀ p r, (p, r) ∈ t.pairs → PairApplied p r s (applyTicket x t s) :=
    fun p r h => applyTicket_pairApplied x s hp h
  have hother : ∀ p, p ∉ t.pairs.map Prod.fst → SamePair p s (applyTicket x t s) :=
    fun p h => applyTicket_otherPair x s h
  obtain ⟨henable, hdrained, hclocks⟩ := applyTicket_enable x t s
  obtain ⟨hlink, hcache, hsync, hcommit, htrip, hnotices, hpins, hreset, _, hpending⟩ := applyTicket_keeps x t s
  exact ⟨fun p r h => (happlied p r h).1, fun p h => (hother p h).1, fun r h => applyTicket_record s h,
    fun h => applyTicket_noRecord s h, fun c r h hb => applyTicket_channel hc h hb, fun c h => applyTicket_otherChannel h,
    fun p r h => (happlied p r h).2.1, fun p r h => (happlied p r h).2.2, fun p h => (hother p h).2,
    henable, hdrained, hclocks, hsync, htrip, hcommit, hnotices, hlink, hcache, hpins, hreset, hpending⟩

end Sys2Proof.Machine
end

section
/-!
PROOFS (04_trip_inputs_and_qualification.md): what a release makes of a route, and the invariant of the trip inputs and routes.
-/

namespace Sys2Proof.Machine

/-! ## What a release makes of a route (R90 to R92) -/

theorem releaseRoute_of_not_releasing {set : ChannelSet} {r : Route} (h : r.state ≠ .releasing) : releaseRoute set r = r :=
  if_neg h

theorem releaseRoute_of_empty {set : ChannelSet} {r : Route} (h : r.state = .releasing) (h0 : setMinus r.held set = 0) :
    releaseRoute set r = { r with state := .armed, held := 0 } := by
  rw [releaseRoute, if_pos h, if_pos h0]

theorem releaseRoute_of_left {set : ChannelSet} {r : Route} (h : r.state = .releasing) (h0 : setMinus r.held set ≠ 0) :
    releaseRoute set r = { r with held := setMinus r.held set } := by
  rw [releaseRoute, if_pos h, if_neg h0]

theorem setMinus_self (a : ChannelSet) : setMinus a a = 0 :=
  set_eq_zero_iff.mpr fun c => by simp

/-- A set that lies in another still does when some of its members are taken out. -/
theorem setMinus_setMinus_eq_zero {a b : ChannelSet} (set : ChannelSet) (h : setMinus a b = 0) :
    setMinus (setMinus a set) b = 0 := by
  refine set_eq_zero_iff.mpr fun c => ?_
  have hc := set_eq_zero_iff.mp h c
  rw [inSet_setMinus] at hc
  rw [inSet_setMinus, inSet_setMinus, Bool.and_right_comm, hc, Bool.false_and]

/-! ## Sound inputs and routes (R66, R77, R78) -/

theorem InputSound.restarted {v : TripInput} (h : InputSound v) (f : Filtered) :
    InputSound { v with filtered := f, agreement := 0, timer := 0 } := by
  obtain ⟨hlow, hhigh, hqualify, hqualify', _⟩ := h
  exact ⟨hlow, hhigh, hqualify, hqualify', hqualify⟩

theorem RouteSound.of_armed {inputs : TripFile TripInput} {r : Route} (hc : r.channels ≠ 0) (hs : r.state = .armed)
    (hh : r.held = 0) : RouteSound inputs r :=
  ⟨hc, fun _ => hh, by simp [hs], by simp [hs]⟩

theorem RouteSound.of_tripped {inputs : TripFile TripInput} {r : Route} (hc : r.channels ≠ 0) (hs : r.state = .tripped)
    (hh : r.held = r.channels) (ha : r.clearing = .auto → (inputs.get r.input).filtered = .asserted) :
    RouteSound inputs r :=
  ⟨hc, by simp [hs], fun _ => ⟨hh, ha⟩, by simp [hs]⟩

theorem RouteSound.of_releasing {inputs : TripFile TripInput} {r : Route} (hc : r.channels ≠ 0) (hs : r.state = .releasing)
    (hh : r.held ≠ 0) (hin : setMinus r.held r.channels = 0) (hq : (inputs.get r.input).filtered = .quiet) :
    RouteSound inputs r :=
  ⟨hc, by simp [hs], by simp [hs], fun _ => ⟨hh, hin, hq⟩⟩

/-- Of the inputs a route reads the filtered state of its own. -/
theorem RouteSound.of_filtered {inputs inputs' : TripFile TripInput} {r : Route} (h : RouteSound inputs r)
    (hf : (inputs'.get r.input).filtered = (inputs.get r.input).filtered) : RouteSound inputs' r := by
  unfold RouteSound at h ⊢
  rwa [hf]

/-- Giving back channels leaves a RELEASING route with some of its channels, or ARMED with none (R91, R92). -/
theorem RouteSound.releaseRoute {inputs : TripFile TripInput} {r : Route} (h : RouteSound inputs r) (set : ChannelSet) :
    RouteSound inputs (releaseRoute set r) := by
  obtain ⟨hc, _, _, hreleasing⟩ := id h
  by_cases hs : r.state = .releasing
  · obtain ⟨_, hin, hq⟩ := hreleasing hs
    by_cases h0 : setMinus r.held set = 0
    · rw [releaseRoute_of_empty hs h0]
      exact .of_armed hc rfl rfl
    · rw [releaseRoute_of_left hs h0]
      exact .of_releasing hc hs h0 (setMinus_setMinus_eq_zero set hin) hq
  · rwa [releaseRoute_of_not_releasing hs]

/-- A route that held all its channels starts to release while its input is QUIET (R87, R88, R90). -/
theorem beginRelease_routeSound {inputs : TripFile TripInput} {r : Route} (set : ChannelSet) (hc : r.channels ≠ 0)
    (hh : r.held = r.channels) (hq : (inputs.get r.input).filtered = .quiet) : RouteSound inputs (beginRelease set r) :=
  RouteSound.releaseRoute (r := { r with state := .releasing })
    (.of_releasing hc rfl (by rwa [hh]) (by rw [hh]; exact setMinus_self _) hq) set

theorem assertRoute_routeSound {inputs inputs' : TripFile TripInput} {i : TripName} {r : Route} (h : RouteSound inputs r)
    (hi : (inputs'.get i).filtered = .asserted) (hother : ∀ j, j ≠ i → inputs'.get j = inputs.get j) :
    RouteSound inputs' (assertRoute i r) := by
  obtain ⟨hc, _, htripped, _⟩ := id h
  unfold assertRoute
  split
  · next hr =>
    obtain ⟨rfl, _⟩ := hr
    exact .of_tripped hc rfl rfl fun _ => hi
  · next hr =>
    by_cases hri : r.input = i
    · subst hri
      have hs : r.state = .tripped := Decidable.byContradiction fun hs => hr ⟨rfl, hs⟩
      obtain ⟨hh, _⟩ := htripped hs
      exact .of_tripped hc hs hh fun _ => hi
    · exact h.of_filtered (by rw [hother _ hri])

theorem quietRoute_routeSound {inputs inputs' : TripFile TripInput} {i : TripName} {set : ChannelSet} {r : Route}
    (h : RouteSound inputs r) (hi : (inputs'.get i).filtered = .quiet)
    (hother : ∀ j, j ≠ i → inputs'.get j = inputs.get j) : RouteSound inputs' (quietRoute i set r) := by
  obtain ⟨hc, harmed, htripped, hreleasing⟩ := id h
  unfold quietRoute
  split
  · next hr =>
    obtain ⟨rfl, hs, _⟩ := hr
    obtain ⟨hh, _⟩ := htripped hs
    exact beginRelease_routeSound set hc hh hi
  · next hr =>
    by_cases hri : r.input = i
    · subst hri
      cases hs : r.state with
      | armed => exact .of_armed hc hs (harmed hs)
      | tripped =>
        obtain ⟨hh, _⟩ := htripped hs
        exact .of_tripped hc hs hh fun ha => absurd ⟨rfl, hs, ha⟩ hr
      | releasing =>
        obtain ⟨hh, hin, _⟩ := hreleasing hs
        exact .of_releasing hc hs hh hin hi
    · exact h.of_filtered (by rw [hother _ hri])

/-! ## The Trip Unit's changes of its inputs and of its table -/

theorem TripSound.of_trip {s t : State} (h : TripSound s) (ht : t.trip = s.trip) : TripSound t := by
  unfold TripSound at h ⊢
  rwa [ht]

/-- Every route changed by one rule, under inputs that may have changed too. -/
theorem TripSound.mapped {s t : State} {f : Route → Route} (h : TripSound s)
    (hr : t.trip.routes = .ofFn fun n => (s.trip.routes.get n).map f) (hi : ∀ i, InputSound (t.trip.inputs.get i))
    (hf : ∀ r, RouteSound s.trip.inputs r → RouteSound t.trip.inputs (f r)) : TripSound t := by
  refine ⟨hi, fun n q hq => ?_⟩
  rw [hr, SlotFile.get_ofFn, Option.map_eq_some_iff] at hq
  obtain ⟨r, hr, rfl⟩ := hq
  exact hf r (h.2 n r hr)

theorem inputsSound_set {inputs : TripFile TripInput} {v : TripInput} (i : TripName) (h : ∀ j, InputSound (inputs.get j))
    (hv : InputSound v) (j : TripName) : InputSound ((inputs.set i v).get j) := by
  rw [TripFile.get_set]
  split
  · exact hv
  · exact h j

/-- An input that keeps its filtered state. -/
theorem TripSound.setInput {s : State} {i : TripName} {v : TripInput} (h : TripSound s) (hv : InputSound v)
    (hf : v.filtered = (s.trip.inputs.get i).filtered) : TripSound (s.setInput i v) := by
  refine ⟨inputsSound_set i h.1 hv, fun n r hr => (h.2 n r hr).of_filtered ?_⟩
  rw [setInput_trip, TripFile.get_set]
  split
  · next he => rw [hf, he]
  · rfl

theorem TripSound.setRoute {s : State} {n : Slot} {o : Option Route} (h : TripSound s)
    (ho : ∀ r, o = some r → RouteSound s.trip.inputs r) : TripSound (s.handRoutes (s.trip.routes.set n o)) := by
  refine ⟨h.1, fun m r hr => ?_⟩
  rw [handRoutes_trip, SlotFile.get_set] at hr
  split at hr
  · exact ho r hr
  · exact h.2 m r hr

theorem assertInput_tripSound (i : TripName) {s : State} (h : TripSound s) : TripSound (assertInput i s) := by
  refine h.mapped (f := assertRoute i) (by rw [assertInput_trip]) ?_ fun r hr => assertRoute_routeSound (i := i) hr ?_ ?_
  all_goals rw [assertInput_trip]
  · exact inputsSound_set i h.1 ((h.1 i).restarted .asserted)
  · simp
  · intro j hj
    simp [hj]

theorem quietInput_tripSound (i : TripName) {s : State} (h : TripSound s) : TripSound (quietInput i s) := by
  refine h.mapped (f := quietRoute i (stoppedSet s)) (by rw [quietInput_trip]) ?_
    fun r hr => quietRoute_routeSound (i := i) hr ?_ ?_
  all_goals rw [quietInput_trip]
  · exact inputsSound_set i h.1 ((h.1 i).restarted .quiet)
  · simp
  · intro j hj
    simp [hj]

/-- A sample that completes no run leaves the count below qualify (R69, R70). -/
theorem InputSound.countSample {v : TripInput} {l : Level} (h : InputSound v) (hn : ¬ completesRun v l = true) :
    InputSound (countSample v l) := by
  obtain ⟨hlow, hhigh, hqualify, hqualify', _⟩ := h
  refine ⟨hlow, hhigh, hqualify, hqualify', ?_⟩
  show (if disagrees v l = true then v.agreement + 1 else 0) < v.config.qualify
  split
  · next hd => simpa [completesRun, hd] using hn
  · exact hqualify

theorem sampleInput_tripSound (i : TripName) (l : Level) {s : State} (h : TripSound s) :
    TripSound (sampleInput i l s) := by
  unfold sampleInput
  dsimp only
  split
  · split
    · exact assertInput_tripSound i h
    · exact quietInput_tripSound i h
  · next hn => exact h.setInput ((h.1 i).countSample hn) rfl

/-! ## Events of a timebase (R9, R10, R14, R91, R92) -/

theorem TripSound.released {s t : State} {set : ChannelSet} (h : TripSound s)
    (ht : t.trip = { s.trip with routes := releasedRoutes set s.trip.routes }) : TripSound t := by
  refine h.mapped (f := releaseRoute set) (by rw [ht]; rfl) (by rw [ht]; exact h.1) fun r hr => ?_
  rw [ht]
  exact hr.releaseRoute set

theorem startBoundary_tripSound (x : Tb) (ticked : Bool) {s : State} (h : TripSound s) :
    TripSound (startBoundary x ticked s).1 := by
  have hstart : TripSound (takeStart x ticked s).1 := h.released (takeStart_trip x ticked s)
  by_cases hs : (s.timebases.get x).state = .stopping
  · rw [startBoundary_stopping ticked hs]
    exact hstart.released (completeStop_trip x _)
  · rwa [startBoundary_running ticked hs]

theorem midBoundary_tripSound (x : Tb) {s : State} (h : TripSound s) : TripSound (midBoundary x s).1 :=
  h.of_trip (by simp)

theorem TripSound.postRaised {s : State} (h : TripSound s) (r : Raised) : TripSound (s.postRaised r) := h.of_trip (by simp)

theorem tickEvent_tripSound (x : Tb) {s : State} (h : TripSound s) : TripSound (tickEvent x s) := by
  unfold tickEvent
  dsimp only
  split
  · exact h
  · exact (midBoundary_tripSound x (s := s.setTimebase x _) h).postRaised _
  · exact (startBoundary_tripSound x true (s := s.setTimebase x _) h).postRaised _

theorem startNow_tripSound (x : Tb) {s : State} (h : TripSound s) : TripSound (startNow x s) :=
  (startBoundary_tripSound x false (s := s.setTimebase x _) h).postRaised _

theorem stopNow_tripSound (x : Tb) {s : State} (h : TripSound s) : TripSound (stopNow x s) := by
  unfold stopNow
  dsimp only
  split
  · exact (h.released (stopEvent_trip x .immediate (s.setTimebase x _))).postRaised _
  · exact (h.released (stopEvent_trip x .immediate ((s.setTimebase x _).restartClocks x))).postRaised _

theorem edgeOn_tripSound (x : Tb) {s : State} (h : TripSound s) : TripSound (edgeOn x s).1 := by
  unfold edgeOn
  dsimp only
  split
  · split <;> exact startBoundary_tripSound x false (s := s.setTimebase x _) h
  · exact h

theorem syncEdge_tripSound {s : State} (h : TripSound s) : TripSound (syncEdge s) := by
  have hmarked : TripSound (firstAtEdge (s.setQueue (markTickets s.commit.queue))).1 := h.of_trip (by simp)
  exact (edgeOn_tripSound _ (edgeOn_tripSound _ hmarked)).postRaised _

theorem changeSyncLevel_tripSound (l : Level) {s : State} (h : TripSound s) : TripSound (changeSyncLevel l s) := by
  unfold changeSyncLevel
  dsimp only
  split
  · exact syncEdge_tripSound (s := s.withSync _) h
  · exact h

/-! ## Requests (R8 to R10, R72, R81, R82, R84, R88) -/

theorem doStartTimebase_tripSound (x : Tb) (m : StartMode) {s : State} (h : TripSound s) :
    TripSound (doStartTimebase x m s).state := by
  unfold doStartTimebase
  dsimp only
  split
  · exact startNow_tripSound x h
  · exact h
  · exact startNow_tripSound x h
  · exact h
  · exact h
  · exact h

theorem doStopTimebase_tripSound (x : Tb) (k : StopKind) {s : State} (h : TripSound s) :
    TripSound (doStopTimebase x k s).state := by
  cases k with
  | immediate =>
    simp only [doStopTimebase, stopImmediate]
    split
    · exact h
    · exact stopNow_tripSound x h
  | atBoundary =>
    simp only [doStopTimebase, stopAtBoundary]
    split <;> exact h

theorem doConfigureTripInput_tripSound (i : TripName) {v : TripConfig} {s : State} (h : TripSound s)
    (hv : 1 ≤ v.interval ∧ v.interval ≤ 256 ∧ 1 ≤ v.qualify ∧ v.qualify ≤ 16) :
    TripSound (doConfigureTripInput i v s).state := by
  unfold doConfigureTripInput
  split
  · exact h
  · obtain ⟨hlow, hhigh, hqualify, hqualify'⟩ := hv
    exact h.setInput ⟨hlow, hhigh, hqualify, hqualify', hqualify⟩ rfl

/-- A route is defined ARMED on a QUIET input, and TRIPPED on an ASSERTED one (R82). -/
theorem doDefineRoute_tripSound (n : Slot) (v : RouteRequest) {s : State} (h : TripSound s) :
    TripSound (doDefineRoute n v s).state := by
  unfold doDefineRoute
  split
  · exact h
  next hc =>
  split
  · exact h
  split
  · exact h
  split
  · exact h.setRoute fun r hr => Option.some.inj hr ▸ .of_armed hc rfl rfl
  · next ha =>
    exact h.setRoute (o := some (tripRoute (newRoute v))) fun r hr =>
      Option.some.inj hr ▸ .of_tripped hc rfl rfl fun _ => ha

theorem doRemoveRoute_tripSound (n : Slot) {s : State} (h : TripSound s) : TripSound (doRemoveRoute n s).state := by
  unfold doRemoveRoute
  split
  · exact h
  split
  · exact h
  · exact h.setRoute fun r hr => nomatch hr

/-- The route that CLEAR TRIP takes out of TRIPPED held all its channels, and its input is QUIET (R88). -/
theorem doClearTrip_tripSound (n : Slot) {s : State} (h : TripSound s) : TripSound (doClearTrip n s).state := by
  unfold doClearTrip
  split
  · exact h
  next r hr =>
  split
  · exact h
  · exact h
  next hs =>
  split
  · exact h
  next hq =>
  obtain ⟨hc, _, htripped, _⟩ := h.2 n r hr
  obtain ⟨hh, _⟩ := htripped hs
  exact h.setRoute (o := some (beginRelease (stoppedSet s) r)) fun q e =>
    Option.some.inj e ▸ beginRelease_routeSound (stoppedSet s) hc hh hq

theorem doDisableOutputs_trip (m : DisableMode) (s : State) : (doDisableOutputs m s).state.trip = s.trip := by
  cases m with
  | immediate => rfl
  | graceful =>
    simp only [doDisableOutputs, disableGraceful]
    split
    · rfl
    · rfl
    · simp [accepted]

theorem perform_tripSound {r : Request} (hr : RequestSound r) {s : State} (h : TripSound s) :
    TripSound (perform r s).state := by
  cases r <;> simp only [perform]
  case startTimebase x m => exact doStartTimebase_tripSound x m h
  case stopTimebase x k => exact doStopTimebase_tripSound x k h
  case issueTicket t => unfold doIssueTicket; split <;> exact h
  case cancelById id => unfold doCancelById; split <;> exact h
  case setOverride t => cases t <;> simp only [doSetOverride] <;> split <;> exact h
  case enableOutputs => unfold doEnableOutputs; split <;> exact h
  case disableOutputs m => exact h.of_trip (doDisableOutputs_trip m s)
  case configureTripInput i v => exact doConfigureTripInput_tripSound i h hr
  case defineRoute n v => exact doDefineRoute_tripSound n v h
  case removeRoute n => exact doRemoveRoute_tripSound n h
  case clearTrip n => exact doClearTrip_tripSound n h
  case fetchNotices n => unfold doFetchNotices; split <;> exact h
  all_goals exact h

/-! ## Resets and steps -/

theorem tripSound_default {s : State} (h : s.trip = .default) : TripSound s := by
  unfold TripSound
  rw [h]
  refine ⟨fun i => ?_, fun n r hr => ?_⟩
  · rw [TripUnit.default, TripFile.get_ofFn]
    exact ⟨by decide, by decide, by decide, by decide, by decide⟩
  · simp [TripUnit.default] at hr

/-- The sample timer is no part of what is sound (R67). -/
theorem countTimers_tripSound {s : State} (h : TripSound s) : TripSound (countTimers s) := by
  obtain ⟨_, _, hinputs, _⟩ := countTimers_counted s
  refine ⟨fun i => ?_, fun n r hr => (h.2 n r hr).of_filtered ?_⟩
  · rw [hinputs]
    exact h.1 i
  · rw [hinputs]

theorem tripSound_kept : BlocksKeep TripSound where
  frame h hb := by
    obtain ⟨_, _, _, _, ht, _⟩ := hb
    exact h.of_trip ht
  perform hr _ h := perform_tripSound hr h
  post _ _ h := h
  controllerReset h := h
  poweredOn _ _ := tripSound_default rfl
  silenced h := h
  tick x _ _ h := tickEvent_tripSound x h
  expired _ _ _ he h := by
    injection he with he
    subst he
    exact h
  pulse h := h
  syncCount _ _ h := h
  syncLevel l _ h := changeSyncLevel_tripSound l h
  input i l _ h := sampleInput_tripSound i l h
  assert i _ _ h := assertInput_tripSound i h
  quiet i _ _ h := quietInput_tripSound i h
  clock _ _ _ h := h
  delayEnd _ _ _ he h := by
    injection he with he
    subst he
    dsimp only
    split <;> exact h
  timers h := countTimers_tripSound h

/-- Settles O56: each operation of the blocks keeps the Trip Unit sound (`BlocksKeep`): events of a timebase only give channels back,
and an input event moves the routes of its input as the input's filtered state asks. -/
theorem tripsStaySound : Obligations.TripsStaySound :=
  fun _ _ hs he => tripSound_kept.step hs he

end Sys2Proof.Machine
end

section
/-!
PROOFS (04_trip_inputs_and_qualification.md): CONFIGURE TRIP INPUT, the samples of the filter, and the two input events (R67, R69 to
R72, R85 to R87, R90, R93).
-/

namespace Sys2Proof.Machine

/-! ## CONFIGURE TRIP INPUT (R72) -/

/-- An answer that changes the Trip Unit alone. -/
theorem answered_withTrip (s : State) (v : TripUnit) (tag kind : Byte) (args payload : List Byte) :
    answered s ((afterLastByte s).withTrip v) tag kind args payload none
      = answered s (s.withTrip v) tag kind args payload none :=
  answered_congr (by simp)

theorem doConfigureTripInput_frozen {i : TripName} {v : TripConfig} {s : State} (h : s.trip.frozen = true) :
    doConfigureTripInput i v s = refusedWith s .frozen := if_pos h

theorem doConfigureTripInput_free {i : TripName} {v : TripConfig} {s : State} (h : s.trip.frozen = false) :
    doConfigureTripInput i v s
      = accepted (s.setInput i { s.trip.inputs.get i with config := v, agreement := 0, timer := 0 })
          [filteredByte (s.trip.inputs.get i).filtered] :=
  if_neg (by simp [h])

/-- Settles O33: the fields read back as the configuration, and its owner refuses it or replaces the input. -/
theorem configureTripInput : Obligations.ConfigureTripInput := by
  intro s tag i v hlow hhigh hqualify hqualify' hl args hu
  have hr : readRequest 0x50 args = some (.configureTripInput i v) := by
    show readRequest 0x50 [tripNameByte i, levelByte v.level, _, _, natByte v.qualify] = _
    rw [readRequest_configureTripInput, readTripName_tripNameByte, readTripConfig_bytes v hlow hhigh hqualify hqualify']
    rfl
  refine ⟨fun hf => ?_, fun hf => ?_⟩
  · rw [exec_performs rfl hl hu rfl hr rfl (doConfigureTripInput_frozen (s := afterLastByte s) hf)]
    exact congrArg _ (answered_afterLastByte s s tag _ _ _ none)
  · rw [exec_performs rfl hl hu rfl hr rfl (doConfigureTripInput_free (s := afterLastByte s) hf)]
    exact congrArg _ (answered_withTrip s _ tag _ _ _)

/-! ## Samples (R67, R69, R70) -/

theorem disagrees_iff {v : TripInput} {l : Level} :
    disagrees v l = true ↔ (v.filtered = .quiet ∧ l = v.config.level) ∨ (v.filtered = .asserted ∧ l ≠ v.config.level) := by
  unfold disagrees
  split <;> simp [*]

theorem sampleInput_counts {i : TripName} {l : Level} {s : State} (h : completesRun (s.trip.inputs.get i) l = false) :
    sampleInput i l s = s.setInput i (countSample (s.trip.inputs.get i) l) :=
  if_neg (by simp [h])

theorem sampleInput_asserts {i : TripName} {l : Level} {s : State} (h : completesRun (s.trip.inputs.get i) l = true)
    (hf : (s.trip.inputs.get i).filtered = .quiet) : sampleInput i l s = assertInput i s := by
  simp only [sampleInput, h, if_true, hf]

theorem sampleInput_quiets {i : TripName} {l : Level} {s : State} (h : completesRun (s.trip.inputs.get i) l = true)
    (hf : (s.trip.inputs.get i).filtered = .asserted) : sampleInput i l s = quietInput i s := by
  simp only [sampleInput, h, if_true, hf]

theorem exec_tripInputSample {i : TripName} {l : Level} {s : State} (h : s.inReset = false) :
    exec (.tripInputSample i l) s = .next (sampleInput i l (s.setTripPin i l)) := by
  show execTripInputSample i l s = _
  simp [execTripInputSample, h]

theorem exec_inputAsserted {i : TripName} {s : State} (h : s.inReset = false)
    (hf : (s.trip.inputs.get i).filtered = .quiet) :
    exec (.inputAsserted i) s = .next (assertInput i (s.setTripPin i (s.trip.inputs.get i).config.level)) := by
  show execInputAsserted i s = _
  simp [execInputAsserted, h, hf]

theorem exec_inputQuiet {i : TripName} {s : State} (h : s.inReset = false)
    (hf : (s.trip.inputs.get i).filtered = .asserted) :
    exec (.inputQuiet i) s
      = .next (quietInput i (s.setTripPin i (oppositeLevel (s.trip.inputs.get i).config.level))) := by
  show execInputQuiet i s = _
  simp [execInputQuiet, h, hf]

theorem eq_oppositeLevel_of_ne {l m : Level} (h : l ≠ m) : l = oppositeLevel m := by
  revert h
  cases l <;> cases m <;> decide

/-- Settles O37: the count of a sample that completes no run, and the level that a sample must have to complete one, which is the
level that the event's row puts on the pin. -/
theorem tripInputSamples : Obligations.TripInputSamples := by
  intro s i l hreset v differs pinned
  have hd : disagrees v l = true ↔ differs := disagrees_iff
  have hruns : differs → v.config.qualify ≤ v.agreement + 1 → completesRun v l = true := fun h hq => by
    simp [completesRun, hd.mpr h, hq]
  rw [exec_tripInputSample hreset]
  refine ⟨fun h => ?_, fun h hq => ?_, fun h hq hf => ?_, fun h hq hf => ?_⟩
  · have hn : disagrees v l = false := by simpa using mt hd.mp h
    rw [sampleInput_counts (s := s.setTripPin i l) (show completesRun v l = false by simp [completesRun, hn])]
    show Host.Outcome.next (pinned.setInput i (countSample v l)) = _
    rw [countSample, hn]
    rfl
  · have hn : completesRun v l = false := by simp [completesRun, hq]
    rw [sampleInput_counts (s := s.setTripPin i l) hn]
    show Host.Outcome.next (pinned.setInput i (countSample v l)) = _
    rw [countSample, hd.mpr h]
    rfl
  · have hl : l = v.config.level := by simpa [differs, hf] using h
    rw [sampleInput_asserts (s := s.setTripPin i l) (hruns h hq) hf, exec_inputAsserted hreset hf, hl]
  · have hl : l ≠ v.config.level := by simpa [differs, hf] using h
    rw [sampleInput_quiets (s := s.setTripPin i l) (hruns h hq) hf, exec_inputQuiet hreset hf, eq_oppositeLevel_of_ne hl]

/-! ## Notices of an input event (R86, R93) -/

/-- Of the notices that each slot raises at one event under a key of its own, each is reported after it. -/
theorem post_reports_slot {s : State} {f : Slot → Option Posting} {key : Slot → NoticeKey}
    (hkey : ∀ n p, f n = some p → p.key = key n) (hinj : ∀ m n, key m = key n → m = n) {n : Slot} {p : Posting}
    (h : f n = some p) : Reported (s.post (Slot.all.filterMap f)) p.key p.detail := by
  refine foldl_postTo_reports s.notices.queue (List.mem_filterMap.mpr ⟨n, mem_slot_all n, h⟩) fun q hq hk => ?_
  obtain ⟨m, _, hm⟩ := List.mem_filterMap.mp hq
  rw [hkey n p h, hkey m q hm] at hk
  obtain rfl := hinj m n hk
  exact Option.some.inj (hm.symm.trans h)

theorem tripNotices_reported {s : State} {i : TripName} {routes : SlotFile (Option Route)} {n : Slot} {p : Posting}
    (h : assertNotice i n (routes.get n) = some p) : Reported (s.post (tripNotices i routes)) p.key p.detail :=
  post_reports_slot (f := fun n => assertNotice i n (routes.get n)) (key := .trip) (fun _ _ => assertNotice_key)
    (fun _ _ e => NoticeKey.trip.inj e) h

theorem rearmNotices_reported {s : State} {before after : SlotFile (Option Route)} {n : Slot} {p : Posting}
    (h : rearmNotice n (before.get n) (after.get n) = some p) :
    Reported (s.post (rearmNotices before after)) p.key p.detail :=
  post_reports_slot (f := fun n => rearmNotice n (before.get n) (after.get n)) (key := .rearm)
    (fun _ _ => rearmNotice_key) (fun _ _ e => NoticeKey.rearm.inj e) h

/-! ## Input asserted (R69, R85, R86) -/

theorem assertRoute_trips {i : TripName} {r : Route} (hi : r.input = i) (hs : r.state ≠ .tripped) :
    assertRoute i r = tripRoute r := if_pos ⟨hi, hs⟩

theorem assertRoute_other {i : TripName} {r : Route} (h : r.input ≠ i ∨ r.state = .tripped) : assertRoute i r = r :=
  if_neg fun ⟨hi, hs⟩ => h.elim (· hi) hs

theorem assertNotice_trips {i : TripName} (n : Slot) {r : Route} (hi : r.input = i) (hs : r.state ≠ .tripped) :
    assertNotice i n (some r)
      = some { key := .trip n
               detail := .trip i (bumpTrips r.count) (if r.state = .armed then .input else .retrip) } := by
  subst hi
  cases h : r.state with
  | armed => simp [assertNotice, h, tripNotice, tripRoute]
  | tripped => exact absurd h hs
  | releasing => simp [assertNotice, h, tripNotice, tripRoute]

theorem bumpTrips_eq (n : Word16) : bumpTrips n = if n = 0xFFFF then 0xFFFF else n + 1 := by
  unfold bumpTrips
  split
  · next h => exact h
  · rfl

/-- Settles O38: the event's row is `assertInput` on the pin at trip level, which maps `assertRoute` over the table. -/
theorem inputAssertedTripsItsRoutes : Obligations.InputAssertedTripsItsRoutes := by
  intro s i hreset hf
  let u := s.setTripPin i (s.trip.inputs.get i).config.level
  have htrip := assertInput_trip i u
  have hroute : ∀ n, (assertInput i u).trip.routes.get n = (s.trip.routes.get n).map (assertRoute i) := fun n => by
    rw [htrip, SlotFile.get_ofFn]
    rfl
  have hnotices : (assertInput i u).notices = (s.post (tripNotices i s.trip.routes)).notices := assertInput_notices i u
  have hfollow : OutputsFollow (recaptured s (assertInput i u).trip.routes) s.output.clocks.get (assertInput i u) :=
    assertInput_follows i u
  obtain ⟨hlink, hcache, htimebases, hsync, hpattern, hcommit, _, hinReset, hfree, hpending⟩ := assertInput_keeps i u
  obtain ⟨henable, hdrained, hoverrides⟩ := assertInput_output i u
  refine ⟨assertInput i u, exec_inputAsserted hreset hf, congrArg TripUnit.inputs htrip,
    (congrArg TripUnit.frozen htrip).trans rfl,
    fun n hn => ?_, fun n r hr hi hs => ?_, fun n r hr h => ?_, hnotices, fun n r hr hi hs => ?_, htimebases, hsync,
    hpattern, hcommit, henable, hdrained, hoverrides, hfree, hlink, hcache, hinReset, hpending,
    fun c => (hfollow.selected c).1, hfollow⟩
  · rw [hroute, hn]
    rfl
  · rw [hroute, hr, Option.map_some, assertRoute_trips hi hs, ← bumpTrips_eq]
    rfl
  · rw [hroute, hr, Option.map_some, assertRoute_other h]
  · have hn := assertNotice_trips n hi hs
    rw [← hr, bumpTrips_eq] at hn
    unfold Reported
    rw [hnotices]
    exact tripNotices_reported hn

/-! ## Input quiet (R70, R87, R90, R93) -/

theorem quietRoute_begins {i : TripName} {set : ChannelSet} {r : Route} (hi : r.input = i) (hs : r.state = .tripped)
    (ha : r.clearing = .auto) : quietRoute i set r = beginRelease set r := if_pos ⟨hi, hs, ha⟩

theorem quietRoute_other {i : TripName} {set : ChannelSet} {r : Route}
    (h : r.input ≠ i ∨ r.state ≠ .tripped ∨ r.clearing = .latched) : quietRoute i set r = r := by
  refine if_neg fun ⟨hi, hs, ha⟩ => ?_
  rcases h with h | h | h
  · exact h hi
  · exact h hs
  · exact nomatch ha.symm.trans h

/-- A route that starts to release loses the members of the set; with none left it is ARMED, else RELEASING (R90 to R92). -/
theorem beginRelease_held (set : ChannelSet) (r : Route) :
    (∀ c, inSet (beginRelease set r).held c = (inSet r.held c && !inSet set c))
      ∧ ((beginRelease set r).held = 0 → (beginRelease set r).state = .armed)
      ∧ ((beginRelease set r).held ≠ 0 → (beginRelease set r).state = .releasing) := by
  unfold beginRelease
  by_cases h0 : setMinus r.held set = 0
  · rw [releaseRoute_of_empty (r := { r with state := .releasing }) rfl h0]
    refine ⟨fun c => ?_, fun _ => rfl, fun hn => absurd rfl hn⟩
    rw [← inSet_setMinus, h0]
  · rw [releaseRoute_of_left (r := { r with state := .releasing }) rfl h0]
    exact ⟨fun c => inSet_setMinus _ _ c, fun h => absurd h h0, fun _ => rfl⟩

theorem beginRelease_keeps (set : ChannelSet) (r : Route) :
    (beginRelease set r).count = r.count ∧ (beginRelease set r).channels = r.channels
      ∧ (beginRelease set r).clearing = r.clearing := by
  simp [beginRelease]

theorem rearmNotice_auto (n : Slot) {r q : Route} (hr : r.state ≠ .armed) (hq : q.state = .armed)
    (ha : q.clearing = .auto) : rearmNotice n (some r) (some q) = some { key := .rearm n, detail := .rearm .auto } := by
  simp [rearmNotice, rearmCause, hr, hq, ha]

/-- Settles O39: the event's row is `quietInput` on the pin away from trip level, which maps `quietRoute` over the table. -/
theorem inputQuietReleasesAutoRoutes : Obligations.InputQuietReleasesAutoRoutes := by
  intro s i hreset hf
  let u := s.setTripPin i (oppositeLevel (s.trip.inputs.get i).config.level)
  have htrip := quietInput_trip i u
  have hroute : ∀ n, (quietInput i u).trip.routes.get n = (s.trip.routes.get n).map (quietRoute i (stoppedSet s)) :=
    fun n => by
      rw [htrip, SlotFile.get_ofFn]
      rfl
  have hnotices : (quietInput i u).notices = (s.post (rearmNotices s.trip.routes (quietInput i u).trip.routes)).notices :=
    quietInput_notices i u
  have hfollow : OutputsFollow (recaptured s (quietInput i u).trip.routes) s.output.clocks.get (quietInput i u) :=
    quietInput_follows i u
  obtain ⟨hlink, hcache, htimebases, hsync, hpattern, hcommit, _, hinReset, hfree, hpending⟩ := quietInput_keeps i u
  obtain ⟨henable, hdrained, hoverrides⟩ := quietInput_output i u
  refine ⟨quietInput i u, exec_inputQuiet hreset hf, congrArg TripUnit.inputs htrip,
    (congrArg TripUnit.frozen htrip).trans rfl,
    fun n hn => ?_, fun n r hr hi hs ha => ?_, fun n r hr h => ?_, htimebases, hsync, hpattern, hcommit, henable, hdrained,
    hoverrides, hfree, hlink, hcache, hinReset, hpending, fun c => (hfollow.selected c).1, hfollow⟩
  · rw [hroute, hn]
    rfl
  · have hq : (quietInput i u).trip.routes.get n = some (beginRelease (stoppedSet s) r) := by
      rw [hroute, hr, Option.map_some, quietRoute_begins hi hs ha]
    obtain ⟨hcount, hchannels, hclearing⟩ := beginRelease_keeps (stoppedSet s) r
    obtain ⟨hheld, harmed, hreleasing⟩ := beginRelease_held (stoppedSet s) r
    refine ⟨_, hq, hcount, hchannels, fun c => by rw [hheld, inSet_stoppedSet], fun h0 => ⟨harmed h0, ?_⟩, hreleasing⟩
    have hn := rearmNotice_auto n (r := r) (by simp [hs]) (harmed h0) (hclearing.trans ha)
    rw [← hr, ← hq] at hn
    unfold Reported
    rw [hnotices]
    exact rearmNotices_reported hn
  · rw [hroute, hr, Option.map_some, quietRoute_other h]

end Sys2Proof.Machine
end

section
/-!
PROOFS (05_trip_routes_and_clearing.md): what forces a channel, the order of selection, and the hold level captured at a trip (R80,
R97, R111, R114, R115, R117).
-/

namespace Sys2Proof.Machine

/-! ## The governing action (R114) -/

/-- FLOAT governs before SAFE before HOLD, and a channel that no route forces has no governing action. -/
theorem governing_order (p : PatternUnit) (routes : SlotFile (Option Route)) (c : Chan) :
    (forcedWith p routes .float c = true → governing p routes c = some .float)
      ∧ (¬ forcedWith p routes .float c = true → forcedWith p routes .safe c = true → governing p routes c = some .safe)
      ∧ (¬ forcedWith p routes .float c = true → ¬ forcedWith p routes .safe c = true →
        forcedWith p routes .hold c = true → governing p routes c = some .hold)
      ∧ (¬ forcedWith p routes .float c = true → ¬ forcedWith p routes .safe c = true →
        ¬ forcedWith p routes .hold c = true → governing p routes c = none) := by
  refine ⟨fun hf => ?_, fun hf hs => ?_, fun hf hs hh => ?_, fun hf hs hh => ?_⟩
  · rw [governing, if_pos hf]
  · rw [governing, if_neg hf, if_pos hs]
  · rw [governing, if_neg hf, if_neg hs, if_pos hh]
  · rw [governing, if_neg hf, if_neg hs, if_neg hh]

/-! ## The selected level (R117) -/

theorem outOf_eq_active {l : Logic} : outOf l = .active ↔ l = .active := by cases l <;> simp [outOf]

theorem outOf_ne_float (l : Logic) : outOf l ≠ .float := by cases l <;> simp [outOf]

theorem selectLevel_drained {s : State} {c : Chan} (h : s.output.enable = .draining)
    (hd : inSet s.output.drained c = true) : selectLevel s c = .inactive := by
  simp [selectLevel, h, hd]

section
variable {s : State} {c : Chan} (he : s.output.enable ≠ .disabled)
  (hd : ¬ (s.output.enable = .draining ∧ inSet s.output.drained c = true))
include he hd

theorem selectLevel_float (h : governing s.pattern s.trip.routes c = some .float) : selectLevel s c = .float := by
  rw [selectLevel, if_neg he, if_neg hd, h]

theorem selectLevel_safe (h : governing s.pattern s.trip.routes c = some .safe) : selectLevel s c = .inactive := by
  rw [selectLevel, if_neg he, if_neg hd, h]

theorem selectLevel_hold (h : governing s.pattern s.trip.routes c = some .hold) :
    selectLevel s c = outOf (s.output.channels.get c).hold := by
  rw [selectLevel, if_neg he, if_neg hd, h]

theorem selectLevel_override (h : governing s.pattern s.trip.routes c = none) {l : Logic}
    (hl : overrideLevel (s.output.overrides.get (pairOf c)) c = some l) : selectLevel s c = outOf l := by
  rw [selectLevel, if_neg he, if_neg hd, h, hl]

theorem selectLevel_pattern (h : governing s.pattern s.trip.routes c = none)
    (hl : overrideLevel (s.output.overrides.get (pairOf c)) c = none) :
    selectLevel s c = outOf (s.pattern.level.get c) := by
  rw [selectLevel, if_neg he, if_neg hd, h, hl]

end

/-! ## The level of an override (R111) -/

/-- The entry of an INDEPENDENT pair gives a member the level of the member's own value. -/
theorem overrideLevel_member {even odd v : MemberForce} {c : Chan} (hv : (if isPrimary c then even else odd) = v) :
    (v = .none → overrideLevel (.independent even odd) c = none)
      ∧ (v = .forceActive → overrideLevel (.independent even odd) c = some .active)
      ∧ (v = .forceInactive → overrideLevel (.independent even odd) c = some .inactive) := by
  refine ⟨?_, ?_, ?_⟩ <;> intro h <;> simp only [overrideLevel, hv, h]

/-- Settles O30: the routes that force are those of `forcedWith_iff`, and each level is the first case of its definition that
applies. -/
theorem forcingAndSelectionOrder : Obligations.ForcingAndSelectionOrder := by
  refine ⟨fun p routes c => ?_, fun s c => ⟨fun h => selectLevel_disabled h c, selectLevel_drained, fun he hd => ?_⟩,
    fun even odd v c heven hodd => overrideLevel_member ?_, fun c => ⟨rfl, rfl, fun h => ?_, fun h => ?_⟩⟩
  · dsimp only
    simp only [← forcedWith_iff]
    exact governing_order p routes c
  · refine ⟨selectLevel_float he hd, selectLevel_safe he hd, fun h => ?_,
      fun h => ⟨fun l => selectLevel_override he hd h, selectLevel_pattern he hd h⟩⟩
    rw [selectLevel_hold he hd h]
    exact ⟨outOf_eq_active, outOf_ne_float _⟩
  · split
    · next h => exact heven h
    · next h => exact hodd (by simpa using h)
  · simp [overrideLevel, h]
  · simp [overrideLevel, h]

/-! ## The hold level (R115) -/

theorem captured_eq_active {l : OutLevel} : captured l = .active ↔ l = .active := by cases l <;> simp [captured]

/-- A channel that becomes forced with HOLD captures its hold level. -/
theorem handRoutes_hold_captured {s : State} {routes : SlotFile (Option Route)} {c : Chan}
    (hb : forcedWith s.pattern s.trip.routes .hold c = false) (ha : forcedWith s.pattern routes .hold c = true) :
    ((s.handRoutes routes).output.channels.get c).hold = captured (s.output.channels.get c).output := by
  simp [State.handRoutes, hb, ha]

/-- A channel that was forced with HOLD before, or is not after, keeps its output. -/
theorem handRoutes_channel_kept {s : State} {routes : SlotFile (Option Route)} {c : Chan}
    (h : forcedWith s.pattern s.trip.routes .hold c = true ∨ forcedWith s.pattern routes .hold c = false) :
    (s.handRoutes routes).output.channels.get c = s.output.channels.get c := by
  rcases h with h | h <;> simp [State.handRoutes, h]

/-- Settles O41: the two cases of a route table handed on, by whether the channel becomes forced with HOLD. -/
theorem holdLevelIsCapturedAtTheTrip : Obligations.HoldLevelIsCapturedAtTheTrip := by
  refine fun s routes c => ⟨fun hb ha => ?_, fun h => ?_⟩
  · rw [handRoutes_hold_captured hb ha, captured_eq_active]
  · rw [handRoutes_channel_kept h]

end Sys2Proof.Machine
end

section
/-!
PROOFS (05_trip_routes_and_clearing.md): what a RELEASING route gives back, and the requests DEFINE ROUTE, REMOVE ROUTE, FREEZE
PROTECTION and CLEAR TRIP (R81, R82, R84, R88, R90 to R93, R98).
-/

namespace Sys2Proof.Machine

/-! ## A release (R91 to R93) -/

/-- For a route that is RELEASING already, to begin a release is to give back the set. -/
theorem beginRelease_of_releasing (set : ChannelSet) {r : Route} (h : r.state = .releasing) :
    beginRelease set r = releaseRoute set r := by
  rw [beginRelease, ← h]

/-- Settles O40: a route gives back as one that begins to release; the notices are those of `rearmNotice`, slot by slot. -/
theorem releasingRouteGivesBack : Obligations.ReleasingRouteGivesBack := by
  refine ⟨fun set r => ⟨releaseRoute_of_not_releasing, fun h => ?_⟩, fun before after => ?_⟩
  · have hheld := beginRelease_held set r
    rw [beginRelease_of_releasing set h] at hheld
    obtain ⟨hmembers, harmed, hreleasing⟩ := hheld
    obtain ⟨_, hchannels, haction, hclearing, hcount⟩ := releaseRoute_keeps set r
    exact ⟨hmembers, harmed, hreleasing, hcount, hchannels, haction, hclearing⟩
  · refine congrArg (fun f => Slot.all.filterMap f) (funext fun n => ?_)
    cases before.get n with
    | none => rfl
    | some r =>
      cases after.get n with
      | none => rfl
      | some q => rfl

/-! ## A slot of the route table (R81, R84) -/

theorem slotBusy_of_not_armed {o : Option Route} (h : ∃ v, o = some v ∧ v.state ≠ .armed) : slotBusy o = true := by
  obtain ⟨v, rfl, hv⟩ := h
  simpa [slotBusy] using hv

theorem slotBusy_of_armed {o : Option Route} (h : ∀ v, o = some v → v.state = .armed) : ¬ slotBusy o = true := by
  cases o with
  | none => simp [slotBusy]
  | some v => simp [slotBusy, h v rfl]

/-- A slot whose route holds nothing before and after is replaced, and no output changes (R82, R84, R115). -/
theorem handRoutes_set_idle {s : State} {n : Slot} {o : Option Route}
    (hb : ∀ r, s.trip.routes.get n = some r → r.held = 0) (ho : ∀ r, o = some r → r.held = 0) :
    s.handRoutes (s.trip.routes.set n o) = s.withTrip { s.trip with routes := s.trip.routes.set n o } :=
  handRoutes_of_no_new_hold fun c hc => by rwa [forcedWith_set s.pattern .hold c hb ho] at hc

/-- A request that its owner refuses changes nothing but the link and the cache, and its reply is the status alone (R165, R167). -/
theorem exec_refused {i : Instr} {tag kind : Byte} {args : List Byte} {s : State} {a : Answer} {st : Status}
    (h : exec i s = .next (answered s a.state tag kind args (statusCode a.status :: a.content) a.action))
    (ha : a = refusedWith (afterLastByte s) st) : exec i s = .next (answered s s tag kind args [statusCode st] none) := by
  rw [h, ha]
  exact congrArg _ (answered_afterLastByte s s tag _ _ _ none)

/-! ## DEFINE ROUTE (R81, R82) -/

theorem doDefineRoute_empty {n : Slot} {r : RouteRequest} {s : State} (hc : r.channels = 0) :
    doDefineRoute n r s = refusedWith s .badArgument := by
  rw [doDefineRoute, if_pos hc]

section
variable {n : Slot} {r : RouteRequest} {s : State} (hc : r.channels ≠ 0)
include hc

theorem doDefineRoute_frozen (hf : s.trip.frozen = true) : doDefineRoute n r s = refusedWith s .frozen := by
  rw [doDefineRoute, if_neg hc, if_pos hf]

theorem doDefineRoute_busy (hf : s.trip.frozen = false) (hb : slotBusy (s.trip.routes.get n) = true) :
    doDefineRoute n r s = refusedWith s .wrongState := by
  rw [doDefineRoute, if_neg hc, if_neg (by simp [hf]), if_pos hb]

theorem doDefineRoute_quiet (hf : s.trip.frozen = false) (hb : ¬ slotBusy (s.trip.routes.get n) = true)
    (hi : (s.trip.inputs.get r.input).filtered = .quiet) :
    doDefineRoute n r s = accepted (s.handRoutes (s.trip.routes.set n (some (newRoute r)))) [0x00] := by
  rw [doDefineRoute, if_neg hc, if_neg (by simp [hf]), if_neg hb, hi]
  rfl

/-- The route trips as it is defined (R82). -/
theorem doDefineRoute_asserted (hf : s.trip.frozen = false) (hb : ¬ slotBusy (s.trip.routes.get n) = true)
    (hi : (s.trip.inputs.get r.input).filtered = .asserted) :
    doDefineRoute n r s
      = accepted ((s.handRoutes (s.trip.routes.set n (some (tripRoute (newRoute r))))).settle.post
          [tripNotice n (tripRoute (newRoute r)) .definedWhileAsserted]) [0x01] := by
  rw [doDefineRoute, if_neg hc, if_neg (by simp [hf]), if_neg hb, hi]
  rfl

end

theorem exec_defineRoute {s : State} {tag : Byte} {n : Slot} {r : RouteRequest} {a : Answer} (hl : Listening s)
    (hu : Unanswered s tag 0x51
      [slotByte n, tripNameByte r.input, r.channels, actionByte r.action, clearingByte r.clearing])
    (ha : doDefineRoute n r (afterLastByte s) = a) :
    exec (.defineRoute (addressedTo tag)
        [slotByte n, tripNameByte r.input, r.channels, actionByte r.action, clearingByte r.clearing]) s
      = .next (answered s a.state tag 0x51
          [slotByte n, tripNameByte r.input, r.channels, actionByte r.action, clearingByte r.clearing]
          (statusCode a.status :: a.content) a.action) :=
  exec_performs (r := .defineRoute n r) rfl hl hu rfl
    (by rw [readRequest_defineRoute, readSlot_slotByte, readTripName_tripNameByte, readAction_actionByte,
      readClearing_clearingByte]; rfl) rfl ha

/-- Settles O34: the owner's checks in their order; a route on a QUIET input holds nothing, so no output changes, and one on an
ASSERTED input is handed on as at any trip. -/
theorem defineRoute : Obligations.DefineRoute := by
  intro s tag n r hl args new tripped hu
  refine ⟨fun hc => ?_, fun hc hf => ?_, fun hc hf hb => ?_, fun hc hf hb hi => ?_, fun hc hf hb hi => ?_⟩
  · exact exec_refused (exec_defineRoute hl hu rfl) (doDefineRoute_empty hc)
  · exact exec_refused (exec_defineRoute hl hu rfl) (doDefineRoute_frozen hc hf)
  · exact exec_refused (exec_defineRoute hl hu rfl) (doDefineRoute_busy hc hf (slotBusy_of_not_armed hb))
  · have hidle := handRoutes_set_idle (s := afterLastByte s) (n := n) (o := some new) (fun v hv => (hb v hv).2)
      fun v hv => Option.some.inj hv ▸ rfl
    have ha := doDefineRoute_quiet (s := afterLastByte s) hc hf (slotBusy_of_armed fun v hv => (hb v hv).1) hi
    rw [show newRoute r = new from rfl, hidle] at ha
    rw [exec_defineRoute hl hu ha]
    exact congrArg _ (answered_withTrip s _ tag _ _ _)
  · have ha := doDefineRoute_asserted (s := afterLastByte s) hc hf (slotBusy_of_armed hb) hi
    have hfollow := handRoutes_follow s (s.trip.routes.set n (some tripped))
    refine ⟨(s.handRoutes (s.trip.routes.set n (some tripped))).settle.post
      [{ key := .trip n, detail := .trip r.input 1 .definedWhileAsserted }], ?_, rfl, rfl, rfl, rfl,
      fun c => (hfollow.selected c).1, hfollow⟩
    rw [exec_defineRoute hl hu ha]
    exact congrArg _ (answered_congr ⟨rfl, rfl, rfl, rfl, rfl, rfl, rfl, rfl, rfl, rfl⟩)

/-! ## REMOVE ROUTE and FREEZE PROTECTION (R84, R98) -/

theorem doRemoveRoute_frozen {n : Slot} {s : State} (hf : s.trip.frozen = true) :
    doRemoveRoute n s = refusedWith s .frozen := by
  rw [doRemoveRoute, if_pos hf]

theorem doRemoveRoute_busy {n : Slot} {s : State} (hf : s.trip.frozen = false)
    (hb : slotBusy (s.trip.routes.get n) = true) : doRemoveRoute n s = refusedWith s .wrongState := by
  rw [doRemoveRoute, if_neg (by simp [hf]), if_pos hb]

theorem doRemoveRoute_removes {n : Slot} {s : State} (hf : s.trip.frozen = false)
    (hb : ∀ v, s.trip.routes.get n = some v → v.state = .armed ∧ v.held = 0) :
    doRemoveRoute n s = accepted (s.withTrip { s.trip with routes := s.trip.routes.set n none }) [] := by
  rw [doRemoveRoute, if_neg (by simp [hf]), if_neg (slotBusy_of_armed fun v hv => (hb v hv).1),
    handRoutes_set_idle (o := none) (fun v hv => (hb v hv).2) fun v hv => nomatch hv]

theorem exec_removeRoute {s : State} {tag : Byte} {n : Slot} {a : Answer} (hl : Listening s)
    (hu : Unanswered s tag 0x52 [slotByte n]) (ha : doRemoveRoute n (afterLastByte s) = a) :
    exec (.removeRoute (addressedTo tag) [slotByte n]) s
      = .next (answered s a.state tag 0x52 [slotByte n] (statusCode a.status :: a.content) a.action) :=
  exec_performs (r := .removeRoute n) rfl hl hu rfl (by rw [readRequest_removeRoute, readSlot_slotByte]; rfl) rfl ha

/-- Settles O35: the owner's checks, and a slot that is emptied without a change of the outputs. -/
theorem removeRouteAndFreeze : Obligations.RemoveRouteAndFreeze := by
  refine fun s tag n hl => ⟨fun hu => ⟨fun hf => ?_, fun hf hb => ?_, fun hf hb => ?_⟩, fun hu => ?_⟩
  · exact exec_refused (exec_removeRoute hl hu rfl) (doRemoveRoute_frozen hf)
  · exact exec_refused (exec_removeRoute hl hu rfl) (doRemoveRoute_busy hf (slotBusy_of_not_armed hb))
  · rw [exec_removeRoute hl hu (doRemoveRoute_removes (s := afterLastByte s) hf hb)]
    exact congrArg _ (answered_withTrip s _ tag _ _ _)
  · rw [exec_performs rfl hl hu rfl readRequest_freezeProtection rfl rfl]
    exact congrArg _ (answered_withTrip s _ tag _ _ _)

/-! ## CLEAR TRIP (R88, R90, R93) -/

/-- The state in which CLEAR TRIP leaves a TRIPPED route whose input is QUIET. -/
def tripCleared (n : Slot) (r : Route) (s : State) : State :=
  let routes := s.trip.routes.set n (some (beginRelease (stoppedSet s) r))
  (s.handRoutes routes).settle.post (rearmNotices s.trip.routes routes)

theorem doClearTrip_undefined {n : Slot} {s : State} (h : s.trip.routes.get n = none) :
    doClearTrip n s = refusedWith s .notFound := by
  rw [doClearTrip, h]

section
variable {n : Slot} {r : Route} {s : State} (h : s.trip.routes.get n = some r)
include h

theorem doClearTrip_armed (hs : r.state = .armed) : doClearTrip n s = refusedWith s .wrongState := by
  simp only [doClearTrip, h, hs]

theorem doClearTrip_releasing (hs : r.state = .releasing) : doClearTrip n s = accepted s [0x02] := by
  simp only [doClearTrip, h, hs]
  rfl

theorem doClearTrip_asserted (hs : r.state = .tripped) (hi : (s.trip.inputs.get r.input).filtered = .asserted) :
    doClearTrip n s = refusedWith s .stillActive := by
  simp only [doClearTrip, h, hs, hi]

theorem doClearTrip_quiet (hs : r.state = .tripped) (hi : (s.trip.inputs.get r.input).filtered = .quiet) :
    doClearTrip n s = accepted (tripCleared n r s) [routeStateByte (beginRelease (stoppedSet s) r).state] := by
  simp only [doClearTrip, h, hs, hi]
  rfl

end

/-- A route that stays as it is raises no REARM notice. -/
theorem rearmNotice_same (n : Slot) (o : Option Route) : rearmNotice n o o = none := by
  cases o with
  | none => rfl
  | some r => exact if_neg fun ⟨hb, ha⟩ => hb ha

/-- Where one slot changes, that slot alone can raise a REARM notice. -/
theorem rearmNotices_set (routes : SlotFile (Option Route)) (n : Slot) (o : Option Route) :
    rearmNotices routes (routes.set n o) = (rearmNotice n (routes.get n) o).toList := by
  have hset : ∀ m, rearmNotice m (routes.get m) ((routes.set n o).get m)
      = if m = n then rearmNotice n (routes.get n) o else none := fun m => by
    rw [SlotFile.get_set]
    split
    · next hm => rw [hm]
    · exact rearmNotice_same m _
  simp only [rearmNotices, hset]
  generalize rearmNotice n (routes.get n) o = p
  cases p <;> cases n <;> rfl

theorem tripCleared_notices_releasing {n : Slot} {r : Route} {s : State} (h : s.trip.routes.get n = some r)
    (hr : (beginRelease (stoppedSet s) r).state = .releasing) : (tripCleared n r s).notices = s.notices := by
  have hnone : rearmNotice n (some r) (some (beginRelease (stoppedSet s) r)) = none :=
    if_neg fun ⟨_, ha⟩ => nomatch hr.symm.trans ha
  show (s.post (rearmNotices s.trip.routes _)).notices = s.notices
  rw [rearmNotices_set, h, hnone]
  rfl

theorem tripCleared_notices_armed {n : Slot} {r : Route} {s : State} (h : s.trip.routes.get n = some r)
    (hs : r.state = .tripped) (hr : (beginRelease (stoppedSet s) r).state = .armed) :
    (tripCleared n r s).notices = (s.post [{ key := .rearm n, detail := .rearm (rearmCause r) }]).notices := by
  obtain ⟨_, _, hclearing⟩ := beginRelease_keeps (stoppedSet s) r
  have hsome : rearmNotice n (some r) (some (beginRelease (stoppedSet s) r))
      = some { key := .rearm n, detail := .rearm (rearmCause r) } := by
    simp [rearmNotice, rearmCause, hs, hr, hclearing]
  show (s.post (rearmNotices s.trip.routes _)).notices = _
  rw [rearmNotices_set, h, hsome]
  rfl

theorem exec_clearTrip {s : State} {tag : Byte} {n : Slot} {a : Answer} (hl : Listening s)
    (hu : Unanswered s tag 0x53 [slotByte n]) (ha : doClearTrip n (afterLastByte s) = a) :
    exec (.clearTrip (addressedTo tag) [slotByte n]) s
      = .next (answered s a.state tag 0x53 [slotByte n] (statusCode a.status :: a.content) a.action) :=
  exec_performs (r := .clearTrip n) rfl hl hu rfl (by rw [readRequest_clearTrip, readSlot_slotByte]; rfl) rfl ha

/-- Settles O36: the owner's answer by the state of the route and of its input; the release is that of `tripCleared`. -/
theorem clearTrip : Obligations.ClearTrip := by
  refine fun s tag n hl hu => ⟨fun h => ?_, fun r h => ⟨fun hs => ?_, fun hs => ?_, fun hs hi => ?_, fun hs hi => ?_⟩⟩
  · exact exec_refused (exec_clearTrip hl hu rfl) (doClearTrip_undefined h)
  · exact exec_refused (exec_clearTrip hl hu rfl) (doClearTrip_armed h hs)
  · rw [exec_clearTrip hl hu (doClearTrip_releasing (s := afterLastByte s) h hs)]
    exact congrArg _ (answered_afterLastByte s s tag _ _ _ none)
  · exact exec_refused (exec_clearTrip hl hu rfl) (doClearTrip_asserted h hs hi)
  · have hfollow := handRoutes_follow s (s.trip.routes.set n (some (beginRelease (stoppedSet s) r)))
    refine ⟨tripCleared n r s, _, rfl, ?_, rfl, fun c => (hfollow.selected c).1, rfl, rfl, rfl, hfollow,
      tripCleared_notices_releasing h, fun hr => (tripCleared_notices_armed h hs hr).trans ?_⟩
    · rw [exec_clearTrip hl hu (doClearTrip_quiet (s := afterLastByte s) h hs hi)]
      exact congrArg _ (answered_congr ⟨rfl, rfl, rfl, rfl, rfl, rfl, rfl, rfl, rfl, rfl⟩)
    · cases hk : r.clearing <;> simp [rearmCause, hk]

end Sys2Proof.Machine
end

section
/-!
PROOFS (08_the_message_link.md): the end of the turnaround, and the completion of a reply with its pending action (R101, R141, R154,
R155, R160, R177).
-/

namespace Sys2Proof.Machine

/-- The link at the completion of a reply: IDLE, the low time measured from here if the line is low (R155, R156). -/
def idleLink (s : State) : LinkInterface :=
  { s.link with transmitter := .idle, lowTime := if s.pins.line = .low then some 0 else none }

theorem exec_turnaround {s : State} {r : Reply} {elapsed : Nat} {wait : Byte}
    (h : s.link.transmitter = .turnaround r elapsed wait) : exec .turnaround s = .next (startSending r s) := by
  show execTurnaround s = _
  simp only [execTurnaround, h]

theorem exec_completion {s : State} {r : Reply} {elapsed : Nat} (h : s.link.transmitter = .sending r elapsed) :
    exec .completion s = .next (settleAction r.action (s.withLink (idleLink s))) := by
  show execCompletion s = _
  simp only [execCompletion, h]
  rfl

/-- The notice of a slot whose TRIP notice is posted again joins the queue as a fresh one (R101, R128). -/
theorem map_repostNotices (routes : SlotFile (Option Route)) :
    (repostNotices routes).map freshNotice
      = Slot.all.filterMap fun n => (repostNotice n (routes.get n)).map freshNotice := by
  rw [repostNotices, List.map_filterMap]

/-- Settles O47: the two rows take the reply on, and a pending controller reset leaves the defaults of each block and the queue of
`controllerReset_notices`. -/
theorem transmitterSendsAndSettles : Obligations.TransmitterSendsAndSettles := by
  refine ⟨fun s r elapsed wait h => ⟨_, exec_turnaround h, rfl, rfl⟩, fun s r elapsed h => ?_⟩
  rw [exec_completion h]
  refine ⟨fun ha => by rw [ha]; rfl, fun v ha => by rw [ha]; rfl, fun ha => ?_⟩
  rw [ha]
  have hnotices := controllerReset_notices (s.withLink (idleLink s))
  obtain ⟨hlink, hcache, htrip, hpins, hinReset, _, _⟩ := controllerReset_keeps (s.withLink (idleLink s))
  refine ⟨controllerReset (s.withLink (idleLink s)), rfl, hlink, hcache, htrip, hpins, hinReset, fun x => ?_, rfl,
    fun c => ?_, fun p => ?_, fun x => ?_, rfl, rfl, rfl, rfl, fun c => ?_, congrArg NoticeUnit.mask hnotices,
    (congrArg NoticeUnit.nextToken hnotices).trans rfl, (congrArg NoticeUnit.queue hnotices).trans ?_⟩
  · cases x <;> rfl
  · cases c <;> exact ⟨rfl, rfl, rfl⟩
  · cases p <;> exact ⟨rfl, rfl, rfl⟩
  · cases x <;> rfl
  · cases c <;> exact ⟨rfl, rfl, rfl⟩
  · rw [map_repostNotices]
    refine congrArg (fun f => _ :: Slot.all.filterMap f) (funext fun n => ?_)
    show (repostNotice n (s.trip.routes.get n)).map freshNotice = _
    cases s.trip.routes.get n with
    | none => rfl
    | some q => by_cases hq : q.state = .armed <;> simp [repostNotice, hq, freshNotice, tripNotice]

end Sys2Proof.Machine
end

section
/-!
PROOFS (06_the_output_stage.md): what a sound Output Stage is made of, and that selecting and driving the outputs makes it sound
(R103, R109, R111, R114 to R119).
-/

namespace Sys2Proof.Machine

/-! ## The parts of a sound Output Stage -/

/-- No two members of a COMPLEMENTARY pair are both marked. -/
def Apart (p : PatternUnit) (marked : Chan → Prop) : Prop :=
  ∀ c, modeOf p c = .complementary → ¬ (marked c ∧ marked (partner c))

/-- A drained set only while DRAINING, and never full (R103, R109). -/
def DrainSound (o : OutputStage) : Prop := (o.enable ≠ .draining → o.drained = 0) ∧ o.drained ≠ allChannels

/-- The entry of a pair has the form of its mode, and the hold levels of a COMPLEMENTARY pair are not both ACTIVE (R111, R115). -/
def PairFormed (s : State) (p : Pair) : Prop :=
  entryFits (s.output.overrides.get p) (s.pattern.pairs.get p).mode = true
    ∧ ((s.pattern.pairs.get p).mode = .complementary → ∀ c, pairOf c = p →
        ¬ ((s.output.channels.get c).hold = .active ∧ (s.output.channels.get (partner c)).hold = .active))

/-- What has to hold of a state for its outputs to be sound once they are selected again (R117). -/
structure OutputsReady (s : State) : Prop where
  drain : DrainSound s.output
  formed : ∀ p, PairFormed s p
  level : Apart s.pattern fun c => s.pattern.level.get c = .active
  pairs : PairsNamed s.commit.queue

/-- `OutputsSound` by its parts. -/
structure OutputsHold (s : State) : Prop extends OutputsReady s where
  floats : s.output.enable = .disabled → ∀ c, (s.output.channels.get c).selected = .float
  selected : Apart s.pattern fun c => (s.output.channels.get c).selected = .active
  driven : ∀ c, DrivenSound s c

theorem Apart.imp {p : PatternUnit} {marked marked' : Chan → Prop} (h : Apart p marked) (hi : ∀ c, marked' c → marked c) :
    Apart p marked' :=
  fun c hm hboth => h c hm (hboth.imp (hi c) (hi (partner c)))

theorem complementary_of_ne_independent {m : PairMode} (h : m ≠ .independent) : m = .complementary := by
  cases m with
  | independent => exact absurd rfl h
  | complementary => rfl

theorem outputsSound_iff {s : State} : OutputsSound s ↔ OutputsHold s := by
  constructor
  · rintro ⟨hempty, hfull, hfloats, hentries, hchannels, hpairs⟩
    exact {
      drain := ⟨hempty, hfull⟩
      formed := fun p => ⟨hentries p, fun hm c hc => ((hchannels c).1 (by rwa [modeOf, hc])).2.1⟩
      level := fun c hm => ((hchannels c).1 hm).2.2
      pairs := hpairs
      floats := hfloats
      selected := fun c hm => ((hchannels c).1 hm).1
      driven := fun c => (hchannels c).2 }
  · rintro ⟨⟨⟨hempty, hfull⟩, hformed, hlevel, hpairs⟩, hfloats, hselected, hdriven⟩
    exact ⟨hempty, hfull, hfloats, fun p => (hformed p).1,
      fun c => ⟨fun hm => ⟨hselected c hm, (hformed _).2 hm c rfl, hlevel c hm⟩, hdriven c⟩, hpairs⟩

theorem DrivenSound.selected_of_active {s : State} {c : Chan} (h : DrivenSound s c)
    (ha : (s.output.channels.get c).output = .active) : (s.output.channels.get c).selected = .active := by
  obtain ⟨hdone, hwaits⟩ := h
  by_cases hd : (s.output.channels.get c).delay = none
  · exact (hdone hd).symm.trans ha
  · exact (hwaits hd).2.1

/-- An output that is ACTIVE was selected so, and the selected levels of a pair are not both ACTIVE (R118). -/
theorem OutputsHold.noShootThrough {s : State} (h : OutputsHold s) : NoShootThrough s :=
  h.selected.imp fun c => (h.driven c).selected_of_active

/-! ## The levels of a COMPLEMENTARY pair (R28, R29, R111, R117) -/

/-- It is enough to look at the primary members. -/
theorem Apart.of_primary {p : PatternUnit} {marked : Chan → Prop}
    (h : ∀ c, isPrimary c = true → modeOf p c = .complementary → ¬ (marked c ∧ marked (partner c))) : Apart p marked := by
  intro c hm hboth
  cases hc : isPrimary c with
  | true => exact h c hc hm hboth
  | false =>
    refine h (partner c) (by simp [hc]) (by simpa using hm) ?_
    rw [partner_partner]
    exact hboth.symm

/-- The secondary's level is the complement of the primary's source level, or INACTIVE (R28, R29). -/
theorem patternLevel_apart (p : PatternUnit) (tbs : TbFile Timebase) : Apart p fun c => patternLevel p tbs c = .active := by
  refine .of_primary fun c hc hm ⟨hown, hother⟩ => ?_
  have unmasked : ∀ d, patternLevel p tbs d = .active → (p.channels.get d).mask = false := by
    intro d hd
    cases hmask : (p.channels.get d).mask with
    | false => rfl
    | true => exact nomatch (patternLevel_masked tbs hmask).symm.trans hd
  rw [patternLevel_own tbs (unmasked c hown) (.inr hc)] at hown
  rw [patternLevel_secondary tbs (unmasked _ hother) (by simpa using hm) (by simp [hc]), partner_partner, hown] at hother
  cases hother

/-- The override of a COMPLEMENTARY pair gives both members a level or none, and never ACTIVE to both (R111). -/
theorem overrideLevel_complementary (v : PairForce) (c : Chan) :
    (overrideLevel (.complementary v) (partner c) = none ↔ overrideLevel (.complementary v) c = none)
      ∧ ¬ (overrideLevel (.complementary v) c = some .active
        ∧ overrideLevel (.complementary v) (partner c) = some .active) := by
  cases v <;> cases h : isPrimary c <;> simp [overrideLevel, h]

/-- What selects ACTIVE: a held level, an override, or the pattern (R117). -/
theorem selectLevel_eq_active {s : State} {c : Chan} (h : selectLevel s c = .active) :
    (governing s.pattern s.trip.routes c = some .hold ∧ (s.output.channels.get c).hold = .active)
      ∨ (governing s.pattern s.trip.routes c = none
        ∧ overrideLevel (s.output.overrides.get (pairOf c)) c = some .active)
      ∨ (governing s.pattern s.trip.routes c = none ∧ overrideLevel (s.output.overrides.get (pairOf c)) c = none
        ∧ s.pattern.level.get c = .active) := by
  have he : s.output.enable ≠ .disabled := fun he => nomatch (selectLevel_disabled he c).symm.trans h
  have hd : ¬ (s.output.enable = .draining ∧ inSet s.output.drained c = true) :=
    fun ⟨he, hd⟩ => nomatch (selectLevel_drained he hd).symm.trans h
  cases hg : governing s.pattern s.trip.routes c with
  | some a =>
    cases a with
    | float => exact nomatch (selectLevel_float he hd hg).symm.trans h
    | safe => exact nomatch (selectLevel_safe he hd hg).symm.trans h
    | hold =>
      rw [selectLevel_hold he hd hg, outOf_eq_active] at h
      exact .inl ⟨rfl, h⟩
  | none =>
    cases hl : overrideLevel (s.output.overrides.get (pairOf c)) c with
    | some l =>
      rw [selectLevel_override he hd hg hl, outOf_eq_active] at h
      exact .inr (.inl ⟨rfl, by rw [h]⟩)
    | none =>
      rw [selectLevel_pattern he hd hg hl, outOf_eq_active] at h
      exact .inr (.inr ⟨rfl, rfl, h⟩)

theorem PairFormed.complementary {s : State} {p : Pair} (h : PairFormed s p)
    (hm : (s.pattern.pairs.get p).mode = .complementary) : ∃ v, s.output.overrides.get p = .complementary v := by
  obtain ⟨hentry, _⟩ := h
  cases he : s.output.overrides.get p with
  | complementary v => exact ⟨v, rfl⟩
  | independent even odd => simp [he, hm, entryFits] at hentry

/-- Both members are governed alike and overridden alike, so what selects one ACTIVE selects the other so (R114, R117). -/
theorem OutputsReady.selectLevel_apart {s : State} (h : OutputsReady s) :
    Apart s.pattern fun c => selectLevel s c = .active := by
  rintro c hm ⟨hown, hother⟩
  obtain ⟨v, hv⟩ := (h.formed (pairOf c)).complementary hm
  obtain ⟨hnone, hactive⟩ := overrideLevel_complementary v c
  have hother := selectLevel_eq_active hother
  rw [governing_partner _ hm, pairOf_partner, hv] at hother
  have hown := selectLevel_eq_active hown
  rw [hv] at hown
  rcases hown with ⟨hg, hhold⟩ | ⟨hg, hl⟩ | ⟨hg, hl, hlevel⟩ <;>
    rcases hother with ⟨hg', hhold'⟩ | ⟨hg', hl'⟩ | ⟨hg', hl', hlevel'⟩
  case inl.inl => exact (h.formed (pairOf c)).2 hm c rfl ⟨hhold, hhold'⟩
  case inr.inl.inr.inl => exact hactive ⟨hl, hl'⟩
  case inr.inr.inr.inr => exact h.level c hm ⟨hlevel, hlevel'⟩
  case inr.inl.inr.inr => simp [hnone.mp hl'] at hl
  case inr.inr.inr.inl => simp [hnone.mpr hl] at hl'
  all_goals simp [hg] at hg'

/-! ## Outputs that follow what is selected (R118, R119) -/

/-- A driven output is its selected level or waits before a rise, whatever it was. -/
theorem DrivenTo.drivenSound {t : State} {c : Chan} {n : Nat} {l : OutLevel} {before : OutChannel}
    (h : DrivenTo (modeOf t.pattern c) n l before (t.output.channels.get c)) : DrivenSound t c := by
  obtain ⟨_, hselected, honce, hrise⟩ := h
  by_cases hat : modeOf t.pattern c = .independent ∨ l ≠ .active ∨ before.output = .active
  · obtain ⟨houtput, hdelay⟩ := honce hat
    exact ⟨fun _ => houtput.trans hselected.symm, fun hd => absurd hdelay hd⟩
  · rw [not_or, not_or, Decidable.not_not] at hat
    obtain ⟨hm, hl, ho⟩ := hat
    have hm := complementary_of_ne_independent hm
    obtain ⟨hrisen, hwaits⟩ := hrise hm hl ho
    by_cases hn : n ≤ before.delay.getD 0
    · obtain ⟨houtput, hdelay⟩ := hrisen hn
      exact ⟨fun _ => by rw [houtput, hselected, hl], fun hd => absurd hdelay hd⟩
    · obtain ⟨houtput, hdelay⟩ := hwaits (Nat.lt_of_not_le hn)
      exact ⟨fun hd => (nomatch hdelay.symm.trans hd), fun _ => ⟨hm, hselected.trans hl, by rwa [houtput]⟩⟩

theorem OutputsFollow.outputsSound {before : Chan → OutChannel} {clocks : Pair → Nat} {t : State}
    (h : OutputsFollow before clocks t) (ht : OutputsReady t) : OutputsSound t := by
  have hselected : ∀ c, (t.output.channels.get c).selected = selectLevel t c := fun c => (h.selected c).1
  exact outputsSound_iff.mpr { ht with
    floats := fun he c => (hselected c).trans (selectLevel_disabled he c)
    selected := ht.selectLevel_apart.imp fun c => (hselected c).symm.trans
    driven := fun c => (h.1 c).drivenSound }

/-- What is formed of a pair reads its record, its entry and its hold levels. -/
theorem PairFormed.congr {s t : State} {p : Pair} (h : PairFormed s p)
    (hp : t.pattern.pairs.get p = s.pattern.pairs.get p) (ho : t.output.overrides.get p = s.output.overrides.get p)
    (hh : ∀ c, pairOf c = p → (t.output.channels.get c).hold = (s.output.channels.get c).hold) : PairFormed t p := by
  obtain ⟨hentry, hhold⟩ := h
  refine ⟨by rwa [hp, ho], fun hm c hc => ?_⟩
  rw [hh c hc, hh (partner c) (by rwa [pairOf_partner])]
  exact hhold (by rwa [← hp]) c hc

/-- Driving the outputs leaves the pairs as the state it starts from has them. -/
theorem OutputsFollow.formed {before : Chan → OutChannel} {clocks : Pair → Nat} {s t : State}
    (h : OutputsFollow before clocks t) (hs : ∀ p, PairFormed s p)
    (hb : ∀ c, (before c).hold = (s.output.channels.get c).hold) (hp : t.pattern.pairs = s.pattern.pairs)
    (ho : t.output.overrides = s.output.overrides) : ∀ p, PairFormed t p :=
  fun p => (hs p).congr (by rw [hp]) (by rw [ho]) fun c _ => (h.selected c).2.trans (hb c)

/-- Selecting again makes the outputs sound (R117 to R119). -/
theorem OutputsReady.settle {s : State} (h : OutputsReady s) : OutputsSound s.settle :=
  (settle_follows s).outputsSound
    { drain := h.drain, formed := (settle_follows s).formed h.formed (fun _ => rfl) rfl rfl, level := h.level,
      pairs := h.pairs }

theorem OutputsSound.ready {s : State} (h : OutputsSound s) : OutputsReady s := (outputsSound_iff.mp h).toOutputsReady

theorem OutputsSound.pairs {s : State} (h : OutputsSound s) : PairsNamed s.commit.queue := h.ready.pairs

end Sys2Proof.Machine
end

section
/-!
PROOFS (06_the_output_stage.md): the invariant of the Output Stage, through tickets, events, requests and steps (R44, R56, R103 to
R109, R111, R112, R115 to R119).
-/

namespace Sys2Proof.Machine

/-! ## Tickets (R56, R111, R116) -/

theorem ChangedTo.hold {m : PairMode} {before after : OutChannel} (h : ChangedTo m before after) : after.hold = .inactive := by
  obtain ⟨hrise, hstill⟩ := h
  by_cases hw : m = .independent ∧ before.delay ≠ none
  · rw [hrise hw.1 hw.2]
  · rw [hstill]
    cases m with
    | complementary => exact .inl rfl
    | independent => exact .inr (by simpa using hw)

theorem ComparedWith.hold {m : PairMode} {n : Nat} {before after : OutChannel} (h : ComparedWith m n before after) :
    after.hold = before.hold := by
  obtain ⟨hrisen, hstill, hwaits⟩ := h
  cases hd : before.delay with
  | none => rw [hstill (.inr hd)]
  | some k =>
    cases m with
    | independent => rw [hstill (.inl rfl)]
    | complementary =>
      by_cases hk : n ≤ k
      · rw [hrisen k rfl hd hk]
      · rw [hwaits k hd (Nat.lt_of_not_le hk)]

/-- A record that changes the mode clears the entry and the hold levels of its pair, and one that keeps it keeps both (R116). -/
theorem PairApplied.formed {p : Pair} {r : PairRecord} {s t : State} (h : PairApplied p r s t) (hs : PairFormed s p) :
    PairFormed t p := by
  obtain ⟨hrecord, hchanged, hkept⟩ := h
  by_cases hm : (s.pattern.pairs.get p).mode = r.mode
  · obtain ⟨hentry, hchannels⟩ := hkept hm
    obtain ⟨hfits, hholds⟩ := hs
    refine ⟨by rwa [hrecord, hentry, ← hm], fun hc c hp => ?_⟩
    rw [(hchannels c hp).hold, (hchannels (partner c) (by rwa [pairOf_partner])).hold]
    exact hholds (by rwa [hm, ← hrecord]) c hp
  · obtain ⟨hind, hcomp, hchannels⟩ := hchanged hm
    refine ⟨?_, fun _ c hp ⟨ha, _⟩ => nomatch (hchannels c hp).hold.symm.trans ha⟩
    rw [hrecord]
    cases hr : r.mode with
    | independent => rw [hind hr]; rfl
    | complementary => rw [hcomp hr]; rfl

theorem SamePair.formed {p : Pair} {s t : State} (h : SamePair p s t) (hs : PairFormed s p) : PairFormed t p := by
  obtain ⟨hp, ho, hc⟩ := h
  exact hs.congr hp ho fun c hpair => by rw [hc c hpair]

theorem applyPair_formed {s : State} (e : Pair × PairRecord) (h : ∀ p, PairFormed s p) (p : Pair) :
    PairFormed (applyPair s e) p := by
  by_cases hp : p = e.1
  · subst hp
    exact (applyPair_applied s e.1 e.2).formed (h _)
  · exact (applyPair_other s hp).formed (h p)

theorem applyPairs_formed {s : State} (l : List (Pair × PairRecord)) (h : ∀ p, PairFormed s p) :
    ∀ p, PairFormed (l.foldl applyPair s) p := by
  induction l generalizing s with
  | nil => exact h
  | cons e l ih => exact ih (applyPair_formed e h)

theorem applyTickets_formed (x : Tb) (l : List Ticket) {s : State} (h : ∀ p, PairFormed s p) :
    ∀ p, PairFormed (applyTickets x l s).1 p := by
  induction l generalizing s with
  | nil => exact h
  | cons t l ih => exact ih fun p => (applyTicket_samePair x t s p).formed (applyPairs_formed t.pairs h p)

/-! ## Events of a timebase (R5, R9, R10, R14, R107 to R109) -/

/-- A drain step leaves a drained set only while channels are left to drain (R107 to R109). -/
theorem DrainStep.drainSound {own : Chan → Prop} {before after : OutputStage} {l : List Posting}
    (h : DrainStep own before after l) (hb : DrainSound before) : DrainSound after := by
  obtain ⟨hidle, hdone, hleft⟩ := h
  by_cases he : before.enable = .draining
  · by_cases hall : ∀ c, inSet before.drained c = true ∨ own c
    · obtain ⟨_, hd, _⟩ := hdone he hall
      exact ⟨fun _ => hd, by rw [hd]; decide⟩
    · obtain ⟨c, hc⟩ := Classical.not_forall.mp hall
      rw [not_or, Bool.not_eq_true] at hc
      obtain ⟨he', _, hmembers⟩ := hleft he ⟨c, hc⟩
      refine ⟨fun hn => absurd he' hn, fun hfull => ?_⟩
      rcases (hmembers c).mp (by rw [hfull, inSet_all]) with hin | hin
      · exact nomatch hc.1.symm.trans hin
      · exact hc.2 hin
  · obtain ⟨he', hd, _⟩ := hidle he
    rwa [DrainSound, he', hd]

/-- After an event of X the levels of its channels are those of its count, and the others are as they were (R21). -/
theorem Refreshed.levelApart {x : Tb} {s t : State} (hr : Refreshed x s t) (hk : KeptBeside x s t)
    (h : Apart s.pattern fun c => s.pattern.level.get c = .active) :
    Apart t.pattern fun c => t.pattern.level.get c = .active := by
  intro c hm
  obtain ⟨hown, hother⟩ := hr c
  obtain ⟨hown', hother'⟩ := hr (partner c)
  rw [boundTo_partner] at hown' hother'
  show ¬ (t.pattern.level.get c = .active ∧ t.pattern.level.get (partner c) = .active)
  by_cases hb : boundTo t.pattern c = x
  · rw [(hown hb).2, (hown' hb).2]
    exact patternLevel_apart _ _ c hm
  · rw [(hother hb).2, (hother' hb).2]
    exact h c ((congrArg PairRecord.mode (hk.2 c hb).1).symm.trans hm)

theorem ite_tickCounted_hold (b : Bool) (x : Tb) (p : PatternUnit) (outs : ChanFile OutChannel) (c : Chan) :
    (if b then tickCounted x p outs c else outs.get c).hold = (outs.get c).hold := by
  cases b with
  | false => rfl
  | true => exact tickCounted_hold x p outs c

theorem StartTaken.outputsSound {x : Tb} {b : Bool} {s t : State} {r : Raised} (ht : StartTaken x b s t r)
    (h : OutputsSound s) : OutputsSound t := by
  have h := outputsSound_iff.mp h
  obtain ⟨⟨htbs, hchannels, hpairs, hentries⟩, _, hcommit, _, _, hdrain, _, hrefreshed, hfollow⟩ := ht
  have hk : KeptBeside x s t := ((KeptBeside.setTimebase x s _).trans
    (applyTickets_keptBeside (h.pairs.takenAt x .start) (withCycle x s))).trans (.of_eq htbs hchannels hpairs)
  exact hfollow.outputsSound
    { drain := hdrain.drainSound h.drain
      formed := hfollow.formed (applyTickets_formed x _ (s := withCycle x s) h.formed)
        (ite_tickCounted_hold b x _ _) hpairs hentries
      level := hrefreshed.levelApart hk h.level
      pairs := by rw [hcommit]; exact h.pairs.leftAt x .start }

theorem MidTaken.outputsSound {x : Tb} {s t : State} {r : Raised} (ht : MidTaken x s t r) (h : OutputsSound s) :
    OutputsSound t := by
  have h := outputsSound_iff.mp h
  obtain ⟨⟨htbs, hchannels, hpairs, hentries⟩, _, hcommit, _, henable, hdrained, _, hrefreshed, hfollow⟩ := ht
  have hk : KeptBeside x s t := (applyTickets_keptBeside (h.pairs.takenAt x .mid) s).trans (.of_eq htbs hchannels hpairs)
  exact hfollow.outputsSound
    { drain := by rw [DrainSound, henable, hdrained]; exact h.drain
      formed := hfollow.formed (applyTickets_formed x _ h.formed) (tickCounted_hold _ _ _) hpairs hentries
      level := hrefreshed.levelApart hk h.level
      pairs := by rw [hcommit]; exact h.pairs.leftAt x .mid }

theorem StopTaken.outputsSound {x : Tb} {k : StopKind} {s t : State} {r : Raised} (ht : StopTaken x k s t r)
    (h : OutputsSound s) : OutputsSound t := by
  have h := outputsSound_iff.mp h
  obtain ⟨htbs, _, hcommit, _, _, _, hdrain, _, hchannels, hpairs, hentries, hrefreshed, _, hfollow⟩ := ht
  have hk : KeptBeside x s t := (KeptBeside.setTimebase x s _).trans (.of_eq htbs hchannels hpairs)
  exact hfollow.outputsSound
    { drain := hdrain.drainSound h.drain
      formed := hfollow.formed h.formed (fun _ => rfl) hpairs hentries
      level := hrefreshed.levelApart hk h.level
      pairs := by rw [hcommit]; exact h.pairs.filter _ }

theorem BoundaryTaken.outputsSound {x : Tb} {b : Bool} {s t : State} {r : Raised} (ht : BoundaryTaken x b s t r)
    (h : OutputsSound s) : OutputsSound t := by
  obtain ⟨hrunning, hstopping⟩ := ht
  by_cases hs : (s.timebases.get x).state = .stopping
  · obtain ⟨m, start, stop, hstart, hstop, _⟩ := hstopping hs
    exact hstop.outputsSound (hstart.outputsSound h)
  · exact (hrunning hs).outputsSound h

/-- The Output Stage reads no timebase, so an event that sets one starts from outputs as sound as before. -/
theorem OutputsSound.setTimebase {s : State} (h : OutputsSound s) (x : Tb) (v : Timebase) :
    OutputsSound (s.setTimebase x v) := h

theorem EdgeTaken.outputsSound {x : Tb} {s t : State} {r : Raised} (ht : EdgeTaken x s t r) (h : OutputsSound s) :
    OutputsSound t := by
  obtain ⟨hwaiting, hrestart, hidle⟩ := ht
  by_cases hw : (s.timebases.get x).state = .waitSync
  · obtain ⟨start, hstart, _⟩ := hwaiting hw
    exact hstart.outputsSound (h.setTimebase x _)
  by_cases hc : (s.timebases.get x).state = .stopped ∨ (s.timebases.get x).active.syncRestart = false
  · obtain ⟨rfl, _⟩ := hidle (hc.imp_right fun hr => ⟨hw, hr⟩)
    exact h
  · rw [not_or, Bool.not_eq_false] at hc
    refine (hrestart ?_ hc.2).outputsSound (h.setTimebase x _)
    cases hs : (s.timebases.get x).state with
    | stopped => exact absurd hs hc.1
    | waitSync => exact absurd hs hw
    | running => exact .inl rfl
    | stopping => exact .inr rfl

/-- A tick that brings no boundary (R2, R5, R119). -/
theorem countTick_redrive_outputsSound (x : Tb) {s : State} (h : OutputsSound s) :
    OutputsSound ((s.countTick x).redrive x) := by
  have h := outputsSound_iff.mp h
  have hfollow := countTick_redrive_follows x s
  exact hfollow.outputsSound
    { drain := h.drain
      formed := hfollow.formed h.formed (tickCounted_hold x _ _) rfl rfl
      level := (redrive_refreshed x (s.countTick x)).levelApart (.of_eq rfl rfl rfl) h.level
      pairs := h.pairs }

theorem tickEvent_outputsSound (x : Tb) {s : State} (h : OutputsSound s) : OutputsSound (tickEvent x s) := by
  obtain ⟨hcount, hmid, hstart⟩ := tickEvent_taken x s
  have hu := h.setTimebase x { (advance (s.timebases.get x)).1 with tickTimer := 0 }
  cases hb : (advance (s.timebases.get x)).2 with
  | none =>
    rw [hcount hb]
    exact countTick_redrive_outputsSound x hu
  | some b =>
    cases b with
    | mid =>
      obtain ⟨r, hr, _⟩ := hmid hb
      exact hr.outputsSound hu
    | start =>
      obtain ⟨r, hr, _⟩ := hstart hb
      exact hr.outputsSound hu

theorem startNow_outputsSound (x : Tb) {s : State} (h : OutputsSound s) : OutputsSound (startNow x s) := by
  obtain ⟨r, hr, _⟩ := startNow_taken x s
  exact hr.outputsSound (h.setTimebase x _)

theorem stopNow_outputsSound (x : Tb) {s : State} (h : OutputsSound s) : OutputsSound (stopNow x s) := by
  obtain ⟨r, hr, _⟩ := stopNow_taken x s
  exact hr.outputsSound h

/-- Tickets replaced by others whose pair records name their timebase (R44). -/
theorem OutputsSound.setQueue {s : State} (h : OutputsSound s) {q : List Ticket} (hq : PairsNamed q) :
    OutputsSound (s.setQueue q) :=
  outputsSound_iff.mpr { outputsSound_iff.mp h with pairs := hq }

theorem syncEdge_outputsSound {s : State} (h : OutputsSound s) : OutputsSound (syncEdge s) := by
  have hm : OutputsSound (s.setQueue (markTickets s.commit.queue)) :=
    h.setQueue (h.pairs.of_fixed (by rw [markTickets_fixed]; exact List.Subset.refl _))
  obtain ⟨n, x, m, v, one, two, hone, htwo, he, _⟩ := syncEdge_taken s
  have hv : OutputsSound v :=
    htwo.outputsSound (hone.outputsSound (s := (s.setQueue (markTickets s.commit.queue)).withFree n) hm)
  rw [he]
  exact hv

theorem changeSyncLevel_outputsSound (l : Level) {s : State} (h : OutputsSound s) : OutputsSound (changeSyncLevel l s) := by
  unfold changeSyncLevel
  dsimp only
  split
  · exact syncEdge_outputsSound (s := s.withSync _) h
  · exact h

/-! ## Trip inputs and routes (R80, R114, R115) -/

/-- Of an output a changed route table can change the hold level alone (R115). -/
theorem handRoutes_beside_hold (s : State) (routes : SlotFile (Option Route)) (c : Chan) :
    ((s.handRoutes routes).output.channels.get c).selected = (s.output.channels.get c).selected
      ∧ ((s.handRoutes routes).output.channels.get c).output = (s.output.channels.get c).output
      ∧ ((s.handRoutes routes).output.channels.get c).delay = (s.output.channels.get c).delay := by
  simp only [State.handRoutes, State.withOutput_output, ChanFile.get_ofFn]
  split <;> exact ⟨rfl, rfl, rfl⟩

/-- The members of a COMPLEMENTARY pair capture together, and their outputs are not both ACTIVE (R114, R115). -/
theorem OutputsHold.handRoutes_formed {s : State} (h : OutputsHold s) (routes : SlotFile (Option Route)) (p : Pair) :
    PairFormed (s.handRoutes routes) p := by
  refine ⟨(h.formed p).1, fun hm c hc => ?_⟩
  subst hc
  have hpartner : ∀ routes, forcedWith s.pattern routes .hold (partner c) = forcedWith s.pattern routes .hold c :=
    fun routes => forcedWith_partner routes .hold hm
  by_cases hk : forcedWith s.pattern s.trip.routes .hold c = true ∨ forcedWith s.pattern routes .hold c = false
  · rw [handRoutes_channel_kept hk, handRoutes_channel_kept (by rwa [hpartner, hpartner])]
    exact (h.formed _).2 hm c rfl
  · rw [not_or, Bool.not_eq_true, Bool.not_eq_false] at hk
    obtain ⟨hb, ha⟩ := hk
    rw [handRoutes_hold_captured hb ha, handRoutes_hold_captured (by rwa [hpartner]) (by rwa [hpartner]),
      captured_eq_active, captured_eq_active]
    exact h.noShootThrough c hm

theorem OutputsSound.handRoutes {s : State} (h : OutputsSound s) (routes : SlotFile (Option Route)) :
    OutputsSound (s.handRoutes routes) := by
  have h := outputsSound_iff.mp h
  have hkept := handRoutes_beside_hold s routes
  refine outputsSound_iff.mpr
    { drain := h.drain, formed := h.handRoutes_formed routes, level := h.level, pairs := h.pairs,
      floats := fun he c => (hkept c).1.trans (h.floats he c), selected := h.selected.imp fun c => (hkept c).1.symm.trans,
      driven := fun c => ?_ }
  obtain ⟨hselected, houtput, hdelay⟩ := hkept c
  rw [DrivenSound, hselected, houtput, hdelay]
  exact h.driven c

/-- A changed route table handed on, and the outputs selected again (R80, R117). -/
theorem OutputsSound.handRoutes_settle {s : State} (h : OutputsSound s) (routes : SlotFile (Option Route)) :
    OutputsSound (s.handRoutes routes).settle := (h.handRoutes routes).ready.settle

theorem OutputsSound.post {s : State} (h : OutputsSound s) (ps : List Posting) : OutputsSound (s.post ps) := h

theorem OutputsSound.setInput {s : State} (h : OutputsSound s) (i : TripName) (v : TripInput) :
    OutputsSound (s.setInput i v) := h

theorem assertInput_outputsSound (i : TripName) {s : State} (h : OutputsSound s) : OutputsSound (assertInput i s) :=
  ((h.setInput i _).handRoutes_settle _).post _

theorem quietInput_outputsSound (i : TripName) {s : State} (h : OutputsSound s) : OutputsSound (quietInput i s) :=
  ((h.setInput i _).handRoutes_settle _).post _

theorem sampleInput_outputsSound (i : TripName) (l : Level) {s : State} (h : OutputsSound s) :
    OutputsSound (sampleInput i l s) := by
  unfold sampleInput
  dsimp only
  split
  · split
    · exact assertInput_outputsSound i h
    · exact quietInput_outputsSound i h
  · exact h

theorem doDefineRoute_outputsSound (n : Slot) (v : RouteRequest) {s : State} (h : OutputsSound s) :
    OutputsSound (doDefineRoute n v s).state := by
  unfold doDefineRoute
  split
  · exact h
  split
  · exact h
  split
  · exact h
  split
  · exact h.handRoutes _
  · exact (h.handRoutes_settle _).post _

theorem doRemoveRoute_outputsSound (n : Slot) {s : State} (h : OutputsSound s) :
    OutputsSound (doRemoveRoute n s).state := by
  unfold doRemoveRoute
  split
  · exact h
  split
  · exact h
  · exact h.handRoutes _

theorem doClearTrip_outputsSound (n : Slot) {s : State} (h : OutputsSound s) : OutputsSound (doClearTrip n s).state := by
  unfold doClearTrip
  split
  · exact h
  split
  · exact h
  · exact h
  split
  · exact h
  · exact (h.handRoutes_settle _).post _

/-! ## Enabling, disabling and overrides (R103 to R106, R112) -/

theorem OutputsReady.setEnable {s : State} (h : OutputsReady s) {e : Enable} {drained : ChannelSet}
    (hd : DrainSound { s.output with enable := e, drained := drained }) : OutputsReady (s.setEnable e drained) :=
  { drain := hd, formed := h.formed, level := h.level, pairs := h.pairs }

theorem drainSound_empty (o : OutputStage) (e : Enable) : DrainSound { o with enable := e, drained := 0 } :=
  ⟨fun _ => rfl, show (0 : ChannelSet) ≠ allChannels by decide⟩

/-- A drain step before the outputs are selected again (R106 to R109). -/
theorem OutputsReady.drainInto {s : State} (h : OutputsReady s) (set : ChannelSet) : OutputsReady (drainInto set s).1 := by
  obtain ⟨hchannels, hentries, _⟩ := drainSet_output set s
  have hkeeps := drainSet_keeps set s
  show OutputsReady (drainSet set s).1
  exact {
    drain := (drainSet_step set s).drainSound h.drain
    formed := fun p => (h.formed p).congr (by simp) (by rw [hentries]) fun c _ => by rw [hchannels]
    level := by simpa using h.level
    pairs := by simpa using h.pairs }

theorem doEnableOutputs_outputsSound {s : State} (h : OutputsSound s) : OutputsSound (doEnableOutputs s).state := by
  unfold doEnableOutputs
  split
  · exact h
  · exact (h.ready.setEnable (drainSound_empty _ _)).settle
  · exact (h.ready.setEnable (drainSound_empty _ _)).settle

theorem doDisableOutputs_outputsSound (m : DisableMode) {s : State} (h : OutputsSound s) :
    OutputsSound (doDisableOutputs m s).state := by
  cases m with
  | immediate => exact (h.ready.setEnable (drainSound_empty _ _)).settle
  | graceful =>
    unfold doDisableOutputs disableGraceful
    dsimp only
    split
    · exact h
    · exact h
    · exact ((h.ready.setEnable (drainSound_empty _ _)).drainInto _).settle

/-- An entry in the form of the pair's mode (R111). -/
theorem OutputsReady.setEntry {s : State} (h : OutputsReady s) {p : Pair} {e : OverrideEntry}
    (he : entryFits e (s.pattern.pairs.get p).mode = true) :
    OutputsReady (s.withOutput { s.output with overrides := s.output.overrides.set p e }) := by
  refine { drain := h.drain, formed := fun q => ⟨?_, (h.formed q).2⟩, level := h.level, pairs := h.pairs }
  rw [State.withOutput_output, PairFile.get_set]
  split
  · next hq =>
    subst hq
    exact he
  · exact (h.formed q).1

/-- A value replaced in an entry keeps the entry's form (R112). -/
theorem entryFits_setMemberForce (e : OverrideEntry) (c : Chan) (v : MemberForce) (m : PairMode) :
    entryFits (setMemberForce e c v) m = entryFits e m := by
  cases e with
  | complementary w => rfl
  | independent even odd =>
    unfold setMemberForce
    dsimp only
    split <;> (cases m <;> rfl)

theorem doSetOverride_outputsSound (t : OverrideTarget) {s : State} (h : OutputsSound s) :
    OutputsSound (doSetOverride t s).state := by
  cases t with
  | channel c v =>
    unfold doSetOverride
    dsimp only
    split
    · exact h
    · exact (h.ready.setEntry (by rw [entryFits_setMemberForce]; exact (h.ready.formed _).1)).settle
  | pair p v =>
    unfold doSetOverride
    dsimp only
    split
    · exact h
    · next hm =>
      exact (h.ready.setEntry (by rw [complementary_of_ne_independent hm]; rfl)).settle

/-! ## Requests -/

theorem doStartTimebase_outputsSound (x : Tb) (m : StartMode) {s : State} (h : OutputsSound s) :
    OutputsSound (doStartTimebase x m s).state := by
  unfold doStartTimebase
  dsimp only
  split
  · exact startNow_outputsSound x h
  · exact h
  · exact startNow_outputsSound x h
  · exact h
  · exact h
  · exact h

theorem doStopTimebase_outputsSound (x : Tb) (k : StopKind) {s : State} (h : OutputsSound s) :
    OutputsSound (doStopTimebase x k s).state := by
  cases k with
  | immediate =>
    unfold doStopTimebase stopImmediate
    dsimp only
    split
    · exact h
    · exact stopNow_outputsSound x h
  | atBoundary =>
    unfold doStopTimebase stopAtBoundary
    dsimp only
    split <;> exact h

theorem doIssueTicket_outputsSound (t : TicketRequest) {s : State} (h : OutputsSound s) :
    OutputsSound (doIssueTicket t s).state := by
  unfold doIssueTicket
  split
  · exact h
  · next hn =>
    refine outputsSound_iff.mpr { outputsSound_iff.mp h with pairs := fun k hk => ?_ }
    rcases List.mem_append.mp hk with hk | hk
    · exact h.pairs k hk
    · rw [List.mem_singleton.mp hk]
      exact makeTicket_pairsNamed _ hn

theorem perform_outputsSound (r : Request) {s : State} (h : OutputsSound s) : OutputsSound (perform r s).state := by
  cases r <;> simp only [perform]
  case startTimebase x m => exact doStartTimebase_outputsSound x m h
  case stopTimebase x k => exact doStopTimebase_outputsSound x k h
  case issueTicket t => exact doIssueTicket_outputsSound t h
  case cancelById id =>
    unfold doCancelById
    split
    · exact h.setQueue (h.pairs.filter _)
    · exact h
  case cancelAll x => exact h.setQueue (h.pairs.filter _)
  case setOverride t => exact doSetOverride_outputsSound t h
  case enableOutputs => exact doEnableOutputs_outputsSound h
  case disableOutputs m => exact doDisableOutputs_outputsSound m h
  case configureTripInput i v => unfold doConfigureTripInput; split <;> exact h
  case defineRoute n v => exact doDefineRoute_outputsSound n v h
  case removeRoute n => exact doRemoveRoute_outputsSound n h
  case clearTrip n => exact doClearTrip_outputsSound n h
  case fetchNotices n => unfold doFetchNotices; split <;> exact h
  all_goals exact h

/-! ## Deadtime events, resets and steps -/

/-- Counting on delays changes no hold level (R119). -/
theorem countDelays_hold (s : State) (pairs : Pair → Bool) (c : Chan) :
    ((s.countDelays pairs).output.channels.get c).hold = (s.output.channels.get c).hold := by
  simp only [State.countDelays, State.withOutput_output, ChanFile.get_ofFn]
  split <;> rfl

theorem OutputsReady.countDelays {s : State} (h : OutputsReady s) (pairs : Pair → Bool) :
    OutputsReady (s.countDelays pairs) :=
  { drain := h.drain, formed := fun p => (h.formed p).congr rfl rfl fun c _ => countDelays_hold s pairs c,
    level := h.level, pairs := h.pairs }

theorem clockTick_outputsSound (p : Pair) {s : State} (h : OutputsSound s) : OutputsSound (clockTick p s) := by
  have h := h.ready
  have hu : OutputsReady (s.withOutput { s.output with clocks := s.output.clocks.set p 0 }) :=
    { drain := h.drain, formed := h.formed, level := h.level, pairs := h.pairs }
  exact (hu.countDelays _).settle

/-- The state in which a rise of the channel that waited has taken effect. -/
def delayEnded (c : Chan) (s : State) : State :=
  s.withOutput { s.output with
    channels := s.output.channels.set c { s.output.channels.get c with output := .active, delay := none } }

theorem execDeadtimeDelayEnd_waiting {c : Chan} {s : State} (h : (s.output.channels.get c).delay ≠ none) :
    execDeadtimeDelayEnd c s = .next (delayEnded c s) :=
  congrArg _ (if_pos (Option.isSome_iff_ne_none.mpr h))

theorem execDeadtimeDelayEnd_idle {c : Chan} {s : State} (h : (s.output.channels.get c).delay = none) :
    execDeadtimeDelayEnd c s = .next s :=
  congrArg _ (if_neg (by simp [h]))

theorem delayEnded_same (c : Chan) (s : State) :
    (delayEnded c s).output.channels.get c = { s.output.channels.get c with output := .active, delay := none } := by
  simp [delayEnded]

theorem delayEnded_other {c d : Chan} (s : State) (h : d ≠ c) :
    (delayEnded c s).output.channels.get d = s.output.channels.get d := by
  simp [delayEnded, h]

/-- The end of a delay leaves selected and hold levels as they are. -/
theorem delayEnded_levels (c : Chan) (s : State) (d : Chan) :
    ((delayEnded c s).output.channels.get d).selected = (s.output.channels.get d).selected
      ∧ ((delayEnded c s).output.channels.get d).hold = (s.output.channels.get d).hold := by
  by_cases hd : d = c
  · subst hd
    rw [delayEnded_same]
    exact ⟨rfl, rfl⟩
  · rw [delayEnded_other s hd]
    exact ⟨rfl, rfl⟩

/-- A rise that waited was selected ACTIVE, so its output comes to the level selected for it (R119). -/
theorem delayEnded_outputsSound {c : Chan} {s : State} (h : OutputsSound s)
    (hd : (s.output.channels.get c).delay ≠ none) : OutputsSound (delayEnded c s) := by
  have h := outputsSound_iff.mp h
  have hlevels := delayEnded_levels c s
  refine outputsSound_iff.mpr
    { drain := h.drain, formed := fun p => (h.formed p).congr rfl rfl fun d _ => (hlevels d).2, level := h.level,
      pairs := h.pairs, floats := fun he d => (hlevels d).1.trans (h.floats he d),
      selected := h.selected.imp fun d => (hlevels d).1.symm.trans, driven := fun d => ?_ }
  by_cases hdc : d = c
  · subst hdc
    obtain ⟨_, hactive, _⟩ := (h.driven d).2 hd
    rw [DrivenSound, delayEnded_same]
    exact ⟨fun _ => hactive.symm, fun hn => absurd rfl hn⟩
  · rw [DrivenSound, delayEnded_other s hdc]
    exact h.driven d

/-- With pattern, tickets and outputs at their defaults, every pair is INDEPENDENT and every output floats (R177, R180). -/
theorem outputsSound_default {s : State} (hp : s.pattern = .default) (hc : s.commit = .default) (ho : s.output = .default) :
    OutputsSound s := by
  have hmode : ∀ p, (s.pattern.pairs.get p).mode = .independent := by
    intro p
    rw [hp]
    cases p <;> rfl
  have hchannel : ∀ c, s.output.channels.get c = .default := by
    intro c
    rw [ho]
    cases c <;> rfl
  have hind : ∀ marked, Apart s.pattern marked := fun _ c hm => nomatch (hmode (pairOf c)).symm.trans hm
  refine outputsSound_iff.mpr
    { drain := by rw [ho]; exact ⟨fun _ => rfl, by decide⟩
      formed := fun p => ⟨?_, fun hm => nomatch (hmode p).symm.trans hm⟩
      level := hind _
      pairs := by rw [hc]; exact fun t ht => nomatch ht
      floats := fun _ c => by rw [hchannel]; rfl
      selected := hind _
      driven := fun c => by rw [DrivenSound, hchannel]; exact ⟨fun _ => rfl, fun hd => absurd rfl hd⟩ }
  rw [hmode, ho]
  cases p <;> rfl

theorem OutputsSound.frame {s t : State} (h : OutputsSound s) (hb : SameBlocks s t) : OutputsSound t := by
  obtain ⟨_, _, hp, hc, _, ho, _⟩ := hb
  simp only [OutputsSound, NeverBoth, DrivenSound, hp, hc, ho] at h ⊢
  exact h

theorem outputsSound_kept : BlocksKeep OutputsSound where
  frame := OutputsSound.frame
  perform _ _ h := perform_outputsSound _ h
  post _ _ h := h
  controllerReset _ := outputsSound_default rfl rfl rfl
  poweredOn _ _ := outputsSound_default rfl rfl rfl
  silenced h := h
  tick x _ _ h := tickEvent_outputsSound x h
  expired id _ _ he h := by
    injection he with he
    subst he
    exact h.setQueue (h.pairs.filter _)
  pulse h := h
  syncCount _ _ h := h
  syncLevel l _ h := changeSyncLevel_outputsSound l h
  input i l _ h := sampleInput_outputsSound i l h
  assert i _ _ h := assertInput_outputsSound i h
  quiet i _ _ h := quietInput_outputsSound i h
  clock p _ _ h := clockTick_outputsSound p h
  delayEnd c s t he h := by
    by_cases hd : (s.output.channels.get c).delay = none
    · rw [execDeadtimeDelayEnd_idle hd] at he
      exact Host.Outcome.next.inj he ▸ h
    · rw [execDeadtimeDelayEnd_waiting hd] at he
      exact Host.Outcome.next.inj he ▸ delayEnded_outputsSound h hd
  timers h := h

/-- Settles O58: each operation of the blocks keeps the Output Stage sound (`BlocksKeep`), and of a sound one the outputs of a
COMPLEMENTARY pair are apart as its selected levels are. -/
theorem outputsStaySound : Obligations.OutputsStaySound := by
  intro s t hs he
  have ht : OutputsSound t := outputsSound_kept.step hs he
  exact ⟨ht, (outputsSound_iff.mp hs).noShootThrough, (outputsSound_iff.mp ht).noShootThrough⟩

end Sys2Proof.Machine
end

section
/-!
PROOFS (06_the_output_stage.md): ENABLE OUTPUTS, DISABLE OUTPUTS and SET OVERRIDE (R104 to R106, R111, R112).
-/

namespace Sys2Proof.Machine

/-! ## A DISABLED part floats (R105, R117, R121) -/

/-- Selecting again in DISABLED floats an output and abandons its delay; its hold level stays. -/
theorem settle_channel_disabled {s : State} (h : s.output.enable = .disabled) (c : Chan) :
    s.settle.output.channels.get c
      = { s.output.channels.get c with selected := .float, output := .float, delay := none } := by
  rw [settle_channel, settledChannel, selectLevel_disabled h, settleChannel_at_once _ (.inr (.inl (by decide)))]

theorem padOf_floating {s : State} {c : Chan} (h : (s.output.channels.get c).output = .float) : padOf s c = .float := by
  unfold padOf
  rw [h]
  split <;> rfl

/-! ## ENABLE OUTPUTS (R104) -/

theorem doEnableOutputs_enabled {s : State} (h : s.output.enable = .enabled) : doEnableOutputs s = accepted s [0x01] := by
  rw [doEnableOutputs, h]
  rfl

theorem doEnableOutputs_not_enabled {s : State} (h : s.output.enable ≠ .enabled) :
    doEnableOutputs s = accepted (s.setEnable .enabled 0).settle [0x01] := by
  unfold doEnableOutputs
  split
  · next he => exact absurd he h
  · rfl
  · rfl

theorem exec_enableOutputs {s : State} {tag : Byte} {a : Answer} (hl : Listening s) (hu : Unanswered s tag 0x41 [])
    (ha : doEnableOutputs (afterLastByte s) = a) :
    exec (.enableOutputs (addressedTo tag) []) s
      = .next (answered s a.state tag 0x41 [] (statusCode a.status :: a.content) a.action) :=
  exec_performs rfl hl hu rfl readRequest_enableOutputs rfl ha

/-! ## DISABLE OUTPUTS (R105, R106) -/

theorem exec_disableOutputsImmediate {s : State} {tag : Byte} (hl : Listening s) (hu : Unanswered s tag 0x42 [0]) :
    exec (.disableOutputsImmediate (addressedTo tag)) s
      = .next (answered s (s.setEnable .disabled 0).settle tag 0x42 [0] [0x00, 0x00] none) := by
  rw [exec_performs (r := .disableOutputs .immediate) rfl hl hu rfl rfl rfl rfl]
  exact congrArg _ (answered_congr ⟨rfl, rfl, rfl, rfl, rfl, rfl, rfl, rfl, rfl, rfl⟩)

theorem disableGraceful_disabled {s : State} (h : s.output.enable = .disabled) : disableGraceful s = accepted s [0x00] := by
  rw [disableGraceful, h]
  rfl

theorem disableGraceful_draining {s : State} (h : s.output.enable = .draining) : disableGraceful s = accepted s [0x02] := by
  rw [disableGraceful, h]
  rfl

/-- A drain that begins takes the channels of the set drained at once, and with all eight completes. -/
theorem drainInto_begun (set : ChannelSet) (s : State) :
    (drainInto set (s.setEnable .draining 0)).1
      = if set = allChannels then s.setEnable .disabled 0 else s.setEnable .draining set := by
  have hset : (0 : ChannelSet) ||| set = set := BitVec.zero_or
  show (if (0 : ChannelSet) ||| set = allChannels then (s.setEnable .disabled 0, true)
    else (s.setEnable .draining (0 ||| set), false)).1 = _
  rw [hset]
  split <;> rfl

theorem disableGraceful_enabled {s : State} (h : s.output.enable = .enabled) :
    disableGraceful s
      = if drainedAtEntry s = allChannels then accepted (s.setEnable .disabled 0).settle [0x00]
        else accepted (s.setEnable .draining (drainedAtEntry s)).settle [0x02] := by
  rw [disableGraceful, h]
  dsimp only
  rw [drainInto_begun]
  split <;> rfl

theorem exec_disableOutputsGraceful {s : State} {tag : Byte} {a : Answer} (hl : Listening s)
    (hu : Unanswered s tag 0x42 [1]) (ha : disableGraceful (afterLastByte s) = a) :
    exec (.disableOutputsGraceful (addressedTo tag)) s
      = .next (answered s a.state tag 0x42 [1] (statusCode a.status :: a.content) a.action) :=
  exec_performs (r := .disableOutputs .graceful) rfl hl hu rfl rfl rfl ha

theorem drainedAtEntry_eq_all {s : State} :
    drainedAtEntry s = allChannels ↔ ∀ c, isStopped (s.timebases.get (boundTo s.pattern c)) = true := by
  simp [set_eq_all_iff]

/-- Settles O28: the owner's answers by the enable state, and what selecting again in DISABLED leaves of an output. -/
theorem enableAndDisableOutputs : Obligations.EnableAndDisableOutputs := by
  refine ⟨fun s tag hl => ⟨fun hu he => ?_, fun hu he => ?_, fun hu => ?_⟩,
    fun s tag hl hu => ⟨fun he => ?_, fun he => ?_, fun he hall => ?_, fun he hsome => ?_⟩⟩
  · rw [exec_enableOutputs hl hu (doEnableOutputs_enabled (s := afterLastByte s) he)]
    exact congrArg _ (answered_afterLastByte s s tag _ _ _ none)
  · rw [exec_enableOutputs hl hu (doEnableOutputs_not_enabled (s := afterLastByte s) he)]
    exact congrArg _ (answered_congr ⟨rfl, rfl, rfl, rfl, rfl, rfl, rfl, rfl, rfl, rfl⟩)
  · have hchannel := settle_channel_disabled (s := s.setEnable .disabled 0) rfl
    refine ⟨_, exec_disableOutputsImmediate hl hu, rfl, rfl, rfl, rfl, fun c => ?_⟩
    have houtput : ((s.setEnable .disabled 0).settle.output.channels.get c).output = .float := by rw [hchannel]
    have hdelay := congrArg OutChannel.delay (hchannel c)
    have hhold := congrArg OutChannel.hold (hchannel c)
    exact ⟨houtput, hdelay, hhold, padOf_floating houtput⟩
  · rw [exec_disableOutputsGraceful hl hu (disableGraceful_disabled (s := afterLastByte s) he)]
    exact congrArg _ (answered_afterLastByte s s tag _ _ _ none)
  · rw [exec_disableOutputsGraceful hl hu (disableGraceful_draining (s := afterLastByte s) he)]
    exact congrArg _ (answered_afterLastByte s s tag _ _ _ none)
  · have ha := disableGraceful_enabled (s := afterLastByte s) he
    have hfull : drainedAtEntry (afterLastByte s) = allChannels := drainedAtEntry_eq_all.mpr hall
    rw [if_pos hfull] at ha
    rw [exec_disableOutputsGraceful hl hu ha]
    exact congrArg _ (answered_congr ⟨rfl, rfl, rfl, rfl, rfl, rfl, rfl, rfl, rfl, rfl⟩)
  · have ha := disableGraceful_enabled (s := afterLastByte s) he
    obtain ⟨c, hc⟩ := hsome
    have hleft : drainedAtEntry (afterLastByte s) ≠ allChannels := fun hfull =>
      nomatch hc.symm.trans (drainedAtEntry_eq_all.mp hfull c)
    rw [if_neg hleft] at ha
    refine ⟨drainedAtEntry s, inSet_drainedAtEntry s, ?_⟩
    rw [exec_disableOutputsGraceful hl hu ha]
    exact congrArg _ (answered_congr ⟨rfl, rfl, rfl, rfl, rfl, rfl, rfl, rfl, rfl, rfl⟩)

/-! ## SET OVERRIDE (R111, R112) -/

theorem readOverride_channel (c : Chan) (v : MemberForce) :
    readOverride 0 (chanByte c) (memberForceByte v) = some (.channel c v) := by
  cases v <;> simp [readOverride, memberForceByte]

theorem readOverride_pair (p : Pair) (v : PairForce) :
    readOverride 1 (pairByte p) (pairForceByte v) = some (.pair p v) := by
  cases v <;> simp [readOverride, pairForceByte]

/-- The state after the entry of a pair is replaced (R112). -/
def entryReplaced (p : Pair) (e : OverrideEntry) (s : State) : State :=
  (s.withOutput { s.output with overrides := s.output.overrides.set p e }).settle

theorem doSetOverride_channel_conflict {s : State} {c : Chan} (v : MemberForce) (h : modeOf s.pattern c = .complementary) :
    doSetOverride (.channel c v) s = refusedWith s .conflict := if_pos h

theorem doSetOverride_pair_conflict {s : State} {p : Pair} (v : PairForce)
    (h : (s.pattern.pairs.get p).mode = .independent) : doSetOverride (.pair p v) s = refusedWith s .conflict := if_pos h

theorem doSetOverride_channel {s : State} {c : Chan} {even odd : MemberForce} (v : MemberForce)
    (h : modeOf s.pattern c = .independent) (he : s.output.overrides.get (pairOf c) = .independent even odd) :
    let e : OverrideEntry := if isPrimary c then .independent v odd else .independent even v
    doSetOverride (.channel c v) s = accepted (entryReplaced (pairOf c) e s) (overrideBytes e) := by
  have hentry : setMemberForce (s.output.overrides.get (pairOf c)) c v
      = if isPrimary c then .independent v odd else .independent even v := by rw [he]; rfl
  intro e
  rw [doSetOverride, if_neg (by simp [h])]
  simp only [hentry]
  rfl

theorem doSetOverride_pair {s : State} {p : Pair} (v : PairForce) (h : (s.pattern.pairs.get p).mode = .complementary) :
    doSetOverride (.pair p v) s
      = accepted (entryReplaced p (.complementary v) s) [pairForceByte v, pairForceByte v] := if_neg (by simp [h])

theorem exec_setOverride {s : State} {tag form target value : Byte} {o : OverrideTarget} {a : Answer} (hl : Listening s)
    (hu : Unanswered s tag 0x40 [form, target, value]) (hr : readOverride form target value = some o)
    (ha : doSetOverride o (afterLastByte s) = a) :
    exec (.setOverride (addressedTo tag) [form, target, value]) s
      = .next (answered s a.state tag 0x40 [form, target, value] (statusCode a.status :: a.content) a.action) :=
  exec_performs (r := .setOverride o) rfl hl hu rfl (by rw [readRequest_setOverride, hr]; rfl) rfl ha

theorem independent_entry {e : OverrideEntry} (h : entryFits e .independent = true) :
    ∃ even odd, e = .independent even odd := by
  cases e with
  | independent even odd => exact ⟨even, odd, rfl⟩
  | complementary v => cases h

/-- Settles O29: both forms read back; the form is checked against the mode, and the entry, which is in the form of the mode, is
replaced. -/
theorem setOverrideChecksTheForm : Obligations.SetOverrideChecksTheForm := by
  refine fun s tag hl hfits => ⟨fun c v hu hm => ?_, fun p v hu hm => ?_, fun c v hu hm => ?_, fun p v hu hm => ?_⟩
  · exact exec_refused (exec_setOverride hl hu (readOverride_channel c v) rfl) (doSetOverride_channel_conflict v hm)
  · exact exec_refused (exec_setOverride hl hu (readOverride_pair p v) rfl) (doSetOverride_pair_conflict v hm)
  · have hentry := hfits (pairOf c)
    rw [show (s.pattern.pairs.get (pairOf c)).mode = .independent from hm] at hentry
    obtain ⟨even, odd, he⟩ := independent_entry hentry
    refine ⟨even, odd, he, ?_⟩
    rw [exec_setOverride hl hu (readOverride_channel c v) (doSetOverride_channel (s := afterLastByte s) v hm he)]
    exact congrArg _ (answered_congr ⟨rfl, rfl, rfl, rfl, rfl, rfl, rfl, rfl, rfl, rfl⟩)
  · rw [exec_setOverride hl hu (readOverride_pair p v) (doSetOverride_pair (s := afterLastByte s) v hm)]
    exact congrArg _ (answered_congr ⟨rfl, rfl, rfl, rfl, rfl, rfl, rfl, rfl, rfl, rfl⟩)

end Sys2Proof.Machine
end

section
/-!
PROOFS (06_the_output_stage.md): driving the outputs, and the deadtime events (R118 to R120).
-/

namespace Sys2Proof.Machine

/-! ## Driving an output (R118, R119) -/

theorem settle_driven (s : State) (c : Chan) :
    DrivenTo (modeOf s.pattern c) (deadtimeOf s.pattern c) (selectLevel s c) (s.output.channels.get c)
      (s.settle.output.channels.get c) := by
  rw [settle_channel]
  exact settleChannel_driven _ _ _ _

/-- Settles O31: the cases of `DrivenTo`, to the level selected before the outputs were driven. -/
theorem outputsFollowWithDeadtime : Obligations.OutputsFollowWithDeadtime := by
  intro s c before after
  obtain ⟨hhold, hselected, honce, hrise⟩ := settle_driven s c
  exact ⟨hselected, hhold, fun hl => honce (.inr (.inl hl)), fun hm => honce (.inl hm),
    fun hl ho => hl ▸ honce (.inr (.inr ho)), hrise⟩

/-! ## The deadtime clock (R120) -/

/-- The clock of a pair on a stopped timebase runs while a rise waits in the pair. -/
theorem clockRuns_of_waiting {s : State} {c : Chan} (hd : (s.output.channels.get c).delay ≠ none)
    (hs : isStopped (s.timebases.get (s.pattern.pairs.get (pairOf c)).timebase) = true) : clockRuns s (pairOf c) = true := by
  have hwaits : pairWaits s (pairOf c) = true := by
    rw [pairWaits, List.any_eq_true]
    refine ⟨c, ?_, Option.isSome_iff_ne_none.mpr hd⟩
    rw [List.mem_cons, List.mem_singleton]
    exact member_of_pair rfl
  rw [clockRuns, hwaits, hs]
  rfl

theorem exec_deadtimeClockTick {s : State} {p : Pair} (hr : s.inReset = false) (hc : clockRuns s p = true) :
    exec (.deadtimeClockTick p) s = .next (clockTick p s) :=
  congrArg _ (if_neg (by simp [hr, hc]))

theorem exec_deadtimeClockTick_running {s : State} {p : Pair}
    (hs : isStopped (s.timebases.get (s.pattern.pairs.get p).timebase) = false) :
    exec (.deadtimeClockTick p) s = .next s :=
  congrArg _ (if_pos (.inr (by rw [clockRuns, hs, Bool.and_false])))

theorem countDelays_counted {s : State} {pairs : Pair → Bool} {c : Chan} (h : pairs (pairOf c) = true) :
    (s.countDelays pairs).output.channels.get c
      = { s.output.channels.get c with delay := (s.output.channels.get c).delay.map (· + 1) } := by
  simp [State.countDelays, h]

/-- The state in which a tick of a pair's clock is counted and the outputs are not yet driven. -/
def clockCounted (p : Pair) (s : State) : State :=
  (s.withOutput { s.output with clocks := s.output.clocks.set p 0 }).countDelays fun q => decide (q = p)

theorem clockTick_eq (p : Pair) (s : State) : clockTick p s = (clockCounted p s).settle := rfl

/-- Counting on delays changes nothing that selecting reads (R117). -/
theorem selectLevel_clockCounted (p : Pair) (s : State) (c : Chan) : selectLevel (clockCounted p s) c = selectLevel s c :=
  selectLevel_congr c rfl rfl rfl (countDelays_hold _ _ c) rfl rfl

/-- A tick of the clock of its pair counts one on a channel's delay and drives its output from there; what is selected for it
stays (R119, R120). -/
theorem clockTick_driven (s : State) (c : Chan) :
    DrivenTo (modeOf s.pattern c) (deadtimeOf s.pattern c) (selectLevel s c)
      { s.output.channels.get c with delay := (s.output.channels.get c).delay.map (· + 1) }
      ((clockTick (pairOf c) s).output.channels.get c) := by
  have hcounted : (clockCounted (pairOf c) s).output.channels.get c
      = { s.output.channels.get c with delay := (s.output.channels.get c).delay.map (· + 1) } :=
    countDelays_counted (s := s.withOutput _) (decide_eq_true rfl)
  have h := settle_driven (clockCounted (pairOf c) s) c
  rwa [selectLevel_clockCounted, hcounted] at h

/-- Settles O32: a tick of the clock drives the outputs from the delays it has counted on, and the end of a delay is
`delayEnded`. -/
theorem deadtimeEvents : Obligations.DeadtimeEvents := by
  refine ⟨fun s p hr => ⟨fun c n hc hn hm ho hl hs => ?_, exec_deadtimeClockTick_running⟩, fun s c hd => ?_⟩
  · subst hc
    have hexec := exec_deadtimeClockTick hr (clockRuns_of_waiting (by simp [hn]) hs)
    obtain ⟨_, _, _, hrise⟩ := clockTick_driven s c
    rw [hn] at hrise
    exact ⟨_, hexec, rfl, rfl, rfl, rfl, hrise hm hl ho⟩
  · have houtput := congrArg OutChannel.output (delayEnded_same c s)
    have hdelay := congrArg OutChannel.delay (delayEnded_same c s)
    obtain ⟨hselected, hhold⟩ := delayEnded_levels c s c
    exact ⟨_, execDeadtimeDelayEnd_waiting hd, rfl, houtput, hdelay, hhold, hselected, fun d => delayEnded_other s,
      rfl, rfl, rfl, rfl⟩

end Sys2Proof.Machine
end

section
/-!
PROOFS (07_notices_and_the_attention_line.md): what events and requests do to the notice queue, and its invariant (R126, R127, R129,
R132).
-/

namespace Sys2Proof.Machine

/-! ## Events that only post -/

/-- From s to t the Notice Unit has taken events, and nothing else has reached it (R128). -/
def OnlyPosts (s t : State) : Prop := ∃ ps, t.notices = (s.post ps).notices

theorem OnlyPosts.of_notices {s t : State} (h : t.notices = s.notices) : OnlyPosts s t := ⟨[], h⟩

theorem OnlyPosts.refl (s : State) : OnlyPosts s s := .of_notices rfl

theorem OnlyPosts.of_posted {s t : State} {r : Raised} (h : Posted s t r) : OnlyPosts s t :=
  let ⟨ps, _, hps⟩ := h
  ⟨ps, hps⟩

/-- A change elsewhere before the events makes no difference to the Notice Unit. -/
theorem OnlyPosts.after {s u t : State} (h : OnlyPosts u t) (hu : u.notices = s.notices) : OnlyPosts s t := by
  obtain ⟨ps, hps⟩ := h
  exact ⟨ps, by rw [hps, State.post, State.post, hu]; rfl⟩

theorem tickEvent_onlyPosts (x : Tb) (s : State) : OnlyPosts s (tickEvent x s) := by
  obtain ⟨hnone, hmid, hstart⟩ := tickEvent_taken x s
  match h : (advance (s.timebases.get x)).2 with
  | none => exact .of_notices (by rw [hnone h]; rfl)
  | some .mid =>
    obtain ⟨_, _, hposted⟩ := hmid h
    exact .of_posted hposted
  | some .start =>
    obtain ⟨_, _, hposted⟩ := hstart h
    exact .of_posted hposted

theorem startNow_onlyPosts (x : Tb) (s : State) : OnlyPosts s (startNow x s) :=
  let ⟨_, _, hposted⟩ := startNow_taken x s
  .of_posted hposted

theorem stopNow_onlyPosts (x : Tb) (s : State) : OnlyPosts s (stopNow x s) :=
  let ⟨_, _, hposted⟩ := stopNow_taken x s
  .of_posted hposted

theorem changeSyncLevel_onlyPosts (l : Level) (s : State) : OnlyPosts s (changeSyncLevel l s) := by
  unfold changeSyncLevel
  dsimp only
  split
  · obtain ⟨_, _, _, _, _, _, _, _, _, hposted⟩ := syncEdge_taken (s.withSync { s.sync with filtered := l, agreement := 0 })
    exact (OnlyPosts.of_posted hposted).after rfl
  · exact .refl s

theorem execExpired_onlyPosts {id : Byte} {s t : State} (h : execExpired id s = .next t) : OnlyPosts s t := by
  injection h with h
  subst h
  exact ⟨_, rfl⟩

theorem assertInput_onlyPosts (i : TripName) (s : State) : OnlyPosts s (assertInput i s) := ⟨_, assertInput_notices i s⟩

theorem quietInput_onlyPosts (i : TripName) (s : State) : OnlyPosts s (quietInput i s) := ⟨_, quietInput_notices i s⟩

theorem sampleInput_onlyPosts (i : TripName) (l : Level) (s : State) : OnlyPosts s (sampleInput i l s) := by
  unfold sampleInput
  dsimp only
  split
  · split
    · exact assertInput_onlyPosts i s
    · exact quietInput_onlyPosts i s
  · exact .refl s

theorem execDeadtimeDelayEnd_onlyPosts {c : Chan} {s t : State} (h : execDeadtimeDelayEnd c s = .next t) :
    OnlyPosts s t := by
  injection h with h
  subst h
  dsimp only
  split <;> exact .refl s

/-! ## Requests of the other blocks -/

theorem doStartTimebase_onlyPosts (x : Tb) (m : StartMode) (s : State) : OnlyPosts s (doStartTimebase x m s).state := by
  unfold doStartTimebase
  dsimp only
  split
  · exact startNow_onlyPosts x s
  · exact .refl s
  · exact startNow_onlyPosts x s
  · exact .refl s
  · exact .refl s
  · exact .refl s

theorem doStopTimebase_onlyPosts (x : Tb) (k : StopKind) (s : State) : OnlyPosts s (doStopTimebase x k s).state := by
  cases k with
  | immediate =>
    simp only [doStopTimebase, stopImmediate]
    split
    · exact .refl s
    · exact stopNow_onlyPosts x s
  | atBoundary =>
    simp only [doStopTimebase, stopAtBoundary]
    split <;> exact .refl s

theorem doDisableOutputs_notices (m : DisableMode) (s : State) : (doDisableOutputs m s).state.notices = s.notices := by
  cases m with
  | immediate => rfl
  | graceful =>
    simp only [doDisableOutputs, disableGraceful]
    split
    · rfl
    · rfl
    · simp [accepted]

/-- DEFINE ROUTE posts where the input is ASSERTED already (R82). -/
theorem doDefineRoute_onlyPosts (n : Slot) (v : RouteRequest) (s : State) : OnlyPosts s (doDefineRoute n v s).state := by
  unfold doDefineRoute
  split
  · exact .refl s
  split
  · exact .refl s
  split
  · exact .refl s
  split
  · exact .refl s
  · exact ⟨_, rfl⟩

/-- CLEAR TRIP posts where the route re-arms at once (R93). -/
theorem doClearTrip_onlyPosts (n : Slot) (s : State) : OnlyPosts s (doClearTrip n s).state := by
  unfold doClearTrip
  split
  · exact .refl s
  split
  · exact .refl s
  · exact .refl s
  split
  · exact .refl s
  · exact ⟨_, rfl⟩

/-- Whether a request is of the Notice Unit: FETCH NOTICES, ACK NOTICES or SET ATTENTION MASK. -/
def forNoticeUnit : Request → Bool
  | .fetchNotices _ | .ackNotices _ | .setAttentionMask _ => true
  | _ => false

/-- Every request of another block only posts. -/
theorem perform_onlyPosts {r : Request} (hr : forNoticeUnit r = false) (s : State) : OnlyPosts s (perform r s).state := by
  cases r <;> simp only [perform]
  case fetchNotices n => cases hr
  case ackNotices t => cases hr
  case setAttentionMask set => cases hr
  case startTimebase x m => exact doStartTimebase_onlyPosts x m s
  case stopTimebase x k => exact doStopTimebase_onlyPosts x k s
  case issueTicket t => unfold doIssueTicket; split <;> exact .refl s
  case cancelById id => unfold doCancelById; split <;> exact .refl s
  case setOverride t => cases t <;> simp only [doSetOverride] <;> split <;> exact .refl s
  case enableOutputs => unfold doEnableOutputs; split <;> exact .refl s
  case disableOutputs m => exact .of_notices (doDisableOutputs_notices m s)
  case configureTripInput i v => unfold doConfigureTripInput; split <;> exact .refl s
  case defineRoute n v => exact doDefineRoute_onlyPosts n v s
  case removeRoute n => unfold doRemoveRoute; (repeat' split) <;> exact .refl s
  case clearTrip n => exact doClearTrip_onlyPosts n s
  all_goals exact .refl s

/-! ## The invariant through events (R126 to R130) -/

/-- What `NoticesSound` asks of each notice: repeat and token are never 0, and a notice of repeat 1 has one detail. -/
def NoticeSound (n : Notice) : Prop := n.count ≠ 0 ∧ n.token ≠ some 0 ∧ (n.count = 1 → n.first = n.last)

/-- What `NoticesSound` asks of the queue. -/
def QueueSound (q : List Notice) : Prop := (q.map Notice.key).Nodup ∧ ∀ n ∈ q, NoticeSound n

theorem queueSound_nil : QueueSound [] := ⟨List.nodup_nil, fun _ h => nomatch h⟩

theorem noticesSound_iff {s : State} : NoticesSound s ↔ QueueSound s.notices.queue ∧ s.notices.nextToken ≠ 0 :=
  ⟨fun ⟨hkeys, hnext, hnotices⟩ => ⟨⟨hkeys, hnotices⟩, hnext⟩, fun ⟨⟨hkeys, hnotices⟩, hnext⟩ => ⟨hkeys, hnext, hnotices⟩⟩

/-- A repeat that goes up, or stays at 255, is neither 0 nor 1 (R129). -/
theorem one_lt_bumpCount {n : Byte} (h : n ≠ 0) : 1 < (bumpCount n).toNat := by
  unfold bumpCount
  split <;> bv_omega

theorem freshNotice_sound (p : Posting) : NoticeSound (freshNotice p) := ⟨(by decide : (1 : Byte) ≠ 0), nofun, fun _ => rfl⟩

/-- A merged notice has a repeat above 1, so its two details may differ (R129, R130). -/
theorem mergeNotice_sound {n : Notice} (d : Detail) (h : NoticeSound n) : NoticeSound (mergeNotice n d) := by
  obtain ⟨hzero, _⟩ := h
  have hcount : 1 < (mergeNotice n d).count.toNat := one_lt_bumpCount hzero
  exact ⟨fun h0 => by simp [h0] at hcount, nofun, fun h1 => by simp [h1] at hcount⟩

theorem postTo_sound {q : List Notice} (p : Posting) (h : QueueSound q) : QueueSound (postTo q p) := by
  obtain ⟨hkeys, hnotices⟩ := h
  exact ⟨postTo_nodup p hkeys, postTo_forall p hnotices (freshNotice_sound p) fun _ => mergeNotice_sound p.detail⟩

theorem foldl_postTo_sound {q : List Notice} (ps : List Posting) (h : QueueSound q) : QueueSound (ps.foldl postTo q) := by
  induction ps generalizing q with
  | nil => exact h
  | cons p ps ih => exact ih (postTo_sound p h)

theorem NoticesSound.posted {s t : State} (h : NoticesSound s) (ht : OnlyPosts s t) : NoticesSound t := by
  obtain ⟨ps, hps⟩ := ht
  obtain ⟨hqueue, hnext⟩ := noticesSound_iff.mp h
  rw [noticesSound_iff, hps]
  exact ⟨foldl_postTo_sound ps hqueue, hnext⟩

/-! ## The invariant through the Notice Unit's requests (R132, R133, R135) -/

theorem nextTokenAfter_ne_zero (t : Byte) : nextTokenAfter t ≠ 0 := by
  unfold nextTokenAfter
  split <;> bv_omega

/-- Stamping changes no class and source. -/
theorem stampFirst_keys (n : Nat) (t : Byte) (q : List Notice) : (stampFirst n t q).map Notice.key = q.map Notice.key := by
  have hstamp : Notice.key ∘ (fun m : Notice => { m with token := some t }) = Notice.key := rfl
  rw [stampFirst, List.map_append, List.map_map, hstamp, ← List.map_append, List.take_append_drop]

theorem stampFirst_sound {q : List Notice} (n : Nat) {t : Byte} (ht : t ≠ 0) (h : QueueSound q) :
    QueueSound (stampFirst n t q) := by
  obtain ⟨hkeys, hnotices⟩ := h
  refine ⟨by rwa [stampFirst_keys], fun m hm => ?_⟩
  rcases List.mem_append.mp hm with hm | hm
  · obtain ⟨k, hk, rfl⟩ := List.mem_map.mp hm
    obtain ⟨hcount, _, hdetail⟩ := hnotices k (List.mem_of_mem_take hk)
    exact ⟨hcount, fun e => ht (Option.some.inj e), hdetail⟩
  · exact hnotices m (List.mem_of_mem_drop hm)

theorem QueueSound.sublist {q q' : List Notice} (h : QueueSound q) (hq : q'.Sublist q) : QueueSound q' := by
  obtain ⟨hkeys, hnotices⟩ := h
  exact ⟨(hq.map _).nodup hkeys, fun n hn => hnotices n (hq.subset hn)⟩

theorem doFetchNotices_sound (n : Nat) {s : State} (h : NoticesSound s) : NoticesSound (doFetchNotices n s).state := by
  unfold doFetchNotices
  split
  · exact h
  · obtain ⟨hqueue, hnext⟩ := noticesSound_iff.mp h
    exact noticesSound_iff.mpr ⟨stampFirst_sound n hnext hqueue, nextTokenAfter_ne_zero _⟩

theorem doAckNotices_sound (t : Byte) {s : State} (h : NoticesSound s) : NoticesSound (doAckNotices t s).state := by
  obtain ⟨hqueue, hnext⟩ := noticesSound_iff.mp h
  exact noticesSound_iff.mpr ⟨hqueue.sublist List.filter_sublist, hnext⟩

theorem perform_noticesSound (r : Request) {s : State} (h : NoticesSound s) : NoticesSound (perform r s).state := by
  cases hr : forNoticeUnit r with
  | false => exact h.posted (perform_onlyPosts hr s)
  | true =>
    cases r <;> simp only [forNoticeUnit, Bool.false_eq_true] at hr
    case fetchNotices n => exact doFetchNotices_sound n h
    case ackNotices t => exact doAckNotices_sound t h
    case setAttentionMask set => exact h

/-! ## The invariant through resets and steps (R140, R141) -/

/-- A queue of the RESET notice alone is sound. -/
theorem noticesSound_resetAlone {s : State} {c : ResetCause} {strapFault : Bool}
    (hq : s.notices.queue = [resetNotice c strapFault]) (hnext : s.notices.nextToken ≠ 0) : NoticesSound s := by
  refine noticesSound_iff.mpr ⟨?_, hnext⟩
  rw [hq]
  refine ⟨List.nodup_cons.mpr ⟨List.not_mem_nil, List.nodup_nil⟩, fun n hn => ?_⟩
  rw [List.mem_singleton.mp hn]
  exact freshNotice_sound { key := .reset, detail := .reset c strapFault }

/-- A controller reset keeps the token counter, and posts the TRIP notices behind its own (R141). -/
theorem controllerReset_noticesSound {s : State} (h : NoticesSound s) : NoticesSound (controllerReset s) := by
  obtain ⟨_, hnext, _⟩ := h
  have hcleared : NoticesSound (s.withNotices (noticesAfterReset s.notices s.link.strapFault)) :=
    noticesSound_resetAlone rfl hnext
  exact hcleared.posted ⟨repostNotices s.trip.routes, rfl⟩

theorem noticesSound_kept : BlocksKeep NoticesSound where
  frame h hb := by
    obtain ⟨_, _, _, _, _, _, hn⟩ := hb
    exact h.posted (.of_notices hn)
  perform _ _ h := perform_noticesSound _ h
  post ps _ h := h.posted ⟨ps, rfl⟩
  controllerReset h := controllerReset_noticesSound h
  poweredOn _ _ := noticesSound_resetAlone rfl (by decide : (1 : Byte) ≠ 0)
  silenced _ := noticesSound_iff.mpr ⟨queueSound_nil, (by decide : (1 : Byte) ≠ 0)⟩
  tick x s _ h := h.posted (tickEvent_onlyPosts x s)
  expired _ _ _ he h := h.posted (execExpired_onlyPosts he)
  pulse h := h
  syncCount _ _ h := h
  syncLevel l s h := h.posted (changeSyncLevel_onlyPosts l s)
  input i l s h := h.posted (sampleInput_onlyPosts i l s)
  assert i s _ h := h.posted (assertInput_onlyPosts i s)
  quiet i s _ h := h.posted (quietInput_onlyPosts i s)
  clock _ _ _ h := h
  delayEnd _ _ _ he h := h.posted (execDeadtimeDelayEnd_onlyPosts he)
  timers h := h

/-- Settles O53: every event, and every request of another block, only posts (`OnlyPosts`); posting, stamping and acknowledging keep
the queue sound; and `BlocksKeep` carries that to steps. -/
theorem noticesStaySound : Obligations.NoticesStaySound :=
  fun _ _ hs he => noticesSound_kept.step hs he

end Sys2Proof.Machine
end

section
/-!
PROOFS (07_notices_and_the_attention_line.md): the place of an event in the queue, the requests of the Notice Unit, and the ATTENTION
line (R128 to R130, R132 to R135, R137, R138).
-/

namespace Sys2Proof.Machine

/-! ## The ATTENTION line (R138) -/

/-- A class is in the mask when the bit of its code is set (R184, R186). -/
theorem inMask_eq_getLsbD (mask : ClassSet) (k : NoticeKey) : inMask mask k = mask.getLsbD (classCode k) := by
  cases k <;> rfl

theorem attention_iff (s : State) :
    attention s = true
      ↔ s.inReset = false ∧ ∃ n ∈ s.notices.queue, n.token = none ∧ s.notices.mask.getLsbD (classCode n.key) = true := by
  simp only [attention, inMask_eq_getLsbD, Bool.and_eq_true, Bool.not_eq_true', List.any_eq_true, Option.isNone_iff_eq_none]

/-- An event that is new to the queue asserts ATTENTION when its class is in the mask, and otherwise leaves it (R128, R138). -/
theorem attention_post_new {s : State} {p : Posting} (h : ∀ n ∈ s.notices.queue, n.key ≠ p.key) :
    attention (s.post [p]) = (attention s || (!s.inReset && inMask s.notices.mask p.key)) := by
  have hqueue : (s.post [p]).notices.queue = s.notices.queue ++ [freshNotice p] := postTo_new h
  unfold attention
  rw [hqueue, List.any_append, Bool.and_or_distrib_left]
  simp [freshNotice, State.post]

/-! ## Posting one event (R128 to R130) -/

theorem post_single_notices (s : State) (p : Posting) :
    (s.post [p]).notices = { s.notices with queue := postTo s.notices.queue p } := rfl

/-- Settles O42: a single event is placed by `postTo`, whose three cases they are. -/
theorem postingAnEvent : Obligations.PostingAnEvent := by
  refine ⟨fun s p h => ⟨freshNotice p, ?_, rfl, rfl, rfl, rfl, rfl, attention_post_new h⟩,
    fun s p before after n hq hs hk ht => ?_, fun s p before after n hq hs hk ht => ?_⟩
  · rw [post_single_notices, postTo_new h]
    rfl
  · obtain ⟨hkeys, _⟩ := hs
    rw [hq] at hkeys
    rw [post_single_notices, hq, postTo_unfetched hkeys hk ht]
    rfl
  · obtain ⟨hkeys, _⟩ := hs
    rw [hq] at hkeys
    rw [post_single_notices, hq, postTo_fetched hkeys hk ht]
    rfl

/-! ## FETCH NOTICES (R132, R133) -/

/-- An answer that replaces what the Notice Unit holds. -/
theorem answered_withNotices (s : State) (v : NoticeUnit) (tag kind : Byte) (args payload : List Byte) :
    answered s ((afterLastByte s).withNotices v) tag kind args payload none
      = answered s (s.withNotices v) tag kind args payload none :=
  answered_congr (by simp)

theorem readRequest_fetchNotices_none {n : Byte} (h : n.toNat = 0 ∨ 4 < n.toNat) : readRequest 0x60 [n] = none := by
  rw [readRequest_fetchNotices, if_neg (by omega)]

theorem doFetchNotices_empty {s : State} (n : Nat) (h : s.notices.queue = []) :
    doFetchNotices n s = accepted s [0x00, 0x00, 0x00] := by
  rw [doFetchNotices, h]
  rfl

theorem doFetchNotices_stamps {s : State} (n : Nat) (h : s.notices.queue ≠ []) :
    doFetchNotices n s = accepted
      (s.withNotices { s.notices with
        queue := stampFirst n s.notices.nextToken s.notices.queue, nextToken := nextTokenAfter s.notices.nextToken })
      ([ s.notices.nextToken, natByte (s.notices.queue.take n).length, natByte s.notices.queue.length ]
        ++ (s.notices.queue.take n).flatMap noticeEntry) := by
  rw [doFetchNotices, if_neg (by simpa using h)]

/-- Settles O43: a number out of range does not read; the rest is the owner's, by whether the queue is empty. -/
theorem fetchNoticesStampsTheHead : Obligations.FetchNoticesStampsTheHead := by
  intro s tag n hl hu
  have hr : 1 ≤ n.toNat → n.toNat ≤ 4 → readRequest 0x60 [n] = some (.fetchNotices n.toNat) := fun h1 h4 => by
    rw [readRequest_fetchNotices, if_pos ⟨h1, h4⟩]
  refine ⟨fun h => ?_, fun h1 h4 hq => ?_, fun h1 h4 hq => ?_⟩
  · exact exec_badArgument rfl hl hu rfl (readRequest_fetchNotices_none h)
  · exact exec_reads rfl hl hu rfl (hr h1 h4) rfl (doFetchNotices_empty n.toNat hq)
  · rw [exec_performs rfl hl hu rfl (hr h1 h4) rfl (doFetchNotices_stamps (s := afterLastByte s) n.toNat hq)]
    exact congrArg _ (answered_withNotices s _ tag _ _ _)

/-! ## ACK NOTICES and SET ATTENTION MASK (R135, R137) -/

/-- The notices that ACK NOTICES removes are those that carry the token. -/
theorem length_sub_withoutToken (t : Byte) (q : List Notice) :
    q.length - (withoutToken t q).length = (q.filter fun n => n.token = some t).length := by
  have hsplit := List.length_eq_countP_add_countP (l := q) fun n => decide (n.token = some t)
  simp only [List.countP_eq_length_filter, decide_eq_true_eq] at hsplit
  simp only [withoutToken, ne_eq]
  omega

theorem readClassSet_none {high : Byte} (low : Byte) (h : 1 < high.toNat) : readClassSet high low = none := by
  unfold readClassSet
  simp only [toNat_word16]
  exact if_neg (by omega)

theorem readClassSet_toNat {high low : Byte} {set : ClassSet} (h : set.toNat = high.toNat * 256 + low.toNat) :
    readClassSet high low = some set := by
  have hlt : set.toNat < 512 := set.isLt
  unfold readClassSet
  simp only [toNat_word16, ← h]
  rw [if_pos hlt, BitVec.ofNat_toNat, BitVec.setWidth_eq]

theorem exec_ackNotices {s : State} {tag t : Byte} (hl : Listening s) (hu : Unanswered s tag 0x61 [t]) :
    exec (.ackNotices (addressedTo tag) [t]) s
      = .next (answered s (s.withNotices { s.notices with queue := withoutToken t s.notices.queue }) tag 0x61 [t]
          [0x00, natByte (s.notices.queue.filter fun n => n.token = some t).length] none) := by
  rw [exec_performs rfl hl hu rfl (readRequest_ackNotices t) rfl rfl, ← length_sub_withoutToken]
  exact congrArg _ (answered_withNotices s _ tag _ _ _)

theorem exec_setAttentionMask {s : State} {tag high low : Byte} {set : ClassSet} (hl : Listening s)
    (hu : Unanswered s tag 0x62 [high, low]) (hr : readClassSet high low = some set) :
    exec (.setAttentionMask (addressedTo tag) [high, low]) s
      = .next (answered s (s.withNotices { s.notices with mask := set }) tag 0x62 [high, low] [0x00] none) := by
  rw [exec_performs (r := .setAttentionMask set) rfl hl hu rfl (by rw [readRequest_setAttentionMask, hr]; rfl) rfl rfl]
  exact congrArg _ (answered_withNotices s _ tag _ _ _)

/-- Settles O44: the two rows are their owner's answers, a mask with reserved bits does not read, and ATTENTION is `attention_iff`. -/
theorem ackMaskAndAttention : Obligations.AckMaskAndAttention :=
  ⟨fun _ _ hl => ⟨fun _ hu => exec_ackNotices hl hu, fun _ low hu =>
      ⟨fun h => exec_badArgument rfl hl hu rfl (by rw [readRequest_setAttentionMask, readClassSet_none low h]; rfl),
        fun _ hset => exec_setAttentionMask hl hu (readClassSet_toNat hset)⟩⟩,
    attention_iff⟩

end Sys2Proof.Machine
end

section
/-!
PROOFS (08_the_message_link.md): what the events of the line, of the receiver and of the transmitter do to the Link Interface, and
the invariant of the link (R144 to R160, R179 to R181).
-/

namespace Sys2Proof.Machine

/-! ## The invariant, on the Link Interface alone -/

/-- What `LinkSound` says of the Link Interface, field by field (R145, R146, R150, R151, R157). -/
structure LinkHolds (l : LinkInterface) : Prop where
  settings : SettingsSound l.settings
  address : 1 ≤ l.nodeAddress.toNat ∧ l.nodeAddress.toNat ≤ 30
  pending : ∀ r v, replyHeld l.transmitter = some r → r.action = some (.settings v) → SettingsSound v
  hunting : l.transmitter ≠ .idle ∨ l.highWait ≠ none → l.receiver = .hunt ∧ l.bits = .waiting
  standing : l.receiver = .hunt → l.gapTimer = none

theorem linkSound_iff {s : State} : LinkSound s ↔ LinkHolds s.link := by
  constructor
  · rintro ⟨hset, hlow, hhigh, hpend, hhunt, hgap⟩
    exact ⟨hset, ⟨hlow, hhigh⟩, hpend, hhunt, hgap⟩
  · rintro ⟨hset, ⟨hlow, hhigh⟩, hpend, hhunt, hgap⟩
    exact ⟨hset, hlow, hhigh, hpend, hhunt, hgap⟩

/-- The part takes bytes: its transmitter is IDLE, and it does not wait for a high line (R150, R157). -/
def TakesBytes (l : LinkInterface) : Prop := l.transmitter = .idle ∧ l.highWait = none

theorem takesBytes_of_takesNoByte {s : State} (h : takesNoByte s = false) : TakesBytes s.link := by
  unfold takesNoByte deaf transmitterIdle at h
  refine ⟨?_, ?_⟩
  · cases ht : s.link.transmitter <;> simp [ht] at h ⊢
  · cases hw : s.link.highWait <;> simp [hw] at h ⊢

theorem takesNoByte_eq_false_iff {s : State} : takesNoByte s = false ↔ Listening s ∧ s.link.highWait = none := by
  refine ⟨fun h => ?_, fun ⟨hl, hw⟩ => by simp [takesNoByte, deaf_of_listening hl, hw]⟩
  obtain ⟨hidle, hwait⟩ := takesBytes_of_takesNoByte h
  refine ⟨⟨?_, hidle⟩, hwait⟩
  have hdeaf := deaf_of_takesNoByte h
  simp only [deaf, Bool.or_eq_false_iff] at hdeaf
  exact hdeaf.1

theorem TakesBytes.not_hunting {l : LinkInterface} (h : TakesBytes l) : ¬ (l.transmitter ≠ .idle ∨ l.highWait ≠ none) :=
  not_or.mpr ⟨not_not_intro h.1, not_not_intro h.2⟩

namespace LinkHolds

variable {l : LinkInterface}

/-- Within a frame or within a byte the part takes bytes. -/
theorem takesBytes (h : LinkHolds l) (hin : l.receiver ≠ .hunt ∨ l.bits ≠ .waiting) : TakesBytes l := by
  refine Classical.byContradiction fun hn => ?_
  obtain ⟨hhunt, hwait⟩ := h.hunting (Classical.not_and_iff_not_or_not.mp hn)
  exact hin.elim (· hhunt) (· hwait)

/-- A part that takes bytes may be anywhere in a frame and in a byte, as long as its gap timer stands in HUNT. -/
theorem within (h : LinkHolds l) (ht : TakesBytes l) {r : Receiver} (b : BitReceiver) {g : Option Nat}
    (hg : r = .hunt → g = none) : LinkHolds { l with receiver := r, bits := b, gapTimer := g } :=
  { h with hunting := fun hn => absurd hn ht.not_hunting, standing := hg }

/-- A receiver in HUNT with no bit in progress is sound whatever the part waits for. -/
theorem hunt (h : LinkHolds l) (w : Option Nat) :
    LinkHolds { l with receiver := .hunt, bits := .waiting, gapTimer := none, highWait := w } :=
  { h with hunting := fun _ => ⟨rfl, rfl⟩, standing := fun _ => rfl }

/-- The measures of low time and of the break are free, and the wait for a high line may begin again. -/
theorem measured (h : LinkHolds l) (low : Option Nat) (seen : Bool) (f : Nat → Nat) :
    LinkHolds { l with lowTime := low, breakSeen := seen, highWait := l.highWait.map f } := by
  refine { h with hunting := fun hn => h.hunting (hn.imp_right fun hw h0 => hw ?_) }
  rw [h0]
  rfl

/-- A part in HUNT with no bit in progress may hold any reply whose pending settings are in range. -/
theorem holding (h : LinkHolds l) {x : Transmitter} (hr : l.receiver = .hunt) (hb : l.bits = .waiting)
    (hx : ∀ r v, replyHeld x = some r → r.action = some (.settings v) → SettingsSound v) :
    LinkHolds { l with transmitter := x } :=
  { h with pending := hx, hunting := fun _ => ⟨hr, hb⟩ }

/-- The wait for a high line may end, and so may the reply. -/
theorem resting (h : LinkHolds l) {x : Transmitter} {w : Option Nat} (hx : x = .idle ∨ x = l.transmitter)
    (hw : w = none ∨ w = l.highWait) : LinkHolds { l with transmitter := x, highWait := w } := by
  refine { h with pending := fun r v hr => ?_, hunting := fun hn => h.hunting (hn.imp (fun h1 => ?_) fun h1 => ?_) }
  · rcases hx with rfl | rfl
    · cases hr
    · exact h.pending r v hr
  · exact hx.elim (absurd · h1) (· ▸ h1)
  · exact hw.elim (absurd · h1) (· ▸ h1)

theorem withSettings (h : LinkHolds l) {v : LinkSettings} (hv : SettingsSound v) : LinkHolds { l with settings := v } :=
  { h with settings := hv }

theorem withLowTime (h : LinkHolds l) (low : Option Nat) : LinkHolds { l with lowTime := low } := { h with }

end LinkHolds

/-! ## What the operations of the link leave -/

theorem lineHigh_linkHolds {s : State} (h : LinkHolds s.link) : LinkHolds (lineHigh s).link := h.measured _ _ _

theorem lineLow_linkHolds (n : Nat) {s : State} (h : LinkHolds s.link) : LinkHolds (lineLow n s).link :=
  h.measured _ s.link.breakSeen _

theorem lineHigh_takesBytes {s : State} (h : TakesBytes s.link) : TakesBytes (lineHigh s).link :=
  ⟨h.1, congrArg (Option.map _) h.2⟩

theorem lineLow_takesBytes (n : Nat) {s : State} (h : TakesBytes s.link) : TakesBytes (lineLow n s).link :=
  ⟨h.1, congrArg (Option.map _) h.2⟩

theorem receiverAt_linkHolds {s : State} {r : Receiver} (h : LinkHolds s.link) (ht : TakesBytes s.link) (hr : r ≠ .hunt) :
    LinkHolds (s.receiverAt r).link := h.within ht s.link.bits fun e => absurd e hr

theorem backToHunt_linkHolds {s : State} (h : LinkHolds s.link) : LinkHolds s.backToHunt.link :=
  { h with hunting := fun hn => ⟨rfl, (h.hunting hn).2⟩, standing := fun _ => rfl }

theorem dropFrame_linkHolds {s : State} (r : LinkReason) (h : LinkHolds s.link) : LinkHolds (s.dropFrame r).link :=
  backToHunt_linkHolds h

theorem confirmStart_linkHolds {s : State} (h : LinkHolds s.link) (ht : TakesBytes s.link) :
    LinkHolds (confirmStart s).link := h.within ht _ fun _ => rfl

theorem bitsWait_linkHolds {s : State} (h : LinkHolds s.link) : LinkHolds s.bitsWait.link :=
  { h with hunting := fun hn => ⟨(h.hunting hn).1, rfl⟩ }

theorem afterLastByte_linkHolds {s : State} (h : LinkHolds s.link) : LinkHolds (afterLastByte s).link :=
  (h.hunt none).measured none false id

theorem framingError_linkHolds {s : State} (h : LinkHolds s.link) : LinkHolds (framingError s).link := by
  have hwait := bitsWait_linkHolds (lineLow_linkHolds 0 h)
  unfold framingError
  dsimp only
  split
  · exact hwait
  · exact dropFrame_linkHolds _ hwait

theorem highWaitEnds_linkHolds {s : State} (h : LinkHolds s.link) : LinkHolds (highWaitEnds s).link :=
  (lineHigh_linkHolds h).resting (.inr rfl) (.inl rfl)

/-! ## The transmitter and the resets -/

theorem startSending_linkHolds {s : State} {r : Reply} {elapsed : Nat} {wait : Byte} (h : LinkHolds s.link)
    (ht : s.link.transmitter = .turnaround r elapsed wait) : LinkHolds (startSending r s).link := by
  obtain ⟨hhunt, hwait⟩ := h.hunting (.inl (by simp [ht]))
  exact (h.holding (x := .sending r 0) hhunt hwait fun q v hq => h.pending q v (by rw [ht]; exact hq)).withLowTime none

theorem completeReply_linkHolds {s : State} {r : Reply} {elapsed : Nat} (h : LinkHolds s.link)
    (ht : s.link.transmitter = .sending r elapsed) : LinkHolds (completeReply r s).link := by
  have hidle : LinkHolds (idleLink s) := (h.resting (.inl rfl) (.inr rfl)).withLowTime _
  unfold completeReply settleAction
  split
  · exact hidle
  · next v ha => exact hidle.withSettings (h.pending r v (by rw [ht]; rfl) ha)
  · rw [(controllerReset_keeps _).1]
    exact hidle

theorem strapSettings_sound (r : Rate) : SettingsSound (strapSettings r) := by
  simp [SettingsSound, strapSettings]

/-- A break leaves the link as `linkAfterBreak` says, also where it brings about a controller reset (R157, R158). -/
theorem linkReset_link (s : State) : (linkReset s).link = linkAfterBreak s.link := by
  unfold linkReset
  dsimp only
  split
  · exact (controllerReset_keeps _).1
  · rfl
  · rfl

theorem linkReset_linkHolds {s : State} (h : LinkHolds s.link) : LinkHolds (linkReset s).link := by
  rw [linkReset_link]
  exact { settings := strapSettings_sound _, address := h.address, pending := nofun,
          hunting := fun _ => ⟨rfl, rfl⟩, standing := fun _ => rfl }

/-- The node address that the straps give is in range (R146). -/
theorem strapAddress_range (straps : BitVec 5) :
    1 ≤ (strapAddress straps).1.toNat ∧ (strapAddress straps).1.toNat ≤ 30 := by
  revert straps
  decide

theorem linkAtPowerOn_linkHolds (pins : Contacts) : LinkHolds (linkAtPowerOn pins) :=
  { settings := strapSettings_sound _, address := strapAddress_range _, pending := nofun,
    hunting := fun _ => ⟨rfl, rfl⟩, standing := fun _ => rfl }

/-- While RST is low the straps read before stay (R179, log 16). -/
theorem powerOnReset_linkHolds {s t : State} (h : LinkHolds s.link) (he : execPowerOnReset s = .next t) :
    LinkHolds t.link := by
  injection he with he
  subst he
  exact { settings := h.settings, address := h.address, pending := nofun,
          hunting := fun _ => ⟨rfl, rfl⟩, standing := fun _ => rfl }

/-! ## Requests -/

/-- Only SET LINK and RESET CONTROLLER mark their reply with a pending action (R159, R176). -/
theorem perform_action {r : Request} (h1 : ∀ v, r ≠ .setLink v) (h2 : r ≠ .resetController) (s : State) :
    (perform r s).action = none := by
  cases r <;> simp only [perform]
  case setLink v => exact absurd rfl (h1 v)
  case resetController => exact absurd rfl h2
  case startTimebase x m => simp only [doStartTimebase]; split <;> rfl
  case stopTimebase x m =>
    cases m
    · simp only [doStopTimebase, stopImmediate]; split <;> rfl
    · simp only [doStopTimebase, stopAtBoundary]; split <;> rfl
  case issueTicket t => simp only [doIssueTicket]; split <;> rfl
  case cancelById id => simp only [doCancelById]; split <;> rfl
  case setOverride t => cases t <;> simp only [doSetOverride] <;> split <;> rfl
  case enableOutputs => simp only [doEnableOutputs]; split <;> rfl
  case disableOutputs m =>
    cases m
    · rfl
    · simp only [doDisableOutputs, disableGraceful]; split <;> rfl
  case configureTripInput i v => simp only [doConfigureTripInput]; split <;> rfl
  case defineRoute n v => simp only [doDefineRoute]; (repeat' split) <;> rfl
  case removeRoute n => simp only [doRemoveRoute]; (repeat' split) <;> rfl
  case clearTrip n => simp only [doClearTrip]; (repeat' split) <;> rfl
  case fetchNotices n => simp only [doFetchNotices]; split <;> rfl
  all_goals rfl

/-- The settings that a request leaves pending are in range (R159, R165). -/
theorem carryOut_pending_sound {kind : Byte} {args : List Byte} {s : State} {v : LinkSettings}
    (h : (carryOut kind args s).action = some (.settings v)) : SettingsSound v := by
  unfold carryOut at h
  split at h
  · cases h
  · split at h
    · cases h
    · split at h
      · cases h
      · next r hr =>
        have hsound := readRequest_sound _ _ _ hr
        by_cases h1 : ∃ w, r = .setLink w
        · obtain ⟨w, rfl⟩ := h1
          cases h
          exact hsound
        · by_cases h2 : r = .resetController
          · subst h2
            cases h
          · rw [perform_action (not_exists.mp h1) h2] at h
            cases h

theorem handReply_linkHolds {s : State} {r : Reply} (h : LinkHolds s.link) (hr : s.link.receiver = .hunt)
    (hb : s.link.bits = .waiting) (ha : ∀ v, r.action = some (.settings v) → SettingsSound v) :
    LinkHolds (handReply r s).link :=
  h.holding hr hb fun q v hq hv => by
    cases hq
    exact ha v hv

/-- A request to a part in HUNT: the reply waits its turnaround, with pending settings in range (R154, R159, R164). -/
theorem acceptAddressed_linkHolds (tag kind : Byte) (args : List Byte) {s : State} (h : LinkHolds s.link)
    (hr : s.link.receiver = .hunt) (hb : s.link.bits = .waiting) : LinkHolds (acceptAddressed tag kind args s).link := by
  unfold acceptAddressed
  dsimp only
  split
  · exact handReply_linkHolds h hr hb nofun
  · have hlink := (carryOut_keeps kind args s).1
    unfold answerNew
    dsimp only
    refine handReply_linkHolds ?_ ?_ ?_ fun v hv => carryOut_pending_sound hv <;>
      rw [State.withCache_link, hlink] <;> assumption

theorem acceptFrame_linkHolds (c : Cast) (tag kind : Byte) (args : List Byte) {s : State} (h : LinkHolds s.link) :
    LinkHolds (acceptFrame c tag kind args s).link := by
  unfold acceptFrame
  split
  · exact h
  · split
    · exact acceptAddressed_linkHolds _ _ _ (afterLastByte_linkHolds h) rfl rfl
    · rw [(acceptBroadcast_keeps _ _ _).1]
      exact afterLastByte_linkHolds h

/-! ## A byte that arrives -/

theorem judgeFrame_linkHolds (head : FrameHead) (payload : List Byte) (check : Word16) {s : State} (h : LinkHolds s.link)
    (hb : s.link.bits = .waiting) : LinkHolds (judgeFrame head payload check s).link := by
  have hhunt := backToHunt_linkHolds h
  unfold judgeFrame
  split
  · exact dropFrame_linkHolds _ h
  · split
    · exact acceptAddressed_linkHolds _ _ _ hhunt rfl hb
    · split
      · rw [(acceptBroadcast_keeps _ _ _).1]
        exact hhunt
      · exact hhunt

theorem receiveByte_linkHolds (b : Byte) {s : State} (h : LinkHolds s.link) (ht : TakesBytes s.link)
    (hb : s.link.bits = .waiting) : LinkHolds (receiveByte b s).link := by
  have hnext : ∀ {r : Receiver}, r ≠ .hunt → LinkHolds (s.receiverAt r).link := fun hr => receiverAt_linkHolds h ht hr
  unfold receiveByte
  split
  · split
    · exact hnext nofun
    · exact h
  · exact hnext nofun
  · exact hnext nofun
  · exact hnext nofun
  · dsimp only
    split
    · exact dropFrame_linkHolds _ h
    · split <;> exact hnext nofun
  · split <;> exact hnext nofun
  · exact hnext nofun
  · exact judgeFrame_linkHolds _ _ _ h hb

theorem byteArrives_linkHolds (b : Byte) {s : State} (h : LinkHolds s.link) (ht : TakesBytes s.link) :
    LinkHolds (byteArrives b s).link :=
  receiveByte_linkHolds b (bitsWait_linkHolds (lineHigh_linkHolds h)) (lineHigh_takesBytes ht) rfl

/-! ## Commands -/

/-- The rows, beside the requests, that are events of the line, of the receiver, of the transmitter or of RST. -/
def movesLink : Instr → Bool
  | .checkFail | .frameForAnotherNode | .tooLong | .framing | .gap | .turnaround | .completion | .lineBreak
  | .powerOnReset | .endOfPowerOnReset _ | .lineFallingEdge | .startBitConfirmed | .byteArrival _ | .lineRisingEdge
  | .lineHighForOneBitTime => true
  | _ => false

/-- The events of the other blocks leave the link. -/
theorem exec_link {i : Instr} {s t : State} (hr : requestFrame i = none) (hi : movesLink i = false)
    (he : exec i s = .next t) : t.link = s.link := by
  cases i <;> simp only [requestFrame, reduceCtorEq] at hr <;> simp only [movesLink, Bool.true_eq_false] at hi <;>
    (injection he with he; subst he)
  case expired => rfl
  case syncOutPulseEnd => rfl
  all_goals (split <;> simp)

theorem execLineFallingEdge_linkHolds {s t : State} (h : LinkHolds s.link) (he : execLineFallingEdge s = .next t) :
    LinkHolds t.link := by
  injection he with he
  subst he
  split
  · exact h
  · split
    · exact h
    · dsimp only
      split
      · next hb =>
        simp only [Bool.and_eq_true, Bool.not_eq_true'] at hb
        have ht := lineLow_takesBytes 0 (takesBytes_of_takesNoByte hb.1)
        exact (lineLow_linkHolds 0 h).within ht _ (lineLow_linkHolds 0 h).standing
      · exact lineLow_linkHolds 0 h

/-- A row that leaves the state where the part cannot have its event, and else takes it (log 3). -/
theorem LinkHolds.ofRow {c : Prop} {_ : Decidable c} {s u t : State} (h : LinkHolds s.link)
    (he : (.next (if c then s else u) : Host.Outcome State Fault Refusal) = .next t) (hu : ¬ c → LinkHolds u.link) :
    LinkHolds t.link := by
  injection he with he
  subst he
  split
  · exact h
  · next hc => exact hu hc

/-- Every command keeps the link sound. -/
theorem exec_linkHolds {i : Instr} {s t : State} (h : LinkHolds s.link) (he : exec i s = .next t) : LinkHolds t.link := by
  cases hr : requestFrame i with
  | some f =>
    obtain ⟨hd, kind, args⟩ := f
    rw [exec_requestFrame hr] at he
    injection he with he
    subst he
    exact acceptFrame_linkHolds _ _ _ _ (by rw [(withRowPins_keeps i s).1]; exact h)
  | none =>
    cases hi : movesLink i with
    | false =>
      rw [exec_link hr hi he]
      exact h
    | true =>
      have hlast := afterLastByte_linkHolds h
      cases i <;> simp only [movesLink, Bool.false_eq_true] at hi <;> simp only [exec] at he
      case checkFail => exact h.ofRow he fun _ => hlast
      case frameForAnotherNode => exact h.ofRow he fun _ => hlast
      case tooLong => exact h.ofRow he fun _ => hlast
      case framing => exact h.ofRow he fun _ => framingError_linkHolds h
      case gap => exact h.ofRow he fun _ => dropFrame_linkHolds _ h
      case turnaround =>
        unfold execTurnaround at he
        split at he <;> (injection he with he; subst he)
        · next ht => exact startSending_linkHolds h ht
        · exact h
        · exact h
      case completion =>
        unfold execCompletion at he
        split at he <;> (injection he with he; subst he)
        · next ht => exact completeReply_linkHolds h ht
        · exact h
        · exact h
      case lineBreak => exact h.ofRow he fun _ => linkReset_linkHolds (lineLow_linkHolds 0 h)
      case powerOnReset => exact powerOnReset_linkHolds h he
      case endOfPowerOnReset pins =>
        injection he with he
        subst he
        exact linkAtPowerOn_linkHolds pins
      case lineFallingEdge => exact execLineFallingEdge_linkHolds h he
      case startBitConfirmed =>
        refine h.ofRow he fun hn => ?_
        have ht := takesBytes_of_takesNoByte (Bool.eq_false_iff.mpr (not_or.mp hn).1)
        exact confirmStart_linkHolds (lineLow_linkHolds _ h) (lineLow_takesBytes _ ht)
      case byteArrival b =>
        exact h.ofRow he fun hn => byteArrives_linkHolds b h (takesBytes_of_takesNoByte (Bool.eq_false_iff.mpr hn))
      case lineRisingEdge =>
        exact LinkHolds.ofRow (s := s.setLinePin .high) h he fun _ => lineHigh_linkHolds h
      case lineHighForOneBitTime => exact h.ofRow he fun _ => highWaitEnds_linkHolds h

/-! ## A core period -/

theorem replyHeld_countTransmitter (x : Transmitter) : replyHeld (countTransmitter x) = replyHeld x := by cases x <;> rfl

theorem countTransmitter_eq_idle_iff {x : Transmitter} : countTransmitter x = .idle ↔ x = .idle := by
  cases x <;> simp [countTransmitter]

theorem countLink_linkHolds (line : Level) {l : LinkInterface} (h : LinkHolds l) : LinkHolds (countLink line l) := by
  refine { h with pending := fun r v hr => h.pending r v (replyHeld_countTransmitter _ ▸ hr),
                  hunting := fun hn => ?_, standing := fun hr => congrArg (Option.map _) (h.standing hr) }
  obtain ⟨hhunt, hwait⟩ := h.hunting (hn.imp (mt countTransmitter_eq_idle_iff.mpr) (mt fun h0 => congrArg (Option.map _) h0))
  exact ⟨hhunt, congrArg countBits hwait⟩

/-- An event that is due keeps the link sound: within a byte, and so at its start bit and at its samples, the part takes bytes. -/
theorem takeDue_linkHolds (d : Due) {s : State} (h : LinkHolds s.link) (hd : isDue s d = true) :
    LinkHolds (takeDue s d).link := by
  cases d <;> simp only [takeDue]
  case turnaround =>
    split
    · next ht => exact startSending_linkHolds h ht
    · exact h
    · exact h
  case completion =>
    split
    · next ht => exact completeReply_linkHolds h ht
    · exact h
    · exact h
  case lineBreak => exact linkReset_linkHolds h
  case gap => exact dropFrame_linkHolds _ h
  case startBit =>
    have ht : TakesBytes s.link := h.takesBytes (.inr fun hb => by simp [isDue, hb] at hd)
    unfold checkStart
    split
    · exact confirmStart_linkHolds h ht
    · exact bitsWait_linkHolds h
  case bitSample =>
    have ht : TakesBytes s.link := h.takesBytes (.inr fun hb => by simp [isDue, hb] at hd)
    unfold sampleBit
    split
    · split
      · exact h.within ht _ h.standing
      · split
        · exact byteArrives_linkHolds _ h ht
        · exact framingError_linkHolds h
    · exact h
    · exact h
  case highForOneBit => exact highWaitEnds_linkHolds h
  all_goals simpa using h

/-- What each event that is due keeps of the state, with the counter of free choices left aside, a run of the events keeps. -/
theorem runDue_keeps_property {P : State → Prop} (hfree : ∀ s n, P s → P (s.withFree n))
    (htake : ∀ d s, P s → isDue s d = true → P (takeDue s d)) (fuel : Nat) (ds : List Due) {s : State} (hs : P s) :
    P (runDue fuel ds s) := by
  induction fuel generalizing ds s with
  | zero => exact hs
  | succ fuel ih =>
    unfold runDue
    split
    · exact hs
    · next d hd =>
      have hm : d ∈ ds.filter (isDue s) := by rw [hd]; exact List.mem_singleton.mpr rfl
      exact htake d s hs (List.mem_filter.mp hm).2
    · dsimp only
      split
      · next d hd =>
        have hdue := (List.mem_filter.mp (List.mem_of_getElem? hd)).2
        exact ih _ (htake d _ (hfree s _ hs) (by cases d <;> exact hdue))
      · exact hs

theorem corePeriod_linkHolds {s : State} (h : LinkHolds s.link) : LinkHolds (corePeriod s).link := by
  unfold corePeriod
  split
  · exact h
  · refine runDue_keeps_property (P := fun u => LinkHolds u.link) (fun _ _ hu => hu)
      (fun d _ hu hd => takeDue_linkHolds d hu hd) _ _ ?_
    rw [(quietSyncSample_keeps _).1]
    exact countLink_linkHolds _ h

/-- Settles O57: the invariant is one of the Link Interface alone (`LinkHolds`), which every command and every due event keeps. -/
theorem linkStaysSound : Obligations.LinkStaysSound := by
  intro s t hs he
  rw [linkSound_iff] at hs ⊢
  unfold step at he
  split at he
  · injection he with he
    subst he
    exact corePeriod_linkHolds hs
  · next rest _ => exact exec_linkHolds (s := s.withPending rest) hs he

end Sys2Proof.Machine
end

section
/-!
PROOFS (08_the_message_link.md): the receiver byte by byte, whole frames, the request rows as their bytes, and the frames and bytes that
the receiver discards (R146, R147, R149 to R153, R162, R182, R183).
-/

namespace Sys2Proof.Machine

/-! ## A byte at a receiver that takes bytes -/

/-- The state after a byte that arrived whole left the receiver in a state, with its gap timer at a count: its stop bit was high, so
no low time runs (R144, R149, R151, R156). -/
def byteTaken (r : Receiver) (gap : Option Nat) (s : State) : State :=
  (s.withLink { s.link with
    receiver := r, gapTimer := gap, bits := .waiting, lowTime := none, breakSeen := false }).withPins
      { s.pins with line := .high }

@[simp] theorem byteTaken_byteTaken (r q : Receiver) (g f : Option Nat) (s : State) :
    byteTaken r g (byteTaken q f s) = byteTaken r g s := rfl

theorem receiverAt_byteTaken (r q : Receiver) (g : Option Nat) (s : State) :
    (byteTaken q g s).receiverAt r = byteTaken r (some 0) s := rfl

theorem backToHunt_byteTaken (r : Receiver) (g : Option Nat) (s : State) :
    (byteTaken r g s).backToHunt = byteTaken .hunt none s := rfl

theorem lineHigh_bitsWait {s : State} (hw : s.link.highWait = none) :
    (lineHigh s).bitsWait = byteTaken s.link.receiver s.link.gapTimer s := by
  have hwait : (s.link.highWait.map fun _ => 0) = s.link.highWait := by rw [hw]; rfl
  simp only [lineHigh, hwait]
  rfl

theorem afterLastByte_eq {s : State} (hw : s.link.highWait = none) : afterLastByte s = byteTaken .hunt none s := by
  apply State.eq_of_fields
  simp [afterLastByte, byteTaken, hw]

/-- A byte that arrives whole at a part that takes bytes (R149, R150, R157). -/
theorem exec_byteArrival {s : State} (hl : Listening s) (hw : s.link.highWait = none) (b : Byte) :
    exec (.byteArrival b) s = .next (receiveByte b (byteTaken s.link.receiver s.link.gapTimer s)) := by
  rw [← lineHigh_bitsWait hw]
  exact congrArg _ (if_neg (by simp [takesNoByte_eq_false_iff.mpr ⟨hl, hw⟩]))

/-! ## The receiver's states (R149) -/

theorem receiveByte_start (g : Option Nat) (s : State) :
    receiveByte requestStart (byteTaken .hunt g s) = byteTaken .headerAddress (some 0) s := rfl

theorem receiveByte_passedOver {b : Byte} (h : b ≠ requestStart) (g : Option Nat) (s : State) :
    receiveByte b (byteTaken .hunt g s) = byteTaken .hunt g s := if_neg h

theorem receiveByte_address (b : Byte) (g : Option Nat) (s : State) :
    receiveByte b (byteTaken .headerAddress g s) = byteTaken (.headerTag b) (some 0) s := rfl

theorem receiveByte_tag (a b : Byte) (g : Option Nat) (s : State) :
    receiveByte b (byteTaken (.headerTag a) g s) = byteTaken (.headerKind a b) (some 0) s := rfl

theorem receiveByte_kind (a t b : Byte) (g : Option Nat) (s : State) :
    receiveByte b (byteTaken (.headerKind a t) g s) = byteTaken (.headerLength a t b) (some 0) s := rfl

theorem receiveByte_lengthZero (a t k : Byte) (g : Option Nat) (s : State) :
    receiveByte 0 (byteTaken (.headerLength a t k) g s) = byteTaken (.checkHigh ⟨a, t, k, 0⟩ []) (some 0) s := rfl

theorem receiveByte_length {b : Byte} (h1 : 1 ≤ b.toNat) (h2 : b.toNat ≤ 60) (a t k : Byte) (g : Option Nat) (s : State) :
    receiveByte b (byteTaken (.headerLength a t k) g s) = byteTaken (.payload ⟨a, t, k, b⟩ []) (some 0) s := by
  have h0 : b ≠ 0 := by rintro rfl; exact absurd h1 (by decide)
  exact (if_neg (Nat.not_lt.mpr h2)).trans (if_neg h0)

theorem receiveByte_tooLong {b : Byte} (h : 60 < b.toNat) (a t k : Byte) (g : Option Nat) (s : State) :
    receiveByte b (byteTaken (.headerLength a t k) g s) = (byteTaken .hunt none s).post [linkEvent .tooLong] := if_pos h

theorem receiveByte_payload {head : FrameHead} {taken : List Byte} (h : taken.length + 1 < head.length.toNat) (b : Byte)
    (g : Option Nat) (s : State) :
    receiveByte b (byteTaken (.payload head taken) g s) = byteTaken (.payload head (taken ++ [b])) (some 0) s :=
  if_neg (Nat.not_le.mpr h)

theorem receiveByte_payloadEnd {head : FrameHead} {taken : List Byte} (h : taken.length + 1 = head.length.toNat) (b : Byte)
    (g : Option Nat) (s : State) :
    receiveByte b (byteTaken (.payload head taken) g s) = byteTaken (.checkHigh head (taken ++ [b])) (some 0) s :=
  if_pos (Nat.le_of_eq h.symm)

theorem receiveByte_checkHigh (head : FrameHead) (payload : List Byte) (b : Byte) (g : Option Nat) (s : State) :
    receiveByte b (byteTaken (.checkHigh head payload) g s) = byteTaken (.checkLow head payload b) (some 0) s := rfl

/-! ## Frames that the receiver discards (R146, R153, R162, log 22) -/

theorem exec_checkFail {s : State} (hl : Listening s) :
    exec .checkFail s = .next ((afterLastByte s).post [linkEvent .checkFail]) :=
  congrArg _ (if_neg (by simp [deaf_of_listening hl]))

theorem exec_frameForAnotherNode {s : State} (hl : Listening s) : exec .frameForAnotherNode s = .next (afterLastByte s) :=
  congrArg _ (if_neg (by simp [deaf_of_listening hl]))

theorem exec_tooLong {s : State} (hl : Listening s) :
    exec .tooLong s = .next ((afterLastByte s).post [linkEvent .tooLong]) :=
  congrArg _ (if_neg (by simp [deaf_of_listening hl]))

/-- The bytes of a head, which the check value covers together with the payload (R148). -/
def headBytes (head : FrameHead) : List Byte := [head.address, head.tag, head.kind, head.length]

theorem checkValue_headBytes (a t k : Byte) (args : List Byte) :
    checkValue (headBytes ⟨a, t, k, natByte args.length⟩ ++ args) = frameCheck a t k args := by
  rw [frameCheck, coveredBytes, headBytes]

/-- The second check byte of a frame whose check value differs is the row CHECK_FAIL (R153). -/
theorem judgeFrame_damaged {s : State} (hl : Listening s) (hw : s.link.highWait = none) {head : FrameHead}
    {payload : List Byte} {check : Word16} (h : checkValue (headBytes head ++ payload) ≠ check) (r : Receiver)
    (g : Option Nat) : .next (judgeFrame head payload check (byteTaken r g s)) = exec .checkFail s := by
  rw [exec_checkFail hl, afterLastByte_eq hw]
  exact congrArg _ (if_pos h)

/-- The second check byte of a good frame for another node is the row FRAME_FOR_ANOTHER_NODE (R146, R153). -/
theorem judgeFrame_forAnother {s : State} (hl : Listening s) (hw : s.link.highWait = none) {head : FrameHead}
    {payload : List Byte} {check : Word16} (h : checkValue (headBytes head ++ payload) = check)
    (hnode : head.address ≠ s.link.nodeAddress) (hcast : head.address ≠ broadcastAddress) (r : Receiver)
    (g : Option Nat) : .next (judgeFrame head payload check (byteTaken r g s)) = exec .frameForAnotherNode s := by
  rw [exec_frameForAnotherNode hl, afterLastByte_eq hw]
  exact congrArg _ ((if_neg (not_not_intro h)).trans ((if_neg hnode).trans (if_neg hcast)))

/-- The second check byte of a good frame for the part hands over the request (R153, R164). -/
theorem judgeFrame_addressed {s : State} (hw : s.link.highWait = none) {head : FrameHead} {payload : List Byte}
    {check : Word16} (h : checkValue (headBytes head ++ payload) = check) (hnode : head.address = s.link.nodeAddress)
    (r : Receiver) (g : Option Nat) :
    judgeFrame head payload check (byteTaken r g s) = acceptAddressed head.tag head.kind payload (afterLastByte s) := by
  rw [afterLastByte_eq hw]
  exact (if_neg (not_not_intro h)).trans (if_pos hnode)

/-- The second check byte of a good broadcast frame hands over the broadcast (R153, R168). -/
theorem judgeFrame_broadcast {s : State} (hw : s.link.highWait = none) {head : FrameHead} {payload : List Byte}
    {check : Word16} (h : checkValue (headBytes head ++ payload) = check) (hnode : head.address ≠ s.link.nodeAddress)
    (hcast : head.address = broadcastAddress) (r : Receiver) (g : Option Nat) :
    judgeFrame head payload check (byteTaken r g s) = acceptBroadcast head.kind payload (afterLastByte s) := by
  rw [afterLastByte_eq hw]
  exact (if_neg (not_not_intro h)).trans ((if_neg hnode).trans (if_pos hcast))

/-! ## Bytes in a row -/

section
variable {s : State} (hl : Listening s) (hw : s.link.highWait = none)
include hl hw

theorem afterBytes_byteTaken (r : Receiver) (g : Option Nat) (b : Byte) (bytes : List Byte) :
    afterBytes (b :: bytes) (byteTaken r g s) = afterBytes bytes (receiveByte b (byteTaken r g s)) := by
  rw [afterBytes, exec_byteArrival (s := byteTaken r g s) hl hw]
  rfl

/-- The first bytes of a frame, up to its kind (R147, R149). -/
theorem afterBytes_head (hr : s.link.receiver = .hunt) (a t k : Byte) (bytes : List Byte) :
    afterBytes ([0x5A, a, t, k] ++ bytes) s = afterBytes bytes (byteTaken (.headerLength a t k) (some 0) s) := by
  have hstart : exec (.byteArrival 0x5A) s = .next (byteTaken .headerAddress (some 0) s) := by
    rw [exec_byteArrival hl hw, hr]
    exact congrArg _ (receiveByte_start _ s)
  simp only [List.cons_append, List.nil_append]
  rw [afterBytes, hstart]
  simp only [afterBytes_byteTaken hl hw, receiveByte_address, receiveByte_tag, receiveByte_kind]

/-- The last bytes of a payload lead to the check value (R149). -/
theorem afterBytes_payload (head : FrameHead) (last taken bytes : List Byte) (hlast : last ≠ [])
    (hlen : taken.length + last.length = head.length.toNat) :
    afterBytes (last ++ bytes) (byteTaken (.payload head taken) (some 0) s)
      = afterBytes bytes (byteTaken (.checkHigh head (taken ++ last)) (some 0) s) := by
  induction last generalizing taken with
  | nil => exact absurd rfl hlast
  | cons b last ih =>
    rw [List.cons_append, afterBytes_byteTaken hl hw]
    rw [List.length_cons] at hlen
    cases last with
    | nil => rw [receiveByte_payloadEnd (by simpa using hlen), List.nil_append]
    | cons c last =>
      rw [receiveByte_payload (by rw [← hlen, List.length_cons]; omega), ih (taken ++ [b]) (by simp)
        (by rw [← hlen, List.length_append, List.length_singleton]; omega), List.append_assoc]
      rfl

/-- The bytes that the check value covers, from the start byte on, lead to the check value (R147 to R149). -/
theorem afterBytes_covered (hr : s.link.receiver = .hunt) (a t k : Byte) {args : List Byte} (hargs : args.length ≤ 60)
    (bytes : List Byte) :
    afterBytes ([0x5A] ++ coveredBytes a t k args ++ bytes) s
      = afterBytes bytes (byteTaken (.checkHigh ⟨a, t, k, natByte args.length⟩ args) (some 0) s) := by
  have hlen : (natByte args.length).toNat = args.length := by simp [natByte]; omega
  have hsplit : [0x5A] ++ coveredBytes a t k args ++ bytes = [0x5A, a, t, k] ++ natByte args.length :: (args ++ bytes) := by
    simp [coveredBytes]
  rw [hsplit, afterBytes_head hl hw hr, afterBytes_byteTaken hl hw]
  by_cases hnil : args = []
  · subst hnil
    exact congrArg _ (receiveByte_lengthZero a t k (some 0) s)
  · have hpos := List.length_pos_iff.mpr hnil
    rw [receiveByte_length (by rw [hlen]; exact hpos) (by rw [hlen]; exact hargs),
      afterBytes_payload hl hw ⟨a, t, k, natByte args.length⟩ args [] bytes hnil (by simp [hlen]), List.nil_append]

/-- The bytes of a whole frame lead to its judgement (R147, R149, R153). -/
theorem afterBytes_whole (hr : s.link.receiver = .hunt) (a t k : Byte) {args : List Byte} (hargs : args.length ≤ 60)
    (high low : Byte) :
    afterBytes ([0x5A] ++ coveredBytes a t k args ++ [high, low]) s
      = .next (judgeFrame ⟨a, t, k, natByte args.length⟩ args (word16 high low)
          (byteTaken (.checkLow ⟨a, t, k, natByte args.length⟩ args high) (some 0) s)) := by
  rw [afterBytes_covered hl hw hr a t k hargs, afterBytes_byteTaken hl hw, receiveByte_checkHigh,
    afterBytes_byteTaken hl hw]
  rfl

/-- The bytes of a good frame lead to the judgement of its check value (R148, R153). -/
theorem afterBytes_frameBytes (hr : s.link.receiver = .hunt) (a t k : Byte) {args : List Byte} (hargs : args.length ≤ 60) :
    ∃ r, afterBytes (frameBytes 0x5A a t k args) s
      = .next (judgeFrame ⟨a, t, k, natByte args.length⟩ args (frameCheck a t k args) (byteTaken r (some 0) s)) := by
  have hwhole := afterBytes_whole hl hw hr a t k hargs ((frameCheck a t k args).extractLsb' 8 8)
    ((frameCheck a t k args).extractLsb' 0 8)
  rw [word16_extract] at hwhole
  exact ⟨_, hwhole⟩

end

/-- Settles O46: each byte by the state of the receiver (`receiveByte_address` and its neighbours), and whole frames by
`afterBytes_whole`. -/
theorem receiverTakesBytes : Obligations.ReceiverTakesBytes := by
  refine ⟨fun s b hl hw => ?_, fun s address tag kind args hl hr hw hargs => ⟨fun high low h => ?_, fun hnode hcast => ?_,
    fun length hlong => ?_⟩⟩
  · intro after
    rw [exec_byteArrival hl hw b]
    refine ⟨fun hr hb => ?_, fun hr hb => ?_, fun hr => ?_, fun a hr => ?_, fun a t hr => ?_, fun a t k hr hb => ?_,
      fun a t k hr h1 h2 => ?_, fun a t k hr h => ⟨_, rfl, ?_⟩, fun h l hr hlen => ?_, fun h l hr hlen => ?_,
      fun h l hr => ?_, fun h l high hr hbad => ?_, fun h l high hr hgood hnode hcast => ?_⟩ <;> rw [hr]
    · rw [hb]; exact congrArg _ (receiveByte_start _ s)
    · exact congrArg _ (receiveByte_passedOver hb _ s)
    · exact congrArg _ (receiveByte_address b _ s)
    · exact congrArg _ (receiveByte_tag a b _ s)
    · exact congrArg _ (receiveByte_kind a t b _ s)
    · rw [hb]; exact congrArg _ (receiveByte_lengthZero a t k _ s)
    · exact congrArg _ (receiveByte_length h1 h2 a t k _ s)
    · exact congrArg _ (receiveByte_tooLong h a t k _ s)
    · exact congrArg _ (receiveByte_payload hlen b _ s)
    · exact congrArg _ (receiveByte_payloadEnd hlen b _ s)
    · exact congrArg _ (receiveByte_checkHigh h l b _ s)
    · exact judgeFrame_damaged hl hw hbad _ _
    · exact judgeFrame_forAnother hl hw hgood hnode hcast _ _
  · rw [afterBytes_whole hl hw hr address tag kind hargs]
    exact judgeFrame_damaged hl hw (by rw [checkValue_headBytes]; exact h.symm) _ _
  · obtain ⟨r, hbytes⟩ := afterBytes_frameBytes hl hw hr address tag kind hargs
    rw [hbytes]
    exact judgeFrame_forAnother hl hw (checkValue_headBytes address tag kind args) hnode hcast _ _
  · refine (afterBytes_head hl hw hr address tag kind [length]).trans ?_
    rw [afterBytes_byteTaken hl hw, receiveByte_tooLong hlong, exec_tooLong hl, afterLastByte_eq hw]
    rfl

/-! ## Request rows -/

/-- Settles O3: the last byte judges a good frame, and the address byte says whether it is handed over as addressed or as a
broadcast. -/
theorem bytesOfAFrameMakeItsRow : Obligations.BytesOfAFrameMakeItsRow := by
  intro s i h kind args hi hargs hl hr hw hpins hnode
  have hears : ¬ deaf s = true := by simp [deaf_of_listening hl]
  rw [exec_requestFrame hi, hpins]
  obtain ⟨r, hbytes⟩ := afterBytes_frameBytes hl hw hr (if h.cast = .addressed then s.link.nodeAddress else 31) h.tag kind hargs
  have hgood := checkValue_headBytes (if h.cast = .addressed then s.link.nodeAddress else 31) h.tag kind args
  rw [hbytes]
  revert hgood
  cases h.cast with
  | addressed => exact fun hgood => congrArg _ ((judgeFrame_addressed hw hgood rfl r (some 0)).trans (if_neg hears).symm)
  | broadcast =>
    exact fun hgood => congrArg _ ((judgeFrame_broadcast hw hgood hnode.symm rfl r (some 0)).trans (if_neg hears).symm)

/-- Settles O4: a part that does not listen is deaf, and loses the frame. -/
theorem requestsToADeafPartAreLost : Obligations.RequestsToADeafPartAreLost := by
  intro s i h kind args hi hl
  rw [exec_requestFrame hi]
  exact congrArg _ (if_pos (deaf_of_not_listening (mt listening_withRowPins.mp hl)))

/-! ## Framing errors and gaps (R151, R152) -/

theorem exec_framing {s : State} (hl : Listening s) (hw : s.link.highWait = none) :
    exec .framing s = .next (framingError s) :=
  congrArg _ (if_neg (by simp [takesNoByte_eq_false_iff.mpr ⟨hl, hw⟩]))

theorem framingError_hunt {s : State} (h : s.link.receiver = .hunt) : framingError s = (lineLow 0 s).bitsWait := if_pos h

theorem framingError_frame {s : State} (h : s.link.receiver ≠ .hunt) :
    framingError s = (lineLow 0 s).bitsWait.dropFrame .framing := if_neg h

/-- A framing error changes the link, the LINE pin and the notices alone (R152). -/
theorem framingError_eq (s : State) :
    framingError s = ((s.withLink (framingError s).link).withPins { s.pins with line := .low }).withNotices
      (framingError s).notices := by
  by_cases h : s.link.receiver = .hunt
  · rw [framingError_hunt h]
    rfl
  · rw [framingError_frame h]
    rfl

theorem exec_gap {s : State} (hl : Listening s) (hr : s.link.receiver ≠ .hunt) (hg : s.link.gapTimer ≠ none) :
    exec .gap s = .next (s.dropFrame .gap) := congrArg _ (if_neg (by simp [deaf_of_listening hl, hr, hg]))

theorem exec_gap_standing {s : State} (h : s.link.receiver = .hunt ∨ s.link.gapTimer = none) : exec .gap s = .next s :=
  congrArg _ (if_pos (.inr h))

/-- Settles O45: the rows of discarded frames, and the framing error by whether the receiver is in HUNT. -/
theorem damagedFramesAreReported : Obligations.DamagedFramesAreReported := by
  intro s hl
  refine ⟨exec_checkFail hl, exec_frameForAnotherNode hl, exec_tooLong hl, fun hw => ?_, exec_gap hl, exec_gap_standing⟩
  refine ⟨framingError s, exec_framing hl hw, framingError_eq s, ?_⟩
  by_cases hr : s.link.receiver = .hunt
  · rw [framingError_hunt hr]
    exact ⟨hr, rfl, fun _ => rfl, absurd hr⟩
  · rw [framingError_frame hr]
    exact ⟨rfl, rfl, fun h => absurd h hr, fun _ => ⟨rfl, rfl⟩⟩

end Sys2Proof.Machine
end

section
/-!
PROOFS (08_the_message_link.md): SET LINK and RESET CONTROLLER, the break, and the edges of the line (R144, R150, R154, R156 to R159,
R176, R178, R181).
-/

namespace Sys2Proof.Machine

/-! ## Requests with a pending action (R159, R176) -/

theorem exec_setLink {s : State} {tag : Byte} (hl : Listening s) {v : LinkSettings} (hv : SettingsSound v)
    (hu : Unanswered s tag 0x03 [rateByte v.rate, v.turnaround, v.gapLimit]) :
    exec (.setLink (addressedTo tag) [rateByte v.rate, v.turnaround, v.gapLimit]) s
      = .next (answered s s tag 0x03 [rateByte v.rate, v.turnaround, v.gapLimit]
          [0x00, rateByte v.rate, v.turnaround, v.gapLimit] (some (.settings v))) := by
  rw [exec_performs (r := .setLink v) rfl hl hu rfl (by rw [readRequest_setLink, readSettings_bytes v hv]; rfl) rfl rfl]
  exact congrArg _ (answered_afterLastByte s s tag _ _ _ _)

theorem exec_resetController {s : State} {tag : Byte} (hl : Listening s) (hu : Unanswered s tag 0x04 []) :
    exec (.resetController (addressedTo tag) []) s
      = .next (answered s s tag 0x04 [] [0x00] (some .controllerReset)) := by
  rw [exec_performs rfl hl hu rfl readRequest_resetController rfl rfl]
  exact congrArg _ (answered_afterLastByte s s tag _ _ _ _)

/-- Settles O11: both rows are their owner's answers, which leave the state and carry the pending action. -/
theorem setLinkAndResetControllerWaitForTheirReply : Obligations.SetLinkAndResetControllerWaitForTheirReply :=
  fun _ _ hl => ⟨fun _ hv hu => exec_setLink hl hv hu, exec_resetController hl⟩

/-! ## The break (R156 to R158) -/

theorem isSending_eq_dirHigh (s : State) : isSending s.link = dirHigh s := by
  unfold isSending dirHigh
  cases s.link.transmitter <;> rfl

theorem lineLow_link {s : State} (h : dirHigh s = false) (n : Nat) :
    (lineLow n s).link
      = { s.link with lowTime := some (s.link.lowTime.getD n), highWait := s.link.highWait.map fun _ => 0 } := by
  simp [lineLow, isSending_eq_dirHigh, h]

theorem exec_lineBreak_none {s : State} (h : s.inReset = true ∨ dirHigh s = true ∨ s.link.breakSeen = true) :
    exec .lineBreak s = .next s := by
  rw [← isSending_eq_dirHigh] at h
  exact congrArg _ (if_pos h)

theorem exec_lineBreak {s : State} (hr : s.inReset = false) (hd : dirHigh s = false) (hb : s.link.breakSeen = false) :
    exec .lineBreak s = .next (linkReset (lineLow 0 s)) := by
  rw [← isSending_eq_dirHigh] at hd
  exact congrArg _ (if_neg (by simp [hr, hd, hb]))

/-- A part that does not send holds a reply only in TURNAROUND, and a break abandons its pending action (R154, R158). -/
theorem abandoned_eq {s : State} (h : dirHigh s = false) :
    abandoned s.link.transmitter = (replyHeld s.link.transmitter).bind Reply.action := by
  unfold dirHigh at h
  cases ht : s.link.transmitter <;> simp [ht] at h ⊢ <;> rfl

/-- The state after a break, but for a controller reset that it may bring about (R157). -/
def broken (s : State) : State := ((s.withLink (linkAfterBreak s.link)).withCache []).post [linkEvent .lineBreak]

theorem linkReset_alone {s : State} (h : abandoned s.link.transmitter ≠ some .controllerReset) :
    linkReset s = broken s := by
  unfold linkReset
  dsimp only
  split
  · next ha => exact absurd ha h
  · rfl
  · rfl

theorem linkReset_controllerReset {s : State} (h : abandoned s.link.transmitter = some .controllerReset) :
    linkReset s = controllerReset (broken s) := by
  unfold linkReset
  rw [h]
  rfl

theorem linkReset_cache (s : State) : (linkReset s).cache = [] := by
  by_cases h : abandoned s.link.transmitter = some .controllerReset
  · rw [linkReset_controllerReset h, (controllerReset_keeps _).2.1]
    rfl
  · rw [linkReset_alone h]
    rfl

/-- A controller reset leaves the RESET notice at the head, and no LINK notice (R101, R141). -/
theorem controllerReset_queue (s : State) :
    (controllerReset s).notices.queue.head? = some (resetNotice .controller s.link.strapFault)
      ∧ ∀ n ∈ (controllerReset s).notices.queue, n.key ≠ .link := by
  rw [controllerReset_notices]
  refine ⟨rfl, fun n hn => ?_⟩
  rcases List.mem_cons.mp hn with rfl | hn
  · exact nofun
  · obtain ⟨p, hp, rfl⟩ := List.mem_map.mp hn
    obtain ⟨m, _, hm⟩ := List.mem_filterMap.mp hp
    show p.key ≠ .link
    rw [repostNotice_key hm]
    exact nofun

/-- Settles O48: a break takes the line low and is `linkReset`; what that does to the blocks goes by the action it abandons. -/
theorem breakResetsTheLink : Obligations.BreakResetsTheLink := by
  refine fun s => ⟨exec_lineBreak_none, fun hr hd hb => ⟨_, exec_lineBreak hr hd hb, ?_⟩⟩
  have habandoned : abandoned (lineLow 0 s).link.transmitter = (replyHeld s.link.transmitter).bind Reply.action :=
    abandoned_eq hd
  obtain ⟨htrip, hpins, hreset, _, hpending⟩ := linkReset_keeps (lineLow 0 s)
  rw [linkReset_link]
  refine ⟨rfl, rfl, rfl, rfl, rfl, rfl, rfl, rfl, rfl, rfl, linkReset_cache _, htrip, hpins, hreset, hpending,
    fun hnone => ?_, fun r hheld hact => ?_⟩
  · rw [linkReset_alone]
    · exact ⟨rfl, rfl, rfl, rfl, rfl, rfl⟩
    · rw [habandoned]
      cases hheld : replyHeld s.link.transmitter with
      | none => exact nofun
      | some r => exact hnone r hheld
  · rw [linkReset_controllerReset (by rw [habandoned, hheld]; exact hact)]
    obtain ⟨hhead, hkeys⟩ := controllerReset_queue (broken (lineLow 0 s))
    exact ⟨fun x => by cases x <;> rfl, rfl, rfl, hhead, hkeys⟩

/-! ## Edges of the line and the start bit (R144, R156, R157) -/

/-- A fall of the line at a part that takes bytes and is between bytes is a possible start bit (R144). -/
theorem exec_lineFallingEdge_startBit {s : State} (hr : s.inReset = false) (hline : s.pins.line = .high)
    (ht : takesNoByte s = false) (hb : s.link.bits = .waiting) :
    exec .lineFallingEdge s = .next ((lineLow 0 s).withLink { (lineLow 0 s).link with bits := .edge 0 }) :=
  congrArg _ ((if_neg (by simp [hline])).trans ((if_neg (by simp [hr])).trans (if_pos (by simp [ht, hb]))))

/-- A fall of the line at a part that takes no byte is measured alone (R150, R156, R157). -/
theorem exec_lineFallingEdge_measured {s : State} (hr : s.inReset = false) (hline : s.pins.line = .high)
    (ht : takesNoByte s = true) : exec .lineFallingEdge s = .next (lineLow 0 s) :=
  congrArg _ ((if_neg (by simp [hline])).trans ((if_neg (by simp [hr])).trans (if_neg (by simp [ht]))))

theorem exec_startBitConfirmed {s : State} (ht : takesNoByte s = false) (hb : isSampling s.link.bits = false) :
    exec .startBitConfirmed s = .next (confirmStart (lineLow (bitPeriods s.link.settings.rate / 2) s)) :=
  congrArg _ (if_neg (by simp [ht, hb]))

/-- On a line that is low and measured already, at a part that takes bytes, the line's being low changes nothing (R156). -/
theorem lineLow_of_measured {s : State} {low : Nat} (hd : dirHigh s = false) (hw : s.link.highWait = none)
    (hlow : s.link.lowTime = some low) (hline : s.pins.line = .low) (n : Nat) : lineLow n s = s := by
  have hpins : ({ s.pins with line := .low } : Contacts) = s.pins := by rw [← hline]
  have hlink : (lineLow n s).link = s.link := by
    rw [lineLow_link hd, hlow, hw, Option.map_none, Option.getD_some, ← hlow, ← hw]
  apply State.eq_of_fields
  rw [hlink]
  simp [lineLow, State.setLinePin, hpins]

theorem dirHigh_of_idle {s : State} (h : s.link.transmitter = .idle) : dirHigh s = false := by
  rw [dirHigh, h]

theorem exec_lineRisingEdge {s : State} (hr : s.inReset = false) : exec .lineRisingEdge s = .next (lineHigh s) :=
  congrArg _ (if_neg (by simp [hr]))

theorem exec_lineHighForOneBitTime {s : State} (hr : s.inReset = false) (hw : s.link.highWait ≠ none) :
    exec .lineHighForOneBitTime s = .next (highWaitEnds s) := congrArg _ (if_neg (by simp [hr, hw]))

theorem exec_lineHighForOneBitTime_noWait {s : State} (hw : s.link.highWait = none) :
    exec .lineHighForOneBitTime s = .next s := congrArg _ (if_pos (.inr hw))

/-- Settles O49: each row by whether the part takes bytes, with `lineLow_link` for the measure that a fall starts. -/
theorem lineEventsAndStartBit : Obligations.LineEventsAndStartBit := by
  intro s hr
  refine ⟨fun hline hl hw hb => ?_, fun hline hd hdeaf => ?_, fun e hl hw hb hlow hline => ?_, exec_lineRisingEdge hr,
    exec_lineHighForOneBitTime hr, exec_lineHighForOneBitTime_noWait⟩
  · have hwait : (s.link.highWait.map fun _ => 0) = s.link.highWait := by rw [hw]; rfl
    rw [exec_lineFallingEdge_startBit hr hline (takesNoByte_eq_false_iff.mpr ⟨hl, hw⟩) hb,
      lineLow_link (dirHigh_of_idle hl.2), hwait]
    rfl
  · have ht : takesNoByte s = true := by
      rw [← Bool.not_eq_false, takesNoByte_eq_false_iff]
      exact fun ⟨hl, hw⟩ => hdeaf.elim (· hl) (· hw)
    rw [exec_lineFallingEdge_measured hr hline ht, ← lineLow_link hd]
    rfl
  · obtain ⟨low, hlow⟩ := Option.ne_none_iff_exists'.mp hlow
    rw [exec_startBitConfirmed (takesNoByte_eq_false_iff.mpr ⟨hl, hw⟩) (by rw [hb]; rfl),
      lineLow_of_measured (dirHigh_of_idle hl.2) hw hlow hline]
    rfl

end Sys2Proof.Machine
end

section
/-!
PROOFS (09_requests_and_replies.md): the reply cache, its invariant, and the commands that wait (R162, R166, R170 to R173).
-/

namespace Sys2Proof.Machine

/-! ## A new entry (R170, R172, R173) -/

theorem makeRoom_full {cache : List CacheEntry} (h : 4 ≤ cache.length) : makeRoom cache = cache.tail := by
  rw [makeRoom, if_pos h, List.drop_one]

theorem makeRoom_free {cache : List CacheEntry} (h : cache.length < 4) : makeRoom cache = cache :=
  if_neg (Nat.not_le.mpr h)

theorem makeRoom_sublist (cache : List CacheEntry) : (makeRoom cache).Sublist cache := by
  unfold makeRoom
  split
  · exact List.drop_sublist 1 cache
  · exact List.Sublist.refl cache

/-- A cache that holds no more than 4 entries has room for one more once the oldest of a full one is gone (R173). -/
theorem length_makeRoom_lt {cache : List CacheEntry} (h : cache.length ≤ 4) : (makeRoom cache).length < 4 := by
  by_cases hfull : 4 ≤ cache.length
  · rw [makeRoom_full hfull, List.length_tail]
    omega
  · rw [makeRoom_free (Nat.lt_of_not_le hfull)]
    exact Nat.lt_of_not_le hfull

theorem tag_ne_of_mem_withoutTag {tag : Byte} {cache : List CacheEntry} {e : CacheEntry} (h : e ∈ withoutTag tag cache) :
    e.tag ≠ tag := of_decide_eq_true (List.mem_filter.mp h).2

/-- Among entries of distinct tags, the one with a tag leaves alone, and the others keep their order (R172). -/
theorem withoutTag_split {before after : List CacheEntry} {d : CacheEntry}
    (hn : ((before ++ d :: after).map CacheEntry.tag).Nodup) :
    withoutTag d.tag (before ++ d :: after) = before ++ after := by
  rw [List.map_append, List.map_cons, List.nodup_append, List.nodup_cons] at hn
  obtain ⟨-, ⟨hafter, -⟩, hbefore⟩ := hn
  have hothers : withoutTag d.tag (before ++ after) = before ++ after := withoutTag_of_fresh fun e he ht =>
    (List.mem_append.mp he).elim (fun he => hbefore _ (List.mem_map_of_mem he) _ List.mem_cons_self ht)
      fun he => hafter (ht ▸ List.mem_map_of_mem he)
  calc withoutTag d.tag (before ++ d :: after)
      = withoutTag d.tag (before ++ after) := by simp [withoutTag]
    _ = before ++ after := hothers

/-- The cache with a new reply in it is sound again: it has room for one entry, and no other has its tag (R170, R172, R173). -/
theorem remember_sound {cache : List CacheEntry} (e : CacheEntry)
    (h : cache.length ≤ Config.cacheCapacity ∧ (cache.map CacheEntry.tag).Nodup) :
    (remember cache e).length ≤ Config.cacheCapacity ∧ ((remember cache e).map CacheEntry.tag).Nodup := by
  obtain ⟨hlength, hnodup⟩ := h
  have hleft : (withoutTag e.tag cache).Sublist cache := List.filter_sublist
  have hroom := makeRoom_sublist (withoutTag e.tag cache)
  unfold remember
  refine ⟨?_, ?_⟩
  · rw [List.length_append]
    exact length_makeRoom_lt (Nat.le_trans hleft.length_le hlength)
  · rw [List.map_append, List.map_singleton, List.nodup_append]
    refine ⟨hnodup.sublist ((hroom.trans hleft).map _), List.nodup_cons.mpr ⟨List.not_mem_nil, List.nodup_nil⟩,
      fun a ha b hb => ?_⟩
    obtain ⟨d, hd, rfl⟩ := List.mem_map.mp ha
    rw [List.mem_singleton.mp hb]
    exact tag_ne_of_mem_withoutTag (hroom.subset hd)

/-! ## The invariant through frames and bytes (R164, R168 to R173) -/

theorem CacheSound.of_cache {s t : State} (h : CacheSound s) (hc : t.cache = s.cache) : CacheSound t := by
  unfold CacheSound
  rw [hc]
  exact h

theorem cacheSound_nil {s : State} (h : s.cache = []) : CacheSound s := by
  unfold CacheSound
  rw [h]
  exact ⟨by decide, List.nodup_nil⟩

theorem acceptAddressed_cacheSound (tag kind : Byte) (args : List Byte) {s : State} (h : CacheSound s) :
    CacheSound (acceptAddressed tag kind args s) := by
  unfold acceptAddressed
  dsimp only
  split
  · exact h
  · exact remember_sound _ h

theorem acceptBroadcast_cacheSound (kind : Byte) (args : List Byte) {s : State} (h : CacheSound s) :
    CacheSound (acceptBroadcast kind args s) := h.of_cache (by simp)

theorem acceptFrame_cacheSound (c : Cast) (tag kind : Byte) (args : List Byte) {s : State} (h : CacheSound s) :
    CacheSound (acceptFrame c tag kind args s) := by
  unfold acceptFrame
  split
  · exact h
  · cases c with
    | addressed => exact acceptAddressed_cacheSound tag kind args (s := afterLastByte s) h
    | broadcast => exact acceptBroadcast_cacheSound kind args (s := afterLastByte s) h

theorem judgeFrame_cacheSound (head : FrameHead) (payload : List Byte) (check : Word16) {s : State} (h : CacheSound s) :
    CacheSound (judgeFrame head payload check s) := by
  unfold judgeFrame
  split
  · exact h
  · split
    · exact acceptAddressed_cacheSound _ _ _ (s := s.backToHunt) h
    · split
      · exact acceptBroadcast_cacheSound _ _ (s := s.backToHunt) h
      · exact h

/-- Of the bytes of a frame the last alone, which judges it, touches the cache (R149, R153). -/
theorem receiveByte_cacheSound (b : Byte) {s : State} (h : CacheSound s) : CacheSound (receiveByte b s) := by
  unfold receiveByte
  split
  case h_8 => exact judgeFrame_cacheSound _ _ _ h
  all_goals
    refine h.of_cache ?_
    (repeat' split) <;> rfl

theorem byteArrives_cacheSound (b : Byte) {s : State} (h : CacheSound s) : CacheSound (byteArrives b s) :=
  receiveByte_cacheSound b (s := (lineHigh s).bitsWait) h

/-! ## The invariant through steps -/

/-- The rows, beside the requests, that may change the cache: a byte, a break, and the two of RST. -/
def movesCache : Instr → Bool
  | .lineBreak | .powerOnReset | .endOfPowerOnReset _ | .byteArrival _ => true
  | _ => false

theorem exec_cache {i : Instr} {s t : State} (hr : requestFrame i = none) (hi : movesCache i = false)
    (he : exec i s = .next t) : t.cache = s.cache := by
  cases i <;> simp only [requestFrame, reduceCtorEq] at hr <;> simp only [movesCache, Bool.true_eq_false] at hi <;>
    simp only [exec] at he
  case turnaround =>
    unfold execTurnaround at he
    split at he <;> (injection he with he; subst he; rfl)
  case completion =>
    unfold execCompletion at he
    split at he <;> (injection he with he; subst he; simp)
  all_goals
    injection he with he
    subst he
    (repeat' split) <;> simp

/-- Every command keeps the cache sound: a request may add a reply, and a break and RST empty it (R157, R173, R180). -/
theorem exec_cacheSound {i : Instr} {s t : State} (h : CacheSound s) (he : exec i s = .next t) : CacheSound t := by
  cases hr : requestFrame i with
  | some f =>
    obtain ⟨hd, kind, args⟩ := f
    rw [exec_requestFrame hr] at he
    injection he with he
    subst he
    exact acceptFrame_cacheSound _ _ _ _ (h.of_cache (by simp))
  | none =>
    cases hi : movesCache i with
    | false => exact h.of_cache (exec_cache hr hi he)
    | true =>
      cases i <;> simp only [movesCache, Bool.false_eq_true] at hi <;> (injection he with he; subst he)
      case lineBreak =>
        split
        · exact h
        · exact cacheSound_nil (linkReset_cache _)
      case powerOnReset => exact cacheSound_nil rfl
      case endOfPowerOnReset => exact cacheSound_nil rfl
      case byteArrival b =>
        split
        · exact h
        · exact byteArrives_cacheSound b h

/-- Of the events that a core period may bring, a break empties the cache and the last bit of a byte may bring a request. -/
theorem takeDue_cacheSound (d : Due) {s : State} (h : CacheSound s) : CacheSound (takeDue s d) := by
  cases d <;> simp only [takeDue]
  case lineBreak => exact cacheSound_nil (linkReset_cache s)
  case bitSample =>
    unfold sampleBit
    split
    · split
      · exact h
      · split
        · exact byteArrives_cacheSound _ h
        · exact h.of_cache (by simp)
    · exact h
    · exact h
  all_goals
    refine h.of_cache ?_
    (repeat' split) <;> simp

theorem corePeriod_cacheSound {s : State} (h : CacheSound s) : CacheSound (corePeriod s) := by
  unfold corePeriod
  split
  · exact h
  · exact runDue_keeps_property (fun _ _ hu => hu) (fun d _ hu _ => takeDue_cacheSound d hu) _ _ (h.of_cache (by simp))

/-- Settles O52: the cache changes by a new reply, which `remember_sound` takes, or is emptied; every command and every due event
does one of these or leaves it. -/
theorem cacheStaysSound : Obligations.CacheStaysSound := by
  intro s t hs he
  unfold step at he
  split at he
  · injection he with he
    subst he
    exact corePeriod_cacheSound hs
  · next rest _ => exact exec_cacheSound (s := s.withPending rest) hs he

/-! ## Retransmissions and the place of a new reply (R171 to R173) -/

/-- Settles O6: a sound cache finds the entry, which `acceptFrame_cached` hands over; what `remember` leaves goes by whether an
entry has the tag and whether the cache is full. -/
theorem replyCache : Obligations.ReplyCache := by
  refine ⟨fun s i hd kind args e hi hcast hl hs he htag hcheck => ?_,
    fun cache e hlength hnodup => ⟨fun hfresh hfull => ?_, fun hfresh hfree => ?_, fun before d after hsplit ht => ?_⟩⟩
  · obtain ⟨hlink, hcache, -⟩ := withRowPins_keeps i s
    have hfound : cachedReply (withRowPins i s).cache hd.tag
        (frameCheck (withRowPins i s).link.nodeAddress hd.tag kind args) = some e := by
      rw [hlink, hcache, ← hcheck, ← htag]
      exact cachedReply_of_mem hs.2 he
    rw [exec_requestFrame hi, hcast, acceptFrame_cached (listening_withRowPins.mpr hl) hfound, hlink]
  · rw [remember, withoutTag_of_fresh hfresh, makeRoom_full (Nat.le_of_eq hfull.symm)]
  · rw [remember, withoutTag_of_fresh hfresh, makeRoom_free hfree]
  · subst hsplit
    rw [remember, ← ht, withoutTag_split hnodup, makeRoom_free]
    rw [List.length_append, List.length_cons] at hlength
    rw [List.length_append]
    omega

/-! ## The commands that wait (log 5) -/

/-- Every command answers a next state, and leaves the commands behind it (R162, R166). -/
theorem exec_answers_next (i : Instr) (s : State) : ∃ t, exec i s = .next t ∧ t.pending = s.pending := by
  cases hr : requestFrame i with
  | some f =>
    obtain ⟨hd, kind, args⟩ := f
    exact ⟨_, exec_requestFrame hr s, by simp⟩
  | none =>
    cases i <;> simp only [requestFrame, reduceCtorEq] at hr <;> simp only [exec]
    case turnaround => unfold execTurnaround; split <;> exact ⟨_, rfl, rfl⟩
    case completion => unfold execCompletion; split <;> exact ⟨_, rfl, by simp⟩
    case powerOnReset => exact ⟨_, rfl, rfl⟩
    case endOfPowerOnReset => exact ⟨_, rfl, rfl⟩
    all_goals
      refine ⟨_, rfl, ?_⟩
      (repeat' split) <;> simp

/-- Settles O2: a step is a command, which answers next (`exec_answers_next`), or a core period. -/
theorem everyStepAnswersNextAndKeepsTheQueue : Obligations.EveryStepAnswersNextAndKeepsTheQueue := by
  refine ⟨fun s => ?_, fun c s t he => ?_, fun s t hp he => ?_⟩
  · unfold step
    split
    · exact ⟨_, rfl⟩
    · next c rest _ =>
      obtain ⟨t, ht, -⟩ := exec_answers_next c (s.withPending rest)
      exact ⟨t, ht⟩
  · obtain ⟨u, hu, hpending⟩ := exec_answers_next c s
    cases he.symm.trans hu
    exact hpending
  · simp only [step, hp] at he
    cases he
    rw [(corePeriod_keeps s).2, hp]

end Sys2Proof.Machine
end

section
/-!
PROOFS (09_requests_and_replies.md): the general checks of an addressed request, and which payloads of each kind do not read
(R165 to R167, R182, R184, R185).
-/

namespace Sys2Proof.Machine

/-! ## Fields that do not read (R184) -/

/-- A field with two codes. -/
def twoCodes {α : Type} (zero one : α) (b : Byte) : Option α :=
  match b.toNat with
  | 0 => some zero
  | 1 => some one
  | _ => none

theorem twoCodes_eq_none {α : Type} (zero one : α) {b : Byte} : twoCodes zero one b = none ↔ 1 < b.toNat := by
  unfold twoCodes
  split <;> simp_all
  omega

theorem readBool_eq_none {b : Byte} : readBool b = none ↔ 1 < b.toNat := twoCodes_eq_none false true
theorem readTb_eq_none {b : Byte} : readTb b = none ↔ 1 < b.toNat := twoCodes_eq_none Tb.a Tb.b
theorem readAlignment_eq_none {b : Byte} : readAlignment b = none ↔ 1 < b.toNat :=
  twoCodes_eq_none Alignment.edge Alignment.center
theorem readStartMode_eq_none {b : Byte} : readStartMode b = none ↔ 1 < b.toNat :=
  twoCodes_eq_none StartMode.now StartMode.atSync
theorem readStopMode_eq_none {b : Byte} : readStopMode b = none ↔ 1 < b.toNat :=
  twoCodes_eq_none StopKind.immediate StopKind.atBoundary
theorem readDisableMode_eq_none {b : Byte} : readDisableMode b = none ↔ 1 < b.toNat :=
  twoCodes_eq_none DisableMode.immediate DisableMode.graceful
theorem readSyncEdge_eq_none {b : Byte} : readSyncEdge b = none ↔ 1 < b.toNat :=
  twoCodes_eq_none SyncEdge.rising SyncEdge.falling
theorem readPairMode_eq_none {b : Byte} : readPairMode b = none ↔ 1 < b.toNat :=
  twoCodes_eq_none PairMode.independent PairMode.complementary
theorem readBoundaryKind_eq_none {b : Byte} : readBoundaryKind b = none ↔ 1 < b.toNat :=
  twoCodes_eq_none BoundaryKind.startOnly BoundaryKind.any
theorem readLevel_eq_none {b : Byte} : readLevel b = none ↔ 1 < b.toNat := twoCodes_eq_none Level.low Level.high
theorem readClearing_eq_none {b : Byte} : readClearing b = none ↔ 1 < b.toNat :=
  twoCodes_eq_none Clearing.auto Clearing.latched

theorem readSyncSource_eq_none {b : Byte} : readSyncSource b = none ↔ 2 < b.toNat := by
  unfold readSyncSource
  split <;> simp_all
  omega

theorem readAction_eq_none {b : Byte} : readAction b = none ↔ 2 < b.toNat := by
  unfold readAction
  split <;> simp_all
  omega

theorem readRate_eq_none {b : Byte} : readRate b = none ↔ 3 < b.toNat := by
  unfold readRate
  split <;> simp_all
  omega

theorem readPrescale_eq_none {b : Byte} : readPrescale b = none ↔ b.toNat ∉ [1, 2, 4, 8, 16, 32, 64, 128] := by
  refine ⟨fun h => ?_, readPrescale_none⟩
  unfold readPrescale at h
  split at h <;> simp_all

theorem readChan_eq_none {b : Byte} : readChan b = none ↔ 7 < b.toNat := List.getElem?_eq_none_iff
theorem readPairName_eq_none {b : Byte} : readPairName b = none ↔ 3 < b.toNat := List.getElem?_eq_none_iff
theorem readTripName_eq_none {b : Byte} : readTripName b = none ↔ 3 < b.toNat := List.getElem?_eq_none_iff
theorem readSlot_eq_none {b : Byte} : readSlot b = none ↔ 7 < b.toNat := List.getElem?_eq_none_iff

/-- A value in its range reads, and any other does not. -/
theorem ite_some_none_iff {α : Type} {p : Prop} [Decidable p] {a : α} : (if p then some a else none) = none ↔ ¬ p :=
  ite_some_eq_none.trans (and_iff_left rfl)

theorem readDeadtime_eq_none {high low : Byte} : readDeadtime high low = none ↔ 1023 < high.toNat * 256 + low.toNat := by
  rw [← toNat_word16, ← Nat.not_le]
  exact ite_some_none_iff

theorem readPairSet_eq_none {b : Byte} : readPairSet b = none ↔ 15 < b.toNat := ite_some_none_iff.trans Nat.not_lt

theorem readClassSet_eq_none {high low : Byte} : readClassSet high low = none ↔ 1 < high.toNat := by
  refine ite_some_none_iff.trans ?_
  rw [toNat_word16]
  omega

theorem readPeriod_eq_none {high low : Byte} : readPeriod high low = none ↔ high.toNat * 256 + low.toNat < 2 := by
  rw [← toNat_word16, ← Nat.not_le]
  exact ite_some_none_iff

/-! ## Several fields in a row -/

/-- Fields read one after the other do not read when one of them does not. -/
theorem bind_none_iff {α β : Type} {o : Option α} {f : α → Option β} {p q : Prop} (ho : o = none ↔ p)
    (hf : ∀ a, f a = none ↔ q) : o.bind f = none ↔ p ∨ q := by
  cases o with
  | none => simp [← ho]
  | some a => simp [← ho, ← hf a]

theorem bind_some_none_iff {α β : Type} {o : Option α} {f : α → β} {p : Prop} (ho : o = none ↔ p) :
    (o.bind fun a => some (f a)) = none ↔ p := by
  cases o <;> simp [← ho]

theorem map_none_iff {α β : Type} {o : Option α} {f : α → β} {p : Prop} (ho : o = none ↔ p) : o.map f = none ↔ p :=
  Option.map_eq_none_iff.trans ho

theorem readSettings_eq_none {rate turnaround gap : Byte} : readSettings rate turnaround gap = none ↔
    3 < rate.toNat ∨ turnaround.toNat < 1 ∨ 15 < turnaround.toNat ∨ gap.toNat < 2 ∨ 15 < gap.toNat :=
  bind_none_iff readRate_eq_none fun _ => ite_some_none_iff.trans (by omega)

theorem readTripConfig_eq_none {level high low qualify : Byte} : readTripConfig level high low qualify = none ↔
    1 < level.toNat ∨ high.toNat * 256 + low.toNat < 1 ∨ 256 < high.toNat * 256 + low.toNat ∨ qualify.toNat < 1
      ∨ 16 < qualify.toNat := by
  refine bind_none_iff readLevel_eq_none fun _ => ite_some_none_iff.trans ?_
  rw [toNat_word16]
  omega

theorem readChannelRecord_eq_none {p1 p2 q1 q2 invert mask : Byte} :
    readChannelRecord [p1, p2, q1, q2, invert, mask] = none ↔ 1 < invert.toNat ∨ 1 < mask.toNat :=
  bind_none_iff readBool_eq_none fun _ => bind_some_none_iff readBool_eq_none

theorem readPairRecord_eq_none {mode x e1 e2 o1 o2 : Byte} : readPairRecord [mode, x, e1, e2, o1, o2] = none ↔
    1 < mode.toNat ∨ 1 < x.toNat ∨ 1023 < e1.toNat * 256 + e2.toNat ∨ 1023 < o1.toNat * 256 + o2.toNat :=
  bind_none_iff readPairMode_eq_none fun _ => bind_none_iff readTb_eq_none fun _ =>
    bind_none_iff readDeadtime_eq_none fun _ => bind_some_none_iff readDeadtime_eq_none

theorem readTimebaseRecord_eq_none {p1 p2 alignment prescale restart : Byte} :
    readTimebaseRecord [p1, p2, alignment, prescale, restart] = none ↔
      p1.toNat * 256 + p2.toNat < 2 ∨ 1 < alignment.toNat ∨ prescale.toNat ∉ [1, 2, 4, 8, 16, 32, 64, 128]
        ∨ 1 < restart.toNat :=
  bind_none_iff readPeriod_eq_none fun _ => bind_none_iff readAlignment_eq_none fun _ =>
    bind_none_iff readPrescale_eq_none fun _ => bind_some_none_iff readBool_eq_none

theorem readCondition_eq_none {code k : Byte} : readCondition code k = none ↔
    2 < code.toNat ∨ (code.toNat = 1 ∧ k = 0) ∨ (code.toNat ≠ 1 ∧ k ≠ 0) := by
  unfold readCondition
  split <;> by_cases hk : k = 0 <;> simp_all
  omega

theorem readDeadline_eq_none {present deadline : Byte} : readDeadline present deadline = none ↔
    1 < present.toNat ∨ (present.toNat = 0 ∧ deadline ≠ 0) ∨ (present.toNat = 1 ∧ deadline = 0) := by
  unfold readDeadline
  split <;> by_cases hd : deadline = 0 <;> simp_all
  all_goals omega

theorem readTicket_eq_none {x channels pairs record condition k boundary present deadline : Byte} :
    readTicket [x, channels, pairs, record, condition, k, boundary, present, deadline] = none ↔
      1 < x.toNat ∨ 15 < pairs.toNat ∨ 1 < record.toNat ∨ 2 < condition.toNat
        ∨ (condition.toNat = 1 ∧ k = 0) ∨ (condition.toNat ≠ 1 ∧ k ≠ 0) ∨ 1 < boundary.toNat ∨ 1 < present.toNat
        ∨ (present.toNat = 0 ∧ deadline ≠ 0) ∨ (present.toNat = 1 ∧ deadline = 0) := by
  have hfields : readTicket [x, channels, pairs, record, condition, k, boundary, present, deadline] = none ↔ _ :=
    bind_none_iff readTb_eq_none fun _ => bind_none_iff readPairSet_eq_none fun _ => bind_none_iff readBool_eq_none fun _ =>
      bind_none_iff readCondition_eq_none fun _ => bind_none_iff readBoundaryKind_eq_none fun _ =>
        bind_some_none_iff readDeadline_eq_none
  simpa only [or_assoc] using hfields

theorem readCancel_eq_none {form operand : Byte} : readCancel form operand = none ↔
    1 < form.toNat ∨ (form.toNat = 0 ∧ operand = 0) ∨ (form.toNat = 1 ∧ 1 < operand.toNat) := by
  unfold readCancel
  split
  · next h => by_cases ho : operand = 0 <;> simp [h, ho]
  · next h => simp [h, readTb_eq_none]
  · next h0 h1 => exact iff_of_true rfl (.inl (Nat.one_lt_iff_ne_zero_and_ne_one.mpr ⟨h0, h1⟩))

theorem readOverride_eq_none {form target value : Byte} : readOverride form target value = none ↔
    1 < form.toNat ∨ (form.toNat = 0 ∧ (7 < target.toNat ∨ 2 < value.toNat))
      ∨ (form.toNat = 1 ∧ (3 < target.toNat ∨ value.toNat ∉ [0, 3, 4, 5])) := by
  unfold readOverride
  split
  · next h =>
    refine (bind_none_iff readChan_eq_none fun c => (?_ : _ ↔ 2 < value.toNat)).trans (by simp [h])
    split <;> simp_all
    omega
  · next h =>
    refine (bind_none_iff readPairName_eq_none fun p => (?_ : _ ↔ value.toNat ∉ [0, 3, 4, 5])).trans (by simp [h])
    split <;> simp_all
  · next h0 h1 => exact iff_of_true rfl (.inl (Nat.one_lt_iff_ne_zero_and_ne_one.mpr ⟨h0, h1⟩))

/-! ## The general checks (R165) -/

/-- The request kinds and the lengths of their payloads (R185). -/
def kindLengths : List (Byte × Nat) :=
  [ (0x01, 0), (0x02, 0), (0x03, 3), (0x04, 0), (0x11, 2), (0x12, 2), (0x13, 1), (0x14, 2), (0x20, 7), (0x21, 7)
  , (0x22, 6), (0x23, 1), (0x24, 1), (0x30, 9), (0x31, 2), (0x32, 0), (0x40, 3), (0x41, 0), (0x42, 1), (0x43, 0)
  , (0x50, 5), (0x51, 5), (0x52, 1), (0x53, 1), (0x54, 0), (0x55, 0), (0x60, 1), (0x61, 1), (0x62, 2) ]

/-- A code that is not in the catalogue names no request. -/
theorem requestLength_of_unlisted {kind : Byte} (h : kind ∉ kindLengths.map Prod.fst) : requestLength kind = none := by
  have hcode : kind.toNat ∉ kindLengths.map fun e => e.1.toNat := by
    intro hm
    obtain ⟨e, he, hk⟩ := List.mem_map.mp hm
    exact h (List.mem_map.mpr ⟨e, he, BitVec.eq_of_toNat_eq hk⟩)
  unfold requestLength
  split
  case h_30 => rfl
  all_goals
    next hk => exact absurd (hk ▸ by decide) hcode

theorem carryOut_unknownKind {kind : Byte} (args : List Byte) (s : State) (h : requestLength kind = none) :
    carryOut kind args s = refusedWith s .unknownKind := by
  simp [carryOut, h]

theorem carryOut_badLength {kind : Byte} {args : List Byte} {n : Nat} (s : State) (hn : requestLength kind = some n)
    (h : args.length ≠ n) : carryOut kind args s = refusedWith s .badLength := by
  simp [carryOut, hn, h]

theorem carryOut_badArgument {kind : Byte} {args : List Byte} {n : Nat} (s : State) (hn : requestLength kind = some n)
    (h : args.length = n) (hr : readRequest kind args = none) : carryOut kind args s = refusedWith s .badArgument := by
  simp [carryOut, hn, h, hr]

/-- A request that a check refuses, at whatever state, is answered with the status alone and changes nothing else (R165, R167). -/
theorem exec_refusedFrame {i : Instr} {h : Header} {kind : Byte} {args : List Byte} {s : State} {st : Status}
    (hi : requestFrame i = some (h, kind, args)) (hcast : h.cast = .addressed) (hl : Listening s)
    (hu : Unanswered s h.tag kind args) (hc : ∀ u, carryOut kind args u = refusedWith u st) :
    exec i s = .next (answered (withRowPins i s) (withRowPins i s) h.tag kind args [statusCode st] none) := by
  rw [exec_requestFrame hi, hcast, acceptFrame_addressed (listening_withRowPins.mpr hl) (unanswered_withRowPins.mpr hu), hc]
  exact congrArg _ (answered_afterLastByte _ _ _ _ _ _ _)

/-- Settles O5: the three checks of `carryOut` refuse alike at every state; for each kind its reader fails when one of its fields
does. -/
theorem generalChecksInOrder : Obligations.GeneralChecksInOrder := by
  refine ⟨fun s i h kind args hi hcast hl hu => ⟨fun hk => ?_, fun n hn hlen => ?_, fun n hn hlen hr => ?_⟩,
    ⟨by decide, fun kind => requestLength_of_unlisted⟩, by decide, fun rate turnaround gap => ?_,
    fun x mode => ⟨?_, ?_, ?_, ?_⟩, fun source edge => ?_, fun c p1 p2 q1 q2 invert mask => ?_, fun p mode x e1 e2 o1 o2 => ?_,
    fun x p1 p2 alignment prescale restart => ?_, fun c => ⟨?_, ?_, ?_, ?_⟩,
    fun x channels pairs record condition k boundary present deadline => map_none_iff readTicket_eq_none,
    fun form operand => readCancel_eq_none, fun form target value => map_none_iff readOverride_eq_none,
    fun input level high low qualify => ?_, fun slot input channels action clearing => ?_, fun n => ⟨?_, nofun⟩,
    fun high low => map_none_iff readClassSet_eq_none⟩
  · exact exec_refusedFrame hi hcast hl hu fun u => carryOut_unknownKind args u hk
  · exact exec_refusedFrame hi hcast hl hu fun u => carryOut_badLength u hn hlen
  · exact exec_refusedFrame hi hcast hl hu fun u => carryOut_badArgument u hn hlen hr
  · exact map_none_iff readSettings_eq_none
  · exact bind_none_iff readTb_eq_none fun _ => bind_some_none_iff readStartMode_eq_none
  · exact bind_none_iff readTb_eq_none fun _ => bind_some_none_iff readStopMode_eq_none
  · exact map_none_iff readTb_eq_none
  · exact map_none_iff readDisableMode_eq_none
  · exact bind_none_iff readSyncSource_eq_none fun _ => bind_some_none_iff readSyncEdge_eq_none
  · exact bind_none_iff readChan_eq_none fun _ => bind_some_none_iff readChannelRecord_eq_none
  · exact bind_none_iff readPairName_eq_none fun _ => bind_some_none_iff readPairRecord_eq_none
  · exact bind_none_iff readTb_eq_none fun _ => bind_some_none_iff readTimebaseRecord_eq_none
  · exact map_none_iff readChan_eq_none
  · exact map_none_iff readPairName_eq_none
  · exact map_none_iff readSlot_eq_none
  · exact map_none_iff readSlot_eq_none
  · exact bind_none_iff readTripName_eq_none fun _ => bind_some_none_iff readTripConfig_eq_none
  · exact bind_none_iff readSlot_eq_none fun _ => bind_none_iff readTripName_eq_none fun _ =>
      bind_none_iff readAction_eq_none fun _ => bind_some_none_iff readClearing_eq_none
  · exact ite_some_none_iff.trans (by omega)

end Sys2Proof.Machine
end

section
/-!
PROOFS (09_requests_and_replies.md): broadcasts that are carried out and those that are not (R168, R169).
-/

namespace Sys2Proof.Machine

/-! ## The kinds that a broadcast may carry (R168) -/

theorem broadcastAllowed_iff {kind : Byte} :
    broadcastAllowed kind = true ↔ kind = 0x11 ∨ kind = 0x12 ∨ kind = 0x30 ∨ kind = 0x42 := by
  simp [broadcastAllowed, or_assoc]

/-- READ TRIPS alone brings pin levels, and no broadcast may carry it (R168, log 18). -/
theorem withRowPins_of_allowed {i : Instr} {h : Header} {kind : Byte} {args : List Byte}
    (hi : requestFrame i = some (h, kind, args)) (ha : broadcastAllowed kind = true) (s : State) : withRowPins i s = s := by
  cases i
  case readTrips =>
    cases hi
    exact absurd ha (by decide)
  all_goals rfl

/-- A broadcast frame of one of the four kinds: carried out, or reported as refused (R168). -/
theorem exec_allowedBroadcast {i : Instr} {h : Header} {kind : Byte} {args : List Byte} {s : State}
    (hi : requestFrame i = some (h, kind, args)) (hcast : h.cast = .broadcast) (hl : Listening s)
    (ha : broadcastAllowed kind = true) :
    exec i s = .next
      (if (carryOut kind args (afterLastByte s)).status = .ok then heard s (carryOut kind args (afterLastByte s)).state
       else heard s (s.post [linkEvent .broadcastRefused])) := by
  obtain ⟨cast, tag⟩ := h
  cases hcast
  exact exec_broadcast (tag := tag) hi hl ha (withRowPins_of_allowed hi ha s)

section
variable {i : Instr} {h : Header} {kind : Byte} {args : List Byte} {s : State}
  (hi : requestFrame i = some (h, kind, args)) (hcast : h.cast = .broadcast) (hl : Listening s)
  (ha : broadcastAllowed kind = true)
include hi hcast hl ha

theorem exec_broadcastRefused (hst : (carryOut kind args (afterLastByte s)).status ≠ .ok) :
    exec i s = .next (heard s (s.post [linkEvent .broadcastRefused])) := by
  rw [exec_allowedBroadcast hi hcast hl ha, if_neg hst]

theorem exec_broadcastAccepted {a : Answer} (hc : carryOut kind args (afterLastByte s) = a) (hst : a.status = .ok) :
    exec i s = .next (heard s a.state) := by
  rw [exec_allowedBroadcast hi hcast hl ha, hc, if_pos hst]

/-- A broadcast whose owner answers OK and leaves the state is only heard. -/
theorem exec_broadcastUnchanged {content : List Byte}
    (hc : carryOut kind args (afterLastByte s) = accepted (afterLastByte s) content) : exec i s = .next (heard s s) := by
  rw [exec_broadcastAccepted hi hcast hl ha hc rfl]
  exact congrArg _ (heard_afterLastByte s s)

end

/-! ## Broadcasts that are not carried out (R168, R169) -/

/-- A broadcast of another kind is discarded with its LINK event, and READ TRIPS leaves the pin levels that it brings (R169). -/
theorem exec_forbiddenBroadcast {i : Instr} {h : Header} {kind : Byte} {args : List Byte} {s : State}
    (hi : requestFrame i = some (h, kind, args)) (hcast : h.cast = .broadcast) (hl : Listening s)
    (hk : broadcastAllowed kind = false) :
    exec i s = .next
      { heard s (s.post [linkEvent .broadcastKind]) with pins := { (withRowPins i s).pins with line := .high } } := by
  rw [exec_requestFrame hi, hcast, acceptFrame_broadcast (listening_withRowPins.mpr hl), hk, if_neg Bool.false_ne_true]
  refine congrArg _ (State.eq_of_fields ?_)
  simp [heard, State.post]

/-- A payload of a wrong length, or one with a field out of range, draws no OK (R165). -/
theorem carryOut_status_of_unread {kind : Byte} {args : List Byte} (s : State)
    (h : requestLength kind ≠ some args.length ∨ readRequest kind args = none) : (carryOut kind args s).status ≠ .ok := by
  cases hn : requestLength kind with
  | none =>
    rw [carryOut_unknownKind args s hn]
    exact nofun
  | some n =>
    by_cases hlen : args.length = n
    · have hr := h.resolve_left fun hne => hne (hn.trans (congrArg some hlen.symm))
      rw [carryOut_badArgument s hn hlen hr]
      exact nofun
    · rw [carryOut_badLength s hn hlen]
      exact nofun

theorem carryOut_startTimebase {mode : Byte} {m : StartMode} (x : Tb) (s : State) (hm : readStartMode mode = some m) :
    carryOut 0x11 [tbByte x, mode] s = doStartTimebase x m s :=
  carryOut_of_read (r := .startTimebase x m) rfl (by rw [readRequest_startTimebase, readTb_tbByte, hm]; rfl)

theorem carryOut_stopTimebase {mode : Byte} {m : StopKind} (x : Tb) (s : State) (hm : readStopMode mode = some m) :
    carryOut 0x12 [tbByte x, mode] s = doStopTimebase x m s :=
  carryOut_of_read (r := .stopTimebase x m) rfl (by rw [readRequest_stopTimebase, readTb_tbByte, hm]; rfl)

theorem carryOut_issueTicket {t : TicketRequest} {args : List Byte} (s : State) (ht : SpellsTicket t args)
    (hf : TicketFieldsSound t) : carryOut 0x30 args s = doIssueTicket t s :=
  carryOut_of_read (r := .issueTicket t) (by rw [length_spelling ht]; rfl)
    (by rw [readRequest_issueTicket, readTicket_spelling ht hf]; rfl)

theorem spelling_ticketBytes {t : TicketRequest} {args : List Byte} (h : SpellsTicket t args) :
    ∃ code k, args = ticketBytes t code k := by
  unfold SpellsTicket at h
  split at h
  · rcases h with h | ⟨-, h⟩ <;> exact ⟨_, _, h⟩
  · exact ⟨_, _, h⟩

/-- Bytes that spell a k of 0 or a deadline of 0 do not read (R184). -/
theorem readTicket_unsound {t : TicketRequest} {args : List Byte} (ht : SpellsTicket t args) (hf : ¬ TicketFieldsSound t) :
    readTicket args = none := by
  by_cases hd : t.deadline = some 0
  · obtain ⟨code, k, rfl⟩ := spelling_ticketBytes ht
    exact readTicket_eq_none.mpr (by simp [hd, boolByte])
  · have hk : t.condition = .after 0 := Classical.byContradiction fun hk => hf ⟨hk, hd⟩
    rw [SpellsTicket, hk] at ht
    obtain rfl : args = ticketBytes t 1 0 := ht.resolve_right fun h => absurd h.1 (by decide)
    exact readTicket_eq_none.mpr (by simp)

theorem ticketRefusal_ne_ok {s : State} {t : TicketRequest} {st : Status} (h : ticketRefusal s t = some st) : st ≠ .ok := by
  unfold ticketRefusal at h
  (repeat' split at h) <;> cases h <;> exact nofun

/-- A ticket request with a field out of range, or one that its owner refuses, draws no OK (R44, R165). -/
theorem carryOut_status_of_refusedTicket {t : TicketRequest} {args : List Byte} {s : State} (ht : SpellsTicket t args)
    (hr : ticketRefusal s t ≠ none) : (carryOut 0x30 args (afterLastByte s)).status ≠ .ok := by
  by_cases hf : TicketFieldsSound t
  · obtain ⟨st, hst⟩ := Option.ne_none_iff_exists'.mp hr
    rw [carryOut_issueTicket _ ht hf, doIssueTicket_refused (s := afterLastByte s) hst]
    exact ticketRefusal_ne_ok hst
  · refine carryOut_status_of_unread _ (.inr ?_)
    rw [readRequest_issueTicket, readTicket_unsound ht hf]
    rfl

/-- Settles O7: the kind is judged first; of the four kinds a broadcast that draws no OK posts BROADCAST_REFUSED alone. -/
theorem broadcastsNotCarriedOut : Obligations.BroadcastsNotCarriedOut := by
  refine ⟨fun s i h kind args hi hcast hl h1 h2 h3 h4 => ?_, fun s tag hl => ⟨fun i h kind args hi hcast hk hbad => ?_,
    fun x mode hrun hmode => ?_, fun t args ht hr => ?_⟩⟩
  · have hk : broadcastAllowed kind = false := by
      rw [← Bool.not_eq_true, broadcastAllowed_iff]
      exact not_or.mpr ⟨h1, not_or.mpr ⟨h2, not_or.mpr ⟨h3, h4⟩⟩⟩
    exact exec_forbiddenBroadcast hi hcast hl hk
  · exact exec_broadcastRefused hi hcast hl (broadcastAllowed_iff.mpr hk) (carryOut_status_of_unread _ hbad)
  · obtain ⟨m, hm⟩ : ∃ m, readStartMode mode = some m := by
      rcases hmode with rfl | rfl <;> exact ⟨_, rfl⟩
    refine exec_broadcastRefused rfl rfl hl rfl ?_
    rw [carryOut_startTimebase x _ hm, doStartTimebase_running (s := afterLastByte s) m hrun]
    exact nofun
  · exact exec_broadcastRefused rfl rfl hl rfl (carryOut_status_of_refusedTicket ht hr)

/-! ## Broadcasts that are carried out (R168) -/

/-- The status of a reply stands in its sixth byte, behind the header (R147, R167). -/
theorem frameBytes_status (start node tag kind status : Byte) (content : List Byte) :
    (frameBytes start node tag kind (status :: content))[5]? = some status := rfl

theorem statusCode_eq_zero_iff {st : Status} : statusCode st = 0x00 ↔ st = .ok := by cases st <;> decide

/-- Where the addressed request draws OK, its broadcast leaves the same state but for the link and the cache (R168). -/
theorem exec_broadcast_of_addressed {i j : Instr} {tag kind : Byte} {args : List Byte} {s t : State} {r : Reply}
    (hi : requestFrame i = some (addressedTo tag, kind, args)) (hj : requestFrame j = some (broadcastWith tag, kind, args))
    (hl : Listening s) (ha : broadcastAllowed kind = true) (hu : Unanswered s tag kind args) (he : exec i s = .next t)
    (hr : replyHeld t.link.transmitter = some r) (hok : r.frame[5]? = some 0x00) :
    exec j s = .next { t with link := heardLink s.link, cache := s.cache } := by
  rw [exec_requestFrame hi, withRowPins_of_allowed hi ha, addressedTo, acceptFrame_addressed hl hu] at he
  cases he
  cases hr
  have hst := statusCode_eq_zero_iff.mp (Option.some.inj ((frameBytes_status _ _ _ _ _ _).symm.trans hok))
  exact exec_broadcastAccepted hj rfl hl ha rfl hst

/-- Settles O8: each row is its owner's answer, which is OK; and an addressed request that draws OK and its broadcast are carried
out alike. -/
theorem broadcastsAreCarriedOut : Obligations.BroadcastsAreCarriedOut := by
  intro s tag hl
  refine ⟨fun x hx => ?_, fun x hx => ?_, fun x hx => ?_, fun t args ht hf hr => ?_, ?_, fun hoff => ?_,
    fun i j kind args hi hj hk hu t r he hr hok =>
      exec_broadcast_of_addressed hi hj hl (broadcastAllowed_iff.mpr hk) hu he hr hok⟩
  · rw [exec_broadcastAccepted rfl rfl hl rfl ((carryOut_startTimebase x _ rfl).trans
      (doStartTimebase_atSync_stopped (s := afterLastByte s) hx)) rfl]
    exact congrArg _ (heard_congr (by simp [accepted]))
  · rw [exec_broadcastAccepted rfl rfl hl rfl ((carryOut_stopTimebase (m := .atBoundary) x _ rfl).trans
      ((stopAtBoundary_cases x (afterLastByte s)).1 hx)) rfl]
    exact congrArg _ (heard_congr (by simp [accepted]))
  · exact exec_broadcastUnchanged rfl rfl hl rfl ((carryOut_stopTimebase (m := .immediate) x _ rfl).trans (if_pos hx))
  · rw [exec_broadcastAccepted rfl rfl hl rfl ((carryOut_issueTicket _ ht hf).trans
      (doIssueTicket_accepted (s := afterLastByte s) hr)) rfl]
    exact congrArg _ (heard_congr (by simp [accepted]))
  · rw [exec_broadcastAccepted rfl rfl hl rfl (carryOut_of_read (r := .disableOutputs .immediate) rfl rfl) rfl]
    exact congrArg _ (heard_congr ⟨rfl, rfl, rfl, rfl, rfl, rfl, rfl, rfl, rfl, rfl⟩)
  · have hread : carryOut 0x42 [1] (afterLastByte s) = disableGraceful (afterLastByte s) :=
      carryOut_of_read (r := .disableOutputs .graceful) rfl rfl
    rcases hoff with hoff | hoff
    · exact exec_broadcastUnchanged rfl rfl hl rfl (hread.trans (disableGraceful_disabled (s := afterLastByte s) hoff))
    · exact exec_broadcastUnchanged rfl rfl hl rfl (hread.trans (disableGraceful_draining (s := afterLastByte s) hoff))

end Sys2Proof.Machine
end

section
/-!
PROOFS (09_requests_and_replies.md): IDENTIFY and READ STATUS, and the soundness of State.reset (R174, R175, R180).
-/

namespace Sys2Proof.Machine

/-! ## IDENTIFY and READ STATUS (R174, R175) -/

theorem exec_identify {s : State} {tag : Byte} (hl : Listening s) (hu : Unanswered s tag 0x01 []) :
    exec (.identify (addressedTo tag) []) s = .next (answered s s tag 0x01 [] (0x00 :: (doIdentify s).content) none) :=
  exec_reads rfl hl hu rfl readRequest_identify rfl rfl

theorem exec_readStatus {s : State} {tag : Byte} (hl : Listening s) (hu : Unanswered s tag 0x02 []) :
    exec (.readStatus (addressedTo tag) []) s
      = .next (answered s s tag 0x02 [] (0x00 :: (doReadStatus s).content) none) :=
  exec_reads rfl hl hu rfl readRequest_readStatus rfl rfl

/-- Settles O9: each row is its owner's answer, which holds the values and leaves the state. -/
theorem identifyAndStatusReplies : Obligations.IdentifyAndStatusReplies :=
  fun _ _ hl => ⟨exec_identify hl, exec_readStatus hl⟩

/-! ## State.reset (R180, log 10) -/

/-- State.reset is the part at the end of a power-on reset with the contacts that it takes (R180, log 10). -/
theorem poweredOn_reset : poweredOn assumedContacts State.reset = State.reset := rfl

/-- What every operation of the blocks keeps, and so a power-on reset brings about, holds of State.reset. -/
theorem BlocksKeep.reset {P : State → Prop} (h : BlocksKeep P) : P State.reset :=
  poweredOn_reset ▸ h.poweredOn assumedContacts State.reset

theorem linkSound_reset : LinkSound State.reset := linkSound_iff.mpr (linkAtPowerOn_linkHolds assumedContacts)

/-- Settles O51: State.reset is a part at the end of a power-on reset, which leaves every block sound. -/
theorem resetStateIsSound : Obligations.ResetStateIsSound :=
  ⟨cacheSound_nil rfl, noticesSound_kept.reset, commitSound_kept.reset, timebasesSound_kept.reset, tripSound_kept.reset,
    linkSound_reset, outputsSound_kept.reset, levelsHold_kept.reset.2⟩

end Sys2Proof.Machine
end

section
/-!
PROOFS (98_reader.md): the step on a queue that holds a command (log 5, 24).
-/

namespace Sys2Proof.Machine

/-- The companion of `step_in_reset` and `step_nothing_due`, which speak of an empty queue: no core period passes while a
command waits (log 5). -/
theorem step_waiting {s : State} {c : Instr} {rest : List Instr} (hp : s.pending = c :: rest) :
    step s = exec c (s.withPending rest) := by
  simp only [step, hp]

/-- Settles O1: the step on a queue with a command at its front (`step_waiting`). -/
theorem stepRunsFrontCommand : Obligations.StepRunsFrontCommand :=
  fun _ _ _ hp => step_waiting hp

end Sys2Proof.Machine
end
